-- ==== Sys2Proof/Word.lean ====
section
/-! DEFINITION. The word types of the block (R11, R12) and the shape of a sparse table. -/

namespace Sys2Proof

/-- A 32-bit register value of a domain window (R11). -/
abbrev Word := BitVec 32

/-- A 64-bit value: the bus data path and every interrupt-file register (R11, R12). -/
abbrev DWord := BitVec 64

/-- A 64-bit byte address of the bus address space (R80). -/
abbrev Addr := BitVec 64

/-- One bit per source number; bit 0 stands for the reserved number 0 (R30, R129). -/
abbrev SrcBits := BitVec 1024

/-- One bit per interrupt identity `0..2047` (R51, R52). -/
abbrev IdBits := BitVec 2048

/-- An interrupt identity (R11). -/
abbrev Ident := BitVec 11

/-- The index `k` of a bitmap word, `0..31` (R127, R141). -/
abbrev Bank := BitVec 5

/-- Entries by number.  A number without an entry holds the table's default value; the
operations are in `Machine/Ops.lean`. -/
abbrev Tbl (α : Type) := List (Nat × α)

end Sys2Proof
end

