-- ==== Sys2Proof/Config.lean ====
section
/-! DEFINITION. The implementation parameters of R10 and the free values of the spec.
The parameters are a record that `State` carries unchanged (log entry 1), so every statement over
all states is a statement over all parameter values. -/

namespace Sys2Proof

/-- The two domains: machine, and supervisor/guest (R14). -/
inductive Dom where
  | M
  | S
deriving DecidableEq, Repr

/-- `DM_KIND[d]`: the delivery-mode bit is writable, fixed to MSI or fixed to direct (R10, R35). -/
inductive DmKind where
  | rw
  | fixedMsi
  | fixedDirect
deriving DecidableEq, Repr

/-- `GENMSI_KIND` (R10). -/
inductive GenmsiKind where
  | modelled
  | refused
deriving DecidableEq, Repr

/-- `SAME_TICK_ORDER` (R10, R97, D27): the order in which the indirect access, the claim and the MSI of
one tick reach an interrupt file.  The spec takes `accessClaimMsi`. -/
inductive SameTickOrder where
  | accessClaimMsi
  | accessMsiClaim
  | claimAccessMsi
  | claimMsiAccess
  | msiAccessClaim
  | msiClaimAccess
deriving DecidableEq, Repr

/-- `N_ID`, the highest interrupt identity (R10). -/
def nId : Nat := 2047

/-- `DOMAIN_WINDOW`, the bytes of a domain window (R10). -/
def domainWindow : Nat := 0x4000

/-- The bytes of an interrupt-file page (R10, R81). -/
def filePage : Nat := 0x1000

/-- What the platform fixes for one hart: the bases of its machine-level and supervisor-level
interrupt-file pages and the two values of `HartFileOffset` (R10). -/
structure HartCfg where
  /-- `MFILE_BASE[h]` -/
  mfileBase : Addr
  /-- `SFILE_BASE[h]` -/
  sfileBase : Addr
  /-- `HartFileOffset(M, h)` -/
  offM : Addr
  /-- `HartFileOffset(S, h)` -/
  offS : Addr
deriving DecidableEq, Repr

/-- The parameters of R10 that the spec leaves open. -/
structure Config where
  /-- `N_SRC`, the highest source number, at most 1023. -/
  nSrc : BitVec 10
  /-- `GEILEN`, the number of guest files of each hart, at most 63. -/
  geilen : BitVec 6
  /-- One entry per hart; their number is `N_HART`. -/
  harts : List HartCfg
  /-- `BASE[M]` -/
  baseM : Addr
  /-- `BASE[S]` -/
  baseS : Addr
  /-- `TIMEOUT_CYCLES` -/
  timeout : Nat
  /-- `DM_KIND[M]` -/
  dmKindM : DmKind
  /-- `DM_KIND[S]` -/
  dmKindS : DmKind
  /-- `DOMAINCFG_TAG` -/
  tag : Word
  /-- `GENMSI_KIND` -/
  genmsi : GenmsiKind
  /-- `GUEST_INDEX_WIDTH`, used only by the boot requirement R416. -/
  guestIndexWidth : Nat
  /-- `BE_SWAPS_DATA`: whether the `be` bit changes the byte order of register data (R85, D16). -/
  beSwapsData : Bool
  /-- `SAME_TICK_ORDER` -/
  sameTickOrder : SameTickOrder
  /-- Whether a port of the block may accept an MSI exactly `TIMEOUT_CYCLES` ticks after its issue, as
  R178, D39 and R304 let it and R426 does not (DESIGN CHOICE, log entry 20). -/
  msiOnLastTick : Bool
deriving DecidableEq, Repr

/-- `N_HART` (R10). -/
def Config.nHart (c : Config) : Nat := c.harts.length

/-- `DM_KIND[d]` (R10). -/
def Config.dmKind (c : Config) : Dom → DmKind
  | .M => c.dmKindM
  | .S => c.dmKindS

/-- `BASE[d]` (R10). -/
def Config.base (c : Config) : Dom → Addr
  | .M => c.baseM
  | .S => c.baseS

/-- The configuration `TC` of `95_test_vectors.md` §0.  DESIGN CHOICE (log entry 1): the spec calls
it one admissible value of the parameters, chosen for testing only; `State.reset` carries it. -/
def Config.tc : Config where
  nSrc := 63#10
  geilen := 3#6
  harts := [
    { mfileBase := 0x24000000#64, sfileBase := 0x28000000#64, offM := 0x0000#64, offS := 0x0000#64 },
    { mfileBase := 0x24001000#64, sfileBase := 0x28004000#64, offM := 0x1000#64, offS := 0x4000#64 }]
  baseM := 0x0C000000#64
  baseS := 0x0D000000#64
  timeout := 8
  dmKindM := .rw
  dmKindS := .rw
  tag := 0x80000000#32
  genmsi := .modelled
  guestIndexWidth := 2
  beSwapsData := false
  sameTickOrder := .accessClaimMsi
  msiOnLastTick := true

/-- FREE VALUE (log entry 5).  Which of several due MSIs a domain issues next is open, but none may be
passed over for ever (R294, U3): the `k`-th cause that joins a domain's waiting ones waits for this many
issues before it comes first. -/
opaque Config.issueWait : Nat → Nat

/-- FREE VALUE (log entry 6).  `HartFileOffset(level, h)` for a hart index at or above `N_HART`,
which no register of a run from reset can hold: the spec states no value (R10, R297). -/
opaque Config.hartOffsetBeyond : Dom → Nat → Addr

/-- FREE VALUE (log entry 14).  The register value that a big-endian domain takes for a written word, and
the word it answers for a register, where `BE_SWAPS_DATA` is true: "no rule of this spec defines the
swapped behaviour" (R85). -/
opaque Config.swappedRegister : Word → Word

/-- FREE VALUE (log entry 14).  The data word of an MSI that a big-endian domain composes for an
identity, where `BE_SWAPS_DATA` is true (R85). -/
opaque Config.swappedMsi : Ident → Word

end Sys2Proof
end

