-- ==== Sys2Proof/Syntax.lean ====
section
/-! DEFINITION. The requests the block decodes (R120 to R145) and `Instr`, one constructor per row of
`spec/opcode_table.json`. -/

namespace Sys2Proof

/-- The interrupt files of one hart: machine, supervisor, guest `g` (R48, R320). -/
inductive FileId where
  | M
  | S
  | G (g : BitVec 6)
deriving DecidableEq, Repr

/-- A slave port of the block: a domain window, or the page of file `f` of hart `h` (R61, R81). -/
inductive Port where
  | window (d : Dom)
  | page (h : Nat) (f : FileId)
deriving DecidableEq, Repr

/-- A Bus Transactor (R56, R170): the one in front of a slave port, or the one a domain's delivery
engine owns for its MSI writes. -/
inductive TxId where
  | ext (p : Port)
  | msi (d : Dom)
deriving DecidableEq, Repr

/-- The context of an indirect access or a claim (R142). -/
structure Ctx where
  /-- privilege: 3 machine, 1 supervisor, 0 user, 2 reserved -/
  priv : BitVec 2
  /-- the virtual flag -/
  virt : Bool
  /-- the guest index -/
  guest : BitVec 6
deriving DecidableEq, Repr

/-- The operation codes 1, 2, 3 of the indirect interface (R140). -/
inductive CsrOp where
  | write
  | set
  | clear
deriving DecidableEq, Repr

/-- A register of an interrupt file (R141). -/
inductive IReg where
  | eidelivery
  | eithreshold
  | eip (k : Bank)
  | eie (k : Bank)
deriving DecidableEq, Repr

/-- `BUS_A`, a bus request (R121).  `size` is the base-2 logarithm of the number of bytes; the spec
gives the field no width. -/
structure BusA where
  opcode : BitVec 3
  size : Nat
  address : Addr
  mask : BitVec 8
  data : DWord
deriving DecidableEq, Repr

/-- `BUS_D`, a bus response (R122). -/
structure BusD where
  opcode : BitVec 3
  data : DWord
deriving DecidableEq, Repr

/-- `CSR`, an indirect request of a hart's CSR unit (R139); the selector is taken as 12 bits (R120). -/
structure CsrReq where
  hart : Nat
  iselect : BitVec 12
  ctx : Ctx
  op : BitVec 2
  wdata : DWord
deriving DecidableEq, Repr

/-- `CLAIM`, a claim request of a hart's CSR unit (R145). -/
structure ClaimReq where
  hart : Nat
  ctx : Ctx
deriving DecidableEq, Repr

/-- What an agent outside the block presents at one tick (R9, R61). -/
inductive Req where
  /-- a master calls `get` or `put` of the transactor in front of a slave port (R170) -/
  | call (r : BusA)
  /-- an indirect access at a hart's CSR port (R321) -/
  | csr (r : CsrReq)
  /-- a claim at a hart's claim port (R321) -/
  | claim (r : ClaimReq)
deriving DecidableEq, Repr

/-- What the decoder is given: a request of an agent (formats `BUS_A`, `CSR`, `CLAIM`), a request at
the slave port that accepts it (formats `DOM`, `PAGE`), or a response at the transactor it answers
(format `BUS_D`) (R120). -/
inductive Msg where
  | agent (r : Req)
  | slave (r : BusA)
  | response (x : TxId) (r : BusD)
deriving DecidableEq, Repr

/-- The six legal source modes (R41, R132). -/
inductive Mode where
  | inactive
  | detached
  | edgeRising
  | edgeFalling
  | levelHigh
  | levelLow
deriving DecidableEq, Repr

/-- One constructor per row of the opcode table.  `d` is the addressed domain, `s` a source number,
`k` a bitmap word, `off` a window offset, `w` the 32-bit value of the enabled lanes, `h` a hart, `f`
one of its files, `poff` a page offset, `sel` a selector, `c` a context, `v` the 64-bit write data. -/
inductive Instr where
  -- the two bus operations, at the master side (R171, R172)
  | get32 (a : Addr)
  | put32 (a : Addr) (w : Word)
  -- the two responses, at the transactor that takes them (R175, R179)
  | accessAck (x : TxId)
  | accessAckData (x : TxId) (data : DWord)
  -- an accepted request to a domain window (R200)
  | getDomaincfg (d : Dom)
  | putDomaincfg (d : Dom) (w : Word)
  | getMmsiaddrcfg (d : Dom)
  | putMmsiaddrcfg (d : Dom) (w : Word)
  | getMmsiaddrcfgh (d : Dom)
  | putMmsiaddrcfgh (d : Dom) (w : Word)
  | getSmsiaddrcfg (d : Dom)
  | putSmsiaddrcfg (d : Dom) (w : Word)
  | getSmsiaddrcfgh (d : Dom)
  | putSmsiaddrcfgh (d : Dom) (w : Word)
  | getSetipnum (d : Dom)
  | putSetipnum (d : Dom) (w : Word)
  | getClripnum (d : Dom)
  | putClripnum (d : Dom) (w : Word)
  | getSetienum (d : Dom)
  | putSetienum (d : Dom) (w : Word)
  | getClrienum (d : Dom)
  | putClrienum (d : Dom) (w : Word)
  | getSetipnumLe (d : Dom)
  | putSetipnumLe (d : Dom) (w : Word)
  | getSetipnumBe (d : Dom)
  | putSetipnumBe (d : Dom) (w : Word)
  | getGenmsi (d : Dom)
  | putGenmsi (d : Dom) (w : Word)
  | getSourcecfg (d : Dom) (s : BitVec 10)
  | putSourcecfg (d : Dom) (s : BitVec 10) (w : Word)
  | getSetip (d : Dom) (k : Bank)
  | putSetip (d : Dom) (k : Bank) (w : Word)
  | getInClrip (d : Dom) (k : Bank)
  | putInClrip (d : Dom) (k : Bank) (w : Word)
  | getSetie (d : Dom) (k : Bank)
  | putSetie (d : Dom) (k : Bank) (w : Word)
  | getClrie (d : Dom) (k : Bank)
  | putClrie (d : Dom) (k : Bank) (w : Word)
  | getTargets (d : Dom) (s : BitVec 10)
  | putTargets (d : Dom) (s : BitVec 10) (w : Word)
  | getRozero (d : Dom) (off : BitVec 14)
  | putRozero (d : Dom) (off : BitVec 14) (w : Word)
  | getReserved (d : Dom) (off : BitVec 14)
  | putReserved (d : Dom) (off : BitVec 14) (w : Word)
  -- an accepted request to an interrupt-file page (R138)
  | putSeteipnum (h : Nat) (f : FileId) (w : Word)
  | getPage (h : Nat) (f : FileId) (poff : BitVec 12)
  | putPage (h : Nat) (f : FileId) (poff : BitVec 12) (w : Word)
  -- an indirect access (R324)
  | csrxIllegalOp (h : Nat) (sel : BitVec 12) (c : Ctx) (v : DWord)
  | csrIllegalContext (h : Nat) (sel : BitVec 12) (c : Ctx) (op : CsrOp) (v : DWord)
  | csrwEidelivery (h : Nat) (c : Ctx) (v : DWord)
  | csrsEidelivery (h : Nat) (c : Ctx) (v : DWord)
  | csrcEidelivery (h : Nat) (c : Ctx) (v : DWord)
  | csrwEithreshold (h : Nat) (c : Ctx) (v : DWord)
  | csrsEithreshold (h : Nat) (c : Ctx) (v : DWord)
  | csrcEithreshold (h : Nat) (c : Ctx) (v : DWord)
  | csrwEip (h : Nat) (c : Ctx) (k : Bank) (v : DWord)
  | csrsEip (h : Nat) (c : Ctx) (k : Bank) (v : DWord)
  | csrcEip (h : Nat) (c : Ctx) (k : Bank) (v : DWord)
  | csrwEie (h : Nat) (c : Ctx) (k : Bank) (v : DWord)
  | csrsEie (h : Nat) (c : Ctx) (k : Bank) (v : DWord)
  | csrcEie (h : Nat) (c : Ctx) (k : Bank) (v : DWord)
  | csrIllegalSelector (h : Nat) (sel : BitVec 12) (c : Ctx) (op : CsrOp) (v : DWord)
  -- a claim (R345)
  | claim (h : Nat) (c : Ctx)
deriving DecidableEq, Repr

end Sys2Proof
end

