-- ==== Sys2Proof/Machine/Operands.lean ====
section
/-! DEFINITION. The operand forms of every request: data lanes (R84, R123), the address map (R81, R126,
R138), contexts and selectors (R141, R142), the write masks and normalising functions of every
register (R373).  Nothing here reads the state. -/

namespace Sys2Proof

/-! ### Bits -/

/-- `v` with bit `n` made `b`; no effect when `n` is beyond the width. -/
def setBit {w : Nat} (v : BitVec w) (n : Nat) (b : Bool) : BitVec w :=
  if b then v ||| (1#w <<< n) else v &&& ~~~(1#w <<< n)

/-- The 64-bit word `k` of an identity bitmap: bit `j` is identity `64k + j` (R143). -/
def getBank (v : IdBits) (k : Bank) : DWord := v.extractLsb' (64 * k.toNat) 64

/-- The bitmap with word `k` replaced by `x`. -/
def setBank (v : IdBits) (k : Bank) (x : DWord) : IdBits :=
  (v &&& ~~~((BitVec.allOnes 64).setWidth 2048 <<< (64 * k.toNat))) |||
    (x.setWidth 2048 <<< (64 * k.toNat))

/-- The lowest number below `n` that `p` holds of. -/
def lowest (n : Nat) (p : Nat → Bool) : Option Nat := (List.range n).find? p

/-! ### Bus requests -/

/-- `PutFullData` (R124). -/
def opPut : BitVec 3 := 0#3
/-- `Get` (R124). -/
def opGet : BitVec 3 := 4#3
/-- `AccessAck` (R124). -/
def opAck : BitVec 3 := 0#3
/-- `AccessAckData` (R124). -/
def opAckData : BitVec 3 := 1#3

/-- The lane mask of a 32-bit access: the half of the lane group that `address[2]` names (R123). -/
def laneMask (a : Addr) : BitVec 8 := if a.getLsbD 2 then 0xF0#8 else 0x0F#8

/-- A 32-bit value in the lanes of its address, zero elsewhere (R123, R179). -/
def toLanes (a : Addr) (w : Word) : DWord :=
  if a.getLsbD 2 then w.setWidth 64 <<< 32 else w.setWidth 64

/-- The 32-bit value in the lanes of an address (R123). -/
def fromLanes (a : Addr) (data : DWord) : Word :=
  if a.getLsbD 2 then (data >>> 32).setWidth 32 else data.setWidth 32

/-- The only shape of a bus access with a meaning: 4 bytes, aligned, the lane mask of the address
(R88, R125, R182). -/
def BusA.legalShape (r : BusA) : Bool :=
  r.size == 2 && r.address.setWidth 2 == 0#2 && r.mask == laneMask r.address

/-- The request `put(address, w, 2)` presents (R172). -/
def BusA.put (a : Addr) (w : Word) : BusA :=
  { opcode := opPut, size := 2, address := a, mask := laneMask a, data := toLanes a w }

/-- The request `get(address, 2)` presents; its data is don't-care (R171). -/
def BusA.get (a : Addr) : BusA :=
  { opcode := opGet, size := 2, address := a, mask := laneMask a, data := 0#64 }

/-! ### The address map -/

/-- `base <= a < base + size`. -/
def inRegion (base : Addr) (size : Nat) (a : Addr) : Bool :=
  base.toNat ≤ a.toNat && a.toNat < base.toNat + size

/-- The pages of one hart with their bases: file `M`, file `S` (page 0), guest `g` (page `g`) (R81). -/
def hartPages (c : Config) (h : Nat) (hc : HartCfg) : List (Port × Addr) :=
  (.page h .M, hc.mfileBase) :: (.page h .S, hc.sfileBase) ::
    (List.range c.geilen.toNat).map fun i =>
      (.page h (.G (BitVec.ofNat 6 (i + 1))), hc.sfileBase + BitVec.ofNat 64 (filePage * (i + 1)))

/-- The pages of harts `h`, `h + 1`, ... -/
def pagesFrom (c : Config) (h : Nat) : List HartCfg → List (Port × Addr)
  | [] => []
  | hc :: rest => hartPages c h hc ++ pagesFrom c (h + 1) rest

/-- Every interrupt-file page of the block with its base (R81). -/
def Config.pages (c : Config) : List (Port × Addr) := pagesFrom c 0 c.harts

/-- The size of a region: `DOMAIN_WINDOW` or one page (R10, R81). -/
def Port.size : Port → Nat
  | .window _ => domainWindow
  | .page _ _ => filePage

/-- Every region of R81 with its base. -/
def Config.regions (c : Config) : List (Port × Addr) :=
  (.window .M, c.baseM) :: (.window .S, c.baseS) :: c.pages

/-- The region of the block an address falls in, with its base, if any (R81, R126, R138). -/
def Config.regionOf (c : Config) (a : Addr) : Option (Port × Addr) :=
  c.regions.find? fun r => inRegion r.2 r.1.size a

/-- The slave port an address falls in (R183). -/
def Config.portOf (c : Config) (a : Addr) : Option Port := (c.regionOf a).map Prod.fst

/-- The base of the region behind a port (R81). -/
def Config.portBase (c : Config) (p : Port) : Addr :=
  ((c.regions.find? fun r => r.1 == p).map Prod.snd).getD 0#64

/-- The port exists in this configuration. -/
def Config.hasPort (c : Config) (p : Port) : Bool := c.regions.any fun r => r.1 == p

/-- Every transactor of the block (R56). -/
def Config.transactors (c : Config) : List TxId :=
  (c.regions.map fun r => .ext r.1) ++ [.msi .M, .msi .S]

/-! ### Contexts and selectors -/

/-- `File(priv, virt, g)`: the file a context selects, `none` when it is unsupported (R142, R322). -/
def Config.fileOf (c : Config) (x : Ctx) : Option FileId :=
  if x.priv = 3#2 ∧ x.virt = false then some .M
  else if x.priv = 1#2 ∧ x.virt = false then some .S
  else if x.priv = 1#2 ∧ x.virt = true ∧ 1 ≤ x.guest.toNat ∧ x.guest.toNat ≤ c.geilen.toNat then
    some (.G x.guest)
  else none

/-- The register a selector names, `none` outside the defined ranges (R141). -/
def iregOf (sel : BitVec 12) : Option IReg :=
  if sel.toNat = 0x70 then some .eidelivery
  else if sel.toNat = 0x72 then some .eithreshold
  else if 0x80 ≤ sel.toNat ∧ sel.toNat ≤ 0xBE ∧ sel.toNat % 2 = 0 then
    some (.eip (BitVec.ofNat 5 ((sel.toNat - 0x80) / 2)))
  else if 0xC0 ≤ sel.toNat ∧ sel.toNat ≤ 0xFE ∧ sel.toNat % 2 = 0 then
    some (.eie (BitVec.ofNat 5 ((sel.toNat - 0xC0) / 2)))
  else none

/-- The selector of a register (R141). -/
def IReg.selector : IReg → BitVec 12
  | .eidelivery => 0x70#12
  | .eithreshold => 0x72#12
  | .eip k => BitVec.ofNat 12 (0x80 + 2 * k.toNat)
  | .eie k => BitVec.ofNat 12 (0xC0 + 2 * k.toNat)

/-- The operation of a code; code 0 is the reserved one (R140). -/
def csrOpOf (op : BitVec 2) : Option CsrOp :=
  if op = 1#2 then some .write else if op = 2#2 then some .set
  else if op = 3#2 then some .clear else none

/-- The code of an operation (R140). -/
def CsrOp.code : CsrOp → BitVec 2
  | .write => 1#2
  | .set => 2#2
  | .clear => 3#2

/-- `Combine(op, old, w)` (R325). -/
def CsrOp.combine : CsrOp → DWord → DWord → DWord
  | .write, _, w => w
  | .set, old, w => old ||| w
  | .clear, old, w => old &&& ~~~w

/-- `WMask(iselect)`: the bits of a file's register that exist (R143). -/
def IReg.mask : IReg → DWord
  | .eidelivery => 1#64
  | .eithreshold => 0x7FF#64
  | .eip k => if k = 0#5 then ~~~1#64 else BitVec.allOnes 64
  | .eie k => if k = 0#5 then ~~~1#64 else BitVec.allOnes 64

/-! ### Source modes -/

/-- The code of a mode (R132). -/
def Mode.code : Mode → BitVec 3
  | .inactive => 0#3
  | .detached => 1#3
  | .edgeRising => 4#3
  | .edgeFalling => 5#3
  | .levelHigh => 6#3
  | .levelLow => 7#3

/-- `warl_sm`: codes 2 and 3 are stored as Inactive, every other code as written (R132, R205). -/
def warlSm (x : BitVec 3) : Mode :=
  if x = 1#3 then .detached else if x = 4#3 then .edgeRising else if x = 5#3 then .edgeFalling
  else if x = 6#3 then .levelHigh else if x = 7#3 then .levelLow else .inactive

/-- `edge(m)` (R261). -/
def Mode.isEdge : Mode → Bool
  | .edgeRising | .edgeFalling => true
  | .inactive | .detached | .levelHigh | .levelLow => false

/-- `level(m)` (R261). -/
def Mode.isLevel : Mode → Bool
  | .levelHigh | .levelLow => true
  | .inactive | .detached | .edgeRising | .edgeFalling => false

/-- `triggered(m)` (R261). -/
def Mode.isTriggered (m : Mode) : Bool := m.isEdge || m.isLevel

/-- `pol(m)`: the inactive level of the line, bit 0 of the code (R261). -/
def Mode.pol (m : Mode) : Bool := m.code.getLsbD 0

/-! ### Domain register layouts -/

/-- The `D` bit of `sourcecfg` (R131). -/
def sourcecfgD : Nat := 10

/-- What `sourcecfg` of a delegated source reads in the machine domain (R204). -/
def delegatedRead : Word := 0x400#32

/-- Bits 31:18, the hart index of a target word or of `genmsi` (R133, R134, R136). -/
def hartField (w : Word) : BitVec 14 := w.extractLsb' 18 14

/-- Bits 17:12, the guest index of an MSI target (R133). -/
def guestField (w : Word) : BitVec 6 := w.extractLsb' 12 6

/-- Bits 10:0, the identity of an MSI target or of `genmsi` (R133, R136). -/
def eiidField (w : Word) : Ident := w.extractLsb' 0 11

/-- Bits 7:0, the priority of a direct-mode target (R134). -/
def prioField (w : Word) : BitVec 8 := w.extractLsb' 0 8

/-- The hart index a write stores: 0 when it names no hart (R133, R373). -/
def warlHart (c : Config) (w : Word) : BitVec 14 :=
  if (hartField w).toNat < c.nHart then hartField w else 0#14

/-- The guest index a write stores: 0 in domain M, and 0 above `GEILEN` (R133, R373). -/
def warlGuest (c : Config) (d : Dom) (w : Word) : BitVec 6 :=
  match d with
  | .M => 0#6
  | .S => if (guestField w).toNat ≤ c.geilen.toNat then guestField w else 0#6

/-- The target word a write stores, by domain and delivery mode (R239). -/
def warlTarget (c : Config) (d : Dom) (msiMode : Bool) (w : Word) : Word :=
  if msiMode then
    ((warlHart c w).setWidth 32 <<< 18) ||| ((warlGuest c d w).setWidth 32 <<< 12) |||
      (eiidField w).setWidth 32
  else ((warlHart c w).setWidth 32 <<< 18) ||| (prioField w).setWidth 32

/-- The bits of a stored target word a read returns, by domain and delivery mode (R238). -/
def targetReadMask (d : Dom) (msiMode : Bool) : Word :=
  match msiMode, d with
  | true, .S => 0xFFFFF7FF#32
  | true, .M => 0xFFFC07FF#32
  | false, _ => 0xFFFC00FF#32

/-- The word a `genmsi` write stores (R237). -/
def warlGenmsi (c : Config) (w : Word) : Word :=
  ((warlHart c w).setWidth 32 <<< 18) ||| (eiidField w).setWidth 32

/-- The number of bit `i` of bitmap word `k` (R129). -/
def bitNumber (k : Bank) (i : Nat) : Nat := 32 * k.toNat + i

end Sys2Proof
end

