-- ==== Sys2Proof/WellFormed.lean ====
section
/-! DEFINITION. Which configurations and which instructions are well formed: the operand ranges of the
register maps (R127, R138, R141, R142) and the constraints on the parameters (R10, R416). -/

namespace Sys2Proof

/-! ### Configurations -/

/-- Two regions do not overlap. -/
def regionsDisjoint (r q : Port × Addr) : Bool :=
  r.2.toNat + r.1.size ≤ q.2.toNat || q.2.toNat + q.1.size ≤ r.2.toNat

/-- A region is aligned to its size and ends at or below `2^64` (R10, R416). -/
def regionAligned (r : Port × Addr) : Bool :=
  r.2.toNat % r.1.size == 0 && r.2.toNat + r.1.size ≤ 2 ^ 64

/-- Every region after the first elements is disjoint from them. -/
def allDisjoint : List (Port × Addr) → Bool
  | [] => true
  | r :: rest => rest.all (regionsDisjoint r) && allDisjoint rest

/-- The constraints R10, R81 and R416 put on the parameters: at least one source, one hart and one
tick of patience, a hart index that fits the target register, the tag outside the read/write and the
zero bits of `domaincfg`, offset 0 for hart 0 and whole pages for the others (the address of an MSI is
page-aligned, R86, R415), regions aligned and pairwise disjoint. -/
def Config.valid (c : Config) : Bool :=
  1 ≤ c.nSrc.toNat && 1 ≤ c.nHart && 1 ≤ c.timeout &&
  c.tag.extractLsb' 0 24 == 0#24 &&
  (c.harts.head?.all fun hc => hc.offM == 0#64 && hc.offS == 0#64) &&
  (c.harts.all fun hc => hc.offM.setWidth 12 == 0#12 && hc.offS.setWidth 12 == 0#12) &&
  c.guestIndexWidth ≤ 6 &&
  c.regions.all regionAligned && allDisjoint c.regions

/-- The guest-index bits of an address, `12 + GUEST_INDEX_WIDTH - 1 : 12` (R416). -/
def Config.guestBits (c : Config) (a : Addr) : Nat := a.toNat / 2 ^ 12 % 2 ^ c.guestIndexWidth

/-- What R416 asks of the platform beyond `Config.valid`: `GUEST_INDEX_WIDTH` bits write `GEILEN`, and
the guest-index bits of every supervisor-level file base and hart offset are zero ((b), (c)). -/
def Config.guestAligned (c : Config) : Prop :=
  c.geilen.toNat < 2 ^ c.guestIndexWidth ∧
    ∀ hc ∈ c.harts, c.guestBits hc.sfileBase = 0 ∧ c.guestBits hc.offS = 0

/-! ### Instructions -/

/-- `off` is a multiple of 4. -/
def aligned4 (off : Nat) : Bool := off % 4 == 0

/-- The offsets of the read-only-zero block (R127, R206). -/
def isRozero (off : Nat) : Bool := aligned4 off && 0x1000 ≤ off && off ≤ 0x1BBC

/-- The unnamed offsets of a domain window, the last row of the map (R127). -/
def isReserved (off : Nat) : Bool :=
  aligned4 off &&
  [(0x1BD0, 0x1BFC), (0x1C80, 0x1CD8), (0x1CE0, 0x1CFC), (0x1D80, 0x1DD8), (0x1DE0, 0x1DFC),
   (0x1E80, 0x1ED8), (0x1EE0, 0x1EFC), (0x1F80, 0x1FD8), (0x1FE0, 0x1FFC), (0x2008, 0x2FFC)].any
    fun r => r.1 ≤ off && off ≤ r.2

/-- An indirect access of a hart that exists, in a supported context. -/
def csrWellFormed (c : Config) (h : Nat) (x : Ctx) : Bool :=
  decide (h < c.nHart) && (c.fileOf x).isSome

/-- A transactor of the block. -/
def Config.hasTx (c : Config) : TxId → Bool
  | .ext p => c.hasPort p
  | .msi _ => true

/-- An instruction the decoder can answer in this configuration. -/
def Instr.wellFormed (c : Config) : Instr → Bool
  | .get32 a | .put32 a _ => aligned4 a.toNat && (c.portOf a).isSome
  | .accessAck x | .accessAckData x _ => c.hasTx x
  | .getDomaincfg _ | .putDomaincfg _ _ | .getMmsiaddrcfg _ | .putMmsiaddrcfg _ _
  | .getMmsiaddrcfgh _ | .putMmsiaddrcfgh _ _ | .getSmsiaddrcfg _ | .putSmsiaddrcfg _ _
  | .getSmsiaddrcfgh _ | .putSmsiaddrcfgh _ _ | .getSetipnum _ | .putSetipnum _ _
  | .getClripnum _ | .putClripnum _ _ | .getSetienum _ | .putSetienum _ _
  | .getClrienum _ | .putClrienum _ _ | .getSetipnumLe _ | .putSetipnumLe _ _
  | .getSetipnumBe _ | .putSetipnumBe _ _ | .getGenmsi _ | .putGenmsi _ _ => true
  | .getSourcecfg _ s | .putSourcecfg _ s _ | .getTargets _ s | .putTargets _ s _ => s != 0#10
  | .getSetip _ _ | .putSetip _ _ _ | .getInClrip _ _ | .putInClrip _ _ _
  | .getSetie _ _ | .putSetie _ _ _ | .getClrie _ _ | .putClrie _ _ _ => true
  | .getRozero _ off | .putRozero _ off _ => isRozero off.toNat
  | .getReserved _ off | .putReserved _ off _ => isReserved off.toNat
  | .putSeteipnum h f _ => c.hasPort (.page h f)
  | .getPage h f poff => c.hasPort (.page h f) && aligned4 poff.toNat
  | .putPage h f poff _ => c.hasPort (.page h f) && aligned4 poff.toNat && poff != 0#12
  | .csrxIllegalOp h _ _ _ => decide (h < c.nHart)
  | .csrIllegalContext h _ x _ _ => decide (h < c.nHart) && (c.fileOf x).isNone
  | .csrwEidelivery h x _ | .csrsEidelivery h x _ | .csrcEidelivery h x _
  | .csrwEithreshold h x _ | .csrsEithreshold h x _ | .csrcEithreshold h x _ =>
    csrWellFormed c h x
  | .csrwEip h x _ _ | .csrsEip h x _ _ | .csrcEip h x _ _
  | .csrwEie h x _ _ | .csrsEie h x _ _ | .csrcEie h x _ _ => csrWellFormed c h x
  | .csrIllegalSelector h sel x _ _ => csrWellFormed c h x && (iregOf sel).isNone
  | .claim h _ => decide (h < c.nHart)

end Sys2Proof
end

