-- ==== Sys2Proof/Decode.lean ====
section
/-! DEFINITION. The decoder, total on every message, rejecting by name (R120 to R148, R182, R200), and
the encoder, written from the same maps. -/

namespace Sys2Proof

/-- Why the decoder rejects a message.  Each of these is a request outside the block's contract, for
which the spec asks a model to refuse the run. -/
inductive Reject where
  /-- a bus request opcode other than 0 and 4 (R146, U4), or a response opcode other than 0 and 1 -/
  | opcode
  /-- a bus access that is not a whole aligned 32-bit register in its lanes (R88, R182, U2) -/
  | shape
  /-- an address outside every region of the block: "a model gives it no meaning" (R81) -/
  | outsideRegions
  /-- a request of a hart the configuration does not have (R321) -/
  | noSuchHart
  /-- a response for a transactor the configuration does not have (R56) -/
  | noSuchTransactor
deriving DecidableEq, Repr

/-! ### Decoding -/

/-- A call at the master side, format `BUS_A` (R171, R172). -/
def decodeCall (c : Config) (r : BusA) : Except Reject Instr :=
  if r.opcode ≠ opGet ∧ r.opcode ≠ opPut then .error .opcode
  else if ¬ r.legalShape then .error .shape
  else match c.portOf r.address with
    | none => .error .outsideRegions
    | some _ =>
      if r.opcode = opGet then .ok (.get32 r.address)
      else .ok (.put32 r.address (fromLanes r.address r.data))

/-- `Get` of a window offset: the map of R127, the unnamed offsets last. -/
def decodeDomGet (d : Dom) (off : BitVec 14) : Instr :=
  let o := off.toNat
  if o = 0x0000 then .getDomaincfg d
  else if o < 0x1000 then .getSourcecfg d (BitVec.ofNat 10 (o / 4))
  else if o < 0x1BC0 then .getRozero d off
  else if o = 0x1BC0 then .getMmsiaddrcfg d
  else if o = 0x1BC4 then .getMmsiaddrcfgh d
  else if o = 0x1BC8 then .getSmsiaddrcfg d
  else if o = 0x1BCC then .getSmsiaddrcfgh d
  else if 0x1C00 ≤ o ∧ o ≤ 0x1C7C then .getSetip d (BitVec.ofNat 5 ((o - 0x1C00) / 4))
  else if o = 0x1CDC then .getSetipnum d
  else if 0x1D00 ≤ o ∧ o ≤ 0x1D7C then .getInClrip d (BitVec.ofNat 5 ((o - 0x1D00) / 4))
  else if o = 0x1DDC then .getClripnum d
  else if 0x1E00 ≤ o ∧ o ≤ 0x1E7C then .getSetie d (BitVec.ofNat 5 ((o - 0x1E00) / 4))
  else if o = 0x1EDC then .getSetienum d
  else if 0x1F00 ≤ o ∧ o ≤ 0x1F7C then .getClrie d (BitVec.ofNat 5 ((o - 0x1F00) / 4))
  else if o = 0x1FDC then .getClrienum d
  else if o = 0x2000 then .getSetipnumLe d
  else if o = 0x2004 then .getSetipnumBe d
  else if o = 0x3000 then .getGenmsi d
  else if 0x3004 ≤ o then .getTargets d (BitVec.ofNat 10 ((o - 0x3000) / 4))
  else .getReserved d off

/-- `PutFullData` to a window offset: the same map. -/
def decodeDomPut (d : Dom) (off : BitVec 14) (w : Word) : Instr :=
  let o := off.toNat
  if o = 0x0000 then .putDomaincfg d w
  else if o < 0x1000 then .putSourcecfg d (BitVec.ofNat 10 (o / 4)) w
  else if o < 0x1BC0 then .putRozero d off w
  else if o = 0x1BC0 then .putMmsiaddrcfg d w
  else if o = 0x1BC4 then .putMmsiaddrcfgh d w
  else if o = 0x1BC8 then .putSmsiaddrcfg d w
  else if o = 0x1BCC then .putSmsiaddrcfgh d w
  else if 0x1C00 ≤ o ∧ o ≤ 0x1C7C then .putSetip d (BitVec.ofNat 5 ((o - 0x1C00) / 4)) w
  else if o = 0x1CDC then .putSetipnum d w
  else if 0x1D00 ≤ o ∧ o ≤ 0x1D7C then .putInClrip d (BitVec.ofNat 5 ((o - 0x1D00) / 4)) w
  else if o = 0x1DDC then .putClripnum d w
  else if 0x1E00 ≤ o ∧ o ≤ 0x1E7C then .putSetie d (BitVec.ofNat 5 ((o - 0x1E00) / 4)) w
  else if o = 0x1EDC then .putSetienum d w
  else if 0x1F00 ≤ o ∧ o ≤ 0x1F7C then .putClrie d (BitVec.ofNat 5 ((o - 0x1F00) / 4)) w
  else if o = 0x1FDC then .putClrienum d w
  else if o = 0x2000 then .putSetipnumLe d w
  else if o = 0x2004 then .putSetipnumBe d w
  else if o = 0x3000 then .putGenmsi d w
  else if 0x3004 ≤ o then .putTargets d (BitVec.ofNat 10 ((o - 0x3000) / 4)) w
  else .putReserved d off w

/-- An accepted request to an interrupt-file page (R138). -/
def decodePage (isGet : Bool) (h : Nat) (f : FileId) (poff : BitVec 12) (w : Word) : Instr :=
  if isGet then .getPage h f poff
  else if poff = 0#12 then .putSeteipnum h f w
  else .putPage h f poff w

/-- An accepted request at a slave port, formats `DOM` and `PAGE`: dispatch by address (R183), then
by opcode and offset (R200). -/
def decodeSlave (c : Config) (r : BusA) : Except Reject Instr :=
  if r.opcode ≠ opGet ∧ r.opcode ≠ opPut then .error .opcode
  else if ¬ r.legalShape then .error .shape
  else match c.regionOf r.address with
    | none => .error .outsideRegions
    | some (.window d, base) =>
      if r.opcode = opGet then .ok (decodeDomGet d ((r.address - base).setWidth 14))
      else .ok (decodeDomPut d ((r.address - base).setWidth 14) (fromLanes r.address r.data))
    | some (.page h f, base) =>
      .ok (decodePage (r.opcode == opGet) h f ((r.address - base).setWidth 12)
        (fromLanes r.address r.data))

/-- A response at the transactor it answers, format `BUS_D` (R122). -/
def decodeResponse (c : Config) (x : TxId) (r : BusD) : Except Reject Instr :=
  if ¬ c.hasTx x then .error .noSuchTransactor
  else if r.opcode = opAck then .ok (.accessAck x)
  else if r.opcode = opAckData then .ok (.accessAckData x r.data)
  else .error .opcode

/-- The row of a legal register for one operation (R328 to R340). -/
def csrInstr (h : Nat) (x : Ctx) (op : CsrOp) (r : IReg) (v : DWord) : Instr :=
  match r, op with
  | .eidelivery, .write => .csrwEidelivery h x v
  | .eidelivery, .set => .csrsEidelivery h x v
  | .eidelivery, .clear => .csrcEidelivery h x v
  | .eithreshold, .write => .csrwEithreshold h x v
  | .eithreshold, .set => .csrsEithreshold h x v
  | .eithreshold, .clear => .csrcEithreshold h x v
  | .eip k, .write => .csrwEip h x k v
  | .eip k, .set => .csrsEip h x k v
  | .eip k, .clear => .csrcEip h x k v
  | .eie k, .write => .csrwEie h x k v
  | .eie k, .set => .csrsEie h x k v
  | .eie k, .clear => .csrcEie h x k v

/-- An indirect request, format `CSR`; the rows in the table's order (R120, R139). -/
def decodeCsr (c : Config) (r : CsrReq) : Except Reject Instr :=
  if c.nHart ≤ r.hart then .error .noSuchHart
  else match csrOpOf r.op with
    | none => .ok (.csrxIllegalOp r.hart r.iselect r.ctx r.wdata)
    | some op =>
      if (c.fileOf r.ctx).isNone then
        .ok (.csrIllegalContext r.hart r.iselect r.ctx op r.wdata)
      else match iregOf r.iselect with
        | some reg => .ok (csrInstr r.hart r.ctx op reg r.wdata)
        | none => .ok (.csrIllegalSelector r.hart r.iselect r.ctx op r.wdata)

/-- A claim request, format `CLAIM` (R145). -/
def decodeClaim (c : Config) (r : ClaimReq) : Except Reject Instr :=
  if c.nHart ≤ r.hart then .error .noSuchHart else .ok (.claim r.hart r.ctx)

/-- The decoder. -/
def decode (c : Config) : Msg → Except Reject Instr
  | .agent (.call r) => decodeCall c r
  | .agent (.csr r) => decodeCsr c r
  | .agent (.claim r) => decodeClaim c r
  | .slave r => decodeSlave c r
  | .response x r => decodeResponse c x r

/-! ### Encoding -/

/-- The request that reads the register at an offset of a port's region (R123, R171). -/
def encodeGet (c : Config) (p : Port) (off : Nat) : Msg :=
  .slave (.get (c.portBase p + BitVec.ofNat 64 off))

/-- The request that writes the register at an offset of a port's region (R123, R172). -/
def encodePut (c : Config) (p : Port) (off : Nat) (w : Word) : Msg :=
  .slave (.put (c.portBase p + BitVec.ofNat 64 off) w)

/-- An indirect request with its selector and operation code (R139, R140). -/
def encodeCsr (h : Nat) (sel : BitVec 12) (x : Ctx) (op : BitVec 2) (v : DWord) : Msg :=
  .agent (.csr { hart := h, iselect := sel, ctx := x, op := op, wdata := v })

/-- The message of an instruction; fields the spec calls don't-care are zero. -/
def encode (c : Config) : Instr → Msg
  | .get32 a => .agent (.call (.get a))
  | .put32 a w => .agent (.call (.put a w))
  | .accessAck x => .response x { opcode := opAck, data := 0#64 }
  | .accessAckData x data => .response x { opcode := opAckData, data := data }
  | .getDomaincfg d => encodeGet c (.window d) 0x0000
  | .putDomaincfg d w => encodePut c (.window d) 0x0000 w
  | .getMmsiaddrcfg d => encodeGet c (.window d) 0x1BC0
  | .putMmsiaddrcfg d w => encodePut c (.window d) 0x1BC0 w
  | .getMmsiaddrcfgh d => encodeGet c (.window d) 0x1BC4
  | .putMmsiaddrcfgh d w => encodePut c (.window d) 0x1BC4 w
  | .getSmsiaddrcfg d => encodeGet c (.window d) 0x1BC8
  | .putSmsiaddrcfg d w => encodePut c (.window d) 0x1BC8 w
  | .getSmsiaddrcfgh d => encodeGet c (.window d) 0x1BCC
  | .putSmsiaddrcfgh d w => encodePut c (.window d) 0x1BCC w
  | .getSetipnum d => encodeGet c (.window d) 0x1CDC
  | .putSetipnum d w => encodePut c (.window d) 0x1CDC w
  | .getClripnum d => encodeGet c (.window d) 0x1DDC
  | .putClripnum d w => encodePut c (.window d) 0x1DDC w
  | .getSetienum d => encodeGet c (.window d) 0x1EDC
  | .putSetienum d w => encodePut c (.window d) 0x1EDC w
  | .getClrienum d => encodeGet c (.window d) 0x1FDC
  | .putClrienum d w => encodePut c (.window d) 0x1FDC w
  | .getSetipnumLe d => encodeGet c (.window d) 0x2000
  | .putSetipnumLe d w => encodePut c (.window d) 0x2000 w
  | .getSetipnumBe d => encodeGet c (.window d) 0x2004
  | .putSetipnumBe d w => encodePut c (.window d) 0x2004 w
  | .getGenmsi d => encodeGet c (.window d) 0x3000
  | .putGenmsi d w => encodePut c (.window d) 0x3000 w
  | .getSourcecfg d s => encodeGet c (.window d) (4 * s.toNat)
  | .putSourcecfg d s w => encodePut c (.window d) (4 * s.toNat) w
  | .getSetip d k => encodeGet c (.window d) (0x1C00 + 4 * k.toNat)
  | .putSetip d k w => encodePut c (.window d) (0x1C00 + 4 * k.toNat) w
  | .getInClrip d k => encodeGet c (.window d) (0x1D00 + 4 * k.toNat)
  | .putInClrip d k w => encodePut c (.window d) (0x1D00 + 4 * k.toNat) w
  | .getSetie d k => encodeGet c (.window d) (0x1E00 + 4 * k.toNat)
  | .putSetie d k w => encodePut c (.window d) (0x1E00 + 4 * k.toNat) w
  | .getClrie d k => encodeGet c (.window d) (0x1F00 + 4 * k.toNat)
  | .putClrie d k w => encodePut c (.window d) (0x1F00 + 4 * k.toNat) w
  | .getTargets d s => encodeGet c (.window d) (0x3000 + 4 * s.toNat)
  | .putTargets d s w => encodePut c (.window d) (0x3000 + 4 * s.toNat) w
  | .getRozero d off => encodeGet c (.window d) off.toNat
  | .putRozero d off w => encodePut c (.window d) off.toNat w
  | .getReserved d off => encodeGet c (.window d) off.toNat
  | .putReserved d off w => encodePut c (.window d) off.toNat w
  | .putSeteipnum h f w => encodePut c (.page h f) 0 w
  | .getPage h f poff => encodeGet c (.page h f) poff.toNat
  | .putPage h f poff w => encodePut c (.page h f) poff.toNat w
  | .csrxIllegalOp h sel x v => encodeCsr h sel x 0#2 v
  | .csrIllegalContext h sel x op v => encodeCsr h sel x op.code v
  | .csrwEidelivery h x v => encodeCsr h (IReg.selector .eidelivery) x 1#2 v
  | .csrsEidelivery h x v => encodeCsr h (IReg.selector .eidelivery) x 2#2 v
  | .csrcEidelivery h x v => encodeCsr h (IReg.selector .eidelivery) x 3#2 v
  | .csrwEithreshold h x v => encodeCsr h (IReg.selector .eithreshold) x 1#2 v
  | .csrsEithreshold h x v => encodeCsr h (IReg.selector .eithreshold) x 2#2 v
  | .csrcEithreshold h x v => encodeCsr h (IReg.selector .eithreshold) x 3#2 v
  | .csrwEip h x k v => encodeCsr h (IReg.selector (.eip k)) x 1#2 v
  | .csrsEip h x k v => encodeCsr h (IReg.selector (.eip k)) x 2#2 v
  | .csrcEip h x k v => encodeCsr h (IReg.selector (.eip k)) x 3#2 v
  | .csrwEie h x k v => encodeCsr h (IReg.selector (.eie k)) x 1#2 v
  | .csrsEie h x k v => encodeCsr h (IReg.selector (.eie k)) x 2#2 v
  | .csrcEie h x k v => encodeCsr h (IReg.selector (.eie k)) x 3#2 v
  | .csrIllegalSelector h sel x op v => encodeCsr h sel x op.code v
  | .claim h x => .agent (.claim { hart := h, ctx := x })

/-! ### The opcode table's words -/

/-- The message that a word of the opcode table stands for in configuration `c` (log entry 4).  The
table numbers the bits of a row's one selecting field and gives a bus row's opcode and operands no
bits, so every bit above is 0: a word of at most 8 bits is a bus opcode, of a request at the first
location of the block or, for the value 1, of a response to it; a longer word is the offset of a
request (opcode 0, `PutFullData`) to the machine domain's window. -/
def tableMsg (c : Config) (nbits w : Nat) : Option Msg :=
  if nbits ≤ 8 then
    if w = 4 then some (.agent (.call (.get c.baseM)))
    else if w = 0 then some (.agent (.call (.put c.baseM 0#32)))
    else if w = 1 then some (.response (.ext (.window .M)) { opcode := opAckData, data := 0#64 })
    else none
  else if w < domainWindow then some (.slave (.put (c.baseM + BitVec.ofNat 64 w) 0#32))
  else none

/-- The instruction the decoder reads from a word of the opcode table, in the configuration `TC`. -/
def decodeTableWord (nbits w : Nat) : Option Instr :=
  match tableMsg .tc nbits w with
  | none => none
  | some m => (decode .tc m).toOption

end Sys2Proof
end

