-- ==== Sys2Proof/Machine/State.lean ====
section
/-! DEFINITION. The state of the block (R30 to R62), the faults and refusals, and reset (R59, R411). -/

namespace Sys2Proof.Machine

/-! ### Sources and transactors -/

/-- One copy of an interrupt source (R41 to R45). -/
structure Source where
  mode : Mode
  pending : Bool
  enabled : Bool
  notified : Bool
  target : Word
deriving DecidableEq, Repr

/-- A source at reset, and every copy a domain does not own (R40, R59). -/
def Source.zero : Source :=
  { mode := .inactive, pending := false, enabled := false, notified := false, target := 0#32 }

/-- The phase of a transactor (R181). -/
inductive Phase where
  | idle
  | request
  | response
deriving DecidableEq, Repr

/-- What the last completed `put` or `get` of a transactor returned to its caller (R170 to R172). -/
inductive Result where
  /-- none has completed since reset -/
  | none
  /-- `put` returned `Ack` -/
  | ack
  /-- `get` returned `(Ack, data)` -/
  | ackData (w : Word)
deriving DecidableEq, Repr

/-- A Bus Transactor (R56).  `owed` is the response of the slave that accepted the request, held
until it is presented; `result` is the output towards the caller. -/
structure Transactor where
  phase : Phase
  req : BusA
  deadline : Nat
  owed : BusD
  result : Result
deriving DecidableEq, Repr

/-- A transactor at reset (R56, R59).  The request fields and the response are don't-care there and
are given the value zero (DESIGN CHOICE, log entry 7). -/
def Transactor.idle : Transactor :=
  { phase := .idle
    req := { opcode := 0#3, size := 0, address := 0#64, mask := 0#8, data := 0#64 }
    deadline := 0
    owed := { opcode := 0#3, data := 0#64 }
    result := .none }

/-- What a slave composes on the tick it accepts a request: an acknowledgement, or the 32-bit value
of the register read (R178, R179). -/
inductive Answer where
  | ack
  | data (w : Word)
deriving DecidableEq, Repr

/-! ### Domains and interrupt files -/

/-- What an MSI is sent for: a source, or `genmsi` (R292). -/
inductive Cause where
  | source (n : Nat)
  | genmsi
deriving DecidableEq, Repr

/-- One domain (R33 to R35, R37, R41 to R46): its configuration bits, its sources by number, the
transactor in front of its window and the transactor of its delivery engine.  `issues` and `tickets` are
the model's own fields (log entry 5): how many MSIs the domain has issued, and for each cause that waits
the number of issues after which it comes first (R294). -/
structure Domain where
  ie : Bool
  be : Bool
  dm : Bool
  genmsi : Word
  genmsiBusy : Bool
  sources : Tbl Source
  port : Transactor
  msi : Transactor
  issues : Nat
  tickets : List (Cause × Nat)
deriving DecidableEq, Repr

/-- One interrupt file (R49 to R52). -/
structure IFile where
  eidelivery : Bool
  eithreshold : Ident
  eip : IdBits
  eie : IdBits
deriving DecidableEq, Repr

/-- An interrupt file with the transactor in front of its page. -/
structure FileUnit where
  file : IFile
  port : Transactor
deriving DecidableEq, Repr

/-- A file at reset (R59). -/
def FileUnit.zero : FileUnit :=
  { file := { eidelivery := false, eithreshold := 0#11, eip := 0#2048, eie := 0#2048 }
    port := .idle }

/-- One hart's side of the block (R32, R53, R62): the sticky flag, the files, and the outputs of its
CSR port and claim port, held from the last access on. -/
structure Hart where
  illegal : Bool
  fileM : FileUnit
  fileS : FileUnit
  guests : Tbl FileUnit
  rdata : DWord
  claimId : Ident
deriving DecidableEq, Repr

/-- A hart's side of the block at reset (R59). -/
def Hart.zero : Hart :=
  { illegal := false, fileM := .zero, fileS := .zero, guests := [], rdata := 0#64, claimId := 0#11 }

/-! ### The environment and the whole state -/

/-- What the agents outside the block do at one tick (R9, R61): reset, changes of input lines that
hold from this tick on, requests, and which slaves keep a transactor waiting: `notReady` lists the
transactors whose slave holds `ready` low, `silent` those whose slave presents no response (R178). -/
structure Tick where
  reset : Bool
  lines : List (Nat × Bool)
  requests : List Req
  notReady : List TxId
  silent : List TxId
deriving DecidableEq, Repr

/-- A tick without reset, line change or request, on which every slave is ready and answers. -/
def Tick.idle : Tick :=
  { reset := false, lines := [], requests := [], notReady := [], silent := [] }

/-- The state.  `cfg` is configuration; `line`, `inputs` and `freeIndex` are the model's own fields
(the level of every input line, the ticks still to come, the number of free choices taken); the rest
is the block's. -/
structure State where
  cfg : Config
  m : Domain
  s : Domain
  mmsiaddrcfg : Word
  mmsiaddrcfgh : Word
  smsiaddrcfg : Word
  smsiaddrcfgh : Word
  rawInput : SrcBits
  deleg : SrcBits
  harts : Tbl Hart
  answer : Answer
  line : SrcBits
  inputs : List Tick
  freeIndex : Nat
deriving DecidableEq, Repr

/-! ### Faults and refusals -/

/-- What ends a run (R370). -/
inductive Fault where
  /-- `ProtocolTimeout`: a request of this transactor was not accepted, or its response not
  presented, within `TIMEOUT_CYCLES` ticks.  Raised by the tick on which the deadline reaches 0
  (R176, R371).  Safe: the spec defines no state after it. -/
  | protocolTimeout (x : TxId)
deriving DecidableEq, Repr

/-- What the model gives no meaning. -/
inductive Refusal where
  /-- An instruction without a meaning yet, by its mnemonic.  Raised by a refused arm of `exec`.
  Safe: nothing is claimed of it. -/
  | notModelled (mnemonic : String)
  /-- A request outside the block's contract, which the spec asks a model to refuse (R81, R88, R146,
  R182).  Raised by the step when a message does not decode, and by `GET32` and `PUT32` of an
  address outside the block.  Safe: nothing is claimed of a run that holds one. -/
  | badRequest (r : Reject)
  /-- A second indirect access, or a second claim, of one hart on one tick: its port takes at most
  one (R98, R321).  Raised by the step.  Safe. -/
  | portOverrun
  /-- An access to `genmsi` in a configuration with `GENMSI_KIND = Refused` (R236, R305).  Raised by
  `GET.genmsi` and `PUT.genmsi`.  Safe. -/
  | genmsiRefused
  /-- A response whose opcode is not the one the latched request `require`s (R171, R172): no slave
  of the block gives it (R179).  Raised by `AccessAck` and `AccessAckData`.  Safe. -/
  | responseMismatch
deriving DecidableEq, Repr

/-! ### Reset -/

/-- A domain at reset: everything 0, the delivery mode 1 where it is fixed to MSI (R59). -/
def Domain.reset (c : Config) (d : Dom) : Domain :=
  { ie := false, be := false, dm := c.dmKind d == .fixedMsi, genmsi := 0#32, genmsiBusy := false
    sources := [], port := .idle, msi := .idle, issues := 0, tickets := [] }

/-- The block right after reset, in configuration `c`: every element of R59 at 0, every transactor
idle, the input lines at 0 and no tick scheduled. -/
def State.resetOf (c : Config) : State :=
  { cfg := c
    m := Domain.reset c .M
    s := Domain.reset c .S
    mmsiaddrcfg := 0#32, mmsiaddrcfgh := 0#32, smsiaddrcfg := 0#32, smsiaddrcfgh := 0#32
    rawInput := 0#1024, deleg := 0#1024, harts := []
    answer := .ack, line := 0#1024, inputs := [], freeIndex := 0 }

/-- The machine right after reset, in the configuration `TC` (log entry 1). -/
def State.reset : State := State.resetOf .tc

end Sys2Proof.Machine
end

