-- ==== Sys2Proof/Machine/Ops.lean ====
section
/-! DEFINITION. The named operations over the state: sparse tables, ownership, sources, files,
transactors, the answer of a slave, and the block's two reports of an error: the illegal access with
its clearing (R326, R327), and the timeout. -/

namespace Sys2Proof.Machine

/-- The outcome type of every meaning. -/
abbrev Result3 := Host.Outcome State Fault Refusal

/-! ### Sparse tables in canonical form: numbers rising, no entry equal to the default -/

/-- The entry of a number, the default where there is none. -/
def tblGet {α : Type} (dflt : α) : Tbl α → Nat → α
  | [], _ => dflt
  | (m, v) :: rest, n => if m = n then v else tblGet dflt rest n

/-- The table without the entries of a number. -/
def tblErase {α : Type} (n : Nat) : Tbl α → Tbl α
  | [] => []
  | (m, v) :: rest => if m = n then tblErase n rest else (m, v) :: tblErase n rest

/-- The table with an entry put before the first larger number. -/
def tblInsert {α : Type} (n : Nat) (v : α) : Tbl α → Tbl α
  | [] => [(n, v)]
  | (m, u) :: rest => if n < m then (n, v) :: (m, u) :: rest else (m, u) :: tblInsert n v rest

/-- The table with a number's value replaced; the default leaves no entry. -/
def tblSet {α : Type} [DecidableEq α] (dflt : α) (t : Tbl α) (n : Nat) (v : α) : Tbl α :=
  if v = dflt then tblErase n t else tblInsert n v (tblErase n t)

/-- Every entry changed by `f`, for an `f` that keeps the default. -/
def tblMap {α : Type} [DecidableEq α] (dflt : α) (f : Nat → α → α) : Tbl α → Tbl α
  | [] => []
  | (m, v) :: rest =>
    if f m v = dflt then tblMap dflt f rest else (m, f m v) :: tblMap dflt f rest

/-- The numbers of a table rise strictly and stand above `lo`, and no entry is the default. -/
def tblWfFrom {α : Type} [DecidableEq α] (dflt : α) (lo : Nat) : Tbl α → Bool
  | [] => true
  | (m, v) :: rest => decide (lo ≤ m) && decide (v ≠ dflt) && tblWfFrom dflt (m + 1) rest

/-- The canonical form of a table. -/
def tblWf {α : Type} [DecidableEq α] (dflt : α) (t : Tbl α) : Bool := tblWfFrom dflt 0 t

/-! ### Domains, ownership, sources -/

/-- The domain `d`. -/
def State.dom (s : State) : Dom → Domain
  | .M => s.m
  | .S => s.s

/-- The state with domain `d` replaced. -/
def State.setDom (s : State) (d : Dom) (x : Domain) : State :=
  match d with
  | .M => { s with m := x }
  | .S => { s with s := x }

/-- `owner(n)`: the one domain whose copy of source `n` is live (R40). -/
def State.owner (s : State) (n : Nat) : Dom := if s.deleg.getLsbD n then .S else .M

/-- Register data of domain `d` is byte-swapped: never where `BE_SWAPS_DATA` is false (R85). -/
def State.swapsData (s : State) (d : Dom) : Bool := s.cfg.beSwapsData && (s.dom d).be

/-- `owned(d, n)` (R245). -/
def State.owned (s : State) (d : Dom) (n : Nat) : Bool :=
  decide (1 ≤ n) && decide (n ≤ s.cfg.nSrc.toNat) && s.owner n == d

/-- Domain `d`'s copy of source `n`. -/
def State.source (s : State) (d : Dom) (n : Nat) : Source :=
  tblGet Source.zero (s.dom d).sources n

/-- The state with domain `d`'s copy of source `n` replaced. -/
def State.setSource (s : State) (d : Dom) (n : Nat) (x : Source) : State :=
  s.setDom d { s.dom d with sources := tblSet Source.zero (s.dom d).sources n x }

/-- The state with domain `d`'s copy of source `n` changed, where the domain owns it (R245). -/
def State.modifyOwned (s : State) (d : Dom) (n : Nat) (f : Source → Source) : State :=
  if s.owned d n then s.setSource d n (f (s.source d n)) else s

/-- `for i in 0..31: if w[i] == 1: f(32k + i)`, a write of a bitmap word (R129, R201). -/
def forBits (k : Bank) (w : Word) (f : Nat → State → State) (s : State) : State :=
  (List.range 32).foldl (fun t i => if w.getLsbD i then f (bitNumber k i) t else t) s

/-- A bitmap word as it reads: bit `i` is `p(32k + i)` (R129). -/
def bitmapWord (k : Bank) (p : Nat → Bool) : Word :=
  BitVec.ofFnLE fun i : Fin 32 => p (bitNumber k i)

/-! ### Harts and files -/

/-- Hart `h`'s side of the block. -/
def State.hart (s : State) (h : Nat) : Hart := tblGet Hart.zero s.harts h

/-- The state with hart `h`'s side replaced. -/
def State.setHart (s : State) (h : Nat) (x : Hart) : State :=
  { s with harts := tblSet Hart.zero s.harts h x }

/-- A file of a hart. -/
def Hart.unit (x : Hart) : FileId → FileUnit
  | .M => x.fileM
  | .S => x.fileS
  | .G g => tblGet FileUnit.zero x.guests g.toNat

/-- The hart with one of its files replaced. -/
def Hart.setUnit (x : Hart) (f : FileId) (u : FileUnit) : Hart :=
  match f with
  | .M => { x with fileM := u }
  | .S => { x with fileS := u }
  | .G g => { x with guests := tblSet FileUnit.zero x.guests g.toNat u }

/-- File `f` of hart `h`, with the transactor of its page. -/
def State.unit (s : State) (h : Nat) (f : FileId) : FileUnit := (s.hart h).unit f

/-- The state with file `f` of hart `h` replaced. -/
def State.setUnit (s : State) (h : Nat) (f : FileId) (u : FileUnit) : State :=
  s.setHart h ((s.hart h).setUnit f u)

/-- The registers of file `f` of hart `h` (R48). -/
def State.file (s : State) (h : Nat) (f : FileId) : IFile := (s.unit h f).file

/-- The state with the registers of file `f` of hart `h` replaced. -/
def State.setFile (s : State) (h : Nat) (f : FileId) (x : IFile) : State :=
  s.setUnit h f { s.unit h f with file := x }

/-! ### Transactors -/

/-- The transactor `x` (R56). -/
def State.tx (s : State) : TxId → Transactor
  | .ext (.window d) => (s.dom d).port
  | .ext (.page h f) => (s.unit h f).port
  | .msi d => (s.dom d).msi

/-- The state with transactor `x` replaced. -/
def State.setTx (s : State) (x : TxId) (v : Transactor) : State :=
  match x with
  | .ext (.window d) => s.setDom d { s.dom d with port := v }
  | .ext (.page h f) => s.setUnit h f { s.unit h f with port := v }
  | .msi d => s.setDom d { s.dom d with msi := v }

/-- Idle to Request: the fields are latched, `valid` is asserted and the deadline loaded (R181). -/
def Transactor.begin (t : Transactor) (timeout : Nat) (r : BusA) : Transactor :=
  { t with phase := .request, req := r, deadline := timeout }

/-- Request to Response: the deadline is loaded again; the slave owes its response (R178, R181). -/
def Transactor.accepted (t : Transactor) (timeout : Nat) (owed : BusD) : Transactor :=
  { t with phase := .response, deadline := timeout, owed := owed }

/-- Response to Idle: nothing of the transaction is kept but what it returned (R175, R183). -/
def Transactor.finished (r : Result) : Transactor := { Transactor.idle with result := r }

/-- A tick on which the phase does not end (R176). -/
def Transactor.counted (t : Transactor) : Transactor := { t with deadline := t.deadline - 1 }

/-! ### The answer of a slave -/

/-- The accepted request is a write: it is acknowledged (R179, R180). -/
def State.acknowledge (s : State) : State := { s with answer := .ack }

/-- The accepted request is a read of the 32-bit value `w` (R179). -/
def State.answerData (s : State) (w : Word) : State := { s with answer := .data w }

/-- Register data at a slave port is byte-swapped; an interrupt file has no byte order to choose. -/
def State.swapsAt (s : State) : Port → Bool
  | .window d => s.swapsData d
  | .page _ _ => false

/-- A request as the register of a slave port takes it (R85, log entry 14). -/
def State.orderRequest (s : State) (p : Port) (r : BusA) : BusA :=
  if s.swapsAt p then
    { r with data := toLanes r.address (Config.swappedRegister (fromLanes r.address r.data)) }
  else r

/-- An answer as a slave port gives it (R85, log entry 14). -/
def State.orderAnswer (s : State) (p : Option Port) (a : Answer) : Answer :=
  match p, a with
  | some q, .data w => .data (if s.swapsAt q then Config.swappedRegister w else w)
  | some _, .ack => .ack
  | none, a => a

/-- The response the slave owes for its answer to a request (R179). -/
def Answer.toBusD (a : Answer) (address : Addr) : BusD :=
  match a with
  | .ack => { opcode := opAck, data := 0#64 }
  | .data w => { opcode := opAckData, data := toLanes address w }

/-! ### The block's own reports of an error -/

/-- `raise IllegalAccess` on hart `h`'s CSR port: the flag is set, read data 0, nothing else (R19,
R326). -/
def State.illegalAccess (s : State) (h : Nat) : State :=
  s.setHart h { s.hart h with illegal := true, rdata := 0#64 }

/-- A legal access of hart `h`, which clears the flag and returns the register's old value (R324,
R327). -/
def State.legalAccess (s : State) (h : Nat) (old : DWord) : State :=
  s.setHart h { s.hart h with illegal := false, rdata := old }

/-- `raise ProtocolTimeout` (R19, R371). -/
def protocolTimeout (x : TxId) : Result3 := .fault (.protocolTimeout x)

end Sys2Proof.Machine
end

