-- ==== Sys2Proof/Machine/Flags.lean ====
section
/-! DEFINITION. The single-bit status elements (R55): `notified` of a source (R44, R270, R271, R292) and
`genmsi_busy` of a domain (R37, R237, R305).  The flag `illegal` is set and cleared in
`Machine/Ops.lean`. -/

namespace Sys2Proof.Machine

/-- The source's notification has been issued (R292). -/
def Source.markNotified (x : Source) : Source := { x with notified := true }

/-- The source's notification is owed again (R270). -/
def Source.rearm (x : Source) : Source := { x with notified := false }

/-- End-of-tick rearm: a source that is not pending is not notified (R271). -/
def Source.endRearm (x : Source) : Source := if x.pending then x else x.rearm

/-- `genmsi` holds a request not yet sent (R237). -/
def Domain.genmsiRequest (x : Domain) (w : Word) : Domain := { x with genmsi := w, genmsiBusy := true }

/-- The `genmsi` MSI has been issued (R292, R305). -/
def Domain.genmsiIssued (x : Domain) : Domain := { x with genmsiBusy := false }

end Sys2Proof.Machine
end

