-- ==== Sys2Proof/Machine/SourceMachine.lean ====
section
/-! DEFINITION. The per-source trigger state machine (R260 to R279): pure functions of one live copy and
of its sampled line, and the change of owner. -/

namespace Sys2Proof.Machine

/-- The rectified input: 1 exactly when the line is at its active level for a triggered mode (R262). -/
def Source.rect (x : Source) (raw : Bool) : Bool := x.mode.isTriggered && (raw != x.mode.pol)

/-- `Sample(s, v)` on `pending`: an edge mode latches the transition away from its polarity, a level
mode tracks the line, the others ignore it (R263 to R267).  `old` is `raw_input` before the tick. -/
def Source.sample (x : Source) (old v : Bool) : Source :=
  if x.mode.isEdge then
    if old = x.mode.pol ∧ v ≠ x.mode.pol then { x with pending := true } else x
  else if x.mode.isLevel then { x with pending := v != x.mode.pol }
  else x

/-- Level tracking at the end of a tick: `pending = rect` in a level mode (R96 step 4, R265). -/
def Source.track (x : Source) (raw : Bool) : Source :=
  if x.mode.isLevel then { x with pending := x.rect raw } else x

/-- `SetMode` (R268). -/
def Source.setMode (x : Source) (raw : Bool) (m : Mode) : Source :=
  match m with
  | .inactive => { x with mode := m, pending := false }
  | .detached | .edgeRising | .edgeFalling => { x with mode := m }
  | .levelHigh | .levelLow => { x with mode := m, pending := raw != m.pol }

/-- `RequestSetPending` (R269). -/
def Source.requestSet (x : Source) : Source :=
  if x.mode = .detached ∨ x.mode.isEdge then { x with pending := true } else x

/-- `RequestClearPending`: clears a Detached or edge source and rearms it; rearms a level source whose
input is active (R270). -/
def Source.requestClear (x : Source) (raw : Bool) : Source :=
  if x.mode = .detached ∨ x.mode.isEdge then { x with pending := false }.rearm
  else if x.mode.isLevel ∧ x.rect raw then x.rearm
  else x

/-- `SetEnable` (R244, R272). -/
def Source.enable (x : Source) : Source := { x with enabled := true }

/-- `ClearEnable` (R244, R272). -/
def Source.disable (x : Source) : Source := { x with enabled := false }

/-! ### The requests of register writes -/

/-- `SetPendingReq(d, n)` (R242). -/
def State.setPendingReq (s : State) (d : Dom) (n : Nat) : State :=
  s.modifyOwned d n Source.requestSet

/-- `ClearPendingReq(d, n)` (R243). -/
def State.clearPendingReq (s : State) (d : Dom) (n : Nat) : State :=
  s.modifyOwned d n fun x => x.requestClear (s.rawInput.getLsbD n)

/-- `SetEnable(d, n)` (R244). -/
def State.setEnable (s : State) (d : Dom) (n : Nat) : State := s.modifyOwned d n Source.enable

/-- `ClearEnable(d, n)` (R244). -/
def State.clearEnable (s : State) (d : Dom) (n : Nat) : State := s.modifyOwned d n Source.disable

/-- `SetMode(d, n, m)` (R268). -/
def State.setMode (s : State) (d : Dom) (n : Nat) (m : Mode) : State :=
  s.setSource d n ((s.source d n).setMode (s.rawInput.getLsbD n) m)

/-- `Delegate(n)`: the machine domain's copy is cleared and the source handed to `S` (R273). -/
def State.delegate (s : State) (n : Nat) : State :=
  { s.setSource .M n Source.zero with deleg := setBit s.deleg n true }

/-- `Undelegate(n)`: the supervisor domain's copy is cleared and the source taken back (R273). -/
def State.undelegate (s : State) (n : Nat) : State :=
  { s.setSource .S n Source.zero with deleg := setBit s.deleg n false }

/-! ### One tick of every source -/

/-- The bits of the existing source numbers (R30, R279). -/
def sourceMask (c : Config) : SrcBits := BitVec.ofNat 1024 (2 ^ (c.nSrc.toNat + 1) - 2)

/-- Every copy of a source that domain `d` owns, changed (R277). -/
def State.mapOwned (s : State) (d : Dom) (f : Nat → Source → Source) : State :=
  s.setDom d { s.dom d with
    sources := tblMap Source.zero (fun n x => if s.owned d n then f n x else x) (s.dom d).sources }

/-- Step (3) of the domain tick: every line is sampled, the trigger rules run, then `raw_input`
takes the samples (R96, R263). -/
def State.sampleLines (s : State) : State :=
  let f := fun n (x : Source) => x.sample (s.rawInput.getLsbD n) (s.line.getLsbD n)
  { (s.mapOwned .M f).mapOwned .S f with rawInput := s.line &&& sourceMask s.cfg }

/-- Step (4): level-mode sources are brought to `pending = rect` (R96, R265). -/
def State.trackLevels (s : State) : State :=
  let f := fun n (x : Source) => x.track (s.rawInput.getLsbD n)
  (s.mapOwned .M f).mapOwned .S f

/-- Step (5): end-of-tick rearm (R96, R271). -/
def State.rearmAll (s : State) : State :=
  (s.mapOwned .M fun _ x => x.endRearm).mapOwned .S fun _ x => x.endRearm

end Sys2Proof.Machine
end

