-- ==== Sys2Proof/Machine/Delivery.lean ====
section
/-! DEFINITION. The delivery engine (R290 to R309): what is due, the composition and issue of an MSI, and
the direct-mode output. -/

namespace Sys2Proof.Machine

/-- `deliverable(d, n)` (R290). -/
def State.deliverable (s : State) (d : Dom) (n : Nat) : Bool :=
  s.owned d n && (s.source d n).pending && (s.source d n).enabled && (s.dom d).ie

/-- The numbers `1..N_SRC` that a predicate holds of, in rising order. -/
def State.sourcesWhere (s : State) (p : Nat → Bool) : List Nat :=
  (List.range (s.cfg.nSrc.toNat + 1)).filter p

/-- `due(d)` (R292). -/
def State.due (s : State) (d : Dom) : List Nat :=
  s.sourcesWhere fun n => s.deliverable d n && !(s.source d n).notified

/-- `want(d)` (R292). -/
def State.want (s : State) (d : Dom) : List Cause :=
  (s.due d).map Cause.source ++ (if (s.dom d).genmsiBusy then [Cause.genmsi] else [])

/-! ### The order of issue (R294, log entry 5)

`choose` is any member, but a member that stays is chosen after finitely many issues.  A cause draws a
ticket when it joins those that wait: the number of issues so far and a free value more.  It keeps the
ticket while it waits, and the least ticket is issued next. -/

/-- The tickets of the causes that wait: the old one of a cause that stays, for a newcomer the next free
value above the number of issues so far. -/
def assignTickets (issues k : Nat) (old : List (Cause × Nat)) : List Cause → List (Cause × Nat)
  | [] => []
  | c :: rest =>
    match old.lookup c with
    | some n => (c, n) :: assignTickets issues k old rest
    | none => (c, issues + Config.issueWait k) :: assignTickets issues (k + 1) old rest

/-- How many of the causes that wait have no ticket yet. -/
def newcomers (old : List (Cause × Nat)) (l : List Cause) : Nat :=
  (l.filter fun c => (old.lookup c).isNone).length

/-- The ticket of least number, the first of equal ones. -/
def leastTicket : List (Cause × Nat) → Option (Cause × Nat)
  | [] => none
  | e :: rest =>
    match leastTicket rest with
    | none => some e
    | some m => if e.2 ≤ m.2 then some e else some m

/-- Every cause that waits in domain `d` holds a ticket. -/
def State.drawTickets (s : State) (d : Dom) : State :=
  let x := s.dom d
  { s.setDom d { x with tickets := assignTickets x.issues s.freeIndex x.tickets (s.want d) } with
    freeIndex := s.freeIndex + newcomers x.tickets (s.want d) }

/-- In direct mode no MSI is owed, and no ticket is held (R291). -/
def State.dropTickets (s : State) (d : Dom) : State := s.setDom d { s.dom d with tickets := [] }

/-! ### The MSI -/

/-- `base_ppn(level) << 12` of a low and a high word, 56 bits extended to 64 (R135, R296). -/
def msiBase (lo hi : Word) : Addr := (hi.extractLsb' 0 12 ++ lo).setWidth 64 <<< 12

/-- `HartFileOffset(level(d), h)` (R10, R297). -/
def hartOffset (c : Config) (d : Dom) (h : Nat) : Addr :=
  match d, c.harts[h]? with
  | .M, some hc => hc.offM
  | .S, some hc => hc.offS
  | _, none => Config.hartOffsetBeyond d h

/-- The base a domain composes its MSIs with: its own level's words (R296, R307). -/
def State.levelBase (s : State) : Dom → Addr
  | .M => msiBase s.mmsiaddrcfg s.mmsiaddrcfgh
  | .S => msiBase s.smsiaddrcfg s.smsiaddrcfgh

/-- `MsiAddress(d, h, g)` over a base (R297). -/
def msiAddress (c : Config) (d : Dom) (base : Addr) (h : BitVec 14) (g : BitVec 6) : Addr :=
  base ||| hartOffset c d h.toNat ||| (g.setWidth 64 <<< 12)

/-- The guest index an MSI is sent with: the target's field, 0 for domain M (R133, R297). -/
def msiGuest (d : Dom) (target : Word) : BitVec 6 :=
  match d with
  | .M => 0#6
  | .S => guestField target

/-- The bus write of an MSI: 4 bytes, the low lanes (R86, R299). -/
def msiRequest (address : Addr) (w : Word) : BusA :=
  { opcode := opPut, size := 2, address := address, mask := 0x0F#8, data := w.setWidth 64 }

/-- The data of an MSI, the identity (R86, R298); open where `be` swaps data (R85, log entry 14). -/
def State.msiWord (s : State) (d : Dom) (eiid : Ident) : Word :=
  if s.swapsData d then Config.swappedMsi eiid else eiid.setWidth 32

/-- The MSI of one cause (R292, R305). -/
def State.msiOf (s : State) (d : Dom) (base : Addr) : Cause → BusA
  | .source n =>
    let t := (s.source d n).target
    msiRequest (msiAddress s.cfg d base (hartField t) (msiGuest d t)) (s.msiWord d (eiidField t))
  | .genmsi =>
    let g := (s.dom d).genmsi
    msiRequest (msiAddress s.cfg d base (hartField g) 0#6) (s.msiWord d (eiidField g))

/-- What the issue of a cause marks: the source is notified, or `genmsi` is no longer busy (R292). -/
def State.markIssued (s : State) (d : Dom) : Cause → State
  | .source n => s.setSource d n (s.source d n).markNotified
  | .genmsi => s.setDom d (s.dom d).genmsiIssued

/-- The domain after the issue of a cause: its transactor has begun the put (R292), its ticket is used. -/
def Domain.issued (x : Domain) (timeout : Nat) (r : BusA) (c : Cause) : Domain :=
  { x with
    msi := x.msi.begin timeout r
    issues := x.issues + 1
    tickets := x.tickets.filter fun e => e.1 != c }

/-- The issue of one MSI (R292). -/
def State.issue (s : State) (d : Dom) (base : Addr) (c : Cause) : State :=
  let u := s.markIssued d c
  u.setDom d ((u.dom d).issued s.cfg.timeout (s.msiOf d base c) c)

/-- Step (6) of the tick of a domain.  `portIdle` says that the domain's transactor was idle before the
tick: a put acknowledged on this tick lets the next be issued on the tick after (R292, R304). -/
def State.issueStep (s : State) (d : Dom) (base : Addr) (portIdle : Bool) : State :=
  if (s.dom d).dm then
    let u := s.drawTickets d
    match leastTicket (u.dom d).tickets with
    | none => u
    | some e => if portIdle then u.issue d base e.1 else u
  else s.dropTickets d

/-! ### Direct mode -/

/-- One element of the direct output (R301). -/
structure DirectOut where
  source : Nat
  priority : BitVec 8
  hart : BitVec 14
deriving DecidableEq, Repr

/-- `direct_out[d]`: every deliverable source of a domain in direct mode (R301). -/
def State.directOut (s : State) (d : Dom) : List DirectOut :=
  if (s.dom d).dm then []
  else (s.sourcesWhere (s.deliverable d)).map fun n =>
    { source := n, priority := prioField (s.source d n).target,
      hart := hartField (s.source d n).target }

end Sys2Proof.Machine
end

