-- ==== Sys2Proof/Machine/Bus.lean ====
section
/-! DEFINITION. The Bus Transactor's four instructions (R170 to R183): the two calls of a master and the
two responses. -/

namespace Sys2Proof.Machine

/-- A call at the transactor in front of the port an address falls in: an idle transactor begins the
request; a busy one does not (R177, R181, log entry 8), nor does one that takes its response later on the
same tick (DESIGN CHOICE, log entry 21). -/
def callTransactor (r : BusA) (s : State) : Result3 :=
  match s.cfg.portOf r.address with
  | none => .refused (.badRequest .outsideRegions)
  | some p =>
    if (s.tx (.ext p)).phase = .idle then
      .next (s.setTx (.ext p) ((s.tx (.ext p)).begin s.cfg.timeout r))
    else .next s

/-- `GET32` (R171). -/
def execGet32 (a : Addr) (s : State) : Result3 := callTransactor (.get a) s

/-- `PUT32` (R172). -/
def execPut32 (a : Addr) (w : Word) (s : State) : Result3 := callTransactor (.put a w) s

/-- A response presented to a transactor.  It is taken in the Response phase only (R175, R181); it must
be the one the latched request requires (R171, R172). -/
def takeResponse (x : TxId) (wanted : BitVec 3) (result : Transactor → Result) (s : State) : Result3 :=
  if (s.tx x).phase ≠ .response then .next s
  else if (s.tx x).req.opcode = wanted then
    .next (s.setTx x (.finished (result (s.tx x))))
  else .refused .responseMismatch

/-- `AccessAck`: `put` returns `Ack` (R172, R175, R179). -/
def execAccessAck (x : TxId) (s : State) : Result3 := takeResponse x opPut (fun _ => .ack) s

/-- `AccessAckData`: `get` returns `Ack` and the word in the lanes of its address (R171, R175, R179). -/
def execAccessAckData (x : TxId) (data : DWord) (s : State) : Result3 :=
  takeResponse x opGet (fun t => .ackData (fromLanes t.req.address data)) s

end Sys2Proof.Machine
end

