-- ==== Sys2Proof/Machine/DomainBitmap.lean ====
section
/-! DEFINITION. The pending and enable registers of a domain, by bitmap and by number (R216 to R235). -/

namespace Sys2Proof.Machine

/-! ### What the bitmap words read -/

/-- `setip[k]` reads the pending bits of owned sources (R216). -/
def State.setipRead (s : State) (d : Dom) (k : Bank) : Word :=
  bitmapWord k fun n => s.owned d n && (s.source d n).pending

/-- `in_clrip[k]` reads the rectified inputs of owned sources (R220). -/
def State.inClripRead (s : State) (d : Dom) (k : Bank) : Word :=
  bitmapWord k fun n => s.owned d n && (s.source d n).rect (s.rawInput.getLsbD n)

/-- `setie[k]` reads the enable bits of owned sources (R224). -/
def State.setieRead (s : State) (d : Dom) (k : Bank) : Word :=
  bitmapWord k fun n => s.owned d n && (s.source d n).enabled

/-! ### Pending bits -/

/-- `GET.setip[k]` (R216). -/
def execGetSetip (d : Dom) (k : Bank) (s : State) : Result3 := .next (s.answerData (s.setipRead d k))

/-- `PUT.setip[k]` (R217). -/
def execPutSetip (d : Dom) (k : Bank) (w : Word) (s : State) : Result3 :=
  .next (forBits k w (fun n t => t.setPendingReq d n) s).acknowledge

/-- `GET.setipnum` (R218). -/
def execGetSetipnum (_d : Dom) (s : State) : Result3 := .next (s.answerData 0#32)

/-- `PUT.setipnum`, the whole word the source number (R137, R219). -/
def execPutSetipnum (d : Dom) (w : Word) (s : State) : Result3 :=
  .next (s.setPendingReq d w.toNat).acknowledge

/-- `GET.in_clrip[k]` (R220). -/
def execGetInClrip (d : Dom) (k : Bank) (s : State) : Result3 :=
  .next (s.answerData (s.inClripRead d k))

/-- `PUT.in_clrip[k]` (R221). -/
def execPutInClrip (d : Dom) (k : Bank) (w : Word) (s : State) : Result3 :=
  .next (forBits k w (fun n t => t.clearPendingReq d n) s).acknowledge

/-- `GET.clripnum` (R222). -/
def execGetClripnum (_d : Dom) (s : State) : Result3 := .next (s.answerData 0#32)

/-- `PUT.clripnum` (R223). -/
def execPutClripnum (d : Dom) (w : Word) (s : State) : Result3 :=
  .next (s.clearPendingReq d w.toNat).acknowledge

/-! ### Enable bits -/

/-- `GET.setie[k]` (R224). -/
def execGetSetie (d : Dom) (k : Bank) (s : State) : Result3 := .next (s.answerData (s.setieRead d k))

/-- `PUT.setie[k]` (R225). -/
def execPutSetie (d : Dom) (k : Bank) (w : Word) (s : State) : Result3 :=
  .next (forBits k w (fun n t => t.setEnable d n) s).acknowledge

/-- `GET.setienum` (R226). -/
def execGetSetienum (_d : Dom) (s : State) : Result3 := .next (s.answerData 0#32)

/-- `PUT.setienum` (R227). -/
def execPutSetienum (d : Dom) (w : Word) (s : State) : Result3 :=
  .next (s.setEnable d w.toNat).acknowledge

/-- `GET.clrie[k]` (R228). -/
def execGetClrie (_d : Dom) (_k : Bank) (s : State) : Result3 := .next (s.answerData 0#32)

/-- `PUT.clrie[k]` (R229). -/
def execPutClrie (d : Dom) (k : Bank) (w : Word) (s : State) : Result3 :=
  .next (forBits k w (fun n t => t.clearEnable d n) s).acknowledge

/-- `GET.clrienum` (R230). -/
def execGetClrienum (_d : Dom) (s : State) : Result3 := .next (s.answerData 0#32)

/-- `PUT.clrienum` (R231). -/
def execPutClrienum (d : Dom) (w : Word) (s : State) : Result3 :=
  .next (s.clearEnable d w.toNat).acknowledge

/-! ### The little-endian and big-endian set-by-number pair: exactly one is live -/

/-- `GET.setipnum_le` (R232). -/
def execGetSetipnumLe (_d : Dom) (s : State) : Result3 := .next (s.answerData 0#32)

/-- `PUT.setipnum_le` (R233). -/
def execPutSetipnumLe (d : Dom) (w : Word) (s : State) : Result3 :=
  .next (if (s.dom d).be then s else s.setPendingReq d w.toNat).acknowledge

/-- `GET.setipnum_be` (R234). -/
def execGetSetipnumBe (_d : Dom) (s : State) : Result3 := .next (s.answerData 0#32)

/-- `PUT.setipnum_be` (R235). -/
def execPutSetipnumBe (d : Dom) (w : Word) (s : State) : Result3 :=
  .next (if (s.dom d).be then s.setPendingReq d w.toNat else s).acknowledge

end Sys2Proof.Machine
end

