-- ==== Sys2Proof/Machine/DomainConfig.lean ====
section
/-! DEFINITION. The domain registers without a bitmap (R202 to R215, R240, R241): `domaincfg`,
`sourcecfg`, the read-only-zero block, the MSI address configuration and the unnamed offsets. -/

namespace Sys2Proof.Machine

/-! ### domaincfg -/

/-- `domaincfg` as it reads (R130, R202). -/
def State.domaincfgRead (s : State) (d : Dom) : Word :=
  s.cfg.tag ||| ((BitVec.ofBool (s.dom d).ie).setWidth 32 <<< 8) |||
    ((BitVec.ofBool (s.dom d).dm).setWidth 32 <<< 2) ||| (BitVec.ofBool (s.dom d).be).setWidth 32

/-- The domain after a write of `domaincfg` (R203). -/
def Domain.writeCfg (x : Domain) (k : DmKind) (w : Word) : Domain :=
  { x with
    ie := w.getLsbD 8
    dm := if k = .rw then w.getLsbD 2 else x.dm
    be := w.getLsbD 0 }

/-- `GET.domaincfg` (R202). -/
def execGetDomaincfg (d : Dom) (s : State) : Result3 := .next (s.answerData (s.domaincfgRead d))

/-- `PUT.domaincfg` (R203). -/
def execPutDomaincfg (d : Dom) (w : Word) (s : State) : Result3 :=
  .next (s.setDom d ((s.dom d).writeCfg (s.cfg.dmKind d) w)).acknowledge

/-! ### sourcecfg -/

/-- `sourcecfg[n]` as it reads (R204). -/
def State.sourcecfgRead (s : State) (d : Dom) (n : Nat) : Word :=
  if n = 0 ∨ s.cfg.nSrc.toNat < n then 0#32
  else match d with
    | .M => if s.deleg.getLsbD n then delegatedRead else (s.source .M n).mode.code.setWidth 32
    | .S => if s.deleg.getLsbD n then (s.source .S n).mode.code.setWidth 32 else 0#32

/-- The state after a write of `sourcecfg[n]` (R205). -/
def State.sourcecfgWrite (s : State) (d : Dom) (n : Nat) (w : Word) : State :=
  if n = 0 ∨ s.cfg.nSrc.toNat < n then s
  else match d with
    | .M =>
      if w.getLsbD sourcecfgD then
        if s.deleg.getLsbD n then s else s.delegate n
      else
        (if s.deleg.getLsbD n then s.undelegate n else s).setMode .M n (warlSm (w.extractLsb' 0 3))
    | .S => if s.deleg.getLsbD n then s.setMode .S n (warlSm (w.extractLsb' 0 3)) else s

/-- `GET.sourcecfg[s]` (R204). -/
def execGetSourcecfg (d : Dom) (n : BitVec 10) (s : State) : Result3 :=
  .next (s.answerData (s.sourcecfgRead d n.toNat))

/-- `PUT.sourcecfg[s]` (R205). -/
def execPutSourcecfg (d : Dom) (n : BitVec 10) (w : Word) (s : State) : Result3 :=
  .next (s.sourcecfgWrite d n.toNat w).acknowledge

/-! ### The read-only-zero block and the unnamed offsets -/

/-- `GET.rozero` (R206). -/
def execGetRozero (_d : Dom) (_off : BitVec 14) (s : State) : Result3 := .next (s.answerData 0#32)

/-- `PUT.rozero` (R207). -/
def execPutRozero (_d : Dom) (_off : BitVec 14) (_w : Word) (s : State) : Result3 := .next s.acknowledge

/-- `GET.reserved` (R240). -/
def execGetReserved (_d : Dom) (_off : BitVec 14) (s : State) : Result3 := .next (s.answerData 0#32)

/-- `PUT.reserved` (R241). -/
def execPutReserved (_d : Dom) (_off : BitVec 14) (_w : Word) (s : State) : Result3 := .next s.acknowledge

/-! ### MSI address configuration: live in M, read-only zero in S -/

/-- A register only the machine domain's window has (R36). -/
def onlyInM (d : Dom) (w : Word) : Word :=
  match d with
  | .M => w
  | .S => 0#32

/-- A write that only the machine domain's window takes (R36). -/
def onlyFromM (d : Dom) (s t : State) : State :=
  match d with
  | .M => t
  | .S => s

/-- `GET.mmsiaddrcfg` (R208). -/
def execGetMmsiaddrcfg (d : Dom) (s : State) : Result3 := .next (s.answerData (onlyInM d s.mmsiaddrcfg))

/-- `PUT.mmsiaddrcfg` (R209). -/
def execPutMmsiaddrcfg (d : Dom) (w : Word) (s : State) : Result3 :=
  .next (onlyFromM d s { s with mmsiaddrcfg := w }).acknowledge

/-- `GET.mmsiaddrcfgh` (R210). -/
def execGetMmsiaddrcfgh (d : Dom) (s : State) : Result3 :=
  .next (s.answerData (onlyInM d s.mmsiaddrcfgh))

/-- `PUT.mmsiaddrcfgh` (R211). -/
def execPutMmsiaddrcfgh (d : Dom) (w : Word) (s : State) : Result3 :=
  .next (onlyFromM d s { s with mmsiaddrcfgh := w }).acknowledge

/-- `GET.smsiaddrcfg` (R212). -/
def execGetSmsiaddrcfg (d : Dom) (s : State) : Result3 := .next (s.answerData (onlyInM d s.smsiaddrcfg))

/-- `PUT.smsiaddrcfg` (R213). -/
def execPutSmsiaddrcfg (d : Dom) (w : Word) (s : State) : Result3 :=
  .next (onlyFromM d s { s with smsiaddrcfg := w }).acknowledge

/-- `GET.smsiaddrcfgh` (R214). -/
def execGetSmsiaddrcfgh (d : Dom) (s : State) : Result3 :=
  .next (s.answerData (onlyInM d s.smsiaddrcfgh))

/-- `PUT.smsiaddrcfgh` (R215). -/
def execPutSmsiaddrcfgh (d : Dom) (w : Word) (s : State) : Result3 :=
  .next (onlyFromM d s { s with smsiaddrcfgh := w }).acknowledge

end Sys2Proof.Machine
end

