-- ==== Sys2Proof/Machine/DomainTargets.lean ====
section
/-! DEFINITION. `genmsi` and the target registers of a domain (R236 to R239). -/

namespace Sys2Proof.Machine

/-! ### genmsi -/

/-- `genmsi` as it reads: 0 in direct mode, else the stored word with the busy bit (R136, R236). -/
def State.genmsiRead (s : State) (d : Dom) : Word :=
  if (s.dom d).dm then
    (s.dom d).genmsi ||| ((BitVec.ofBool (s.dom d).genmsiBusy).setWidth 32 <<< 12)
  else 0#32

/-- The domain after a write of `genmsi`: ignored in direct mode and while busy (R237). -/
def Domain.writeGenmsi (x : Domain) (c : Config) (w : Word) : Domain :=
  if x.dm = false ∨ x.genmsiBusy then x else x.genmsiRequest (warlGenmsi c w)

/-- `GET.genmsi` (R236). -/
def execGetGenmsi (d : Dom) (s : State) : Result3 :=
  match s.cfg.genmsi with
  | .refused => .refused .genmsiRefused
  | .modelled => .next (s.answerData (s.genmsiRead d))

/-- `PUT.genmsi` (R237). -/
def execPutGenmsi (d : Dom) (w : Word) (s : State) : Result3 :=
  match s.cfg.genmsi with
  | .refused => .refused .genmsiRefused
  | .modelled => .next (s.setDom d ((s.dom d).writeGenmsi s.cfg w)).acknowledge

/-! ### targets -/

/-- `targets[n]` as it reads, through the layout of the current delivery mode (R238). -/
def State.targetRead (s : State) (d : Dom) (n : Nat) : Word :=
  if s.owned d n then (s.source d n).target &&& targetReadMask d (s.dom d).dm else 0#32

/-- `GET.targets[s]` (R238). -/
def execGetTargets (d : Dom) (n : BitVec 10) (s : State) : Result3 :=
  .next (s.answerData (s.targetRead d n.toNat))

/-- `PUT.targets[s]` (R239). -/
def execPutTargets (d : Dom) (n : BitVec 10) (w : Word) (s : State) : Result3 :=
  .next (s.modifyOwned d n.toNat fun x =>
    { x with target := warlTarget s.cfg d (s.dom d).dm w }).acknowledge

end Sys2Proof.Machine
end

