-- ==== Sys2Proof/Machine/InterruptFile.lean ====
section
/-! DEFINITION. The interrupt file (R320 to R352): the indirect access, the priority multiplexer, the
claim, and the page on the bus. -/

namespace Sys2Proof.Machine

/-! ### Registers of a file -/

/-- A register as it reads, 64 bits; the hard-wired bit of identity 0 reads 0 (R49 to R52, R143). -/
def IFile.read (x : IFile) (r : IReg) : DWord :=
  match r with
  | .eidelivery => (BitVec.ofBool x.eidelivery).setWidth 64
  | .eithreshold => x.eithreshold.setWidth 64
  | .eip k => getBank x.eip k &&& r.mask
  | .eie k => getBank x.eie k &&& r.mask

/-- The file with a register replaced by a value already masked (R324). -/
def IFile.store (x : IFile) (r : IReg) (v : DWord) : IFile :=
  match r with
  | .eidelivery => { x with eidelivery := v.getLsbD 0 }
  | .eithreshold => { x with eithreshold := v.setWidth 11 }
  | .eip k => { x with eip := setBank x.eip k v }
  | .eie k => { x with eie := setBank x.eie k v }

/-- Read, combine, mask, store (R324, R325). -/
def IFile.access (x : IFile) (r : IReg) (op : CsrOp) (v : DWord) : IFile :=
  x.store r (op.combine (x.read r) v &&& r.mask)

/-- The indirect access of hart `h` to a defined register (R324): illegal where the context names no
file (R323), otherwise one read-modify-write of the register of the one file it names. -/
def csrAccess (h : Nat) (x : Ctx) (r : IReg) (op : CsrOp) (v : DWord) (s : State) : Result3 :=
  match s.cfg.fileOf x with
  | none => .next (s.illegalAccess h)
  | some f =>
    .next ((s.setFile h f ((s.file h f).access r op v)).legalAccess h ((s.file h f).read r))

/-! ### The priority multiplexer -/

/-- Identity `i` is pending and enabled; identity 0 never is (R341, R352). -/
def IFile.candidate (x : IFile) (i : Nat) : Bool :=
  decide (1 ≤ i) && x.eip.getLsbD i && x.eie.getLsbD i

/-- Identity `i` is not masked by the threshold (R342). -/
def IFile.admits (x : IFile) (i : Nat) : Bool :=
  x.eithreshold.toNat == 0 || decide (i < x.eithreshold.toNat)

/-- `top(F)`, the top enabled pending identity, 0 where there is none (R341). -/
def IFile.top (x : IFile) : Nat :=
  if x.eidelivery then
    match lowest (nId + 1) x.candidate with
    | none => 0
    | some m => if x.admits m then m else 0
  else 0

/-- `topei(F)` (R144, R343). -/
def IFile.topei (x : IFile) : Word :=
  (BitVec.ofNat 32 x.top <<< 16) ||| BitVec.ofNat 32 x.top

/-- `irq(F)` (R344). -/
def IFile.irq (x : IFile) : Bool := x.top != 0

/-! ### Claim and MSI reception -/

/-- The file after a claim: its top identity is no longer pending (R345). -/
def IFile.claimed (x : IFile) : IFile :=
  if x.top = 0 then x else { x with eip := setBit x.eip x.top false }

/-- The file after an MSI of data `w`: identities 1 to 2047 become pending, any other number is
ignored, the whole 32-bit value compared (R347, R349). -/
def IFile.receive (x : IFile) (w : Word) : IFile :=
  if 1 ≤ w.toNat ∧ w.toNat ≤ nId then { x with eip := setBit x.eip w.toNat true } else x

/-- The claim port answers `id` (R345). -/
def State.claimAnswer (s : State) (h : Nat) (id : Nat) : State :=
  s.setHart h { s.hart h with claimId := BitVec.ofNat 11 id }

/-! ### Meanings: illegal indirect accesses -/

/-- `CSRX.illegal_op` (R323, R326). -/
def execCsrxIllegalOp (h : Nat) (_sel : BitVec 12) (_c : Ctx) (_v : DWord) (s : State) : Result3 :=
  .next (s.illegalAccess h)

/-- `CSR.illegal_context` (R323, R326). -/
def execCsrIllegalContext (h : Nat) (_sel : BitVec 12) (_c : Ctx) (_op : CsrOp) (_v : DWord)
    (s : State) : Result3 :=
  .next (s.illegalAccess h)

/-- `CSR.illegal_selector` (R323, R326). -/
def execCsrIllegalSelector (h : Nat) (_sel : BitVec 12) (_c : Ctx) (_op : CsrOp) (_v : DWord)
    (s : State) : Result3 :=
  .next (s.illegalAccess h)

/-! ### Meanings: eidelivery and eithreshold -/

/-- `CSRW.eidelivery` (R328). -/
def execCsrwEidelivery (h : Nat) (c : Ctx) (v : DWord) (s : State) : Result3 :=
  csrAccess h c .eidelivery .write v s

/-- `CSRS.eidelivery` (R329). -/
def execCsrsEidelivery (h : Nat) (c : Ctx) (v : DWord) (s : State) : Result3 :=
  csrAccess h c .eidelivery .set v s

/-- `CSRC.eidelivery` (R330). -/
def execCsrcEidelivery (h : Nat) (c : Ctx) (v : DWord) (s : State) : Result3 :=
  csrAccess h c .eidelivery .clear v s

/-- `CSRW.eithreshold` (R332). -/
def execCsrwEithreshold (h : Nat) (c : Ctx) (v : DWord) (s : State) : Result3 :=
  csrAccess h c .eithreshold .write v s

/-- `CSRS.eithreshold` (R333). -/
def execCsrsEithreshold (h : Nat) (c : Ctx) (v : DWord) (s : State) : Result3 :=
  csrAccess h c .eithreshold .set v s

/-- `CSRC.eithreshold` (R334). -/
def execCsrcEithreshold (h : Nat) (c : Ctx) (v : DWord) (s : State) : Result3 :=
  csrAccess h c .eithreshold .clear v s

/-! ### Meanings: eip and eie -/

/-- `CSRW.eip[k]` (R335). -/
def execCsrwEip (h : Nat) (c : Ctx) (k : Bank) (v : DWord) (s : State) : Result3 :=
  csrAccess h c (.eip k) .write v s

/-- `CSRS.eip[k]` (R336). -/
def execCsrsEip (h : Nat) (c : Ctx) (k : Bank) (v : DWord) (s : State) : Result3 :=
  csrAccess h c (.eip k) .set v s

/-- `CSRC.eip[k]` (R337). -/
def execCsrcEip (h : Nat) (c : Ctx) (k : Bank) (v : DWord) (s : State) : Result3 :=
  csrAccess h c (.eip k) .clear v s

/-- `CSRW.eie[k]` (R338). -/
def execCsrwEie (h : Nat) (c : Ctx) (k : Bank) (v : DWord) (s : State) : Result3 :=
  csrAccess h c (.eie k) .write v s

/-- `CSRS.eie[k]` (R339). -/
def execCsrsEie (h : Nat) (c : Ctx) (k : Bank) (v : DWord) (s : State) : Result3 :=
  csrAccess h c (.eie k) .set v s

/-- `CSRC.eie[k]` (R340). -/
def execCsrcEie (h : Nat) (c : Ctx) (k : Bank) (v : DWord) (s : State) : Result3 :=
  csrAccess h c (.eie k) .clear v s

/-! ### Meanings: claim and the page -/

/-- `CLAIM`: a context without a file answers 0 and changes nothing else (R345, R346). -/
def execClaim (h : Nat) (c : Ctx) (s : State) : Result3 :=
  match s.cfg.fileOf c with
  | none => .next (s.claimAnswer h 0)
  | some f => .next ((s.setFile h f (s.file h f).claimed).claimAnswer h (s.file h f).top)

/-- `PUT.seteipnum`, the reception of an MSI (R347, R349). -/
def execPutSeteipnum (h : Nat) (f : FileId) (w : Word) (s : State) : Result3 :=
  .next (s.setFile h f ((s.file h f).receive w)).acknowledge

/-- `GET.page` reads 0 (R348). -/
def execGetPage (_h : Nat) (_f : FileId) (_poff : BitVec 12) (s : State) : Result3 := .next (s.answerData 0#32)

/-- `PUT.page` is acknowledged and ignored (R348). -/
def execPutPage (_h : Nat) (_f : FileId) (_poff : BitVec 12) (_w : Word) (s : State) :
    Result3 := .next s.acknowledge

end Sys2Proof.Machine
end

