-- ==== Sys2Proof/Machine/Dispatch.lean ====
section
/-! DEFINITION. The meaning of every instruction: one arm per row of the opcode table. -/

namespace Sys2Proof.Machine

-- The meaning of an instruction at a state, without what the tick adds around it.
def exec (i : Instr) (s : State) : Host.Outcome State Fault Refusal :=
  match i with
  | .get32 a => Sys2Proof.Machine.execGet32 a s
  | .put32 a w => Sys2Proof.Machine.execPut32 a w s
  | .accessAck x => Sys2Proof.Machine.execAccessAck x s
  | .accessAckData x data => Sys2Proof.Machine.execAccessAckData x data s
  | .getDomaincfg d => Sys2Proof.Machine.execGetDomaincfg d s
  | .putDomaincfg d w => Sys2Proof.Machine.execPutDomaincfg d w s
  | .getMmsiaddrcfg d => Sys2Proof.Machine.execGetMmsiaddrcfg d s
  | .putMmsiaddrcfg d w => Sys2Proof.Machine.execPutMmsiaddrcfg d w s
  | .getMmsiaddrcfgh d => Sys2Proof.Machine.execGetMmsiaddrcfgh d s
  | .putMmsiaddrcfgh d w => Sys2Proof.Machine.execPutMmsiaddrcfgh d w s
  | .getSmsiaddrcfg d => Sys2Proof.Machine.execGetSmsiaddrcfg d s
  | .putSmsiaddrcfg d w => Sys2Proof.Machine.execPutSmsiaddrcfg d w s
  | .getSmsiaddrcfgh d => Sys2Proof.Machine.execGetSmsiaddrcfgh d s
  | .putSmsiaddrcfgh d w => Sys2Proof.Machine.execPutSmsiaddrcfgh d w s
  | .getSetipnum d => Sys2Proof.Machine.execGetSetipnum d s
  | .putSetipnum d w => Sys2Proof.Machine.execPutSetipnum d w s
  | .getClripnum d => Sys2Proof.Machine.execGetClripnum d s
  | .putClripnum d w => Sys2Proof.Machine.execPutClripnum d w s
  | .getSetienum d => Sys2Proof.Machine.execGetSetienum d s
  | .putSetienum d w => Sys2Proof.Machine.execPutSetienum d w s
  | .getClrienum d => Sys2Proof.Machine.execGetClrienum d s
  | .putClrienum d w => Sys2Proof.Machine.execPutClrienum d w s
  | .getSetipnumLe d => Sys2Proof.Machine.execGetSetipnumLe d s
  | .putSetipnumLe d w => Sys2Proof.Machine.execPutSetipnumLe d w s
  | .getSetipnumBe d => Sys2Proof.Machine.execGetSetipnumBe d s
  | .putSetipnumBe d w => Sys2Proof.Machine.execPutSetipnumBe d w s
  | .getGenmsi d => Sys2Proof.Machine.execGetGenmsi d s
  | .putGenmsi d w => Sys2Proof.Machine.execPutGenmsi d w s
  | .getSourcecfg d n => Sys2Proof.Machine.execGetSourcecfg d n s
  | .putSourcecfg d n w => Sys2Proof.Machine.execPutSourcecfg d n w s
  | .getSetip d k => Sys2Proof.Machine.execGetSetip d k s
  | .putSetip d k w => Sys2Proof.Machine.execPutSetip d k w s
  | .getInClrip d k => Sys2Proof.Machine.execGetInClrip d k s
  | .putInClrip d k w => Sys2Proof.Machine.execPutInClrip d k w s
  | .getSetie d k => Sys2Proof.Machine.execGetSetie d k s
  | .putSetie d k w => Sys2Proof.Machine.execPutSetie d k w s
  | .getClrie d k => Sys2Proof.Machine.execGetClrie d k s
  | .putClrie d k w => Sys2Proof.Machine.execPutClrie d k w s
  | .getTargets d n => Sys2Proof.Machine.execGetTargets d n s
  | .putTargets d n w => Sys2Proof.Machine.execPutTargets d n w s
  | .getRozero d off => Sys2Proof.Machine.execGetRozero d off s
  | .putRozero d off w => Sys2Proof.Machine.execPutRozero d off w s
  | .getReserved d off => Sys2Proof.Machine.execGetReserved d off s
  | .putReserved d off w => Sys2Proof.Machine.execPutReserved d off w s
  | .putSeteipnum h f w => Sys2Proof.Machine.execPutSeteipnum h f w s
  | .getPage h f poff => Sys2Proof.Machine.execGetPage h f poff s
  | .putPage h f poff w => Sys2Proof.Machine.execPutPage h f poff w s
  | .csrxIllegalOp h sel c v => Sys2Proof.Machine.execCsrxIllegalOp h sel c v s
  | .csrIllegalContext h sel c op v => Sys2Proof.Machine.execCsrIllegalContext h sel c op v s
  | .csrwEidelivery h c v => Sys2Proof.Machine.execCsrwEidelivery h c v s
  | .csrsEidelivery h c v => Sys2Proof.Machine.execCsrsEidelivery h c v s
  | .csrcEidelivery h c v => Sys2Proof.Machine.execCsrcEidelivery h c v s
  | .csrwEithreshold h c v => Sys2Proof.Machine.execCsrwEithreshold h c v s
  | .csrsEithreshold h c v => Sys2Proof.Machine.execCsrsEithreshold h c v s
  | .csrcEithreshold h c v => Sys2Proof.Machine.execCsrcEithreshold h c v s
  | .csrwEip h c k v => Sys2Proof.Machine.execCsrwEip h c k v s
  | .csrsEip h c k v => Sys2Proof.Machine.execCsrsEip h c k v s
  | .csrcEip h c k v => Sys2Proof.Machine.execCsrcEip h c k v s
  | .csrwEie h c k v => Sys2Proof.Machine.execCsrwEie h c k v s
  | .csrsEie h c k v => Sys2Proof.Machine.execCsrsEie h c k v s
  | .csrcEie h c k v => Sys2Proof.Machine.execCsrcEie h c k v s
  | .csrIllegalSelector h sel c op v => Sys2Proof.Machine.execCsrIllegalSelector h sel c op v s
  | .claim h c => Sys2Proof.Machine.execClaim h c s

end Sys2Proof.Machine
end

