-- ==== Sys2Proof/Machine/Tick.lean ====
section
/-! DEFINITION. One tick of the whole block (R96 to R98, R181): what the environment presents, which bus
requests are accepted and which responses taken, in which order the tick's instructions run, and the
end of the tick. -/

namespace Sys2Proof.Machine

/-! ### What the environment presents -/

/-- The next tick; when none is scheduled, an idle one (log entry 9). -/
def State.nextTick (s : State) : Tick :=
  match s.inputs with
  | [] => .idle
  | t :: _ => t

/-- The lines after the changes of a tick, the later one of two changes of a line winning. -/
def driveLines (line : SrcBits) (changes : List (Nat × Bool)) : SrcBits :=
  changes.foldl (fun l x => setBit l x.1 x.2) line

/-- The state in which the next tick's events happen: the tick is taken off the schedule and its line
changes hold. -/
def State.enterTick (s : State) : State :=
  { s with inputs := s.inputs.tail, line := driveLines s.line s.nextTick.lines }

/-- `RESET`: every element of the block takes its reset value; the configuration and the environment
are not the block's (R410, R411, R413). -/
def State.applyReset (s : State) : State :=
  { State.resetOf s.cfg with line := s.line, inputs := s.inputs, freeIndex := s.freeIndex }

/-! ### The bus on one tick -/

/-- The slave behind transactor `x` holds `ready` on this tick (R174, R178). -/
def Tick.ready (t : Tick) (x : TxId) : Bool := !t.notReady.contains x

/-- The slave behind transactor `x` presents the response it owes on this tick (R175, R178). -/
def Tick.answers (t : Tick) (x : TxId) : Bool := !t.silent.contains x

/-- Fewer than `TIMEOUT_CYCLES` ticks have passed since the phase began: the bound of a slave of the block
for its response (R178, R426, D39).  What lies outside the block has the transactor's own bound alone
(R176, R304, log entry 20). -/
def State.inTime (s : State) (x : TxId) : Bool :=
  decide (1 < (s.tx x).deadline) || (s.cfg.portOf (s.tx x).req.address).isNone

/-- The slave behind transactor `x` accepts a request on this tick: it is ready (R174, R178), and where an
MSI may not be accepted on the last tick it keeps the bound of R426 (log entry 20). -/
def State.takes (s : State) (t : Tick) (x : TxId) : Bool :=
  t.ready x &&
    match x with
    | .ext _ => true
    | .msi _ => s.cfg.msiOnLastTick || s.inTime x

/-- The transactors of a list whose request is accepted on this tick: in the Request phase, the slave
taking it, and no other request accepted at the same port (R98, R178, log entry 10). -/
def acceptsFrom (s : State) (t : Tick) (used : List Port) : List TxId → List TxId
  | [] => []
  | x :: rest =>
    if (s.tx x).phase = .request ∧ s.takes t x then
      match s.cfg.portOf (s.tx x).req.address with
      | none => x :: acceptsFrom s t used rest
      | some p =>
        if used.contains p then acceptsFrom s t used rest
        else x :: acceptsFrom s t (p :: used) rest
    else acceptsFrom s t used rest

/-- The transactors whose request is accepted on this tick. -/
def State.accepts (s : State) (t : Tick) : List TxId := acceptsFrom s t [] s.cfg.transactors

/-- The transactors that take their response on this tick: the slave presents it, in time (R175, R178). -/
def State.responds (s : State) (t : Tick) : List TxId :=
  s.cfg.transactors.filter fun x => (s.tx x).phase == .response && t.answers x && s.inTime x

/-- The transactors whose phase does not end on this tick (R176). -/
def State.waits (s : State) (t : Tick) : List TxId :=
  s.cfg.transactors.filter fun x =>
    (s.tx x).phase != .idle && !(s.accepts t).contains x && !(s.responds t).contains x

/-- The first transactor whose deadline reaches 0 on this tick (R176, R371). -/
def State.expired (s : State) (t : Tick) : Option TxId :=
  (s.waits t).find? fun x => decide ((s.tx x).deadline ≤ 1)

/-- The deadlines of the waiting transactors counted down (R176). -/
def State.countDown (s : State) (t : Tick) : State :=
  (s.waits t).foldl (fun u x => u.setTx x (u.tx x).counted) s

/-! ### The instructions of one tick, in order -/

/-- What happens on a tick: an instruction runs, for an accepted request through the transactor
`via`; or a request is accepted at an address outside the block, where it leaves it (R300). -/
inductive Event where
  | run (via : Option TxId) (i : Instr)
  | away (x : TxId)
deriving DecidableEq, Repr

/-- Requests of an agent, decoded. -/
def fetchRequests (c : Config) : List Req → Except Reject (List Event)
  | [] => .ok []
  | r :: rest =>
    match decode c (.agent r), fetchRequests c rest with
    | .error e, _ => .error e
    | .ok _, .error e => .error e
    | .ok i, .ok es => .ok (.run none i :: es)

/-- Responses taken on a tick, decoded at their transactors. -/
def fetchResponses (s : State) : List TxId → Except Reject (List Event)
  | [] => .ok []
  | x :: rest =>
    match decode s.cfg (.response x (s.tx x).owed), fetchResponses s rest with
    | .error e, _ => .error e
    | .ok _, .error e => .error e
    | .ok i, .ok es => .ok (.run none i :: es)

/-- Requests accepted on a tick, decoded at the slave port their address falls in. -/
def fetchAccepts (s : State) : List TxId → Except Reject (List Event)
  | [] => .ok []
  | x :: rest =>
    match fetchAccepts s rest with
    | .error e => .error e
    | .ok es =>
      match s.cfg.portOf (s.tx x).req.address with
      | none => .ok (.away x :: es)
      | some p =>
        match decode s.cfg (.slave (s.orderRequest p (s.tx x).req)) with
        | .error e => .error e
        | .ok i => .ok (.run (some x) i :: es)

/-- The port behind transactor `x`'s request is the one given. -/
def State.addresses (s : State) (x : TxId) (p : Port) : Bool :=
  s.cfg.portOf (s.tx x).req.address == some p

/-- A master's call. -/
def Req.isCall : Req → Bool
  | .call _ => true
  | .csr _ | .claim _ => false

/-- An indirect access. -/
def Req.isCsr : Req → Bool
  | .csr _ => true
  | .call _ | .claim _ => false

/-- A claim. -/
def Req.isClaim : Req → Bool
  | .claim _ => true
  | .call _ | .csr _ => false

/-- Two event lists one after the other, the first rejection winning. -/
def andThen (a b : Except Reject (List Event)) : Except Reject (List Event) :=
  match a, b with
  | .error e, _ => .error e
  | .ok _, .error e => .error e
  | .ok xs, .ok ys => .ok (xs ++ ys)

/-- The three kinds of event of an interrupt file, one after the other (R97). -/
def SameTickOrder.sequence (o : SameTickOrder) (access claim msi : Except Reject (List Event)) :
    Except Reject (List Event) :=
  match o with
  | .accessClaimMsi => andThen access (andThen claim msi)
  | .accessMsiClaim => andThen access (andThen msi claim)
  | .claimAccessMsi => andThen claim (andThen access msi)
  | .claimMsiAccess => andThen claim (andThen msi access)
  | .msiAccessClaim => andThen msi (andThen access claim)
  | .msiClaimAccess => andThen msi (andThen claim access)

/-- The events of a tick in the order of R96 and R97: calls and responses; the supervisor domain's
access, then the machine domain's, which the other sees a tick later (R307, D12, log entry 11); then, in
the order of `SAME_TICK_ORDER`, indirect accesses, claims, and what arrives at a page or leaves the
block.  DESIGN CHOICE (log entry 21), unsafe: the spec gives calls and responses no order within a tick;
calls run first, so one that meets the response of its transactor's last request begins nothing. -/
def State.events (s : State) (t : Tick) : Except Reject (List Event) :=
  let acc := s.accepts t
  let atS := acc.filter fun x => s.addresses x (.window .S)
  let atM := acc.filter fun x => s.addresses x (.window .M)
  let rest := acc.filter fun x =>
    !s.addresses x (.window .S) && !s.addresses x (.window .M)
  andThen (fetchRequests s.cfg (t.requests.filter Req.isCall)) <|
  andThen (fetchResponses s (s.responds t)) <|
  andThen (fetchAccepts s atS) <|
  andThen (fetchAccepts s atM) <|
  SameTickOrder.sequence s.cfg.sameTickOrder (fetchRequests s.cfg (t.requests.filter Req.isCsr))
    (fetchRequests s.cfg (t.requests.filter Req.isClaim)) (fetchAccepts s rest)

/-- The harts of a kind of request, in order. -/
def csrHarts : List Req → List Nat
  | [] => []
  | .csr r :: rest => r.hart :: csrHarts rest
  | .call _ :: rest | .claim _ :: rest => csrHarts rest

/-- The harts that claim, in order. -/
def claimHarts : List Req → List Nat
  | [] => []
  | .claim r :: rest => r.hart :: claimHarts rest
  | .call _ :: rest | .csr _ :: rest => claimHarts rest

/-- Some number stands twice. -/
def hasRepeat : List Nat → Bool
  | [] => false
  | x :: rest => rest.contains x || hasRepeat rest

/-- A hart's CSR port or claim port is given two requests on one tick (R98, R321). -/
def Tick.overrun (t : Tick) : Bool :=
  hasRepeat (csrHarts t.requests) || hasRepeat (claimHarts t.requests)

/-- The request of transactor `x` was accepted: it waits for the response to the slave's answer
(R178, R181). -/
def State.acceptedBy (s : State) (x : TxId) : State :=
  let r := (s.tx x).req
  s.setTx x ((s.tx x).accepted s.cfg.timeout
    ((s.orderAnswer (s.cfg.portOf r.address) s.answer).toBusD r.address))

/-- The outcome of an event. -/
def runEvent (e : Event) (s : State) : Result3 :=
  match e with
  | .run none i => exec i s
  | .run (some x) i =>
    match exec i s with
    | .next u => .next (u.acceptedBy x)
    | .fault r => .fault r
    | .refused r => .refused r
  | .away x => .next (s.acknowledge.acceptedBy x)

/-- The outcome of the events of a tick, one after the other. -/
def runEvents : List Event → State → Result3
  | [], s => .next s
  | e :: rest, s =>
    match runEvent e s with
    | .next u => runEvents rest u
    | .fault r => .fault r
    | .refused r => .refused r

/-! ### The end of the tick -/

/-- Steps (3) to (5) of the tick of both domains (R96, R275). -/
def State.settle (s : State) : State := s.sampleLines.trackLevels.rearmAll

/-- The transactor of domain `d`'s delivery engine is idle (R46). -/
def State.msiIdle (s : State) (d : Dom) : Bool := (s.dom d).msi.phase == .idle

/-- Steps (3) to (6) (R96).  `pre` is the state before the tick: domain S composes with the words it
had then (R307), and a domain issues only if its transactor was idle then (R304). -/
def State.endTick (pre s : State) : State :=
  let u := s.settle
  let v := u.issueStep .M (u.levelBase .M) (pre.msiIdle .M)
  v.issueStep .S (pre.levelBase .S) (pre.msiIdle .S)

/-- A tick without reset, from the state its events happen in (R96 to R98, R384). -/
def State.runTick (s : State) (t : Tick) : Result3 :=
  match s.expired t with
  | some x => protocolTimeout x
  | none =>
    if t.overrun then .refused .portOverrun
    else match s.events t with
      | .error e => .refused (.badRequest e)
      | .ok es =>
        match runEvents es (s.countDown t) with
        | .next u => .next (State.endTick s u)
        | .fault r => .fault r
        | .refused r => .refused r

/-- One tick (R24, R96). -/
def State.tick (s : State) : Result3 :=
  if s.nextTick.reset then .next s.enterTick.applyReset
  else s.enterTick.runTick s.nextTick

/-! ### Presenting a message for the next tick -/

/-- Every transactor but one. -/
def othersOf (c : Config) (x : TxId) : List TxId := c.transactors.filter fun y => y != x

/-- A tick that presents nothing and lets only transactor `x` move. -/
def Tick.only (c : Config) (x : TxId) : Tick :=
  { Tick.idle with notReady := othersOf c x, silent := othersOf c x }

/-- The state whose next tick runs the instruction of a message: a request of an agent is scheduled
as that tick's only request; a request at a slave port stands latched in that port's transactor; a
response is owed to its transactor, whose latched request is one it answers. -/
def State.present (s : State) (m : Msg) : State :=
  match m with
  | .agent r =>
    { s with inputs :=
        { Tick.idle with
          requests := [r], notReady := s.cfg.transactors, silent := s.cfg.transactors } :: s.inputs }
  | .slave r =>
    match s.cfg.portOf r.address with
    | none => s
    | some p =>
      { s.setTx (.ext p) ((s.tx (.ext p)).begin s.cfg.timeout r) with
        inputs := Tick.only s.cfg (.ext p) :: s.inputs }
  | .response x r =>
    let asked : BusA := if r.opcode = opAckData then .get s.cfg.baseM else .put s.cfg.baseM 0#32
    { s.setTx x (((s.tx x).begin s.cfg.timeout asked).accepted s.cfg.timeout r) with
      inputs := Tick.only s.cfg x :: s.inputs }

end Sys2Proof.Machine
end

