-- ==== Sys2Proof/Machine/Step.lean ====
section
/-! DEFINITION. The step: one tick of the clock. -/

namespace Sys2Proof.Machine

/-- One step is one tick (R24, R96): the environment's next tick is presented, the instructions it
brings are fetched, decoded and run, and the tick ends. -/
def step (s : State) : Host.Outcome State Fault Refusal := s.tick

/-- The state whose next step runs the instruction of a word of the opcode table (log entry 4). -/
def State.withFetchWord (s : State) (nbits w : Nat) : State :=
  match tableMsg s.cfg nbits w with
  | none => s
  | some m => s.present m

end Sys2Proof.Machine
end

