-- ==== Sys2Proof/Safety.lean ====
section
/-! DEFINITION. What the claims speak of: the invariant of the state (R47, R276, R352), the requirements
on the platform and on boot software (R415, R416), and frames, that is, what an operation leaves
unchanged. -/

namespace Sys2Proof.Machine

/-! ### The invariant -/

/-- One copy of a source, with its sampled line: an Inactive source is not pending (I2), a level source
tracks its line (I3), a notified source is pending (I4). -/
def Source.consistent (x : Source) (raw : Bool) : Bool :=
  !(x.mode == .inactive && x.pending) && !(x.mode.isLevel && x.pending != x.rect raw) &&
    !(x.notified && !x.pending)

/-- A target word, or `genmsi`, names a hart that exists (R133, R136, R373). -/
def namesHart (c : Config) (w : Word) : Bool := decide ((hartField w).toNat < c.nHart)

/-- The sources of a domain: the table is canonical; every copy that is not all zero is owned (I5, I6),
consistent, and has a target that names a hart. -/
def State.sourcesOk (s : State) (d : Dom) : Bool :=
  tblWf Source.zero (s.dom d).sources &&
    (s.dom d).sources.all fun e =>
      s.owned d e.1 && e.2.consistent (s.rawInput.getLsbD e.1) && namesHart s.cfg e.2.target

/-- Both tables of sources are in canonical form. -/
def State.sourcesCanonical (s : State) : Prop := ∀ d, tblWf Source.zero (s.dom d).sources = true

/-- The request a transactor may hold: the one in front of a slave port an access to that port (R170,
R183), the one of a delivery engine a write (R292). -/
def mayHold (c : Config) (x : TxId) (r : BusA) : Bool :=
  match x with
  | .ext p => c.portOf r.address == some p && (r.opcode == opGet || r.opcode == opPut)
  | .msi _ => r.opcode == opPut

/-- Transactor `x`: Idle with the deadline 0, or in a phase with a deadline from 1 to `TIMEOUT_CYCLES`,
a request of a legal shape that it may hold and, in the Response phase, the response that the request
requires (R171, R172, R176, R179, R181). -/
def Transactor.ok (c : Config) (x : TxId) (t : Transactor) : Bool :=
  let live := decide (1 ≤ t.deadline) && decide (t.deadline ≤ c.timeout) && t.req.legalShape &&
    mayHold c x t.req
  match t.phase with
  | .idle => t.deadline == 0
  | .request => live
  | .response => live && t.owed.opcode == (if t.req.opcode = opGet then opAckData else opAck)

/-- A domain's own words: a fixed delivery mode has its value (R35), `genmsi` names a hart and is never
busy where it is not modelled (R37), both transactors are as they must be, and in MSI mode exactly the
causes that wait hold a ticket (log entry 5). -/
def State.domainOk (s : State) (d : Dom) : Bool :=
  (match s.cfg.dmKind d with
    | .rw => true
    | .fixedMsi => (s.dom d).dm
    | .fixedDirect => !(s.dom d).dm) &&
  namesHart s.cfg (s.dom d).genmsi &&
  !((s.dom d).genmsiBusy && s.cfg.genmsi == .refused) &&
  (s.dom d).port.ok s.cfg (.ext (.window d)) && (s.dom d).msi.ok s.cfg (.msi d) &&
  (s.dom d).tickets.map Prod.fst == (if (s.dom d).dm then s.want d else [])

/-- File `f` of hart `h`: identity 0 is neither pending nor enabled (R352), and the transactor is as it
must be. -/
def FileUnit.ok (c : Config) (h : Nat) (f : FileId) (u : FileUnit) : Bool :=
  !u.file.eip.getLsbD 0 && !u.file.eie.getLsbD 0 && u.port.ok c (.ext (.page h f))

/-- Hart `h`'s side: its guest files are those of the configuration, in canonical form. -/
def Hart.ok (c : Config) (h : Nat) (x : Hart) : Bool :=
  x.fileM.ok c h .M && x.fileS.ok c h .S && tblWf FileUnit.zero x.guests &&
    x.guests.all fun e =>
      decide (1 ≤ e.1) && decide (e.1 ≤ c.geilen.toNat) && e.2.ok c h (.G (BitVec.ofNat 6 e.1))

/-- The harts: the table is canonical and holds only harts that exist. -/
def State.hartsOk (s : State) : Bool :=
  tblWf Hart.zero s.harts && s.harts.all fun e => decide (e.1 < s.cfg.nHart) && e.2.ok s.cfg e.1

/-- The invariant of the block: the parameters are legal, delegation bits and sampled lines stand only
for sources that exist (I6), and every domain, source, hart and file is as it must be. -/
def State.inv (s : State) : Bool :=
  s.cfg.valid && s.deleg &&& ~~~sourceMask s.cfg == 0#1024 &&
    s.rawInput &&& ~~~sourceMask s.cfg == 0#1024 &&
    s.sourcesOk .M && s.sourcesOk .S && s.domainOk .M && s.domainOk .S && s.hartsOk

/-! ### What the environment must keep to -/

/-- A tick's input is legal: every request has a meaning, and no port of a hart is given two (R88, R98,
R321). -/
def Tick.legal (c : Config) (t : Tick) : Bool :=
  t.requests.all (fun r => (decode c (.agent r)).toOption.isSome) && !t.overrun

/-- Every transactor of the block is idle. -/
def State.allIdle (s : State) : Prop := ∀ x ∈ s.cfg.transactors, (s.tx x).phase = .idle

/-- What boot leaves: the requirement of R416 on the platform; the MSI bases name the interrupt files of
every hart (R415); no base has a 1 bit in common with a hart's offset (R416 (c)). -/
def State.booted (s : State) : Prop :=
  s.cfg.guestAligned ∧ ∀ hc ∈ s.cfg.harts,
    s.levelBase .M ||| hc.offM = hc.mfileBase ∧ s.levelBase .S ||| hc.offS = hc.sfileBase ∧
      s.levelBase .M &&& hc.offM = 0#64 ∧ s.levelBase .S &&& hc.offS = 0#64

/-! ### Kinds of instruction -/

/-- The domain window an instruction is an access to, if it is one. -/
def windowOf : Instr → Option Dom
  | .getDomaincfg d | .putDomaincfg d _ | .getMmsiaddrcfg d | .putMmsiaddrcfg d _
  | .getMmsiaddrcfgh d | .putMmsiaddrcfgh d _ | .getSmsiaddrcfg d | .putSmsiaddrcfg d _
  | .getSmsiaddrcfgh d | .putSmsiaddrcfgh d _ | .getSetipnum d | .putSetipnum d _
  | .getClripnum d | .putClripnum d _ | .getSetienum d | .putSetienum d _
  | .getClrienum d | .putClrienum d _ | .getSetipnumLe d | .putSetipnumLe d _
  | .getSetipnumBe d | .putSetipnumBe d _ | .getGenmsi d | .putGenmsi d _
  | .getSourcecfg d _ | .putSourcecfg d _ _ | .getTargets d _ | .putTargets d _ _
  | .getSetip d _ | .putSetip d _ _ | .getInClrip d _ | .putInClrip d _ _
  | .getSetie d _ | .putSetie d _ _ | .getClrie d _ | .putClrie d _ _
  | .getRozero d _ | .putRozero d _ _ | .getReserved d _ | .putReserved d _ _ => some d
  | .get32 _ | .put32 _ _ | .accessAck _ | .accessAckData _ _
  | .putSeteipnum _ _ _ | .getPage _ _ _ | .putPage _ _ _ _
  | .csrxIllegalOp _ _ _ _ | .csrIllegalContext _ _ _ _ _ | .csrIllegalSelector _ _ _ _ _
  | .csrwEidelivery _ _ _ | .csrsEidelivery _ _ _ | .csrcEidelivery _ _ _
  | .csrwEithreshold _ _ _ | .csrsEithreshold _ _ _ | .csrcEithreshold _ _ _
  | .csrwEip _ _ _ _ | .csrsEip _ _ _ _ | .csrcEip _ _ _ _
  | .csrwEie _ _ _ _ | .csrsEie _ _ _ _ | .csrcEie _ _ _ _ | .claim _ _ => none

/-- The hart whose indirect access an instruction is, if it is one. -/
def csrHartOf : Instr → Option Nat
  | .csrxIllegalOp h _ _ _ | .csrIllegalContext h _ _ _ _ | .csrIllegalSelector h _ _ _ _
  | .csrwEidelivery h _ _ | .csrsEidelivery h _ _ | .csrcEidelivery h _ _
  | .csrwEithreshold h _ _ | .csrsEithreshold h _ _ | .csrcEithreshold h _ _
  | .csrwEip h _ _ _ | .csrsEip h _ _ _ | .csrcEip h _ _ _
  | .csrwEie h _ _ _ | .csrsEie h _ _ _ | .csrcEie h _ _ _ => some h
  | .getDomaincfg _ | .putDomaincfg _ _ | .getMmsiaddrcfg _ | .putMmsiaddrcfg _ _
  | .getMmsiaddrcfgh _ | .putMmsiaddrcfgh _ _ | .getSmsiaddrcfg _ | .putSmsiaddrcfg _ _
  | .getSmsiaddrcfgh _ | .putSmsiaddrcfgh _ _ | .getSetipnum _ | .putSetipnum _ _
  | .getClripnum _ | .putClripnum _ _ | .getSetienum _ | .putSetienum _ _
  | .getClrienum _ | .putClrienum _ _ | .getSetipnumLe _ | .putSetipnumLe _ _
  | .getSetipnumBe _ | .putSetipnumBe _ _ | .getGenmsi _ | .putGenmsi _ _
  | .getSourcecfg _ _ | .putSourcecfg _ _ _ | .getTargets _ _ | .putTargets _ _ _
  | .getSetip _ _ | .putSetip _ _ _ | .getInClrip _ _ | .putInClrip _ _ _
  | .getSetie _ _ | .putSetie _ _ _ | .getClrie _ _ | .putClrie _ _ _
  | .getRozero _ _ | .putRozero _ _ _ | .getReserved _ _ | .putReserved _ _ _
  | .get32 _ | .put32 _ _ | .accessAck _ | .accessAckData _ _
  | .putSeteipnum _ _ _ | .getPage _ _ _ | .putPage _ _ _ _ | .claim _ _ => none

/-- What an access to the supervisor domain's window may depend on: the parameters, the domain itself,
the delegation bits and the sampled lines of delegated sources (R32, R40). -/
def State.sameForSupervisor (s t : State) : Prop :=
  s.cfg = t.cfg ∧ s.s = t.s ∧ s.deleg = t.deleg ∧
    ∀ n, s.deleg.getLsbD n = true → s.rawInput.getLsbD n = t.rawInput.getLsbD n

/-! ### Frames -/

/-- `t` is `s` but for the slave's answer. -/
def State.sameButAnswer (s t : State) : Prop := { t with answer := s.answer } = s

/-- `t` is `s` but for the slave's answer and the sources of domain `d`. -/
def State.sameButSources (d : Dom) (s t : State) : Prop :=
  { t.setDom d { t.dom d with sources := (s.dom d).sources } with answer := s.answer } = s

/-- `t` is `s` but for the slave's answer, the delegation bits and the sources of both domains. -/
def State.sameButOwnership (s t : State) : Prop :=
  { t with
    answer := s.answer, deleg := s.deleg
    m := { t.m with sources := s.m.sources }, s := { t.s with sources := s.s.sources } } = s

/-- A write to domain `d` is acknowledged and changes, of the sources the domain owns, exactly those
that `p` holds of, each by `f`; every other element of the state is unchanged. -/
def State.changesSources (d : Dom) (p : Nat → Bool) (f : Nat → Source → Source) (s t : State) : Prop :=
  t.answer = .ack ∧ State.sameButSources d s t ∧
    ∀ n, t.source d n = if s.owned d n ∧ p n = true then f n (s.source d n) else s.source d n

/-- `t` is `s` but for the harts' side of the block. -/
def State.sameButHarts (s t : State) : Prop := { t with harts := s.harts } = s

/-- Every file but file `f` of hart `h` is unchanged, and so is every page's transactor. -/
def State.sameOtherFiles (h : Nat) (f : FileId) (s t : State) : Prop :=
  (∀ h' f', (t.unit h' f').port = (s.unit h' f').port) ∧
    ∀ h' f', (h', f') ≠ (h, f) → t.file h' f' = s.file h' f'

/-- Every hart's flag, read data and claimed identity is unchanged but for hart `h`'s. -/
def State.sameOtherPorts (h : Nat) (s t : State) : Prop :=
  ∀ h', h' ≠ h →
    (t.hart h').illegal = (s.hart h').illegal ∧ (t.hart h').rdata = (s.hart h').rdata ∧
      (t.hart h').claimId = (s.hart h').claimId

/-- A legal indirect access of hart `h` to register `r` of its file `f` leaves `new` in the register,
answers the old value, clears the flag, and changes nothing else (R324, R327, R351). -/
def State.csrDone (h : Nat) (f : FileId) (r : IReg) (new : DWord) (s t : State) : Prop :=
  (t.file h f).read r = new ∧
    (∀ r', r' ≠ r → (t.file h f).read r' = (s.file h f).read r') ∧
    (t.hart h).rdata = (s.file h f).read r ∧ (t.hart h).illegal = false ∧
    (t.hart h).claimId = (s.hart h).claimId ∧
    State.sameOtherPorts h s t ∧ State.sameOtherFiles h f s t ∧ State.sameButHarts s t

end Sys2Proof.Machine
end

