-- ==== Sys2Proof/Certificates/Slice0/Obligations.lean ====
section
/-! DEFINITION. The statements for the provers. -/

open Sys2Proof Sys2Proof.Machine

/-! ### Decoding -/

/-- Decoding the encoding of a well-formed instruction gives it back, whatever its operands, in every
legal configuration (R120 to R145). Rests on the layouts the spec marks as its decisions (D1 to D5, D14,
D18, D19, D21 to D23, D25, D26) and on the model's records for the formats (log entry 2). -/
def Obligations.EncodedInstructionsDecodeBack : Prop :=
  ∀ (c : Config) (i : Instr), c.valid = true → i.wellFormed c = true →
    decode c (encode c i) = .ok i

/-- Whatever the decoder answers is well formed: no message decodes to an operand outside the ranges of
the maps (R127, R138, R141, R142). Rests on the spec's decisions D18, D21, D22, D23. -/
def Obligations.DecodedInstructionsAreWellFormed : Prop :=
  ∀ (c : Config) (m : Msg) (i : Instr), c.valid = true → decode c m = .ok i →
    i.wellFormed c = true

/-- Which bus requests decode (R88, R124, R146, R182): those with opcode 0 or 4, of 4 bytes, aligned,
with the lane mask of their address, inside a region of the block; the others are rejected by name.
Rests on the spec's decision D20 and the model's refusals (log entry 16). -/
def Obligations.OnlyWholeRegisterRequestsDecode : Prop :=
  ∀ (c : Config) (r : BusA) (m : Msg), m = .agent (.call r) ∨ m = .slave r →
    let opcodeOk := r.opcode = 0#3 ∨ r.opcode = 4#3
    let shapeOk := r.size = 2 ∧ r.address.toNat % 4 = 0 ∧
      r.mask = (if r.address.toNat % 8 = 0 then 0x0F#8 else 0xF0#8)
    (¬ opcodeOk → decode c m = .error .opcode) ∧
      (opcodeOk → ¬ shapeOk → decode c m = .error .shape) ∧
      (opcodeOk → shapeOk → c.regionOf r.address = none → decode c m = .error .outsideRegions) ∧
      (opcodeOk → shapeOk → ∀ p, c.regionOf r.address = some p → ∃ i, decode c m = .ok i)

/-- Which file a context selects (R142, R322), and when an indirect access is illegal (R323): machine
privilege selects file `M`, supervisor privilege `S`, virtual supervisor the guest file of its index,
and no other context a file; the reserved operation code, a selector out of the defined ranges or a
context without a file make an access illegal, and no other decodes to one of the three illegal rows.
The contexts are the spec's decision D23. -/
def Obligations.IllegalAccessesAreThoseOfTheRule : Prop :=
  ∀ (c : Config) (r : CsrReq),
    ((∀ g, c.fileOf ⟨3#2, false, g⟩ = some .M ∧ c.fileOf ⟨1#2, false, g⟩ = some .S ∧
      (1 ≤ g.toNat → g.toNat ≤ c.geilen.toNat → c.fileOf ⟨1#2, true, g⟩ = some (.G g))) ∧
      ∀ x f, c.fileOf x = some f →
        (x.priv = 3#2 ∧ x.virt = false ∧ f = .M) ∨ (x.priv = 1#2 ∧ x.virt = false ∧ f = .S) ∨
        (x.priv = 1#2 ∧ x.virt = true ∧ 1 ≤ x.guest.toNat ∧ x.guest.toNat ≤ c.geilen.toNat ∧
          f = .G x.guest)) ∧
    (r.hart < c.nHart → ∃ i, decode c (.agent (.csr r)) = .ok i ∧
    ((i = .csrxIllegalOp r.hart r.iselect r.ctx r.wdata ∨
        (∃ op, i = .csrIllegalContext r.hart r.iselect r.ctx op r.wdata) ∨
        (∃ op, i = .csrIllegalSelector r.hart r.iselect r.ctx op r.wdata)) ↔
      (r.op = 0#2 ∨
        ¬ (r.iselect = 0x70#12 ∨ r.iselect = 0x72#12 ∨
          (∃ k, k ≤ 31 ∧ r.iselect.toNat = 0x80 + 2 * k) ∨
          (∃ k, k ≤ 31 ∧ r.iselect.toNat = 0xC0 + 2 * k)) ∨
        ¬ ((r.ctx.priv = 3#2 ∧ r.ctx.virt = false) ∨ (r.ctx.priv = 1#2 ∧ r.ctx.virt = false) ∨
          (r.ctx.priv = 1#2 ∧ r.ctx.virt = true ∧ 1 ≤ r.ctx.guest.toNat ∧
            r.ctx.guest.toNat ≤ c.geilen.toNat)))))

/-- Words written out from the encoding tables, in the configuration of the test vectors: a bus request
to each kind of region, an indirect access, a claim and a response. Rests on the configuration `TC` and
the spec's decisions on the layouts (log entry 1, D21, D39). -/
def Obligations.WrittenOutWordsDecode : Prop :=
  decode .tc (.slave ⟨4#3, 2, 0x0C000000#64, 0x0F#8, 0#64⟩) = .ok (.getDomaincfg .M) ∧
    decode .tc (.slave ⟨0#3, 2, 0x0C001CDC#64, 0xF0#8, 0x0000001B00000000#64⟩) =
      .ok (.putSetipnum .M 27#32) ∧
    decode .tc (.slave ⟨0#3, 2, 0x0D00306C#64, 0xF0#8, 0x000020CA00000000#64⟩) =
      .ok (.putTargets .S 27#10 0x20CA#32) ∧
    decode .tc (.slave ⟨0#3, 2, 0x28002000#64, 0x0F#8, 0xCA#64⟩) =
      .ok (.putSeteipnum 0 (.G 2#6) 0xCA#32) ∧
    decode .tc (.agent (.csr ⟨0, 0x86#12, ⟨1#2, true, 2#6⟩, 2#2, 0x400#64⟩)) =
      .ok (.csrsEip 0 ⟨1#2, true, 2#6⟩ 3#5 0x400#64) ∧
    decode .tc (.agent (.claim ⟨1, ⟨3#2, false, 0#6⟩⟩)) = .ok (.claim 1 ⟨3#2, false, 0#6⟩) ∧
    decode .tc (.response (.msi .S) ⟨0#3, 0#64⟩) = .ok (.accessAck (.msi .S))

/-- Lanes (R123): a write of `w` at `A` carries `w` shifted by `32 * A[2]` under the mask `0x0F` shifted
by `4 * A[2]`, a read extracts the word at that shift, and the two agree. -/
def Obligations.LanesCarryTheWord : Prop :=
  ∀ (a : Addr) (w : Word) (data : DWord),
    (BusA.put a w).data = w.setWidth 64 <<< (32 * (a.getLsbD 2).toNat) ∧
      (BusA.put a w).mask = 0x0F#8 <<< (4 * (a.getLsbD 2).toNat) ∧
      (BusA.get a).mask = 0x0F#8 <<< (4 * (a.getLsbD 2).toNat) ∧
      fromLanes a data = (data >>> (32 * (a.getLsbD 2).toNat)).extractLsb' 0 32 ∧
      fromLanes a (BusA.put a w).data = w

/-! ### The step -/

/-- A step runs the decoded instruction, request of an agent: where every transactor is idle, the tick
that presents it runs exactly the instruction it decodes to, and then ends. How a tick presents its
input is the model's (log entries 4, 9). -/
def Obligations.StepRunsARequestOfAnAgent : Prop :=
  ∀ (s : State) (r : Req) (i : Instr), s.allIdle → decode s.cfg (.agent r) = .ok i →
    step (s.present (.agent r)) =
      match exec i s with
      | .next u => .next (State.endTick s u)
      | .fault e => .fault e
      | .refused e => .refused e

/-- A step runs the decoded instruction, request at a slave port: the tick that accepts it runs the
instruction, the transactor then waits for the slave's answer, and the tick ends. The slave then owes an
`AccessAck` for a write and, for a read, an `AccessAckData` with the answered word in the lanes of its
address and 0 elsewhere (R179, the spec's decision D39). How a tick presents its input is the model's
(log entries 4, 9); `orderRequest` is the request itself, and the answer is not changed, but where
`BE_SWAPS_DATA` is true (log entry 14); the response owed stands in a field of the model's (log entry
7). -/
def Obligations.StepRunsAnAcceptedRequest : Prop :=
  ∀ (s : State) (r : BusA) (p : Port) (i : Instr), s.allIdle → s.cfg.portOf r.address = some p →
    decode s.cfg (.slave (s.orderRequest p r)) = .ok i →
    let u := s.setTx (.ext p) ((s.tx (.ext p)).begin s.cfg.timeout r)
    step (s.present (.slave r)) =
        (match exec i u with
        | .next v => .next (State.endTick u (v.acceptedBy (.ext p)))
        | .fault e => .fault e
        | .refused e => .refused e) ∧
      (s.cfg.beSwapsData = false → s.orderRequest p r = r) ∧
      ∀ v, exec i u = .next v →
        let o := ((State.endTick u (v.acceptedBy (.ext p))).tx (.ext p)).owed
        (r.opcode = 0#3 → o.opcode = 0#3) ∧
        (r.opcode = 4#3 → o.opcode = 1#3 ∧ ∃ w, v.answer = .data w ∧ (s.cfg.beSwapsData = false →
          o.data = w.setWidth 64 <<< (32 * (r.address.getLsbD 2).toNat)))

/-- A step runs the decoded instruction, response: the tick on which a transactor in the Response phase
is answered runs the instruction of the response, and the tick ends; with `TIMEOUT_CYCLES = 1` no tick
is left for an answer from the block and the step ends in the timeout. How a tick presents its input is
the model's (log entries 4, 9); so is the bound read where it is one tick (log entry 20). -/
def Obligations.StepRunsAResponse : Prop :=
  ∀ (s : State) (x : TxId) (r : BusD) (i : Instr), s.cfg.valid = true → s.allIdle →
    decode s.cfg (.response x r) = .ok i →
    let asked : BusA := if r.opcode = 1#3 then .get s.cfg.baseM else .put s.cfg.baseM 0#32
    let u := s.setTx x (((s.tx x).begin s.cfg.timeout asked).accepted s.cfg.timeout r)
    (2 ≤ s.cfg.timeout → step (s.present (.response x r)) =
      match exec i u with
      | .next v => .next (State.endTick u v)
      | .fault e => .fault e
      | .refused e => .refused e) ∧
    (s.cfg.timeout = 1 → step (s.present (.response x r)) = .fault (.protocolTimeout x))

/-- The one fault (R176, R370, R371): a tick ends in `ProtocolTimeout` exactly when it is no reset tick
and some transactor waits on it with its deadline running out, and it then names such a transactor.
Rests on the spec's decision D28, on the model's choice of the transactor that is named (log entry 10),
and on its choice that a tick with reset never faults (log entry 9). -/
def Obligations.OnlyATimeoutFaults : Prop :=
  ∀ s : State,
    let w := s.enterTick
    let late := fun x => x ∈ w.cfg.transactors ∧ (w.tx x).phase ≠ .idle ∧ (w.tx x).deadline ≤ 1 ∧
      x ∉ w.accepts s.nextTick ∧ x ∉ w.responds s.nextTick
    ((∃ e, step s = .fault e) ↔ s.nextTick.reset = false ∧ ∃ x, late x) ∧
      ∀ e, step s = .fault e → ∃ x, e = .protocolTimeout x ∧ late x

/-- Nothing else in the block can fail (R370): from a state that meets the invariant, in a configuration
that models `genmsi`, a tick with legal input is never refused. What is refused is the model's choice
(log entries 15, 16). -/
def Obligations.LegalInputIsNeverRefused : Prop :=
  ∀ (s : State) (e : Refusal), s.inv = true → s.cfg.genmsi = .modelled →
    s.nextTick.legal s.cfg = true → step s ≠ .refused e

/-- No free-running background activity (R9, R31): with no request, no transaction in flight, every line
as it was sampled and no MSI owed, a tick changes nothing. That an unscheduled tick is idle is the
model's choice (log entry 9). -/
def Obligations.QuiescentTickChangesNothing : Prop :=
  ∀ s : State, s.inv = true → s.allIdle → s.inputs = [] →
    s.rawInput = s.line &&& sourceMask s.cfg →
    (∀ d, (s.dom d).dm = true → s.want d = []) → step s = .next s

/-- The invariant holds right after reset, in every legal configuration. Rests on the spec's decision
D30 and the model's invariant (Safety.lean). -/
def Obligations.InvariantHoldsAtReset : Prop :=
  State.reset.inv = true ∧ ∀ c : Config, c.valid = true → (State.resetOf c).inv = true

/-- Every step keeps the invariant (R47, R276, R352). The clauses on transactors, tables and parameters
are the model's (Safety.lean); the others the spec derives. -/
def Obligations.EveryStepKeepsTheInvariant : Prop :=
  ∀ s t : State, s.inv = true → step s = .next t → t.inv = true

/-- What the invariant says of each source and each file: I1 to I5 of R47, and the first of R352. -/
def Obligations.InvariantGivesTheRulesOfTheState : Prop :=
  ∀ s : State, s.inv = true →
    (∀ d n, (s.source d n).mode.code ∈ [0#3, 1#3, 4#3, 5#3, 6#3, 7#3] ∧
      ((s.source d n).mode = .inactive → (s.source d n).pending = false) ∧
      ((s.source d n).mode.isLevel = true →
        (s.source d n).pending = (s.source d n).rect (s.rawInput.getLsbD n)) ∧
      ((s.source d n).notified = true → (s.source d n).pending = true) ∧
      (s.owned d n = false → s.source d n = Source.zero)) ∧
    ∀ h f, (s.file h f).eip.getLsbD 0 = false ∧ (s.file h f).eie.getLsbD 0 = false

/-- What reset leaves (the table of R59): every element 0, the delivery mode 1 where it is fixed to MSI,
every transactor idle. Rests on the spec's decision D30. -/
def Obligations.ResetLeavesEveryElementZero : Prop :=
  ∀ c : Config, let s := State.resetOf c
    (∀ d, (s.dom d).ie = false ∧ (s.dom d).be = false ∧
      (s.dom d).dm = (c.dmKind d == .fixedMsi) ∧ (s.dom d).genmsi = 0#32 ∧
      (s.dom d).genmsiBusy = false) ∧
    s.mmsiaddrcfg = 0#32 ∧ s.mmsiaddrcfgh = 0#32 ∧ s.smsiaddrcfg = 0#32 ∧ s.smsiaddrcfgh = 0#32 ∧
    s.rawInput = 0#1024 ∧ s.deleg = 0#1024 ∧
    (∀ d n, (s.source d n).mode.code = 0#3 ∧ (s.source d n).pending = false ∧
      (s.source d n).enabled = false ∧ (s.source d n).notified = false ∧
      (s.source d n).target = 0#32) ∧
    (∀ h f, (s.file h f).eidelivery = false ∧ (s.file h f).eithreshold = 0#11 ∧
      (s.file h f).eip = 0#2048 ∧ (s.file h f).eie = 0#2048) ∧
    (∀ h, (s.hart h).illegal = false) ∧
    ∀ x, (s.tx x).phase = .idle ∧ (s.tx x).deadline = 0

/-- A tick with the reset signal leaves the block as after reset (R410, R411, R413); the parameters, the
input lines, the schedule of the environment and the count of free choices are not the block's. Rests on
the spec's decision D30 and the model's environment (log entry 9). -/
def Obligations.ResetTickLeavesTheResetState : Prop :=
  ∀ s : State, s.nextTick.reset = true →
    step s = .next { State.resetOf s.cfg with
      line := driveLines s.line s.nextTick.lines, inputs := s.inputs.tail, freeIndex := s.freeIndex }

/-! ### The transactor -/

/-- `GET32` and `PUT32` at an idle transactor (R171, R172, R181): the fields are latched, the phase is
Request, the deadline is loaded, and nothing else changes. Reached through the address map (R81). -/
def Obligations.CallBeginsARequest : Prop :=
  ∀ (s : State) (a : Addr) (p : Port), s.cfg.portOf a = some p → (s.tx (.ext p)).phase = .idle →
    exec (.get32 a) s = .next (s.setTx (.ext p) { s.tx (.ext p) with
        phase := .request, deadline := s.cfg.timeout
        req := { opcode := 4#3, size := 2, address := a, mask := laneMask a, data := 0#64 } }) ∧
      ∀ w, exec (.put32 a w) s = .next (s.setTx (.ext p) { s.tx (.ext p) with
        phase := .request, deadline := s.cfg.timeout
        req := { opcode := 0#3, size := 2, address := a, mask := laneMask a, data := toLanes a w } })

/-- `AccessAck` and `AccessAckData` in the Response phase (R171, R172, R175, R181): the transactor
returns to Idle and gives its caller `Ack`, with the word of the address's lanes for a `Get`. That the
latched request and the owed response are then zero, and that the result is held, is the model's choice
(log entries 7, 3): the spec calls the fields don't-care in Idle (R56). -/
def Obligations.ResponseEndsTheTransaction : Prop :=
  ∀ (s : State) (x : TxId), (s.tx x).phase = .response →
    ((s.tx x).req.opcode = 0#3 →
      exec (.accessAck x) s = .next (s.setTx x { Transactor.idle with result := .ack })) ∧
    ((s.tx x).req.opcode = 4#3 → ∀ data,
      exec (.accessAckData x data) s = .next (s.setTx x { Transactor.idle with
        result := .ackData (if (s.tx x).req.address.getLsbD 2 then data.extractLsb' 32 32
          else data.extractLsb' 0 32) }))

/-- One outstanding transaction (R177): a call at a busy transactor begins nothing; a response outside
the Response phase is not taken; that both have no effect is the model's reading (log entry 8). That a
response which is not the required one (R171, R172) is refused is the model's choice (log entry 16). -/
def Obligations.TransactorTurnsAwayWhatItDoesNotAwait : Prop :=
  ∀ (s : State) (x : TxId) (data : DWord),
    (∀ a p, x = .ext p → s.cfg.portOf a = some p → (s.tx x).phase ≠ .idle →
      exec (.get32 a) s = .next s ∧ ∀ w, exec (.put32 a w) s = .next s) ∧
    ((s.tx x).phase ≠ .response →
      exec (.accessAck x) s = .next s ∧ exec (.accessAckData x data) s = .next s) ∧
    ((s.tx x).phase = .response →
      ((s.tx x).req.opcode ≠ 0#3 → exec (.accessAck x) s = .refused .responseMismatch) ∧
      ((s.tx x).req.opcode ≠ 4#3 → exec (.accessAckData x data) s = .refused .responseMismatch))

/-! ### Domain registers: reads -/

/-- The read-only-zero block and the set-by-number pair of the two byte orders read 0; a write to the
block is acknowledged and changes nothing (R206, R207, R232, R234). -/
def Obligations.ReadOnlyZeroBlock : Prop :=
  ∀ (s : State) (d : Dom) (off : BitVec 14) (w : Word),
    exec (.getRozero d off) s = .next { s with answer := .data 0#32 } ∧
      exec (.putRozero d off w) s = .next { s with answer := .ack } ∧
      exec (.getSetipnumLe d) s = .next { s with answer := .data 0#32 } ∧
      exec (.getSetipnumBe d) s = .next { s with answer := .data 0#32 }

/-- The other registers that read 0, and the other writes that change nothing (R218, R222, R226, R228,
R230, R240, R241, R348). The spec's decisions D17, D18, D21. -/
def Obligations.OtherZeroReadsAndIgnoredWrites : Prop :=
  ∀ (s : State) (d : Dom) (k : Bank) (off : BitVec 14) (h : Nat) (f : FileId) (poff : BitVec 12)
    (w : Word),
    exec (.getSetipnum d) s = .next { s with answer := .data 0#32 } ∧
      exec (.getClripnum d) s = .next { s with answer := .data 0#32 } ∧
      exec (.getSetienum d) s = .next { s with answer := .data 0#32 } ∧
      exec (.getClrienum d) s = .next { s with answer := .data 0#32 } ∧
      exec (.getClrie d k) s = .next { s with answer := .data 0#32 } ∧
      exec (.getReserved d off) s = .next { s with answer := .data 0#32 } ∧
      exec (.putReserved d off w) s = .next { s with answer := .ack } ∧
      exec (.getPage h f poff) s = .next { s with answer := .data 0#32 } ∧
      exec (.putPage h f poff w) s = .next { s with answer := .ack }

/-- `GET.domaincfg` (R202): the tag, `ie` in bit 8, `dm` in bit 2, `be` in bit 0. -/
def Obligations.GetDomaincfg : Prop :=
  ∀ (s : State) (d : Dom),
    exec (.getDomaincfg d) s = .next { s with
      answer := .data (s.cfg.tag ||| (if (s.dom d).ie then 0x100#32 else 0#32) |||
        (if (s.dom d).dm then 4#32 else 0#32) ||| (if (s.dom d).be then 1#32 else 0#32)) }

/-- The MSI address configuration reads its word in the machine domain's window and 0 in the supervisor
domain's (R208, R210, R212, R214). -/
def Obligations.GetMsiAddressWords : Prop :=
  ∀ s : State,
    exec (.getMmsiaddrcfg .M) s = .next { s with answer := .data s.mmsiaddrcfg } ∧
      exec (.getMmsiaddrcfgh .M) s = .next { s with answer := .data s.mmsiaddrcfgh } ∧
      exec (.getSmsiaddrcfg .M) s = .next { s with answer := .data s.smsiaddrcfg } ∧
      exec (.getSmsiaddrcfgh .M) s = .next { s with answer := .data s.smsiaddrcfgh } ∧
      exec (.getMmsiaddrcfg .S) s = .next { s with answer := .data 0#32 } ∧
      exec (.getMmsiaddrcfgh .S) s = .next { s with answer := .data 0#32 } ∧
      exec (.getSmsiaddrcfg .S) s = .next { s with answer := .data 0#32 } ∧
      exec (.getSmsiaddrcfgh .S) s = .next { s with answer := .data 0#32 }

/-- `GET.sourcecfg[s]` (R204): `0x400` for a delegated source in the machine domain, the mode where the
domain owns the source, 0 otherwise. The spec's decisions D2, D12. -/
def Obligations.GetSourcecfg : Prop :=
  ∀ (s : State) (d : Dom) (n : BitVec 10), n ≠ 0#10 →
    exec (.getSourcecfg d n) s = .next { s with
      answer := .data (if s.cfg.nSrc.toNat < n.toNat then 0#32
        else if s.deleg.getLsbD n.toNat = true then
          (if d = .M then 0x400#32 else (s.source .S n.toNat).mode.code.setWidth 32)
        else (if d = .M then (s.source .M n.toNat).mode.code.setWidth 32 else 0#32)) }

/-- The bitmap reads (R216, R220, R224): bit `i` of word `k` stands for source `32k + i` and is its
pending bit, its rectified input or its enable bit where the domain owns it, else 0. The spec's decision
D17. -/
def Obligations.GetBitmapWords : Prop :=
  ∀ (s : State) (d : Dom) (k : Bank), ∃ ip cl ie : Word,
    exec (.getSetip d k) s = .next { s with answer := .data ip } ∧
      exec (.getInClrip d k) s = .next { s with answer := .data cl } ∧
      exec (.getSetie d k) s = .next { s with answer := .data ie } ∧
      ∀ i, i < 32 → let n := 32 * k.toNat + i
        ip.getLsbD i = (s.owned d n && (s.source d n).pending) ∧
          ie.getLsbD i = (s.owned d n && (s.source d n).enabled) ∧
          (cl.getLsbD i = true ↔ s.owned d n = true ∧ (s.source d n).mode ≠ .inactive ∧
            (s.source d n).mode ≠ .detached ∧
            s.rawInput.getLsbD n ≠ (s.source d n).mode.code.getLsbD 0)

/-- `GET.targets[s]` (R238): an owned target through the layout of the current delivery mode, 0 for a
source the domain does not own. -/
def Obligations.GetTargets : Prop :=
  ∀ (s : State) (d : Dom) (n : BitVec 10),
    exec (.getTargets d n) s = .next { s with
      answer := .data (if s.owned d n.toNat = true then
        (s.source d n.toNat).target &&&
          (if (s.dom d).dm then (if d = .S then 0xFFFFF7FF#32 else 0xFFFC07FF#32) else 0xFFFC00FF#32)
        else 0#32) }

/-! ### Domain registers: writes -/

/-- `PUT.domaincfg` (R203): bits 8, 2 and 0 are stored, bit 2 only where the delivery mode is writable,
nothing else changes; the register then reads the legal bits of the written word plus the tag. The
spec's decisions D3, D4. -/
def Obligations.PutDomaincfgReadsBackMasked : Prop :=
  ∀ (s : State) (d : Dom) (w : Word), ∃ t,
    exec (.putDomaincfg d w) s = .next t ∧
      t = { s.setDom d { s.dom d with
        ie := w.getLsbD 8
        dm := if s.cfg.dmKind d = .rw then w.getLsbD 2 else (s.dom d).dm
        be := w.getLsbD 0 } with answer := .ack } ∧
      (s.cfg.dmKind d = .rw →
        exec (.getDomaincfg d) t = .next { t with answer := .data (s.cfg.tag ||| (w &&& 0x105#32)) }) ∧
      (s.cfg.dmKind d ≠ .rw →
        exec (.getDomaincfg d) t = .next { t with
          answer := .data (s.cfg.tag ||| (w &&& 0x101#32) ||| (if (s.dom d).dm then 4#32 else 0#32)) })

/-- A write of an MSI address word (R209, R211, R213, R215): stored whole from the machine domain's
window, with the base of its level composed from bits 43:0 of the pair (R135, R296); no effect from the
supervisor domain's. The spec's decision D14. -/
def Obligations.PutMsiAddressWords : Prop :=
  ∀ (s : State) (w : Word),
    exec (.putMmsiaddrcfg .M w) s = .next { s with mmsiaddrcfg := w, answer := .ack } ∧
      exec (.putMmsiaddrcfgh .M w) s = .next { s with mmsiaddrcfgh := w, answer := .ack } ∧
      exec (.putSmsiaddrcfg .M w) s = .next { s with smsiaddrcfg := w, answer := .ack } ∧
      exec (.putSmsiaddrcfgh .M w) s = .next { s with smsiaddrcfgh := w, answer := .ack } ∧
      exec (.putMmsiaddrcfg .S w) s = .next { s with answer := .ack } ∧
      exec (.putMmsiaddrcfgh .S w) s = .next { s with answer := .ack } ∧
      exec (.putSmsiaddrcfg .S w) s = .next { s with answer := .ack } ∧
      exec (.putSmsiaddrcfgh .S w) s = .next { s with answer := .ack } ∧
      (s.levelBase .M).toNat =
        (s.mmsiaddrcfgh.toNat % 2 ^ 12 * 2 ^ 32 + s.mmsiaddrcfg.toNat) * 2 ^ 12 ∧
      (s.levelBase .S).toNat =
        (s.smsiaddrcfgh.toNat % 2 ^ 12 * 2 ^ 32 + s.smsiaddrcfg.toNat) * 2 ^ 12

/-- `PUT.setip[k]` (R217): each owned source whose bit is set becomes pending if it is Detached or
edge-triggered; nothing else changes. -/
def Obligations.PutSetipRequestsPending : Prop :=
  ∀ (s : State) (d : Dom) (k : Bank) (w : Word), ∃ t,
    exec (.putSetip d k w) s = .next t ∧
      State.changesSources d (fun n => decide (n / 32 = k.toNat) && w.getLsbD (n % 32))
        (fun _ x => { x with
          pending := x.pending || x.mode == .detached || x.mode == .edgeRising || x.mode == .edgeFalling })
        s t

/-- `PUT.setipnum` (R219): the owned source the whole word names is requested pending; the number 0, one
above `N_SRC` and one of a source the domain does not own change nothing. -/
def Obligations.PutSetipnumRequestsPending : Prop :=
  ∀ (s : State) (d : Dom) (w : Word), ∃ t, exec (.putSetipnum d w) s = .next t ∧
    State.changesSources d (fun n => decide (n = w.toNat)) (fun _ x => { x with
      pending := x.pending || x.mode == .detached || x.mode == .edgeRising || x.mode == .edgeFalling })
      s t ∧
    (w = 0#32 ∨ s.cfg.nSrc.toNat < w.toNat ∨ s.owned d w.toNat = false → t = { s with answer := .ack })

/-- `PUT.setipnum_le` and `PUT.setipnum_be` (R233, R235; the spec's decision D15): the live one of the
pair, by the `be` bit, does what `PUT.setipnum` does; the dead one changes nothing. -/
def Obligations.EndianPairRequestsPending : Prop :=
  ∀ (s : State) (d : Dom) (w : Word),
    ((s.dom d).be = false →
      (∃ t, exec (.putSetipnum d w) s = .next t ∧ exec (.putSetipnumLe d w) s = .next t) ∧
      exec (.putSetipnumBe d w) s = .next { s with answer := .ack }) ∧
    ((s.dom d).be = true →
      (∃ t, exec (.putSetipnum d w) s = .next t ∧ exec (.putSetipnumBe d w) s = .next t) ∧
      exec (.putSetipnumLe d w) s = .next { s with answer := .ack })

/-- `PUT.in_clrip[k]` and `PUT.clripnum` (R221, R223, R270): an owned source that is named is cleared
and rearmed if it is Detached or edge-triggered, rearmed alone if it is a level source at its active
level; nothing else changes. The rearm of a level source is the spec's decision D9. -/
def Obligations.ClearPendingWrites : Prop :=
  ∀ (s : State) (d : Dom) (k : Bank) (w : Word),
    let clear := fun n (x : Source) =>
      if x.mode = .detached ∨ x.mode = .edgeRising ∨ x.mode = .edgeFalling then
        { x with pending := false, notified := false }
      else if (x.mode = .levelHigh ∧ s.rawInput.getLsbD n = true) ∨
          (x.mode = .levelLow ∧ s.rawInput.getLsbD n = false) then { x with notified := false }
      else x
    (∃ t, exec (.putInClrip d k w) s = .next t ∧
      State.changesSources d (fun n => decide (n / 32 = k.toNat) && w.getLsbD (n % 32)) clear s t) ∧
    ∃ t, exec (.putClripnum d w) s = .next t ∧
      State.changesSources d (fun n => decide (n = w.toNat)) clear s t

/-- The enable bits by bitmap (R225, R229): each owned source whose bit is set is enabled, or disabled;
nothing else changes. -/
def Obligations.EnableBitmapWrites : Prop :=
  ∀ (s : State) (d : Dom) (k : Bank) (w : Word),
    let named := fun n => decide (n / 32 = k.toNat) && w.getLsbD (n % 32)
    (∃ t, exec (.putSetie d k w) s = .next t ∧
      State.changesSources d named (fun _ x => { x with enabled := true }) s t) ∧
    ∃ t, exec (.putClrie d k w) s = .next t ∧
      State.changesSources d named (fun _ x => { x with enabled := false }) s t

/-- The enable bits by number (R227, R231): the owned source the whole word names is enabled, or
disabled; writing 0 changes nothing. -/
def Obligations.EnableNumberWrites : Prop :=
  ∀ (s : State) (d : Dom) (w : Word),
    (∃ t, exec (.putSetienum d w) s = .next t ∧
      State.changesSources d (fun n => decide (n = w.toNat)) (fun _ x => { x with enabled := true })
        s t) ∧
    (∃ t, exec (.putClrienum d w) s = .next t ∧
      State.changesSources d (fun n => decide (n = w.toNat)) (fun _ x => { x with enabled := false })
        s t) ∧
    (w = 0#32 → exec (.putSetienum d w) s = .next { s with answer := .ack } ∧
      exec (.putClrienum d w) s = .next { s with answer := .ack })

/-- `PUT.sourcecfg[s]` from the machine domain's window (R205, R268, R273): delegation clears the
machine's copy, taking back clears the supervisor's, and without `D` the mode is entered: the pending
bit is 0 in Inactive, the line against its inactive level in a level mode, and kept in the others; no
other source and nothing else changes. The spec's decisions D2, D10, D12. -/
def Obligations.PutSourcecfgMachine : Prop :=
  ∀ (s : State) (n : BitVec 10) (w : Word), n ≠ 0#10 → n.toNat ≤ s.cfg.nSrc.toNat →
    let mode := warlSm (w.extractLsb' 0 3)
    let raw := s.rawInput.getLsbD n.toNat
    ∃ t, exec (.putSourcecfg .M n w) s = .next t ∧ t.answer = .ack ∧ State.sameButOwnership s t ∧
      t.deleg.getLsbD n.toNat = w.getLsbD 10 ∧
      (∀ m, m ≠ n.toNat → t.deleg.getLsbD m = s.deleg.getLsbD m ∧
        ∀ d, t.source d m = s.source d m) ∧
      (w.getLsbD 10 = true → s.deleg.getLsbD n.toNat = true →
        ∀ d, t.source d n.toNat = s.source d n.toNat) ∧
      (w.getLsbD 10 = true → s.deleg.getLsbD n.toNat = false →
        t.source .M n.toNat = Source.zero ∧ t.source .S n.toNat = s.source .S n.toNat) ∧
      (w.getLsbD 10 = false →
        t.source .S n.toNat =
          (if s.deleg.getLsbD n.toNat = true then Source.zero else s.source .S n.toNat) ∧
        t.source .M n.toNat = { s.source .M n.toNat with
          mode := mode
          pending := if mode = .inactive then false else if mode = .levelHigh then raw
            else if mode = .levelLow then !raw else (s.source .M n.toNat).pending })

/-- `PUT.sourcecfg[s]` from the supervisor domain's window (R205): the mode of a delegated source is
entered, whatever `D` says; of a source that is not delegated, or beyond `N_SRC` in either window,
nothing changes. The spec's decisions D2, D10. -/
def Obligations.PutSourcecfgSupervisor : Prop :=
  ∀ (s : State) (n : BitVec 10) (w : Word), n ≠ 0#10 →
    let mode := warlSm (w.extractLsb' 0 3)
    let raw := s.rawInput.getLsbD n.toNat
    (n.toNat ≤ s.cfg.nSrc.toNat → s.deleg.getLsbD n.toNat = true →
      ∃ t, exec (.putSourcecfg .S n w) s = .next t ∧
        State.changesSources .S (fun m => decide (m = n.toNat)) (fun _ x => { x with
          mode := mode
          pending := if mode = .inactive then false else if mode = .levelHigh then raw
            else if mode = .levelLow then !raw else x.pending }) s t) ∧
    (s.deleg.getLsbD n.toNat = false → exec (.putSourcecfg .S n w) s = .next { s with answer := .ack }) ∧
    (s.cfg.nSrc.toNat < n.toNat → ∀ d,
      exec (.putSourcecfg d n w) s = .next { s with answer := .ack })

/-- `sourcecfg[s]` written and read again (R205, R373): the machine domain reads `0x400` for `D = 1` and
the normalised mode for `D = 0`, the supervisor domain the normalised mode of a delegated source, with
the codes 2 and 3 normalised to 0. The spec's decision D2. -/
def Obligations.SourcecfgReadsBackNormalised : Prop :=
  ∀ (s : State) (n : BitVec 10) (w : Word), n ≠ 0#10 → n.toNat ≤ s.cfg.nSrc.toNat →
    let mode := if w &&& 7#32 = 2#32 ∨ w &&& 7#32 = 3#32 then 0#32 else w &&& 7#32
    (∃ t, exec (.putSourcecfg .M n w) s = .next t ∧
      exec (.getSourcecfg .M n) t = .next { t with
        answer := .data (if w.getLsbD 10 then 0x400#32 else mode) }) ∧
    (s.deleg.getLsbD n.toNat = true → ∃ t, exec (.putSourcecfg .S n w) s = .next t ∧
      exec (.getSourcecfg .S n) t = .next { t with answer := .data mode })

/-- `PUT.targets[s]` (R239): an owned source's target becomes the word of its fields in the layout of
the current delivery mode, out-of-range indices 0; nothing else changes, and the word reads back. The
spec's decisions D5, D11. -/
def Obligations.PutTargetsReadsBackNormalised : Prop :=
  ∀ (s : State) (d : Dom) (n : BitVec 10) (w : Word),
    let hart := if w.toNat / 2 ^ 18 < s.cfg.nHart then w.toNat / 2 ^ 18 else 0
    let guest := if d = .S ∧ w.toNat / 2 ^ 12 % 2 ^ 6 ≤ s.cfg.geilen.toNat
      then w.toNat / 2 ^ 12 % 2 ^ 6 else 0
    let word := if (s.dom d).dm = true
      then BitVec.ofNat 32 (hart * 2 ^ 18 + guest * 2 ^ 12 + w.toNat % 2 ^ 11)
      else BitVec.ofNat 32 (hart * 2 ^ 18 + w.toNat % 2 ^ 8)
    ∃ t, exec (.putTargets d n w) s = .next t ∧
      State.changesSources d (fun m => decide (m = n.toNat)) (fun _ x => { x with target := word }) s t ∧
      (s.owned d n.toNat = true →
        exec (.getTargets d n) t = .next { t with answer := .data word })

/-- `genmsi` (R236, R237; the spec's decision D19): in MSI mode it reads the stored word with the busy
bit, else 0; a write in MSI mode and not busy stores the hart and the identity and the request stands;
in direct mode or while busy a write changes nothing; where it is not modelled both are refused. -/
def Obligations.GenmsiReadsAndWrites : Prop :=
  ∀ (s : State) (d : Dom) (w : Word),
    let hart := if w.toNat / 2 ^ 18 < s.cfg.nHart then w.toNat / 2 ^ 18 else 0
    (s.cfg.genmsi = .modelled → exec (.getGenmsi d) s = .next { s with
      answer := .data (if (s.dom d).dm then
        (s.dom d).genmsi ||| (if (s.dom d).genmsiBusy then 0x1000#32 else 0#32) else 0#32) }) ∧
    (s.cfg.genmsi = .modelled → (s.dom d).dm = true → (s.dom d).genmsiBusy = false →
      exec (.putGenmsi d w) s = .next { s.setDom d { s.dom d with
        genmsi := BitVec.ofNat 32 (hart * 2 ^ 18 + w.toNat % 2 ^ 11)
        genmsiBusy := true } with answer := .ack }) ∧
    (s.cfg.genmsi = .modelled → (s.dom d).dm = false ∨ (s.dom d).genmsiBusy = true →
      exec (.putGenmsi d w) s = .next { s with answer := .ack }) ∧
    (s.cfg.genmsi = .refused → exec (.getGenmsi d) s = .refused .genmsiRefused ∧
      exec (.putGenmsi d w) s = .refused .genmsiRefused)

/-! ### The trigger rules of a tick -/

/-- Steps (3) to (5) of a tick (R96, R263 to R267, R271), from any state whose source tables are
canonical, as they are after the tick's events: a source of an edge mode latches the line's transition
away from its inactive level, one of a level mode tracks the line, the others ignore it; the
notification is rearmed where the source is not pending; a copy a domain does not own is left; the
samples replace `raw_input`; nothing else changes. The spec's decisions D8, D27, D32; the tables are the
model's way to hold the sources. -/
def Obligations.TickFollowsTheTriggerRules : Prop :=
  (∀ s : State, s.inv = true → s.sourcesCanonical) ∧
  (∀ (es : List Event) (s t : State), s.sourcesCanonical → runEvents es s = .next t →
    t.sourcesCanonical) ∧
  ∀ s : State, s.sourcesCanonical →
    let t := s.settle
    t.rawInput = s.line &&& sourceMask s.cfg ∧
    { t with
      rawInput := s.rawInput, m := { t.m with sources := s.m.sources }
      s := { t.s with sources := s.s.sources } } = s ∧
    ∀ d n, let x := s.source d n; let old := s.rawInput.getLsbD n; let new := s.line.getLsbD n
      let pending := match x.mode with
        | .inactive | .detached => x.pending
        | .edgeRising => x.pending || (!old && new)
        | .edgeFalling => x.pending || (old && !new)
        | .levelHigh => new
        | .levelLow => !new
      t.source d n =
        if s.owned d n then { x with pending := pending, notified := x.notified && pending } else x

/-! ### Delivery -/

/-- What is owed (R290, R292): a source exactly when it is owned, pending, enabled, not yet notified and
its domain enabled; `genmsi` exactly when it is busy. The spec's decisions D8, D29. -/
def Obligations.WantedIsWhatIsOwed : Prop :=
  ∀ (s : State) (d : Dom),
    (∀ n, Cause.source n ∈ s.want d ↔ s.owned d n = true ∧ (s.source d n).pending = true ∧
      (s.source d n).enabled = true ∧ (s.dom d).ie = true ∧ (s.source d n).notified = false) ∧
    (Cause.genmsi ∈ s.want d ↔ (s.dom d).genmsiBusy = true)

/-- The delivery engine in a tick (R292, R304, R307): at its end a domain in MSI mode whose transactor
was idle before the tick and to which something is owed begins the put of one member of what is owed and
marks that member; otherwise it begins none and marks nothing; nothing else changes but the model's own
counts. The machine domain composes with its base after the tick's writes, the supervisor domain with
its base before them. The spec's decision D29; which member is the free value of log entry 5, the order
of the tick is log entry 11. -/
def Obligations.OneOwedMsiIsIssuedAtTheEndOfATick : Prop :=
  ∀ (pre s : State),
    let u := s.settle
    let t := State.endTick pre s
    (∀ d, let base := match d with
        | .M => u.levelBase .M
        | .S => pre.levelBase .S
      let issues := (u.dom d).dm = true ∧ (pre.dom d).msi.phase = .idle ∧ u.want d ≠ []
      (issues → ∃ c ∈ u.want d,
        t.tx (.msi d) = { u.tx (.msi d) with
          phase := .request, deadline := u.cfg.timeout, req := u.msiOf d base c } ∧
        (∀ n, t.source d n =
          if c = .source n then { u.source d n with notified := true } else u.source d n) ∧
        (t.dom d).genmsiBusy = ((u.dom d).genmsiBusy && c != .genmsi) ∧
        (t.dom d).issues = (u.dom d).issues + 1) ∧
      (¬ issues → t.tx (.msi d) = u.tx (.msi d) ∧ (∀ n, t.source d n = u.source d n) ∧
        (t.dom d).genmsiBusy = (u.dom d).genmsiBusy ∧ (t.dom d).issues = (u.dom d).issues)) ∧
    let restore := fun (x y : Domain) => { x with
      sources := y.sources, genmsiBusy := y.genmsiBusy, msi := y.msi, issues := y.issues
      tickets := y.tickets }
    { t with m := restore t.m u.m, s := restore t.s u.s, freeIndex := u.freeIndex } = u

/-- The MSI of each cause (R292, R297, R298, R299, R305): a 4-byte write in the low lanes of the
identity to the base with the hart's offset and, for a source of the supervisor domain, the guest's
page; the source is marked notified, or `genmsi` is no longer busy; every other element of the block but
the domain's own transactor is unchanged. The spec's decisions D13, D14, D19, D29; where `BE_SWAPS_DATA`
and `be` are both true the data is free (log entry 14). -/
def Obligations.MsiOfEachCause : Prop :=
  ∀ (s : State) (d : Dom) (base : Addr) (c : Cause) (hc : HartCfg),
    let word := match c with
      | .source n => (s.source d n).target
      | .genmsi => (s.dom d).genmsi
    let guest := match c, d with
      | .source _, .S => word.toNat / 2 ^ 12 % 2 ^ 6
      | .source _, .M | .genmsi, _ => 0
    let r := s.msiOf d base c
    let t := s.issue d base c
    s.cfg.harts[word.toNat / 2 ^ 18]? = some hc →
    (r.opcode = 0#3 ∧ r.size = 2 ∧ r.mask = 0x0F#8 ∧
      r.address = base ||| (if d = .M then hc.offM else hc.offS) ||| BitVec.ofNat 64 (guest * 2 ^ 12) ∧
      (s.cfg.beSwapsData = false ∨ (s.dom d).be = false →
        r.data = BitVec.ofNat 64 (word.toNat % 2 ^ 11))) ∧
    t.tx (.msi d) = { s.tx (.msi d) with phase := .request, deadline := s.cfg.timeout, req := r } ∧
    (∀ n, t.source d n =
      if c = .source n then { s.source d n with notified := true } else s.source d n) ∧
    (t.dom d).genmsiBusy = ((s.dom d).genmsiBusy && c != .genmsi) ∧
    t.setDom d { t.dom d with
      sources := (s.dom d).sources, genmsiBusy := (s.dom d).genmsiBusy, msi := (s.dom d).msi
      issues := (s.dom d).issues, tickets := (s.dom d).tickets } = s

/-- Fairness (R294): along every run of ticks without reset a cause that a domain in MSI mode owes
throughout is passed over only so often: it holds a ticket from the start, and by the end of the run the
domain has issued at most 1025 MSIs beyond that ticket and its count at the start. That the order is
kept by tickets is the model's choice (log entry 5). -/
def Obligations.MemberThatStaysIsChosen : Prop :=
  ∀ (run : Nat → State) (k : Nat) (d : Dom) (c : Cause), (run 0).inv = true →
    (∀ i, i < k → (run i).nextTick.reset = false ∧ step (run i) = .next (run (i + 1))) →
    (∀ i, i ≤ k → ((run i).dom d).dm = true ∧ c ∈ (run i).want d) →
    ∃ n, (c, n) ∈ ((run 0).dom d).tickets ∧
      ((run k).dom d).issues ≤ max ((run 0).dom d).issues n + 1025

/-- Where an MSI lands (R300, R347, R415): with the bases set as the boot requirement says, the composed
address is offset 0 of the page of file `S` or `G<g>` of the target hart, or of its file `M`, and the
request decodes there to the reception of the identity. The spec's decision D21 and its derived R415. -/
def Obligations.MsiLandsAtTheTargetFile : Prop :=
  ∀ (s : State) (h : BitVec 14) (g : BitVec 6) (eiid : Ident),
    s.cfg.valid = true → s.booted → h.toNat < s.cfg.nHart → g.toNat ≤ s.cfg.geilen.toNat →
    decode s.cfg (.slave (msiRequest (msiAddress s.cfg .S (s.levelBase .S) h g)
        (eiid.setWidth 32))) =
      .ok (.putSeteipnum h.toNat (if g = 0#6 then .S else .G g) (eiid.setWidth 32)) ∧
    decode s.cfg (.slave (msiRequest (msiAddress s.cfg .M (s.levelBase .M) h 0#6)
        (eiid.setWidth 32))) =
      .ok (.putSeteipnum h.toNat .M (eiid.setWidth 32))

/-- Sending a notification does not clear the pending bit (R306), nor does it change the mode, the
enable bit or the target: the end of a tick leaves them as the trigger rules do. Rests on the order of a
tick (D27, log entry 11). -/
def Obligations.DeliveryKeepsPending : Prop :=
  ∀ (pre s : State) (d : Dom) (n : Nat),
    let x := s.settle.source d n
    let y := (State.endTick pre s).source d n
    y.pending = x.pending ∧ y.mode = x.mode ∧ y.enabled = x.enabled ∧ y.target = x.target

/-- The direct output (R301, R303): in direct mode the triple of every source that is owned, pending,
enabled and under an enabled domain, and no other; nothing in MSI mode. The spec's decision D33. -/
def Obligations.DirectOutputIsTheDeliverableSources : Prop :=
  ∀ (s : State) (d : Dom) (o : DirectOut),
    o ∈ s.directOut d ↔ (s.dom d).dm = false ∧ s.owned d o.source = true ∧
      (s.source d o.source).pending = true ∧ (s.source d o.source).enabled = true ∧
      (s.dom d).ie = true ∧
      o.priority.toNat = (s.source d o.source).target.toNat % 2 ^ 8 ∧
      o.hart.toNat = (s.source d o.source).target.toNat / 2 ^ 18

/-- One notification per pending episode (R293), among the instructions: only a clear-pending write to
the domain, or a `sourcecfg` write of that source by the machine domain, makes a notified source owe a
notification again. The end of a tick, which rearms a source that is no longer pending (R271), is no
instruction. The spec derives R293. -/
def Obligations.AmongInstructionsOnlyAClearOrSourcecfgRearms : Prop :=
  ∀ (i : Instr) (s t : State) (d : Dom) (n : Nat), exec i s = .next t →
    (s.source d n).notified = true → (t.source d n).notified = false →
    (∃ k w, i = .putInClrip d k w) ∨ (∃ w, i = .putClripnum d w) ∨
      ∃ m w, i = .putSourcecfg .M m w ∧ m.toNat = n

/-! ### Interrupt files -/

/-- The top identity (R341, R342, R382): 0 without delivery or without a candidate; else the least
pending and enabled identity where the threshold is 0 or above it, and 0 where it is not. Both halves of
`topei` hold it in their low 11 bits, and `irq` is 1 exactly when it is not 0 (R144, R343, R344). The
spec's decisions D6, D7, D36, D37. -/
def Obligations.TopIsTheLeastCandidate : Prop :=
  ∀ x : IFile,
    let cand := fun i => 1 ≤ i ∧ i ≤ 2047 ∧ x.eip.getLsbD i = true ∧ x.eie.getLsbD i = true
    (x.eidelivery = false → x.top = 0) ∧
      ((∀ i, ¬ cand i) → x.top = 0) ∧
      (∀ m, cand m → (∀ i, cand i → m ≤ i) → x.eidelivery = true →
        (x.eithreshold = 0#11 ∨ m < x.eithreshold.toNat → x.top = m) ∧
        (x.eithreshold ≠ 0#11 → x.eithreshold.toNat ≤ m → x.top = 0)) ∧
      x.top ≤ 2047 ∧ x.topei.toNat = x.top * 2 ^ 16 + x.top ∧ (x.irq = true ↔ x.top ≠ 0)

/-- Indirect accesses to `eidelivery` and `eithreshold` (R328, R329, R330, R333, R334): the register's
field takes the combined value, the old value is answered, the flag is cleared, every other register and
file is unchanged; delivery disabled leaves no top identity. -/
def Obligations.EideliveryAndEithresholdAccesses : Prop :=
  ∀ (s : State) (h : Nat) (c : Ctx) (v : DWord) (f : FileId), s.cfg.fileOf c = some f →
    let ed := (s.file h f).read .eidelivery
    let et := (s.file h f).read .eithreshold
    (∃ t, exec (.csrwEidelivery h c v) s = .next t ∧
      State.csrDone h f .eidelivery (v &&& 1#64) s t ∧
      (v.getLsbD 0 = false → (t.file h f).top = 0 ∧ (t.file h f).irq = false)) ∧
    (∃ t, exec (.csrsEidelivery h c v) s = .next t ∧
      State.csrDone h f .eidelivery (ed ||| (v &&& 1#64)) s t) ∧
    (∃ t, exec (.csrcEidelivery h c v) s = .next t ∧
      State.csrDone h f .eidelivery (ed &&& ~~~v) s t) ∧
    (∃ t, exec (.csrwEithreshold h c v) s = .next t ∧
      State.csrDone h f .eithreshold (v &&& 0x7FF#64) s t) ∧
    (∃ t, exec (.csrsEithreshold h c v) s = .next t ∧
      State.csrDone h f .eithreshold (et ||| (v &&& 0x7FF#64)) s t) ∧
    ∃ t, exec (.csrcEithreshold h c v) s = .next t ∧
      State.csrDone h f .eithreshold (et &&& ~~~v) s t

/-- Indirect accesses to the identity bitmaps (R335, R336, R337, R339, R340): the 64 identities of the
word are written, set or cleared, identity 0 never; the old word is answered, the flag cleared, and
every other register and file is unchanged. For `CSRW.eie` the forced bit is the spec's decision D25. -/
def Obligations.EipAndEieAccesses : Prop :=
  ∀ (s : State) (h : Nat) (c : Ctx) (k : Bank) (v : DWord) (f : FileId), s.cfg.fileOf c = some f →
    let legal := if k = 0#5 then v &&& ~~~1#64 else v
    let ip := (s.file h f).read (.eip k)
    let ie := (s.file h f).read (.eie k)
    (∀ (x : IFile) (j : Nat), j < 64 → 64 * k.toNat + j ≠ 0 →
      (x.read (.eip k)).getLsbD j = x.eip.getLsbD (64 * k.toNat + j) ∧
        (x.read (.eie k)).getLsbD j = x.eie.getLsbD (64 * k.toNat + j)) ∧
    (∃ t, exec (.csrwEip h c k v) s = .next t ∧ State.csrDone h f (.eip k) legal s t) ∧
    (∃ t, exec (.csrsEip h c k v) s = .next t ∧ State.csrDone h f (.eip k) (ip ||| legal) s t) ∧
    (∃ t, exec (.csrcEip h c k v) s = .next t ∧ State.csrDone h f (.eip k) (ip &&& ~~~v) s t) ∧
    (∃ t, exec (.csrwEie h c k v) s = .next t ∧ State.csrDone h f (.eie k) legal s t) ∧
    (∃ t, exec (.csrsEie h c k v) s = .next t ∧ State.csrDone h f (.eie k) (ie ||| legal) s t) ∧
    ∃ t, exec (.csrcEie h c k v) s = .next t ∧ State.csrDone h f (.eie k) (ie &&& ~~~v) s t

/-- How the words of a file read (R143): bit `j` of word `k` is identity `64k + j`, identity 0 as 0; the
threshold in bits 10:0; delivery in bit 0. The spec's decision D25. -/
def Obligations.FileRegistersRead : Prop :=
  ∀ (x : IFile) (k : Bank) (j : Nat),
    ((x.read (.eip k)).getLsbD j =
      (decide (j < 64) && decide (64 * k.toNat + j ≠ 0) && x.eip.getLsbD (64 * k.toNat + j))) ∧
    ((x.read (.eie k)).getLsbD j =
      (decide (j < 64) && decide (64 * k.toNat + j ≠ 0) && x.eie.getLsbD (64 * k.toNat + j))) ∧
    (x.read .eithreshold).toNat = x.eithreshold.toNat ∧
    (x.read .eidelivery = if x.eidelivery then 1#64 else 0#64)

/-- Effect of an illegal access (R326, R376): the flag is set, the read data is 0, and nothing else of
the block changes. The read data is the spec's decision D24. -/
def Obligations.IllegalAccessIsContained : Prop :=
  ∀ (s : State) (h : Nat) (sel : BitVec 12) (c : Ctx) (op : CsrOp) (v : DWord), ∃ t,
    exec (.csrxIllegalOp h sel c v) s = .next t ∧
      exec (.csrIllegalContext h sel c op v) s = .next t ∧
      exec (.csrIllegalSelector h sel c op v) s = .next t ∧
      (t.hart h).illegal = true ∧ (t.hart h).rdata = 0#64 ∧
      (t.hart h).claimId = (s.hart h).claimId ∧ (∀ h' f, t.unit h' f = s.unit h' f) ∧
      State.sameOtherPorts h s t ∧ State.sameButHarts s t

/-- `CLAIM` (R345, R346): the top identity is returned and its pending bit cleared; where there is none
the answer is 0 and nothing is cleared; the flag, the enable bits and every other file are unchanged,
and the next top identity, if any, is a larger one. In a context without a file the answer is 0 and
nothing changes, the spec's decision D26. -/
def Obligations.ClaimTakesTheTop : Prop :=
  ∀ (s : State) (h : Nat) (c : Ctx), ∃ t, exec (.claim h c) s = .next t ∧
    (t.hart h).illegal = (s.hart h).illegal ∧ (t.hart h).rdata = (s.hart h).rdata ∧
    State.sameOtherPorts h s t ∧ State.sameButHarts s t ∧
    (s.cfg.fileOf c = none → (t.hart h).claimId = 0#11 ∧ ∀ h' f, t.unit h' f = s.unit h' f) ∧
    ∀ f, s.cfg.fileOf c = some f →
      let x := s.file h f
      (t.hart h).claimId.toNat = x.top ∧
        (x.top = 0 → t.file h f = x) ∧
        (x.top ≠ 0 → ∃ bits, t.file h f = { x with eip := bits } ∧
          (∀ i, bits.getLsbD i = (x.eip.getLsbD i && decide (i ≠ x.top))) ∧
          ((t.file h f).top = 0 ∨ x.top < (t.file h f).top)) ∧
        State.sameOtherFiles h f s t

/-- How a tick moves each transactor (R98, R174, R175, R176, R178, R181, R426). A request is accepted
exactly if its slave is ready and its port accepts no other on that tick, an MSI only in time where
`msiOnLastTick` is false; a response is taken exactly if the slave presents it, in time where the slave
is of the block. A transactor that waits keeps its phase with one tick less to its deadline; an accepted
one is in the Response phase with the deadline loaded again; one that takes its response is Idle; an
idle one stays idle or begins a request. Which request of two a port accepts is log entry 10; how the
slaves' waits are presented, what lies outside the block, and the bound of an MSI, are log entries 9, 12
and 20. That a call on the tick of the response begins nothing is log entry 21. -/
def Obligations.TransactorsMoveOncePerTick : Prop :=
  ∀ s : State,
    let u := s.enterTick
    let k := s.nextTick
    let port := fun x => u.cfg.portOf (u.tx x).req.address
    let inTime := fun x => port x = none ∨ 1 < (u.tx x).deadline
    let ready := fun x => x ∈ u.cfg.transactors ∧ (u.tx x).phase = .request ∧ x ∉ k.notReady ∧
      ∀ d, x = .msi d → u.cfg.msiOnLastTick = true ∨ inTime x
    (∀ x, x ∈ u.accepts k → ready x) ∧
    (∀ x, ready x → x ∈ u.accepts k ∨ ∃ y ∈ u.accepts k, ∃ p, port x = some p ∧ port y = some p) ∧
    (∀ x ∈ u.accepts k, ∀ y ∈ u.accepts k, ∀ p, port x = some p → port y = some p → x = y) ∧
    (∀ x, x ∈ u.responds k ↔ x ∈ u.cfg.transactors ∧ (u.tx x).phase = .response ∧ x ∉ k.silent ∧
      inTime x) ∧
    ∀ t, step s = .next t → k.reset = false → ∀ x ∈ u.cfg.transactors,
      ((u.tx x).phase = .idle → (t.tx x).phase = .idle ∨
        (t.tx x).phase = .request ∧ (t.tx x).deadline = u.cfg.timeout) ∧
      ((u.tx x).phase ≠ .idle → x ∉ u.accepts k → x ∉ u.responds k → 1 < (u.tx x).deadline ∧
        t.tx x = { u.tx x with deadline := (u.tx x).deadline - 1 }) ∧
      (x ∈ u.accepts k → (t.tx x).phase = .response ∧ (t.tx x).deadline = u.cfg.timeout ∧
        (t.tx x).req = (u.tx x).req ∧ (t.tx x).result = (u.tx x).result) ∧
      (x ∈ u.responds k → (t.tx x).phase = .idle ∧ (t.tx x).deadline = 0)

/-- `PUT.seteipnum` (R347, R349): an identity from 1 to 2047 becomes pending, the whole word compared;
any other word changes nothing; the write is acknowledged. The spec's decision D21. -/
def Obligations.MsiReceptionSetsItsIdentity : Prop :=
  ∀ (s : State) (h : Nat) (f : FileId) (w : Word),
    let x := s.file h f
    ∃ t, exec (.putSeteipnum h f w) s = .next t ∧ t.answer = .ack ∧
      (∃ bits, t.file h f = { x with eip := bits } ∧ ∀ i, bits.getLsbD i =
        (x.eip.getLsbD i || (decide (i = w.toNat) && decide (1 ≤ i) && decide (i ≤ 2047)))) ∧
      State.sameOtherFiles h f s t ∧
      (∀ h', (t.hart h').illegal = (s.hart h').illegal ∧ (t.hart h').rdata = (s.hart h').rdata ∧
        (t.hart h').claimId = (s.hart h').claimId) ∧
      { t with harts := s.harts, answer := s.answer } = s

/-- An indirect access, a claim and an MSI of one file on one tick (R97, R350): the access is applied
first and answers the register before the tick, the claim then takes the top identity, and the MSI sets
its identity last, so that an identity which arrives while it is claimed stays pending. The order is the
spec's decision D27, the parameter value `accessClaimMsi` (log entries 11, 13); how a tick presents its
input is the model's (log entries 4, 9). -/
def Obligations.MsiAfterAClaimStaysPending : Prop :=
  ∀ (s : State) (y : TxId) (m : BusA) (q : CsrReq) (f : FileId) (r : IReg) (op : CsrOp) (w : Word),
    s.allIdle → s.cfg.sameTickOrder = .accessClaimMsi → 2 ≤ s.cfg.timeout →
    y ∈ s.cfg.transactors → decode s.cfg (.slave m) = .ok (.putSeteipnum q.hart f w) →
    s.cfg.fileOf q.ctx = some f → iregOf q.iselect = some r → csrOpOf q.op = some op →
    let u := { s.setTx y ((s.tx y).begin s.cfg.timeout m) with
      inputs := { Tick.only s.cfg y with
        requests := [.claim ⟨q.hart, q.ctx⟩, .csr q] } :: s.inputs }
    let x := (s.file q.hart f).access r op q.wdata
    ∃ t bits, step u = .next t ∧ t.file q.hart f = { x with eip := bits } ∧
      (∀ i, bits.getLsbD i = ((x.eip.getLsbD i && (decide (i ≠ x.top) || decide (x.top = 0))) ||
        (decide (i = w.toNat) && decide (1 ≤ i) && decide (i ≤ 2047)))) ∧
      (t.hart q.hart).rdata = (s.file q.hart f).read r ∧ (t.hart q.hart).illegal = false ∧
      (t.hart q.hart).claimId.toNat = x.top ∧ (t.tx y).phase = .response

/-! ### Rules over every instruction -/

/-- Who changes what (R36, R39, R53, R327, R373): delegation bits only a `sourcecfg` write of the
machine domain; the MSI address words only their own writes from its window; a hart's flag only an
indirect access of that hart; the sampled lines, the parameters and the environment no instruction. The
spec's decisions D2, D12, D14, D24. -/
def Obligations.OnlyTheNamedInstructionsChange : Prop :=
  ∀ (i : Instr) (s t : State), exec i s = .next t →
    (t.cfg = s.cfg ∧ t.rawInput = s.rawInput ∧ t.line = s.line ∧ t.inputs = s.inputs ∧
      t.freeIndex = s.freeIndex) ∧
    ((∀ n w, i ≠ .putSourcecfg .M n w) → t.deleg = s.deleg) ∧
    ((∀ w, i ≠ .putMmsiaddrcfg .M w) → t.mmsiaddrcfg = s.mmsiaddrcfg) ∧
    ((∀ w, i ≠ .putMmsiaddrcfgh .M w) → t.mmsiaddrcfgh = s.mmsiaddrcfgh) ∧
    ((∀ w, i ≠ .putSmsiaddrcfg .M w) → t.smsiaddrcfg = s.smsiaddrcfg) ∧
    ((∀ w, i ≠ .putSmsiaddrcfgh .M w) → t.smsiaddrcfgh = s.smsiaddrcfgh) ∧
    ∀ h, csrHartOf i ≠ some h → (t.hart h).illegal = (s.hart h).illegal

/-- Isolation of the supervisor domain (R32, R36, R40, R94, R245, R392): an access to its window has the
same answer, and the same effect on what that window can see, in two states that differ only in what it
cannot see (the machine domain, its words and sources, the files); it changes nothing but the slave's
answer and the domain itself, and no copy of a source that the domain does not own. The spec's decisions
D12, D40; that the answer is held is log entry 3. -/
def Obligations.SupervisorWindowSeesOnlyItsOwn : Prop :=
  ∀ (i : Instr) (s u t : State), windowOf i = some .S → State.sameForSupervisor s u →
    exec i s = .next t →
    ∃ v, exec i u = .next v ∧ v.answer = t.answer ∧ State.sameForSupervisor t v ∧
      { v with s := u.s, answer := u.answer } = u ∧
      ∀ n, u.owned .S n = false → v.source .S n = u.source .S n
end

