-- ==== Sys2Proof/Laws/Bits.lean ====
section
/-! SUPPORT. Single bits, the 64-bit words of an identity bitmap, and the lanes of the bus. -/

namespace Sys2Proof

theorem getLsbD_setBit {w : Nat} (v : BitVec w) (n i : Nat) (b : Bool) (hn : n < w) :
    (setBit v n b).getLsbD i = if i = n then b else v.getLsbD i := by
  have h1 : ∀ j, (1#w <<< n).getLsbD j = (decide (j = n)) := by
    intro j
    rw [BitVec.getLsbD_shiftLeft]
    by_cases hj : j = n
    · subst hj; simp [hn]; omega
    · by_cases hlt : j < n
      · simp [hlt, hj]
      · have : j - n ≠ 0 := by omega
        simp [BitVec.getLsbD_one, hj, this]
  unfold setBit
  cases b
  · simp only [Bool.false_eq_true, if_false, BitVec.getLsbD_and, BitVec.getLsbD_not, h1]
    by_cases hi : i = n
    · subst hi; simp
    · by_cases hw : i < w
      · simp [hi, hw]
      · simp [hi, hw, BitVec.getLsbD_of_ge v i (Nat.le_of_not_lt hw)]
  · simp only [if_true, BitVec.getLsbD_or, h1]
    by_cases hi : i = n <;> simp [hi]

theorem getLsbD_getBank (v : IdBits) (k : Bank) (j : Nat) :
    (getBank v k).getLsbD j = (decide (j < 64) && v.getLsbD (64 * k.toNat + j)) := by
  simp [getBank, BitVec.getLsbD_extractLsb']

theorem getLsbD_setBank (v : IdBits) (k : Bank) (x : DWord) (i : Nat) :
    (setBank v k x).getLsbD i =
      if i / 64 = k.toNat then x.getLsbD (i % 64) else v.getLsbD i := by
  have hk : k.toNat < 32 := k.isLt
  unfold setBank
  simp only [BitVec.getLsbD_or, BitVec.getLsbD_and, BitVec.getLsbD_not, BitVec.getLsbD_shiftLeft,
    BitVec.getLsbD_setWidth, BitVec.getLsbD_allOnes]
  by_cases hi : i < 2048
  · by_cases hb : i / 64 = k.toNat
    · have h1 : ¬ i < 64 * k.toNat := by omega
      have h2 : i - 64 * k.toNat = i % 64 := by omega
      have h3 : i % 64 < 64 := by omega
      have h4 : i % 64 < 2048 := by omega
      simp [hi, hb, h1, h2, h3, h4]
    · by_cases hlt : i < 64 * k.toNat
      · simp [hi, hb, hlt]
      · have h2 : ¬ i - 64 * k.toNat < 64 := by omega
        have h3 : x.getLsbD (i - 64 * k.toNat) = false := BitVec.getLsbD_of_ge x _ (by omega)
        simp [hi, hb, hlt, h2, h3]
  · have hb : i / 64 ≠ k.toNat := by omega
    simp [hi, hb, BitVec.getLsbD_of_ge v i (Nat.le_of_not_lt hi)]

/-- A word read after a word is replaced. -/
theorem getBank_setBank (v : IdBits) (k k' : Bank) (x : DWord) :
    getBank (setBank v k x) k' = if k' = k then x else getBank v k' := by
  apply BitVec.eq_of_getLsbD_eq
  intro j hj
  rw [getLsbD_getBank, getLsbD_setBank]
  have h1 : (64 * k'.toNat + j) / 64 = k'.toNat := by omega
  have h2 : (64 * k'.toNat + j) % 64 = j := by omega
  rw [h1, h2]
  by_cases hk : k' = k
  · subst hk; simp [hj]
  · have : k'.toNat ≠ k.toNat := fun h => hk (BitVec.eq_of_toNat_eq h)
    simp [hk, this, getLsbD_getBank]

/-- The lanes of an address give back the word put into them. -/
theorem fromLanes_toLanes (a : Addr) (w : Word) : fromLanes a (toLanes a w) = w := by
  unfold fromLanes toLanes
  apply BitVec.eq_of_getLsbD_eq
  intro i hi
  cases h : a.getLsbD 2
  · simp only [Bool.false_eq_true, if_false, BitVec.getLsbD_setWidth]
    have : i < 64 := by omega
    simp [hi, this]
  · simp only [if_true, BitVec.getLsbD_setWidth, BitVec.getLsbD_ushiftRight, BitVec.getLsbD_shiftLeft]
    have h1 : 32 + i < 64 := by omega
    have h2 : ¬ 32 + i < 32 := by omega
    have h3 : i < 64 := by omega
    simp [hi, h1, h3]

/-- The least number below `n` that `p` holds of, if there is one. -/
theorem lowest_eq_some (n : Nat) (p : Nat → Bool) (m : Nat) :
    lowest n p = some m ↔ m < n ∧ p m = true ∧ ∀ i, i < m → p i = false := by
  unfold lowest
  rw [List.find?_range_eq_some]
  constructor
  · rintro ⟨h1, h2, h3⟩
    exact ⟨List.mem_range.mp h2, h1, fun i hi => by simpa using h3 i hi⟩
  · rintro ⟨h1, h2, h3⟩
    exact ⟨h2, List.mem_range.mpr h1, fun i hi => by simp [h3 i hi]⟩

theorem lowest_eq_none (n : Nat) (p : Nat → Bool) :
    lowest n p = none ↔ ∀ i, i < n → p i = false := by
  unfold lowest
  simp [List.find?_eq_none]

end Sys2Proof
end

