-- ==== Sys2Proof/Laws/State.lean ====
section
/-! SUPPORT. One lemma per field per update of the state, of a domain, a hart and a file: later proofs
cite these and unfold no record update. -/

namespace Sys2Proof.Machine

/-! ### setDom -/

@[simp] theorem State.dom_setDom_same (s : State) (d : Dom) (x : Domain) : (s.setDom d x).dom d = x := by
  cases d <;> rfl

theorem State.dom_setDom_other (s : State) (d e : Dom) (x : Domain) (h : e ≠ d) :
    (s.setDom d x).dom e = s.dom e := by
  cases d <;> cases e <;> first | rfl | exact absurd rfl h

@[simp] theorem State.setDom_setDom (s : State) (d : Dom) (x y : Domain) :
    (s.setDom d x).setDom d y = s.setDom d y := by cases d <;> rfl

@[simp] theorem State.setDom_dom (s : State) (d : Dom) : s.setDom d (s.dom d) = s := by cases d <;> rfl

@[simp] theorem State.setDom_cfg (s : State) (d : Dom) (x : Domain) : (s.setDom d x).cfg = s.cfg := by
  cases d <;> rfl
@[simp] theorem State.setDom_mmsiaddrcfg (s : State) (d : Dom) (x : Domain) :
    (s.setDom d x).mmsiaddrcfg = s.mmsiaddrcfg := by cases d <;> rfl
@[simp] theorem State.setDom_mmsiaddrcfgh (s : State) (d : Dom) (x : Domain) :
    (s.setDom d x).mmsiaddrcfgh = s.mmsiaddrcfgh := by cases d <;> rfl
@[simp] theorem State.setDom_smsiaddrcfg (s : State) (d : Dom) (x : Domain) :
    (s.setDom d x).smsiaddrcfg = s.smsiaddrcfg := by cases d <;> rfl
@[simp] theorem State.setDom_smsiaddrcfgh (s : State) (d : Dom) (x : Domain) :
    (s.setDom d x).smsiaddrcfgh = s.smsiaddrcfgh := by cases d <;> rfl
@[simp] theorem State.setDom_rawInput (s : State) (d : Dom) (x : Domain) :
    (s.setDom d x).rawInput = s.rawInput := by cases d <;> rfl
@[simp] theorem State.setDom_deleg (s : State) (d : Dom) (x : Domain) :
    (s.setDom d x).deleg = s.deleg := by cases d <;> rfl
@[simp] theorem State.setDom_harts (s : State) (d : Dom) (x : Domain) :
    (s.setDom d x).harts = s.harts := by cases d <;> rfl
@[simp] theorem State.setDom_answer (s : State) (d : Dom) (x : Domain) :
    (s.setDom d x).answer = s.answer := by cases d <;> rfl
@[simp] theorem State.setDom_line (s : State) (d : Dom) (x : Domain) :
    (s.setDom d x).line = s.line := by cases d <;> rfl
@[simp] theorem State.setDom_inputs (s : State) (d : Dom) (x : Domain) :
    (s.setDom d x).inputs = s.inputs := by cases d <;> rfl
@[simp] theorem State.setDom_freeIndex (s : State) (d : Dom) (x : Domain) :
    (s.setDom d x).freeIndex = s.freeIndex := by cases d <;> rfl
@[simp] theorem State.owned_setDom (s : State) (d e : Dom) (x : Domain) (n : Nat) :
    (s.setDom d x).owned e n = s.owned e n := by simp [State.owned, State.owner]
@[simp] theorem State.hart_setDom (s : State) (d : Dom) (x : Domain) (h : Nat) :
    (s.setDom d x).hart h = s.hart h := by simp [State.hart]
@[simp] theorem State.unit_setDom (s : State) (d : Dom) (x : Domain) (h : Nat) (f : FileId) :
    (s.setDom d x).unit h f = s.unit h f := by simp [State.unit]
@[simp] theorem State.file_setDom (s : State) (d : Dom) (x : Domain) (h : Nat) (f : FileId) :
    (s.setDom d x).file h f = s.file h f := by simp [State.file]

/-! ### setHart -/

@[simp] theorem State.setHart_cfg (s : State) (h : Nat) (x : Hart) : (s.setHart h x).cfg = s.cfg := rfl
@[simp] theorem State.setHart_m (s : State) (h : Nat) (x : Hart) : (s.setHart h x).m = s.m := rfl
@[simp] theorem State.setHart_s (s : State) (h : Nat) (x : Hart) : (s.setHart h x).s = s.s := rfl
@[simp] theorem State.setHart_dom (s : State) (h : Nat) (x : Hart) (d : Dom) :
    (s.setHart h x).dom d = s.dom d := by cases d <;> rfl
@[simp] theorem State.setHart_rawInput (s : State) (h : Nat) (x : Hart) :
    (s.setHart h x).rawInput = s.rawInput := rfl
@[simp] theorem State.setHart_deleg (s : State) (h : Nat) (x : Hart) :
    (s.setHart h x).deleg = s.deleg := rfl
@[simp] theorem State.setHart_answer (s : State) (h : Nat) (x : Hart) :
    (s.setHart h x).answer = s.answer := rfl
@[simp] theorem State.setHart_line (s : State) (h : Nat) (x : Hart) : (s.setHart h x).line = s.line := rfl
@[simp] theorem State.setHart_inputs (s : State) (h : Nat) (x : Hart) :
    (s.setHart h x).inputs = s.inputs := rfl
@[simp] theorem State.setHart_freeIndex (s : State) (h : Nat) (x : Hart) :
    (s.setHart h x).freeIndex = s.freeIndex := rfl
@[simp] theorem State.source_setHart (s : State) (h : Nat) (x : Hart) (d : Dom) (n : Nat) :
    (s.setHart h x).source d n = s.source d n := by simp [State.source]
@[simp] theorem State.owned_setHart (s : State) (h : Nat) (x : Hart) (d : Dom) (n : Nat) :
    (s.setHart h x).owned d n = s.owned d n := rfl

/-! ### The answer of a slave -/

@[simp] theorem State.acknowledge_answer (s : State) : s.acknowledge.answer = .ack := rfl
@[simp] theorem State.acknowledge_cfg (s : State) : s.acknowledge.cfg = s.cfg := rfl
@[simp] theorem State.acknowledge_dom (s : State) (d : Dom) : s.acknowledge.dom d = s.dom d := by
  cases d <;> rfl
@[simp] theorem State.acknowledge_source (s : State) (d : Dom) (n : Nat) :
    s.acknowledge.source d n = s.source d n := by simp [State.source]
@[simp] theorem State.acknowledge_owned (s : State) (d : Dom) (n : Nat) :
    s.acknowledge.owned d n = s.owned d n := rfl
@[simp] theorem State.acknowledge_deleg (s : State) : s.acknowledge.deleg = s.deleg := rfl
@[simp] theorem State.acknowledge_rawInput (s : State) : s.acknowledge.rawInput = s.rawInput := rfl
@[simp] theorem State.acknowledge_harts (s : State) : s.acknowledge.harts = s.harts := rfl
@[simp] theorem State.acknowledge_hart (s : State) (h : Nat) : s.acknowledge.hart h = s.hart h := rfl
@[simp] theorem State.acknowledge_unit (s : State) (h : Nat) (f : FileId) :
    s.acknowledge.unit h f = s.unit h f := rfl
@[simp] theorem State.acknowledge_file (s : State) (h : Nat) (f : FileId) :
    s.acknowledge.file h f = s.file h f := rfl
@[simp] theorem State.acknowledge_tx (s : State) (x : TxId) : s.acknowledge.tx x = s.tx x := by
  unfold State.tx; split <;> simp

@[simp] theorem State.answerData_answer (s : State) (w : Word) : (s.answerData w).answer = .data w := rfl
@[simp] theorem State.answerData_dom (s : State) (w : Word) (d : Dom) :
    (s.answerData w).dom d = s.dom d := by cases d <;> rfl
@[simp] theorem State.answerData_tx (s : State) (w : Word) (x : TxId) :
    (s.answerData w).tx x = s.tx x := by unfold State.tx; split <;> first | simp | rfl

end Sys2Proof.Machine
end

