-- ==== Sys2Proof/Laws/Table.lean ====
section
/-! SUPPORT. The sparse tables: what a read gives after a write, and that every operation keeps the
canonical form and every property of the entries. -/

namespace Sys2Proof.Machine

variable {α : Type}

/-! ### Reading after writing -/

theorem tblGet_tblErase_other (dflt : α) (t : Tbl α) {n m : Nat} (h : m ≠ n) :
    tblGet dflt (tblErase n t) m = tblGet dflt t m := by
  induction t with
  | nil => rfl
  | cons e rest ih =>
    obtain ⟨k, v⟩ := e
    by_cases hk : k = n
    · subst hk; simp only [tblErase, if_true, tblGet, ih]; rw [if_neg (Ne.symm h)]
    · simp only [tblErase, hk, if_false, tblGet, ih]

theorem tblGet_tblErase_same (dflt : α) (t : Tbl α) (n : Nat) : tblGet dflt (tblErase n t) n = dflt := by
  induction t with
  | nil => rfl
  | cons e rest ih =>
    obtain ⟨k, v⟩ := e
    by_cases hk : k = n <;> simp [tblErase, tblGet, hk, ih]

theorem tblGet_tblInsert_other (dflt : α) (t : Tbl α) {n m : Nat} (v : α) (h : m ≠ n) :
    tblGet dflt (tblInsert n v t) m = tblGet dflt t m := by
  induction t with
  | nil => simp [tblInsert, tblGet, Ne.symm h]
  | cons e rest ih =>
    obtain ⟨k, u⟩ := e
    by_cases hk : n < k <;> simp [tblInsert, tblGet, hk, Ne.symm h, ih]

theorem tblGet_tblInsert_erased (dflt : α) (t : Tbl α) (n : Nat) (v : α) :
    tblGet dflt (tblInsert n v (tblErase n t)) n = v := by
  induction t with
  | nil => simp [tblErase, tblInsert, tblGet]
  | cons e rest ih =>
    obtain ⟨k, u⟩ := e
    by_cases hk : k = n
    · simp only [tblErase, hk, if_true, ih]
    · by_cases hlt : n < k
      · simp [tblErase, hk, tblInsert, hlt, tblGet]
      · simp [tblErase, hk, tblInsert, hlt, tblGet, ih]

/-- A table read after one of its values is replaced: the new value at that number, the old value at
every other. -/
theorem tblGet_tblSet [DecidableEq α] (dflt : α) (t : Tbl α) (n m : Nat) (v : α) :
    tblGet dflt (tblSet dflt t n v) m = if m = n then v else tblGet dflt t m := by
  unfold tblSet
  by_cases hm : m = n
  · subst hm
    by_cases hv : v = dflt
    · simp [hv, tblGet_tblErase_same]
    · simp [hv, tblGet_tblInsert_erased]
  · by_cases hv : v = dflt
    · simp [hv, hm, tblGet_tblErase_other dflt t hm]
    · simp [hv, hm, tblGet_tblInsert_other dflt _ v hm, tblGet_tblErase_other dflt t hm]

/-! ### The canonical form -/

/-- A number below every entry of a canonical table reads the default. -/
theorem tblGet_below [DecidableEq α] (dflt : α) (t : Tbl α) {lo n : Nat} (h : tblWfFrom dflt lo t = true)
    (hn : n < lo) : tblGet dflt t n = dflt := by
  induction t generalizing lo with
  | nil => rfl
  | cons e rest ih =>
    obtain ⟨k, v⟩ := e
    simp only [tblWfFrom, Bool.and_eq_true, decide_eq_true_eq] at h
    have : k ≠ n := by omega
    simp only [tblGet, this, if_false]
    exact ih h.2 (by omega)

theorem tblWfFrom_mono [DecidableEq α] (dflt : α) (t : Tbl α) {lo lo' : Nat} (hle : lo' ≤ lo)
    (h : tblWfFrom dflt lo t = true) : tblWfFrom dflt lo' t = true := by
  cases t with
  | nil => rfl
  | cons e rest =>
    obtain ⟨k, v⟩ := e
    simp only [tblWfFrom, Bool.and_eq_true, decide_eq_true_eq] at h ⊢
    exact ⟨⟨by omega, h.1.2⟩, h.2⟩

theorem tblWfFrom_tblErase [DecidableEq α] (dflt : α) (t : Tbl α) {lo : Nat} (n : Nat)
    (h : tblWfFrom dflt lo t = true) : tblWfFrom dflt lo (tblErase n t) = true := by
  induction t generalizing lo with
  | nil => rfl
  | cons e rest ih =>
    obtain ⟨k, v⟩ := e
    simp only [tblWfFrom, Bool.and_eq_true, decide_eq_true_eq] at h
    by_cases hk : k = n
    · simp only [tblErase, hk, if_true]
      exact tblWfFrom_mono dflt _ (by omega) (ih h.2)
    · simp only [tblErase, hk, if_false, tblWfFrom, Bool.and_eq_true, decide_eq_true_eq]
      exact ⟨h.1, ih h.2⟩

theorem tblWfFrom_tblInsert [DecidableEq α] (dflt : α) (t : Tbl α) {lo : Nat} (n : Nat) (v : α)
    (hv : v ≠ dflt) (hlo : lo ≤ n) (h : tblWfFrom dflt lo t = true) :
    tblWfFrom dflt lo (tblInsert n v (tblErase n t)) = true := by
  induction t generalizing lo with
  | nil => simp [tblErase, tblInsert, tblWfFrom, hv, hlo]
  | cons e rest ih =>
    obtain ⟨k, u⟩ := e
    simp only [tblWfFrom, Bool.and_eq_true, decide_eq_true_eq] at h
    by_cases hk : k = n
    · simp only [tblErase, hk, if_true]
      exact ih hlo (tblWfFrom_mono dflt _ (by omega) h.2)
    · simp only [tblErase, hk, if_false]
      by_cases hlt : n < k
      · simp only [tblInsert, hlt, if_true, tblWfFrom, Bool.and_eq_true, decide_eq_true_eq]
        exact ⟨⟨hlo, hv⟩, ⟨⟨by omega, h.1.2⟩, tblWfFrom_tblErase dflt rest n h.2⟩⟩
      · simp only [tblInsert, hlt, if_false, tblWfFrom, Bool.and_eq_true, decide_eq_true_eq]
        exact ⟨h.1, ih (by omega) h.2⟩

/-- Replacing a value keeps the canonical form. -/
theorem tblWf_tblSet [DecidableEq α] (dflt : α) (t : Tbl α) (n : Nat) (v : α) (h : tblWf dflt t = true) :
    tblWf dflt (tblSet dflt t n v) = true := by
  unfold tblSet tblWf at *
  by_cases hv : v = dflt
  · simp only [hv, if_true]; exact tblWfFrom_tblErase dflt t n h
  · simp only [hv, if_false]; exact tblWfFrom_tblInsert dflt t n v hv (by omega) h

theorem tblWfFrom_tblMap [DecidableEq α] (dflt : α) (f : Nat → α → α) (t : Tbl α) {lo : Nat}
    (h : tblWfFrom dflt lo t = true) : tblWfFrom dflt lo (tblMap dflt f t) = true := by
  induction t generalizing lo with
  | nil => rfl
  | cons e rest ih =>
    obtain ⟨k, v⟩ := e
    simp only [tblWfFrom, Bool.and_eq_true, decide_eq_true_eq] at h
    by_cases hf : f k v = dflt
    · simp only [tblMap, hf, if_true]
      exact tblWfFrom_mono dflt _ (by omega) (ih h.2)
    · simp only [tblMap, hf, if_false, tblWfFrom, Bool.and_eq_true, decide_eq_true_eq]
      exact ⟨⟨h.1.1, hf⟩, ih h.2⟩

/-- Changing every entry keeps the canonical form. -/
theorem tblWf_tblMap [DecidableEq α] (dflt : α) (f : Nat → α → α) (t : Tbl α) (h : tblWf dflt t = true) :
    tblWf dflt (tblMap dflt f t) = true := tblWfFrom_tblMap dflt f t h

theorem tblGet_tblMap_from [DecidableEq α] (dflt : α) (f : Nat → α → α) (t : Tbl α) {lo : Nat} (n : Nat)
    (hd : f n dflt = dflt) (h : tblWfFrom dflt lo t = true) :
    tblGet dflt (tblMap dflt f t) n = f n (tblGet dflt t n) := by
  induction t generalizing lo with
  | nil => simp [tblMap, tblGet, hd]
  | cons e rest ih =>
    obtain ⟨k, v⟩ := e
    simp only [tblWfFrom, Bool.and_eq_true, decide_eq_true_eq] at h
    have hrest := ih h.2
    by_cases hk : k = n
    · subst hk
      by_cases hf : f k v = dflt
      · simp only [tblMap, hf, if_true, tblGet]
        rw [hrest, tblGet_below dflt rest h.2 (by omega), hd]
      · simp only [tblMap, hf, if_false, tblGet, if_true]
    · by_cases hf : f k v = dflt
      · simp only [tblMap, hf, if_true, tblGet, hk, if_false, hrest]
      · simp only [tblMap, hf, if_false, tblGet, hk, hrest]

/-- Every number of a canonical table changed by a function that keeps the default reads changed. -/
theorem tblGet_tblMap [DecidableEq α] (dflt : α) (f : Nat → α → α) (t : Tbl α) (n : Nat)
    (hd : f n dflt = dflt) (h : tblWf dflt t = true) :
    tblGet dflt (tblMap dflt f t) n = f n (tblGet dflt t n) := tblGet_tblMap_from dflt f t n hd h

/-- A function that leaves every entry as it is leaves a canonical table as it is. -/
theorem tblMap_eq_self [DecidableEq α] (dflt : α) (f : Nat → α → α) (t : Tbl α) {lo : Nat}
    (hf : ∀ e ∈ t, f e.1 e.2 = e.2) (h : tblWfFrom dflt lo t = true) : tblMap dflt f t = t := by
  induction t generalizing lo with
  | nil => rfl
  | cons e rest ih =>
    obtain ⟨k, v⟩ := e
    simp only [tblWfFrom, Bool.and_eq_true, decide_eq_true_eq] at h
    have hk : f k v = v := hf (k, v) List.mem_cons_self
    simp only [tblMap, hk, h.1.2, if_false]
    rw [ih (fun e he => hf e (List.mem_cons_of_mem _ he)) h.2]

/-! ### Properties of every entry -/

theorem tblAll_tblErase {P : Nat × α → Bool} (t : Tbl α) (n : Nat) (h : t.all P = true) :
    (tblErase n t).all P = true := by
  induction t with
  | nil => rfl
  | cons e rest ih =>
    obtain ⟨k, v⟩ := e
    simp only [List.all_cons, Bool.and_eq_true] at h
    by_cases hk : k = n
    · simp only [tblErase, hk, if_true, ih h.2]
    · simp only [tblErase, hk, if_false, List.all_cons, h.1, ih h.2, Bool.and_self]

theorem tblAll_tblInsert {P : Nat × α → Bool} (t : Tbl α) (n : Nat) (v : α) (hv : P (n, v) = true)
    (h : t.all P = true) : (tblInsert n v t).all P = true := by
  induction t with
  | nil => simp [tblInsert, hv]
  | cons e rest ih =>
    obtain ⟨k, u⟩ := e
    simp only [List.all_cons, Bool.and_eq_true] at h
    by_cases hk : n < k
    · simp only [tblInsert, hk, if_true, List.all_cons, hv, h.1, h.2, Bool.and_self]
    · simp only [tblInsert, hk, if_false, List.all_cons, h.1, ih h.2, Bool.and_self]

/-- A property of every entry survives a write, if the written value has it or is the default. -/
theorem tblAll_tblSet [DecidableEq α] {P : Nat × α → Bool} (dflt : α) (t : Tbl α) (n : Nat) (v : α)
    (hv : v ≠ dflt → P (n, v) = true) (h : t.all P = true) : (tblSet dflt t n v).all P = true := by
  unfold tblSet
  by_cases hd : v = dflt
  · simp only [hd, if_true]; exact tblAll_tblErase t n h
  · simp only [hd, if_false]; exact tblAll_tblInsert _ n v (hv hd) (tblAll_tblErase t n h)

/-- A property of every entry of the changed table holds if it holds of every changed entry. -/
theorem tblAll_tblMap [DecidableEq α] {P Q : Nat × α → Bool} (dflt : α) (f : Nat → α → α) (t : Tbl α)
    (hf : ∀ n v, Q (n, v) = true → f n v ≠ dflt → P (n, f n v) = true) (h : t.all Q = true) :
    (tblMap dflt f t).all P = true := by
  induction t with
  | nil => rfl
  | cons e rest ih =>
    obtain ⟨k, v⟩ := e
    simp only [List.all_cons, Bool.and_eq_true] at h
    by_cases hd : f k v = dflt
    · simp only [tblMap, hd, if_true, ih h.2]
    · simp only [tblMap, hd, if_false, List.all_cons, hf k v h.1 hd, ih h.2, Bool.and_self]

/-- A value that is read is the default or stands in the table. -/
theorem tblGet_mem (dflt : α) (t : Tbl α) (n : Nat) : tblGet dflt t n = dflt ∨ (n, tblGet dflt t n) ∈ t := by
  induction t with
  | nil => exact .inl rfl
  | cons e rest ih =>
    obtain ⟨k, v⟩ := e
    by_cases hk : k = n
    · subst hk; simp [tblGet]
    · simp only [tblGet, hk, if_false]
      exact ih.imp id (List.mem_cons_of_mem _)

/-- What holds of every entry and of the default holds of every value that is read. -/
theorem tblAll_tblGet {P : Nat × α → Bool} (dflt : α) (t : Tbl α) (n : Nat) (h : t.all P = true)
    (hd : P (n, dflt) = true) : P (n, tblGet dflt t n) = true := by
  rcases tblGet_mem dflt t n with e | e
  · rw [e]; exact hd
  · exact List.all_eq_true.mp h _ e

/-- What holds of every entry holds of every value that is read and is not the default. -/
theorem tblAll_tblGet_ne {P : Nat × α → Bool} (dflt : α) (t : Tbl α) (n : Nat) (h : t.all P = true)
    (hn : tblGet dflt t n ≠ dflt) : P (n, tblGet dflt t n) = true :=
  List.all_eq_true.mp h _ ((tblGet_mem dflt t n).resolve_left hn)

end Sys2Proof.Machine
end

