-- ==== Sys2Proof/Laws/Files.lean ====
section
/-! SUPPORT. The harts and their interrupt files: what each shared operation over them does, said once. -/

namespace Sys2Proof.Machine

/-! ### Harts -/

theorem State.hart_setHart (s : State) (h h' : Nat) (x : Hart) :
    (s.setHart h x).hart h' = if h' = h then x else s.hart h' := by
  simp [State.hart, State.setHart, tblGet_tblSet]

/-! ### Files of a hart -/

theorem Hart.unit_setUnit (x : Hart) (f f' : FileId) (u : FileUnit) :
    (x.setUnit f u).unit f' = if f' = f then u else x.unit f' := by
  cases f <;> cases f' <;> simp [Hart.setUnit, Hart.unit, tblGet_tblSet, ← BitVec.toNat_inj]

@[simp] theorem Hart.setUnit_illegal (x : Hart) (f : FileId) (u : FileUnit) :
    (x.setUnit f u).illegal = x.illegal := by cases f <;> rfl
@[simp] theorem Hart.setUnit_rdata (x : Hart) (f : FileId) (u : FileUnit) :
    (x.setUnit f u).rdata = x.rdata := by cases f <;> rfl
@[simp] theorem Hart.setUnit_claimId (x : Hart) (f : FileId) (u : FileUnit) :
    (x.setUnit f u).claimId = x.claimId := by cases f <;> rfl

theorem Hart.unit_zero (f : FileId) : Hart.zero.unit f = FileUnit.zero := by cases f <;> rfl

/-! ### Files of the block -/

theorem State.hart_setUnit (s : State) (h h' : Nat) (f : FileId) (u : FileUnit) :
    (s.setUnit h f u).hart h' = if h' = h then (s.hart h).setUnit f u else s.hart h' := by
  unfold State.setUnit; rw [State.hart_setHart]

theorem State.unit_setUnit (s : State) (h h' : Nat) (f f' : FileId) (u : FileUnit) :
    (s.setUnit h f u).unit h' f' = if h' = h ∧ f' = f then u else s.unit h' f' := by
  unfold State.unit
  rw [State.hart_setUnit]
  by_cases hh : h' = h
  · subst hh; simp [Hart.unit_setUnit]
  · simp [hh]

theorem State.file_setFile (s : State) (h h' : Nat) (f f' : FileId) (x : IFile) :
    (s.setFile h f x).file h' f' = if h' = h ∧ f' = f then x else s.file h' f' := by
  unfold State.file State.setFile
  rw [State.unit_setUnit]
  split <;> rfl

theorem State.port_setFile (s : State) (h h' : Nat) (f f' : FileId) (x : IFile) :
    ((s.setFile h f x).unit h' f').port = (s.unit h' f').port := by
  unfold State.setFile
  rw [State.unit_setUnit]
  split
  · rename_i hc; obtain ⟨rfl, rfl⟩ := hc; rfl
  · rfl

theorem State.hart_setFile (s : State) (h h' : Nat) (f : FileId) (x : IFile) :
    ((s.setFile h f x).hart h').illegal = (s.hart h').illegal ∧
      ((s.setFile h f x).hart h').rdata = (s.hart h').rdata ∧
      ((s.setFile h f x).hart h').claimId = (s.hart h').claimId := by
  unfold State.setFile
  rw [State.hart_setUnit]
  split
  · rename_i hc; subst hc; simp
  · simp

/-- Only the harts' side differs. -/
theorem State.setFile_frame (s : State) (h : Nat) (f : FileId) (x : IFile) :
    { s.setFile h f x with harts := s.harts } = s := rfl

/-- A change of a hart that keeps its files keeps every file. -/
theorem State.unit_setHart (s : State) (h h' : Nat) (f : FileId) (x : Hart)
    (hx : ∀ f, x.unit f = (s.hart h).unit f) : (s.setHart h x).unit h' f = s.unit h' f := by
  unfold State.unit
  rw [State.hart_setHart]
  split
  · rename_i hc; subst hc; exact hx f
  · rfl

/-! ### The three ways a hart's side is answered -/

@[simp] theorem State.unit_illegalAccess (s : State) (h h' : Nat) (f : FileId) :
    (s.illegalAccess h).unit h' f = s.unit h' f :=
  State.unit_setHart s h h' f _ (fun f => by cases f <;> rfl)
@[simp] theorem State.unit_legalAccess (s : State) (h h' : Nat) (f : FileId) (v : DWord) :
    (s.legalAccess h v).unit h' f = s.unit h' f :=
  State.unit_setHart s h h' f _ (fun f => by cases f <;> rfl)
@[simp] theorem State.unit_claimAnswer (s : State) (h h' : Nat) (f : FileId) (id : Nat) :
    (s.claimAnswer h id).unit h' f = s.unit h' f :=
  State.unit_setHart s h h' f _ (fun f => by cases f <;> rfl)

@[simp] theorem State.file_illegalAccess (s : State) (h h' : Nat) (f : FileId) :
    (s.illegalAccess h).file h' f = s.file h' f := by simp [State.file]
@[simp] theorem State.file_legalAccess (s : State) (h h' : Nat) (f : FileId) (v : DWord) :
    (s.legalAccess h v).file h' f = s.file h' f := by simp [State.file]
@[simp] theorem State.file_claimAnswer (s : State) (h h' : Nat) (f : FileId) (id : Nat) :
    (s.claimAnswer h id).file h' f = s.file h' f := by simp [State.file]

theorem State.hart_illegalAccess (s : State) (h h' : Nat) :
    (s.illegalAccess h).hart h' =
      if h' = h then { s.hart h with illegal := true, rdata := 0#64 } else s.hart h' := by
  unfold State.illegalAccess; rw [State.hart_setHart]
theorem State.hart_legalAccess (s : State) (h h' : Nat) (v : DWord) :
    (s.legalAccess h v).hart h' =
      if h' = h then { s.hart h with illegal := false, rdata := v } else s.hart h' := by
  unfold State.legalAccess; rw [State.hart_setHart]
theorem State.hart_claimAnswer (s : State) (h h' : Nat) (id : Nat) :
    (s.claimAnswer h id).hart h' =
      if h' = h then { s.hart h with claimId := BitVec.ofNat 11 id } else s.hart h' := by
  unfold State.claimAnswer; rw [State.hart_setHart]

/-! ### Registers of a file -/

theorem IFile.read_masked (x : IFile) (r : IReg) : x.read r &&& r.mask = x.read r := by
  cases r with
  | eidelivery =>
    cases h : x.eidelivery <;> simp only [IFile.read, IReg.mask, h] <;> decide
  | eithreshold =>
    apply BitVec.eq_of_getLsbD_eq
    intro i hi
    simp only [IFile.read, IReg.mask, BitVec.getLsbD_and, BitVec.getLsbD_setWidth]
    by_cases h : i < 11
    · have : (0x7FF#64).getLsbD i = true := by
        have : i = 0 ∨ i = 1 ∨ i = 2 ∨ i = 3 ∨ i = 4 ∨ i = 5 ∨ i = 6 ∨ i = 7 ∨ i = 8 ∨ i = 9 ∨ i = 10 := by
          omega
        rcases this with h | h | h | h | h | h | h | h | h | h | h <;> subst h <;> rfl
      simp [this]
    · simp [BitVec.getLsbD_of_ge x.eithreshold i (Nat.le_of_not_lt h)]
  | eip k => simp [IFile.read, BitVec.and_assoc]
  | eie k => simp [IFile.read, BitVec.and_assoc]

/-- A register read after a register is stored: the stored value under the mask, or the old value. -/
theorem IFile.read_store (x : IFile) (r r' : IReg) (v : DWord) :
    (x.store r v).read r' = if r' = r then v &&& r.mask else x.read r' := by
  cases r <;> cases r' <;>
    simp [IFile.store, IFile.read, IReg.mask, getBank_setBank]
  · apply BitVec.eq_of_getLsbD_eq
    intro i hi
    by_cases h : i = 0
    · subst h; simp
    · simp [h, BitVec.getLsbD_one]
  · apply BitVec.eq_of_getLsbD_eq
    intro i hi
    by_cases h : i < 11
    · have : (0x7FF#64).getLsbD i = true := by
        have : i = 0 ∨ i = 1 ∨ i = 2 ∨ i = 3 ∨ i = 4 ∨ i = 5 ∨ i = 6 ∨ i = 7 ∨ i = 8 ∨ i = 9 ∨ i = 10 := by
          omega
        rcases this with h | h | h | h | h | h | h | h | h | h | h <;> subst h <;> rfl
      simp [h, this, hi]
    · have : (0x7FF#64).getLsbD i = false := by
        rw [show (0x7FF#64) = (0x7FF#11).setWidth 64 by decide, BitVec.getLsbD_setWidth,
          BitVec.getLsbD_of_ge _ i (Nat.le_of_not_lt h)]; simp
      simp [h, this]
  · split <;> rename_i h
    · subst h; simp
    · simp
  · split <;> rename_i h
    · subst h; simp
    · simp

/-- Everything an indirect access does to the file's registers (R324). -/
theorem IFile.read_access (x : IFile) (r r' : IReg) (op : CsrOp) (v : DWord) :
    (x.access r op v).read r' = if r' = r then op.combine (x.read r) v &&& r.mask else x.read r' := by
  unfold IFile.access
  rw [IFile.read_store]
  split <;> simp [BitVec.and_assoc]

/-! ### The priority multiplexer -/

theorem IFile.candidate_lt (x : IFile) (i : Nat) (h : x.candidate i = true) : i < 2048 := by
  by_contra hn
  simp [IFile.candidate, BitVec.getLsbD_of_ge x.eip i (Nat.le_of_not_lt hn)] at h

/-- The top identity is 0, or the least candidate, which the enable and the threshold admit. -/
theorem IFile.top_spec (x : IFile) : x.top = 0 ∨
    (x.eidelivery = true ∧ x.candidate x.top = true ∧ x.admits x.top = true ∧ 1 ≤ x.top ∧ x.top < 2048 ∧
      ∀ i, i < x.top → x.candidate i = false) := by
  unfold IFile.top
  by_cases hd : x.eidelivery = true
  · simp only [hd, if_true]
    cases hl : lowest (nId + 1) x.candidate with
    | none => left; rfl
    | some m =>
      obtain ⟨h1, h2, h3⟩ := (lowest_eq_some (nId + 1) x.candidate m).mp hl
      by_cases ha : x.admits m = true
      · right
        simp only [ha, if_true]
        have : 1 ≤ m := by
          simp only [IFile.candidate, Bool.and_eq_true, decide_eq_true_eq] at h2; exact h2.1.1
        exact ⟨trivial, h2, trivial, this, by unfold nId at h1; exact h1, h3⟩
      · left; simp [ha]
  · left; simp [hd]

end Sys2Proof.Machine
end

