-- ==== Sys2Proof/Laws/Sources.lean ====
section
/-! SUPPORT. The sources of a domain: what each shared operation over them does, said once. -/

namespace Sys2Proof.Machine

/-! ### One source -/

theorem State.source_setSource (s : State) (d e : Dom) (n m : Nat) (x : Source) :
    (s.setSource d n x).source e m = if e = d ∧ m = n then x else s.source e m := by
  unfold State.setSource State.source
  by_cases he : e = d
  · subst he; simp [tblGet_tblSet]
  · simp [State.dom_setDom_other s d e _ he, he]

@[simp] theorem State.setSource_cfg (s : State) (d : Dom) (n : Nat) (x : Source) :
    (s.setSource d n x).cfg = s.cfg := by simp [State.setSource]
@[simp] theorem State.setSource_rawInput (s : State) (d : Dom) (n : Nat) (x : Source) :
    (s.setSource d n x).rawInput = s.rawInput := by simp [State.setSource]
@[simp] theorem State.setSource_deleg (s : State) (d : Dom) (n : Nat) (x : Source) :
    (s.setSource d n x).deleg = s.deleg := by simp [State.setSource]
@[simp] theorem State.setSource_harts (s : State) (d : Dom) (n : Nat) (x : Source) :
    (s.setSource d n x).harts = s.harts := by simp [State.setSource]
@[simp] theorem State.owned_setSource (s : State) (d e : Dom) (n m : Nat) (x : Source) :
    (s.setSource d n x).owned e m = s.owned e m := by simp [State.setSource]

/-- Two states that differ in the sources of domain `d` alone. -/
theorem State.setSource_eq (s : State) (d : Dom) (n : Nat) (x : Source) :
    s.setSource d n x = s.setDom d { s.dom d with
      sources := tblSet Source.zero (s.dom d).sources n x } := rfl

@[simp] theorem State.owned_modifyOwned (s : State) (d e : Dom) (n m : Nat) (f : Source → Source) :
    (s.modifyOwned d n f).owned e m = s.owned e m := by
  unfold State.modifyOwned; split <;> simp

@[simp] theorem State.modifyOwned_cfg (s : State) (d : Dom) (n : Nat) (f : Source → Source) :
    (s.modifyOwned d n f).cfg = s.cfg := by unfold State.modifyOwned; split <;> simp
@[simp] theorem State.modifyOwned_rawInput (s : State) (d : Dom) (n : Nat) (f : Source → Source) :
    (s.modifyOwned d n f).rawInput = s.rawInput := by unfold State.modifyOwned; split <;> simp

/-- A change of one source reaches it where the domain owns it, and no other. -/
theorem State.source_modifyOwned (s : State) (d e : Dom) (n m : Nat) (f : Source → Source) :
    (s.modifyOwned d n f).source e m =
      if e = d ∧ m = n ∧ s.owned d n = true then f (s.source d n) else s.source e m := by
  unfold State.modifyOwned
  by_cases ho : s.owned d n = true
  · simp only [ho, if_true, State.source_setSource]; simp
  · simp [ho]

/-- A change of one source leaves the rest of the state: only the domain's source table differs. -/
theorem State.modifyOwned_frame (s : State) (d : Dom) (n : Nat) (f : Source → Source) :
    ∃ t, s.modifyOwned d n f = s.setDom d { s.dom d with sources := t } := by
  unfold State.modifyOwned
  split
  · exact ⟨_, rfl⟩
  · exact ⟨(s.dom d).sources, (s.setDom_dom d).symm⟩

/-! ### A bitmap word of sources -/

theorem bitNumber_inj {k : Bank} {i j : Nat} (h : bitNumber k i = bitNumber k j) : i = j := by
  unfold bitNumber at h; omega

/-- A fold over the bits of a word, each step of which changes one source by a function that does not
depend on the state, changes each named source once. -/
theorem State.foldBits_spec (d : Dom) (k : Bank) (w : Word) (g : Nat → Source → Source)
    (l : List Nat) (hl : l.Nodup) (s : State) (step : Nat → State → State)
    (hstep : ∀ n t, t.rawInput = s.rawInput → step n t = t.modifyOwned d n (g n)) :
    let r := l.foldl (fun t i => if w.getLsbD i then step (bitNumber k i) t else t) s
    (∃ t, r = s.setDom d { s.dom d with sources := t }) ∧
      ∀ n, r.source d n =
        if s.owned d n = true ∧ (∃ i ∈ l, w.getLsbD i = true ∧ n = bitNumber k i) then g n (s.source d n)
        else s.source d n := by
  induction l generalizing s with
  | nil => exact ⟨⟨(s.dom d).sources, (s.setDom_dom d).symm⟩, fun n => by simp⟩
  | cons a rest ih =>
    simp only [List.foldl_cons]
    rw [List.nodup_cons] at hl
    set u := (if w.getLsbD a then step (bitNumber k a) s else s) with hu
    have hraw : u.rawInput = s.rawInput := by
      rw [hu]; split
      · rw [hstep _ _ rfl]; simp
      · rfl
    obtain ⟨⟨t, ht⟩, hsrc⟩ := ih hl.2 u (fun n t h => hstep n t (by rw [h, hraw]))
    have hown : ∀ n, u.owned d n = s.owned d n := fun n => by
      rw [hu]; split
      · rw [hstep _ _ rfl]; simp
      · rfl
    have hufr : ∃ t, u = s.setDom d { s.dom d with sources := t } := by
      rw [hu]; split
      · rw [hstep _ _ rfl]; exact s.modifyOwned_frame d _ _
      · exact ⟨(s.dom d).sources, (s.setDom_dom d).symm⟩
    obtain ⟨tu, htu⟩ := hufr
    refine ⟨⟨t, by rw [ht, htu]; simp⟩, fun n => ?_⟩
    rw [hsrc n, hown n]
    by_cases ha : w.getLsbD a = true
    · have hus : u.source d n = if n = bitNumber k a ∧ s.owned d (bitNumber k a) = true
          then g (bitNumber k a) (s.source d (bitNumber k a)) else s.source d n := by
        rw [hu, if_pos ha, hstep _ _ rfl, State.source_modifyOwned]; simp
      by_cases hn : n = bitNumber k a
      · have hno : ¬ ∃ i ∈ rest, w.getLsbD i = true ∧ n = bitNumber k i := by
          rintro ⟨i, hi, -, e⟩
          exact hl.1 (bitNumber_inj (hn.symm.trans e) ▸ hi)
        rw [if_neg (fun h => hno h.2), hus, ← hn]
        by_cases ho : s.owned d n = true
        · rw [if_pos ⟨rfl, ho⟩, if_pos ⟨ho, a, List.mem_cons_self, ha, hn⟩]
        · rw [if_neg (fun h => ho h.2), if_neg (fun h => ho h.1)]
      · rw [if_neg (fun h => hn h.1)] at hus
        rw [hus]
        have : (∃ i ∈ a :: rest, w.getLsbD i = true ∧ n = bitNumber k i) ↔
            ∃ i ∈ rest, w.getLsbD i = true ∧ n = bitNumber k i := by
          constructor
          · rintro ⟨i, hi, h1, h2⟩
            rcases List.mem_cons.mp hi with e | e
            · exact absurd (e ▸ h2) hn
            · exact ⟨i, e, h1, h2⟩
          · rintro ⟨i, hi, h⟩; exact ⟨i, List.mem_cons_of_mem _ hi, h⟩
        simp only [this]
    · have hus : u = s := by rw [hu, if_neg ha]
      rw [hus]
      have : (∃ i ∈ a :: rest, w.getLsbD i = true ∧ n = bitNumber k i) ↔
          ∃ i ∈ rest, w.getLsbD i = true ∧ n = bitNumber k i := by
        constructor
        · rintro ⟨i, hi, h1, h2⟩
          rcases List.mem_cons.mp hi with e | e
          · exact absurd (e ▸ h1) ha
          · exact ⟨i, e, h1, h2⟩
        · rintro ⟨i, hi, h⟩; exact ⟨i, List.mem_cons_of_mem _ hi, h⟩
      simp only [this]

/-- A source is named by a bitmap write exactly when its word is the written one and its bit is set. -/
theorem bit_named_iff (k : Bank) (w : Word) (n : Nat) :
    (∃ i ∈ List.range 32, w.getLsbD i = true ∧ n = bitNumber k i) ↔
      n / 32 = k.toNat ∧ w.getLsbD (n % 32) = true := by
  simp only [bitNumber, List.mem_range]
  constructor
  · rintro ⟨i, hi, hw, rfl⟩
    exact ⟨by omega, by rwa [show (32 * k.toNat + i) % 32 = i by omega]⟩
  · rintro ⟨h1, h2⟩
    exact ⟨n % 32, by omega, h2, by omega⟩

/-- Everything a bitmap write of a source operation does. -/
theorem forBits_spec (d : Dom) (k : Bank) (w : Word) (g : Nat → Source → Source) (s : State)
    (step : Nat → State → State)
    (hstep : ∀ n t, t.rawInput = s.rawInput → step n t = t.modifyOwned d n (g n)) :
    (∃ t, forBits k w step s = s.setDom d { s.dom d with sources := t }) ∧
      ∀ n, (forBits k w step s).source d n =
        if s.owned d n = true ∧ n / 32 = k.toNat ∧ w.getLsbD (n % 32) = true then g n (s.source d n)
        else s.source d n := by
  have h := State.foldBits_spec d k w g (List.range 32) List.nodup_range s step hstep
  refine ⟨h.1, fun n => ?_⟩
  have h2 := h.2 n
  simp only [bit_named_iff] at h2
  exact h2

/-- A bitmap word reads bit `i` of word `k` as number `32k + i`. -/
theorem bitmapWord_getLsbD (k : Bank) (p : Nat → Bool) (i : Nat) :
    (bitmapWord k p).getLsbD i = (decide (i < 32) && p (32 * k.toNat + i)) := by
  unfold bitmapWord
  by_cases hi : i < 32
  · simp [hi, bitNumber]
  · rw [BitVec.getLsbD_of_ge _ i (Nat.le_of_not_lt hi)]; simp [hi]

/-! ### Every source of a domain -/

@[simp] theorem State.mapOwned_cfg (s : State) (d : Dom) (f : Nat → Source → Source) :
    (s.mapOwned d f).cfg = s.cfg := by simp [State.mapOwned]
@[simp] theorem State.mapOwned_rawInput (s : State) (d : Dom) (f : Nat → Source → Source) :
    (s.mapOwned d f).rawInput = s.rawInput := by simp [State.mapOwned]
@[simp] theorem State.mapOwned_line (s : State) (d : Dom) (f : Nat → Source → Source) :
    (s.mapOwned d f).line = s.line := by simp [State.mapOwned]
@[simp] theorem State.mapOwned_deleg (s : State) (d : Dom) (f : Nat → Source → Source) :
    (s.mapOwned d f).deleg = s.deleg := by simp [State.mapOwned]
@[simp] theorem State.mapOwned_harts (s : State) (d : Dom) (f : Nat → Source → Source) :
    (s.mapOwned d f).harts = s.harts := by simp [State.mapOwned]
@[simp] theorem State.owned_mapOwned (s : State) (d e : Dom) (f : Nat → Source → Source) (n : Nat) :
    (s.mapOwned d f).owned e n = s.owned e n := by simp [State.mapOwned]

theorem State.source_mapOwned_other (s : State) (d e : Dom) (f : Nat → Source → Source) (n : Nat)
    (h : e ≠ d) : (s.mapOwned d f).source e n = s.source e n := by
  simp [State.mapOwned, State.source, State.dom_setDom_other s d e _ h]

/-- Everything the change of every owned source does, on a canonical table. -/
theorem State.source_mapOwned (s : State) (d : Dom) (f : Nat → Source → Source) (n : Nat)
    (hf : f n Source.zero = Source.zero) (h : tblWf Source.zero (s.dom d).sources = true) :
    (s.mapOwned d f).source d n = if s.owned d n = true then f n (s.source d n) else s.source d n := by
  unfold State.mapOwned State.source
  rw [State.dom_setDom_same]
  exact tblGet_tblMap Source.zero _ _ n (by simp [hf]) h

/-! ### Mode changes and delegation -/

/-- Entering a mode, case by case. -/
theorem Source.setMode_eq (x : Source) (raw : Bool) (m : Mode) : x.setMode raw m = { x with
    mode := m
    pending := if m = .inactive then false else if m = .levelHigh then raw
      else if m = .levelLow then !raw else x.pending } := by
  cases m <;> cases raw <;> simp [Source.setMode, Mode.pol, Mode.code]

@[simp] theorem State.source_with_deleg (s : State) (b : SrcBits) (d : Dom) (n : Nat) :
    ({ s with deleg := b } : State).source d n = s.source d n := by cases d <;> rfl

@[simp] theorem State.setMode_cfg (s : State) (d : Dom) (n : Nat) (m : Mode) :
    (s.setMode d n m).cfg = s.cfg := by simp [State.setMode]
@[simp] theorem State.setMode_deleg (s : State) (d : Dom) (n : Nat) (m : Mode) :
    (s.setMode d n m).deleg = s.deleg := by simp [State.setMode]
@[simp] theorem State.setMode_rawInput (s : State) (d : Dom) (n : Nat) (m : Mode) :
    (s.setMode d n m).rawInput = s.rawInput := by simp [State.setMode]
theorem State.source_setMode (s : State) (d e : Dom) (n k : Nat) (m : Mode) :
    (s.setMode d n m).source e k =
      if e = d ∧ k = n then (s.source d n).setMode (s.rawInput.getLsbD n) m else s.source e k := by
  unfold State.setMode; rw [State.source_setSource]

@[simp] theorem State.delegate_cfg (s : State) (n : Nat) : (s.delegate n).cfg = s.cfg := by
  simp [State.delegate]
@[simp] theorem State.delegate_rawInput (s : State) (n : Nat) : (s.delegate n).rawInput = s.rawInput := by
  simp [State.delegate]
theorem State.delegate_deleg (s : State) (n : Nat) : (s.delegate n).deleg = setBit s.deleg n true := rfl
theorem State.source_delegate (s : State) (e : Dom) (n k : Nat) :
    (s.delegate n).source e k = if e = .M ∧ k = n then Source.zero else s.source e k := by
  unfold State.delegate; rw [State.source_with_deleg, State.source_setSource]

@[simp] theorem State.undelegate_cfg (s : State) (n : Nat) : (s.undelegate n).cfg = s.cfg := by
  simp [State.undelegate]
@[simp] theorem State.undelegate_rawInput (s : State) (n : Nat) :
    (s.undelegate n).rawInput = s.rawInput := by simp [State.undelegate]
theorem State.undelegate_deleg (s : State) (n : Nat) :
    (s.undelegate n).deleg = setBit s.deleg n false := rfl
theorem State.source_undelegate (s : State) (e : Dom) (n k : Nat) :
    (s.undelegate n).source e k = if e = .S ∧ k = n then Source.zero else s.source e k := by
  unfold State.undelegate; rw [State.source_with_deleg, State.source_setSource]

theorem State.setSource_frame (s : State) (d : Dom) (n : Nat) (x : Source) :
    ∃ tb, s.setSource d n x = s.setDom d { s.dom d with sources := tb } := ⟨_, State.setSource_eq s d n x⟩

theorem State.setMode_frame (s : State) (d : Dom) (n : Nat) (m : Mode) :
    ∃ tb, s.setMode d n m = s.setDom d { s.dom d with sources := tb } := s.setSource_frame d n _

theorem State.delegate_frame (s : State) (n : Nat) :
    ∃ tb, s.delegate n =
      { s.setDom .M { s.dom .M with sources := tb } with deleg := setBit s.deleg n true } := by
  obtain ⟨tb, h⟩ := s.setSource_frame .M n Source.zero
  exact ⟨tb, by rw [State.delegate, h]⟩

theorem State.undelegate_frame (s : State) (n : Nat) :
    ∃ tb, s.undelegate n =
      { s.setDom .S { s.dom .S with sources := tb } with deleg := setBit s.deleg n false } := by
  obtain ⟨tb, h⟩ := s.setSource_frame .S n Source.zero
  exact ⟨tb, by rw [State.undelegate, h]⟩

/-- A code written to `sourcecfg`, stored and read again: 2 and 3 become 0 (R132). -/
theorem warlSm_code (w : Word) : (warlSm (w.extractLsb' 0 3)).code.setWidth 32 =
    if w &&& 7#32 = 2#32 ∨ w &&& 7#32 = 3#32 then 0#32 else w &&& 7#32 := by
  have h7 : w &&& 7#32 = (w.extractLsb' 0 3).setWidth 32 := by
    apply BitVec.eq_of_getLsbD_eq; intro i hi
    simp only [BitVec.getLsbD_and, BitVec.getLsbD_setWidth, BitVec.getLsbD_extractLsb']
    interval_cases i <;> simp
  rw [h7]
  generalize w.extractLsb' 0 3 = x
  revert x; decide

/-! ### The functions of one source keep the all-zero copy -/

@[simp] theorem Source.sample_zero (a b : Bool) : Source.zero.sample a b = Source.zero := rfl
@[simp] theorem Source.track_zero (a : Bool) : Source.zero.track a = Source.zero := rfl
@[simp] theorem Source.endRearm_zero : Source.zero.endRearm = Source.zero := rfl

end Sys2Proof.Machine
end

