-- ==== Sys2Proof/Laws/Transactors.lean ====
section
/-! SUPPORT. The transactors: what replacing one does to every other element of the state. -/

namespace Sys2Proof.Machine

/-- A transactor read after one is replaced. -/
theorem State.tx_setTx (s : State) (x y : TxId) (v : Transactor) :
    (s.setTx x v).tx y = if y = x then v else s.tx y := by
  rcases x with (d | ⟨h, f⟩) | d <;> rcases y with (e | ⟨h', f'⟩) | e
  · by_cases he : e = d
    · subst he; simp [State.setTx, State.tx]
    · simp [State.setTx, State.tx, State.dom_setDom_other s d e _ he, he]
  · simp [State.setTx, State.tx]
  · by_cases he : e = d
    · subst he; simp [State.setTx, State.tx]
    · simp [State.setTx, State.tx, State.dom_setDom_other s d e _ he]
  · have : (s.setUnit h f { file := (s.unit h f).file, port := v }).dom e = s.dom e := by
      simp [State.setUnit]
    simp [State.setTx, State.tx, this]
  · simp only [State.setTx, State.tx, State.unit_setUnit]
    by_cases hc : h' = h ∧ f' = f
    · obtain ⟨rfl, rfl⟩ := hc; simp
    · rw [if_neg hc, if_neg (by simpa using hc)]
  · have : (s.setUnit h f { file := (s.unit h f).file, port := v }).dom e = s.dom e := by
      simp [State.setUnit]
    simp [State.setTx, State.tx, this]
  · by_cases he : e = d
    · subst he; simp [State.setTx, State.tx]
    · simp [State.setTx, State.tx, State.dom_setDom_other s d e _ he]
  · simp [State.setTx, State.tx]
  · by_cases he : e = d
    · subst he; simp [State.setTx, State.tx]
    · simp [State.setTx, State.tx, State.dom_setDom_other s d e _ he, he]

@[simp] theorem State.setTx_cfg (s : State) (x : TxId) (v : Transactor) : (s.setTx x v).cfg = s.cfg := by
  rcases x with (d | ⟨h, f⟩) | d <;> simp [State.setTx, State.setUnit]
@[simp] theorem State.setTx_rawInput (s : State) (x : TxId) (v : Transactor) :
    (s.setTx x v).rawInput = s.rawInput := by
  rcases x with (d | ⟨h, f⟩) | d <;> simp [State.setTx, State.setUnit]
@[simp] theorem State.setTx_deleg (s : State) (x : TxId) (v : Transactor) :
    (s.setTx x v).deleg = s.deleg := by
  rcases x with (d | ⟨h, f⟩) | d <;> simp [State.setTx, State.setUnit]
@[simp] theorem State.setTx_line (s : State) (x : TxId) (v : Transactor) :
    (s.setTx x v).line = s.line := by
  rcases x with (d | ⟨h, f⟩) | d <;> simp [State.setTx, State.setUnit]
@[simp] theorem State.setTx_inputs (s : State) (x : TxId) (v : Transactor) :
    (s.setTx x v).inputs = s.inputs := by
  rcases x with (d | ⟨h, f⟩) | d <;> simp [State.setTx, State.setUnit]
@[simp] theorem State.setTx_freeIndex (s : State) (x : TxId) (v : Transactor) :
    (s.setTx x v).freeIndex = s.freeIndex := by
  rcases x with (d | ⟨h, f⟩) | d <;> simp [State.setTx, State.setUnit]
@[simp] theorem State.setTx_answer (s : State) (x : TxId) (v : Transactor) :
    (s.setTx x v).answer = s.answer := by
  rcases x with (d | ⟨h, f⟩) | d <;> simp [State.setTx, State.setUnit]
@[simp] theorem State.owned_setTx (s : State) (x : TxId) (v : Transactor) (d : Dom) (n : Nat) :
    (s.setTx x v).owned d n = s.owned d n := by simp [State.owned, State.owner]

/-- Replacing a transactor leaves every domain's registers and sources. -/
theorem State.dom_setTx (s : State) (x : TxId) (v : Transactor) (d : Dom) :
    ((s.setTx x v).dom d).ie = (s.dom d).ie ∧ ((s.setTx x v).dom d).be = (s.dom d).be ∧
      ((s.setTx x v).dom d).dm = (s.dom d).dm ∧ ((s.setTx x v).dom d).genmsi = (s.dom d).genmsi ∧
      ((s.setTx x v).dom d).genmsiBusy = (s.dom d).genmsiBusy ∧
      ((s.setTx x v).dom d).sources = (s.dom d).sources := by
  rcases x with (e | ⟨h, f⟩) | e
  · by_cases he : d = e
    · subst he; simp [State.setTx]
    · simp [State.setTx, State.dom_setDom_other s e d _ he]
  · simp [State.setTx, State.setUnit]
  · by_cases he : d = e
    · subst he; simp [State.setTx]
    · simp [State.setTx, State.dom_setDom_other s e d _ he]

@[simp] theorem State.source_setTx (s : State) (x : TxId) (v : Transactor) (d : Dom) (n : Nat) :
    (s.setTx x v).source d n = s.source d n := by
  unfold State.source; rw [(s.dom_setTx x v d).2.2.2.2.2]

/-- Replacing a transactor leaves the registers of every file. -/
@[simp] theorem State.file_setTx (s : State) (x : TxId) (v : Transactor) (h : Nat) (f : FileId) :
    (s.setTx x v).file h f = s.file h f := by
  rcases x with (d | ⟨h', f'⟩) | d
  · simp [State.setTx]
  · simp only [State.setTx, State.file, State.unit_setUnit]
    split
    · rename_i hc; obtain ⟨rfl, rfl⟩ := hc; rfl
    · rfl
  · simp [State.setTx]

/-- Replacing a transactor leaves every hart's flag and outputs. -/
theorem State.hart_setTx (s : State) (x : TxId) (v : Transactor) (h : Nat) :
    ((s.setTx x v).hart h).illegal = (s.hart h).illegal ∧
      ((s.setTx x v).hart h).rdata = (s.hart h).rdata ∧
      ((s.setTx x v).hart h).claimId = (s.hart h).claimId := by
  rcases x with (d | ⟨h', f'⟩) | d
  · simp [State.setTx]
  · simp only [State.setTx, State.hart_setUnit]
    split
    · rename_i hc; subst hc; simp
    · simp
  · simp [State.setTx]

end Sys2Proof.Machine
end

