-- ==== Sys2Proof/Laws/Delivery.lean ====
section
/-! SUPPORT. The delivery engine: the fields of a target word as numbers, the tickets by which the next
MSI is chosen, and what its issue changes, said once. -/

namespace Sys2Proof.Machine

/-! ### Fields of a target word -/

theorem hartField_toNat (w : Word) : (hartField w).toNat = w.toNat / 2 ^ 18 := by
  simp [hartField, BitVec.extractLsb'_toNat, Nat.shiftRight_eq_div_pow]; omega

theorem guestField_toNat (w : Word) : (guestField w).toNat = w.toNat / 2 ^ 12 % 2 ^ 6 := by
  simp [guestField, BitVec.extractLsb'_toNat, Nat.shiftRight_eq_div_pow]

theorem eiidField_toNat (w : Word) : (eiidField w).toNat = w.toNat % 2 ^ 11 := by
  simp [eiidField, BitVec.extractLsb'_toNat]

theorem prioField_toNat (w : Word) : (prioField w).toNat = w.toNat % 2 ^ 8 := by
  simp [prioField, BitVec.extractLsb'_toNat]

/-! ### Tickets -/

/-- Where some cause waits the least ticket is one of those held, and none is less. -/
theorem leastTicket_cases (l : List (Cause × Nat)) : (l = [] ∧ leastTicket l = none) ∨
    ∃ e ∈ l, leastTicket l = some e ∧ ∀ f ∈ l, e.2 ≤ f.2 := by
  induction l with
  | nil => exact .inl ⟨rfl, rfl⟩
  | cons x rest ih =>
    refine .inr ?_
    rcases ih with ⟨rfl, -⟩ | ⟨m, hm, hl, hmin⟩
    · exact ⟨x, by simp, rfl, by simp⟩
    · rw [leastTicket, hl]
      by_cases hx : x.2 ≤ m.2
      · refine ⟨x, by simp, if_pos hx, fun f hf => ?_⟩
        rcases List.mem_cons.1 hf with rfl | hf
        · exact Nat.le_refl _
        · exact Nat.le_trans hx (hmin f hf)
      · refine ⟨m, by simp [hm], if_neg hx, fun f hf => ?_⟩
        rcases List.mem_cons.1 hf with rfl | hf
        · omega
        · exact hmin f hf

/-- Exactly the causes that wait hold a ticket, in their order. -/
@[simp] theorem assignTickets_fst (issues k : Nat) (old : List (Cause × Nat)) (l : List Cause) :
    (assignTickets issues k old l).map Prod.fst = l := by
  induction l generalizing k with
  | nil => rfl
  | cons c rest ih => rw [assignTickets]; split <;> simp [ih]

/-- A ticket is the one its cause held before, or a new one, not below the number of issues. -/
theorem of_mem_assignTickets {issues k : Nat} {old : List (Cause × Nat)} {l : List Cause}
    {e : Cause × Nat} (h : e ∈ assignTickets issues k old l) :
    e.1 ∈ l ∧ (old.lookup e.1 = some e.2 ∨ (old.lookup e.1 = none ∧ issues ≤ e.2)) := by
  induction l generalizing k with
  | nil => simp [assignTickets] at h
  | cons c rest ih =>
    have up : ∀ j, e ∈ assignTickets issues j old rest → e.1 ∈ c :: rest ∧
        (old.lookup e.1 = some e.2 ∨ (old.lookup e.1 = none ∧ issues ≤ e.2)) := fun j hm =>
      ⟨List.mem_cons_of_mem _ (ih hm).1, (ih hm).2⟩
    rw [assignTickets] at h
    split at h
    · rename_i n hn
      rcases List.mem_cons.1 h with rfl | h
      · exact ⟨List.mem_cons_self, .inl hn⟩
      · exact up _ h
    · rename_i hn
      rcases List.mem_cons.1 h with rfl | h
      · exact ⟨List.mem_cons_self, .inr ⟨hn, by simp⟩⟩
      · exact up _ h

/-! ### Drawing and dropping tickets changes nothing the spec names -/

@[simp] theorem State.drawTickets_cfg (s : State) (d : Dom) : (s.drawTickets d).cfg = s.cfg := by
  simp [State.drawTickets]
@[simp] theorem State.source_drawTickets (s : State) (d e : Dom) (n : Nat) :
    (s.drawTickets d).source e n = s.source e n := by cases d <;> cases e <;> rfl
@[simp] theorem State.owned_drawTickets (s : State) (d e : Dom) (n : Nat) :
    (s.drawTickets d).owned e n = s.owned e n := by cases d <;> rfl
@[simp] theorem State.tx_drawTickets (s : State) (d : Dom) (x : TxId) :
    (s.drawTickets d).tx x = s.tx x := by
  rcases x with (e | ⟨h, f⟩) | e <;> cases d <;> first | rfl | (cases e <;> rfl)
@[simp] theorem State.msiOf_drawTickets (s : State) (d e : Dom) (base : Addr) (c : Cause) :
    (s.drawTickets d).msiOf e base c = s.msiOf e base c := by
  cases c <;> cases d <;> cases e <;> rfl
@[simp] theorem State.want_drawTickets (s : State) (d e : Dom) : (s.drawTickets d).want e = s.want e := by
  cases d <;> cases e <;> rfl
@[simp] theorem State.drawTickets_tickets (s : State) (d : Dom) :
    ((s.drawTickets d).dom d).tickets =
      assignTickets (s.dom d).issues s.freeIndex (s.dom d).tickets (s.want d) := by cases d <;> rfl
@[simp] theorem State.drawTickets_issues (s : State) (d e : Dom) :
    ((s.drawTickets d).dom e).issues = (s.dom e).issues := by cases d <;> cases e <;> rfl
@[simp] theorem State.source_dropTickets (s : State) (d e : Dom) (n : Nat) :
    (s.dropTickets d).source e n = s.source e n := by cases d <;> cases e <;> rfl
@[simp] theorem State.tx_dropTickets (s : State) (d : Dom) (x : TxId) :
    (s.dropTickets d).tx x = s.tx x := by
  rcases x with (e | ⟨h, f⟩) | e <;> cases d <;> first | rfl | (cases e <;> rfl)
@[simp] theorem State.want_dropTickets (s : State) (d e : Dom) : (s.dropTickets d).want e = s.want e := by
  cases d <;> cases e <;> rfl

/-- All the issue step of a domain can do (R292): nothing is owed in direct mode; in MSI mode with its
port idle and something owed it issues the MSI of the least ticket; otherwise it issues nothing. -/
theorem State.issueStep_cases (s : State) (d : Dom) (base : Addr) (portIdle : Bool) :
    ((s.dom d).dm = false ∧ s.issueStep d base portIdle = s.dropTickets d) ∨
    ((s.dom d).dm = true ∧ (portIdle = false ∨ s.want d = []) ∧
      s.issueStep d base portIdle = s.drawTickets d) ∨
    ((s.dom d).dm = true ∧ portIdle = true ∧ ∃ e, e ∈ ((s.drawTickets d).dom d).tickets ∧
      e.1 ∈ s.want d ∧ (∀ f ∈ ((s.drawTickets d).dom d).tickets, e.2 ≤ f.2) ∧
      s.issueStep d base portIdle = (s.drawTickets d).issue d base e.1) := by
  unfold State.issueStep
  by_cases hdm : (s.dom d).dm = true
  · rw [if_pos hdm]
    refine .inr ?_
    rcases leastTicket_cases ((s.drawTickets d).dom d).tickets with ⟨hn, hl⟩ | ⟨e, he, hl, hmin⟩
    · refine .inl ⟨hdm, .inr ?_, by simp only [hl]⟩
      rw [State.drawTickets_tickets] at hn
      rw [← assignTickets_fst (s.dom d).issues s.freeIndex (s.dom d).tickets (s.want d), hn]; rfl
    · cases portIdle with
      | false => exact .inl ⟨hdm, .inl rfl, by simp only [hl]; rfl⟩
      | true =>
        refine .inr ⟨hdm, rfl, e, he, ?_, hmin, by simp only [hl]; rfl⟩
        rw [State.drawTickets_tickets] at he
        exact (of_mem_assignTickets he).1
  · rw [if_neg hdm]; exact .inl ⟨by simpa using hdm, rfl⟩

/-! ### The issue -/

/-- What is marked is one source of the domain, or its `genmsi`. -/
theorem State.source_markIssued (s : State) (d e : Dom) (x : Cause) (m : Nat) :
    (s.markIssued d x).source e m =
      if e = d ∧ x = .source m then (s.source d m).markNotified else s.source e m := by
  cases x with
  | source n =>
    rw [State.markIssued, State.source_setSource]
    by_cases h : e = d ∧ m = n
    · obtain ⟨rfl, rfl⟩ := h; simp
    · rw [if_neg h, if_neg (by rintro ⟨rfl, h'⟩; injection h' with h'; exact h ⟨rfl, h'.symm⟩)]
  | genmsi =>
    rw [if_neg (by simp)]
    by_cases h : e = d
    · subst h; simp [State.markIssued, State.source, Domain.genmsiIssued]
    · simp [State.markIssued, State.source, State.dom_setDom_other s d e _ h]

/-- Marking a cause leaves the transactor of the domain's delivery engine. -/
theorem State.tx_msi_markIssued (s : State) (d : Dom) (x : Cause) :
    (s.markIssued d x).tx (.msi d) = s.tx (.msi d) := by
  cases x <;> cases d <;> rfl

/-- The issue of an MSI marks its cause and changes no other copy of a source (R292, R293). -/
theorem State.source_issue (s : State) (d e : Dom) (base : Addr) (x : Cause) (m : Nat) :
    (s.issue d base x).source e m =
      if e = d ∧ x = .source m then (s.source d m).markNotified else s.source e m := by
  rw [State.issue, ← State.source_markIssued]
  cases d <;> cases e <;> rfl

/-- The issue of an MSI begins the put at the domain's own transactor and moves no other (R292). -/
theorem State.tx_issue (s : State) (d : Dom) (base : Addr) (c : Cause) (x : TxId) :
    (s.issue d base c).tx x =
      if x = .msi d then (s.tx x).begin s.cfg.timeout (s.msiOf d base c) else s.tx x := by
  rcases x with (e | ⟨h, f⟩) | e
  · rw [if_neg (by simp)]; cases d <;> cases e <;> cases c <;> rfl
  · rw [if_neg (by simp)]; cases d <;> cases c <;> rfl
  · cases d <;> cases e <;> cases c <;> rfl

end Sys2Proof.Machine
end

