-- ==== Sys2Proof/Laws/Map.lean ====
section
/-! SUPPORT. The address map: which ports exist, that no port stands twice, and that in a legal
configuration an address falls in at most one region. -/

namespace Sys2Proof

/-! ### Ports -/

/-- The pages of harts `h`, `h + 1`, ... that a list of configurations gives. -/
theorem mem_pagesFrom (c : Config) (l : List HartCfg) (h : Nat) (r : Port × Addr) :
    r ∈ pagesFrom c h l ↔ ∃ i hc, l[i]? = some hc ∧ r ∈ hartPages c (h + i) hc := by
  induction l generalizing h with
  | nil => simp [pagesFrom]
  | cons hc rest ih =>
    simp only [pagesFrom, List.mem_append, ih]
    constructor
    · rintro (hr | ⟨i, hc', hi, hr⟩)
      · exact ⟨0, hc, rfl, hr⟩
      · exact ⟨i + 1, hc', hi, by rwa [show h + (i + 1) = h + 1 + i by omega]⟩
    · rintro ⟨_ | i, hc', hi, hr⟩
      · simp only [List.getElem?_cons_zero, Option.some.injEq] at hi
        subst hi; exact .inl hr
      · exact .inr ⟨i, hc', hi, by rwa [show h + 1 + i = h + (i + 1) by omega]⟩

/-- A page of hart `h` is one of its file `M`, its file `S`, or a guest file from 1 to `GEILEN`. -/
theorem mem_hartPages (c : Config) (h : Nat) (hc : HartCfg) (r : Port × Addr) :
    r ∈ hartPages c h hc ↔ r = (.page h .M, hc.mfileBase) ∨ r = (.page h .S, hc.sfileBase) ∨
      ∃ g : BitVec 6, 1 ≤ g.toNat ∧ g.toNat ≤ c.geilen.toNat ∧
        r = (.page h (.G g), hc.sfileBase + BitVec.ofNat 64 (filePage * g.toNat)) := by
  simp only [hartPages, List.mem_cons, List.mem_map, List.mem_range]
  refine or_congr_right (or_congr_right ⟨?_, ?_⟩)
  · rintro ⟨i, hi, rfl⟩
    have := c.geilen.isLt
    have hg : (BitVec.ofNat 6 (i + 1)).toNat = i + 1 := by
      rw [BitVec.toNat_ofNat, Nat.mod_eq_of_lt (by omega)]
    exact ⟨BitVec.ofNat 6 (i + 1), by omega, by omega, by rw [hg]⟩
  · rintro ⟨g, h1, h2, rfl⟩
    refine ⟨g.toNat - 1, by omega, ?_⟩
    rw [show g.toNat - 1 + 1 = g.toNat by omega, BitVec.ofNat_toNat, BitVec.setWidth_eq]

/-- Which regions a configuration has (R81). -/
theorem mem_regions (c : Config) (r : Port × Addr) :
    r ∈ c.regions ↔ r = (.window .M, c.baseM) ∨ r = (.window .S, c.baseS) ∨
      ∃ h hc, c.harts[h]? = some hc ∧ r ∈ hartPages c h hc := by
  simp [Config.regions, Config.pages, mem_pagesFrom]

/-- Which ports a configuration has (R61, R81). -/
theorem hasPort_window (c : Config) (d : Dom) : c.hasPort (.window d) = true := by
  rw [Config.hasPort, List.any_eq_true]
  cases d
  · exact ⟨(.window .M, c.baseM), (mem_regions c _).2 (.inl rfl), by simp⟩
  · exact ⟨(.window .S, c.baseS), (mem_regions c _).2 (.inr (.inl rfl)), by simp⟩

theorem hasPort_page (c : Config) (h : Nat) (f : FileId) :
    c.hasPort (.page h f) = true ↔ h < c.nHart ∧
      match f with
      | .M | .S => True
      | .G g => 1 ≤ g.toNat ∧ g.toNat ≤ c.geilen.toNat := by
  simp only [Config.hasPort, List.any_eq_true, mem_regions, mem_hartPages, beq_iff_eq]
  constructor
  · rintro ⟨r, (rfl | rfl | ⟨h', hc, hh, rfl | rfl | ⟨g, h1, h2, rfl⟩⟩), hr⟩
    · cases hr
    · cases hr
    all_goals
      cases hr
      obtain ⟨hlt, -⟩ := List.getElem?_eq_some_iff.1 hh
      exact ⟨hlt, by trivial⟩
  · rintro ⟨hlt, hf⟩
    have hh := List.getElem?_eq_getElem (l := c.harts) hlt
    cases f with
    | M => exact ⟨_, .inr (.inr ⟨h, _, hh, .inl rfl⟩), rfl⟩
    | S => exact ⟨_, .inr (.inr ⟨h, _, hh, .inr (.inl rfl)⟩), rfl⟩
    | G g => exact ⟨_, .inr (.inr ⟨h, _, hh, .inr (.inr ⟨g, hf.1, hf.2, rfl⟩)⟩), rfl⟩

/-- The ports of one hart's pages are its own. -/
theorem port_of_hartPages {c : Config} {h : Nat} {hc : HartCfg} {p : Port}
    (hp : p ∈ (hartPages c h hc).map Prod.fst) : ∃ f, p = .page h f := by
  obtain ⟨r, hr, rfl⟩ := List.mem_map.1 hp
  rcases (mem_hartPages c h hc r).1 hr with rfl | rfl | ⟨g, -, -, rfl⟩ <;> exact ⟨_, rfl⟩

theorem nodup_hartPages (c : Config) (h : Nat) (hc : HartCfg) :
    ((hartPages c h hc).map Prod.fst).Nodup := by
  have hg : ((List.range c.geilen.toNat).map fun i => Port.page h (.G (BitVec.ofNat 6 (i + 1)))).Nodup := by
    refine List.Nodup.map_on ?_ List.nodup_range
    intro i hi j hj hij
    rw [List.mem_range] at hi hj
    have hlt := c.geilen.isLt
    injection hij with _ hij
    injection hij with hij
    have := congrArg BitVec.toNat hij
    rw [BitVec.toNat_ofNat, BitVec.toNat_ofNat, Nat.mod_eq_of_lt (by omega),
      Nat.mod_eq_of_lt (by omega)] at this
    omega
  simp only [hartPages, List.map_cons, List.map_map, List.nodup_cons]
  refine ⟨by simp, by simp, ?_⟩
  exact hg

theorem nodup_pagesFrom (c : Config) (l : List HartCfg) (h : Nat) :
    ((pagesFrom c h l).map Prod.fst).Nodup := by
  induction l generalizing h with
  | nil => simp [pagesFrom]
  | cons hc rest ih =>
    rw [pagesFrom, List.map_append, List.nodup_append]
    refine ⟨nodup_hartPages c h hc, ih _, ?_⟩
    intro p hp q hq
    obtain ⟨f, rfl⟩ := port_of_hartPages hp
    obtain ⟨r, hr, rfl⟩ := List.mem_map.1 hq
    obtain ⟨i, hc', -, hr⟩ := (mem_pagesFrom c rest (h + 1) r).1 hr
    obtain ⟨f', hf'⟩ := port_of_hartPages (List.mem_map.2 ⟨r, hr, rfl⟩)
    rw [hf']
    intro hcon
    injection hcon with hcon
    omega

/-- No port of the block stands twice in the map. -/
theorem nodup_ports (c : Config) : (c.regions.map Prod.fst).Nodup := by
  have hw : ∀ d, Port.window d ∉ (pagesFrom c 0 c.harts).map Prod.fst := by
    intro d hd
    obtain ⟨r, hr, hrd⟩ := List.mem_map.1 hd
    obtain ⟨i, hc', -, hr⟩ := (mem_pagesFrom c c.harts 0 r).1 hr
    obtain ⟨f', hf'⟩ := port_of_hartPages (List.mem_map.2 ⟨r, hr, rfl⟩)
    rw [hf'] at hrd; cases hrd
  simp only [Config.regions, Config.pages, List.map_cons, List.nodup_cons, List.mem_cons, not_or]
  exact ⟨⟨by simp, hw .M⟩, hw .S, nodup_pagesFrom c c.harts 0⟩

/-! ### Transactors -/

/-- No transactor of the block stands twice in the list of them. -/
theorem nodup_transactors (c : Config) : c.transactors.Nodup := by
  rw [Config.transactors, List.nodup_append]
  refine ⟨?_, by simp, ?_⟩
  · have := (nodup_ports c).map (f := TxId.ext) (fun _ _ h => by injection h)
    rwa [List.map_map] at this
  · intro x hx y hy
    obtain ⟨r, -, rfl⟩ := List.mem_map.1 hx
    rintro rfl
    simp at hy

/-- The list holds exactly the transactors of the block. -/
theorem mem_transactors (c : Config) (x : TxId) : x ∈ c.transactors ↔ c.hasTx x = true := by
  cases x with
  | ext p =>
    simp only [Config.transactors, Config.hasTx, Config.hasPort, List.any_eq_true, List.mem_append,
      List.mem_map, beq_iff_eq, TxId.ext.injEq, List.mem_cons, List.not_mem_nil, reduceCtorEq, or_false]
  | msi d => cases d <;> simp [Config.transactors, Config.hasTx]

/-! ### Addresses -/

/-- The region an address falls in is one of the map and holds the address. -/
theorem regionOf_mem {c : Config} {a : Addr} {r : Port × Addr} (h : c.regionOf a = some r) :
    r ∈ c.regions ∧ inRegion r.2 r.1.size a = true :=
  ⟨List.mem_of_find?_eq_some h, List.find?_some (p := fun r : Port × Addr => inRegion r.2 r.1.size a) h⟩

/-- The port an address falls in exists. -/
theorem portOf_hasPort {c : Config} {a : Addr} {p : Port} (h : c.portOf a = some p) :
    c.hasPort p = true := by
  obtain ⟨r, hr, rfl⟩ := Option.map_eq_some_iff.1 h
  exact List.any_eq_true.2 ⟨r, (regionOf_mem hr).1, by simp⟩

theorem find?_of_disjoint (l : List (Port × Addr)) (h : allDisjoint l = true) (r : Port × Addr)
    (hr : r ∈ l) (a : Addr) (ha : inRegion r.2 r.1.size a = true) :
    l.find? (fun q => inRegion q.2 q.1.size a) = some r := by
  induction l with
  | nil => simp at hr
  | cons q rest ih =>
    simp only [allDisjoint, Bool.and_eq_true, List.all_eq_true] at h
    rcases List.mem_cons.1 hr with rfl | hr
    · simp [ha]
    · have hd := h.1 r hr
      have hq : inRegion q.2 q.1.size a = false := by
        simp only [regionsDisjoint, inRegion, Bool.or_eq_true, Bool.and_eq_true, decide_eq_true_eq,
          Bool.and_eq_false_iff, decide_eq_false_iff_not] at hd ha ⊢
        omega
      rw [List.find?_cons_of_neg (by simp [hq])]
      exact ih h.2 hr

/-- In a legal configuration an address in a region of the map falls in that region (R81, R416). -/
theorem regionOf_eq {c : Config} (hv : c.valid = true) {r : Port × Addr} (hr : r ∈ c.regions) {a : Addr}
    (ha : inRegion r.2 r.1.size a = true) : c.regionOf a = some r := by
  have hd : allDisjoint c.regions = true := by
    simp only [Config.valid, Bool.and_eq_true] at hv; exact hv.2
  exact find?_of_disjoint c.regions hd r hr a ha

/-- In a legal configuration a region is aligned to its size and does not wrap (R416). -/
theorem region_aligned {c : Config} (hv : c.valid = true) {r : Port × Addr} (hr : r ∈ c.regions) :
    r.2.toNat % r.1.size = 0 ∧ r.2.toNat + r.1.size ≤ 2 ^ 64 := by
  have ha : c.regions.all regionAligned = true := by
    simp only [Config.valid, Bool.and_eq_true] at hv; exact hv.1.2
  have := List.all_eq_true.1 ha r hr
  simpa [regionAligned] using this

/-- The base of a port is the one the map gives it. -/
theorem portBase_eq {c : Config} {p : Port} {b : Addr} (h : (p, b) ∈ c.regions) : c.portBase p = b := by
  have key : ∀ l : List (Port × Addr), (l.map Prod.fst).Nodup → (p, b) ∈ l →
      l.find? (fun r => r.1 == p) = some (p, b) := by
    intro l
    induction l with
    | nil => intro _ hm; simp at hm
    | cons q rest ih =>
      intro hn hm
      rw [List.map_cons, List.nodup_cons] at hn
      rcases List.mem_cons.1 hm with rfl | hm
      · simp
      · have hne : q.1 ≠ p := by
          rintro rfl; exact hn.1 (List.mem_map.2 ⟨_, hm, rfl⟩)
        rw [List.find?_cons_of_neg (by simpa using hne)]
        exact ih hn.2 hm
  rw [Config.portBase, key _ (nodup_ports c) h]; rfl

/-- A port that exists has its base in the map. -/
theorem port_mem_regions {c : Config} {p : Port} (h : c.hasPort p = true) :
    (p, c.portBase p) ∈ c.regions := by
  obtain ⟨⟨q, b⟩, hr, hp⟩ := List.any_eq_true.1 h
  have hq : q = p := by simpa using hp
  subst hq; rwa [portBase_eq hr]

/-! ### Guest pages -/

/-- In a platform that meets R416 a guest index composed with a file base by OR is the page of that
guest file: OR and addition agree (R416 (b)). -/
theorem or_guest {c : Config} (ha : c.guestAligned) {hc : HartCfg} (hh : hc ∈ c.harts) {g : BitVec 6}
    (hg : g.toNat ≤ c.geilen.toNat) :
    hc.sfileBase ||| (g.setWidth 64 <<< 12) = hc.sfileBase + BitVec.ofNat 64 (filePage * g.toNat) := by
  have hsh : BitVec.ofNat 64 (filePage * g.toNat) = g.setWidth 64 <<< 12 := by
    have := g.isLt
    apply BitVec.eq_of_toNat_eq
    simp only [filePage, BitVec.toNat_ofNat, BitVec.toNat_shiftLeft, BitVec.toNat_setWidth,
      Nat.shiftLeft_eq]
    omega
  rw [hsh, ← BitVec.add_eq_or_of_and_eq_zero]
  apply BitVec.eq_of_getLsbD_eq
  intro i hi
  rw [BitVec.getLsbD_and, BitVec.getLsbD_shiftLeft, BitVec.getLsbD_setWidth, BitVec.getLsbD_zero]
  by_contra hne
  simp only [Bool.and_eq_false_iff, not_or, Bool.not_eq_false] at hne
  obtain ⟨hb, hgi⟩ := hne
  simp only [Bool.not_eq_true', decide_eq_false_iff_not] at hgi
  have hlt : i - 12 < c.guestIndexWidth := by
    by_contra hn
    have : g.toNat < 2 ^ (i - 12) := lt_of_lt_of_le (lt_of_le_of_lt hg ha.1)
      (Nat.pow_le_pow_right (by omega) (Nat.le_of_not_lt hn))
    have := Nat.testBit_lt_two_pow this
    simp [BitVec.getLsbD, this] at hgi
  have h0 := (ha.2 hc hh).1
  have : (c.guestBits hc.sfileBase).testBit (i - 12) = true := by
    rw [Config.guestBits, Nat.testBit_mod_two_pow, Nat.testBit_div_two_pow,
      show i - 12 + 12 = i by omega]
    simp only [hlt, decide_true, Bool.true_and]
    exact hb
  rw [h0] at this
  simp at this

end Sys2Proof
end

