-- ==== Sys2Proof/Laws/PerInstr.lean ====
section
/-! SUPPORT. The statements about every instruction as syntax, made per instruction. -/

namespace Sys2Proof

/-- A bus request as the encoding of a read or a write of a whole register gives it (R88, R123). -/
def isRegisterRequest (r : BusA) : Prop :=
  r.size = 2 ∧ r.mask = laneMask r.address ∧
    ((r.opcode = opGet ∧ r.data = 0#64) ∨ (r.opcode = opPut ∧ ∃ w, r.data = toLanes r.address w))

end Sys2Proof

namespace Sys2Proof.Laws

/-- The message of an instruction has the format of its row: every bus request is one whole register in
its lanes, an indirect access has the reserved code exactly in its own row, and a response has opcode 0 or
1 (R122, R123, R124, R140). -/
def EncodedFormat.Statement (i : Instr) : Prop :=
  ∀ c : Config, match encode c i with
    | .agent (.call r) => isRegisterRequest r
    | .slave r => isRegisterRequest r
    | .agent (.csr r) => r.op = 0#2 ↔ ∃ h sel x v, i = .csrxIllegalOp h sel x v
    | .agent (.claim _) => ∃ h x, i = .claim h x
    | .response _ r => r.opcode = opAck ∨ r.opcode = opAckData

theorem isRegisterRequest_get (a : Addr) : isRegisterRequest (.get a) := ⟨rfl, rfl, .inl ⟨rfl, rfl⟩⟩
theorem isRegisterRequest_put (a : Addr) (w : Word) : isRegisterRequest (.put a w) :=
  ⟨rfl, rfl, .inr ⟨rfl, w, rfl⟩⟩
theorem csrOpCode_ne_zero (op : CsrOp) : op.code ≠ 0#2 := by cases op <;> decide
theorem otherRow {op : BitVec 2} {i : Instr} (hop : op ≠ 0#2)
    (hi : ∀ h sel x v, i ≠ .csrxIllegalOp h sel x v) :
    op = 0#2 ↔ ∃ h sel x v, i = .csrxIllegalOp h sel x v :=
  ⟨fun h => absurd h hop, fun ⟨h, sel, x, v, e⟩ => absurd e (hi h sel x v)⟩

theorem EncodedFormat.get32 (a : Addr) : EncodedFormat.Statement (.get32 a) :=
  fun _ => isRegisterRequest_get _
theorem EncodedFormat.put32 (a : Addr) (w : Word) : EncodedFormat.Statement (.put32 a w) :=
  fun _ => isRegisterRequest_put _ _
theorem EncodedFormat.accessAck (x : TxId) : EncodedFormat.Statement (.accessAck x) :=
  fun _ => .inl rfl
theorem EncodedFormat.accessAckData (x : TxId) (data : DWord) :
    EncodedFormat.Statement (.accessAckData x data) := fun _ => .inr rfl
theorem EncodedFormat.getDomaincfg (d : Dom) : EncodedFormat.Statement (.getDomaincfg d) :=
  fun _ => isRegisterRequest_get _
theorem EncodedFormat.putDomaincfg (d : Dom) (w : Word) : EncodedFormat.Statement (.putDomaincfg d w) :=
  fun _ => isRegisterRequest_put _ _
theorem EncodedFormat.getMmsiaddrcfg (d : Dom) : EncodedFormat.Statement (.getMmsiaddrcfg d) :=
  fun _ => isRegisterRequest_get _
theorem EncodedFormat.putMmsiaddrcfg (d : Dom) (w : Word) : EncodedFormat.Statement (.putMmsiaddrcfg d w) :=
  fun _ => isRegisterRequest_put _ _
theorem EncodedFormat.getMmsiaddrcfgh (d : Dom) : EncodedFormat.Statement (.getMmsiaddrcfgh d) :=
  fun _ => isRegisterRequest_get _
theorem EncodedFormat.putMmsiaddrcfgh (d : Dom) (w : Word) :
    EncodedFormat.Statement (.putMmsiaddrcfgh d w) := fun _ => isRegisterRequest_put _ _
theorem EncodedFormat.getSmsiaddrcfg (d : Dom) : EncodedFormat.Statement (.getSmsiaddrcfg d) :=
  fun _ => isRegisterRequest_get _
theorem EncodedFormat.putSmsiaddrcfg (d : Dom) (w : Word) : EncodedFormat.Statement (.putSmsiaddrcfg d w) :=
  fun _ => isRegisterRequest_put _ _
theorem EncodedFormat.getSmsiaddrcfgh (d : Dom) : EncodedFormat.Statement (.getSmsiaddrcfgh d) :=
  fun _ => isRegisterRequest_get _
theorem EncodedFormat.putSmsiaddrcfgh (d : Dom) (w : Word) :
    EncodedFormat.Statement (.putSmsiaddrcfgh d w) := fun _ => isRegisterRequest_put _ _
theorem EncodedFormat.getSetipnum (d : Dom) : EncodedFormat.Statement (.getSetipnum d) :=
  fun _ => isRegisterRequest_get _
theorem EncodedFormat.putSetipnum (d : Dom) (w : Word) : EncodedFormat.Statement (.putSetipnum d w) :=
  fun _ => isRegisterRequest_put _ _
theorem EncodedFormat.getClripnum (d : Dom) : EncodedFormat.Statement (.getClripnum d) :=
  fun _ => isRegisterRequest_get _
theorem EncodedFormat.putClripnum (d : Dom) (w : Word) : EncodedFormat.Statement (.putClripnum d w) :=
  fun _ => isRegisterRequest_put _ _
theorem EncodedFormat.getSetienum (d : Dom) : EncodedFormat.Statement (.getSetienum d) :=
  fun _ => isRegisterRequest_get _
theorem EncodedFormat.putSetienum (d : Dom) (w : Word) : EncodedFormat.Statement (.putSetienum d w) :=
  fun _ => isRegisterRequest_put _ _
theorem EncodedFormat.getClrienum (d : Dom) : EncodedFormat.Statement (.getClrienum d) :=
  fun _ => isRegisterRequest_get _
theorem EncodedFormat.putClrienum (d : Dom) (w : Word) : EncodedFormat.Statement (.putClrienum d w) :=
  fun _ => isRegisterRequest_put _ _
theorem EncodedFormat.getSetipnumLe (d : Dom) : EncodedFormat.Statement (.getSetipnumLe d) :=
  fun _ => isRegisterRequest_get _
theorem EncodedFormat.putSetipnumLe (d : Dom) (w : Word) : EncodedFormat.Statement (.putSetipnumLe d w) :=
  fun _ => isRegisterRequest_put _ _
theorem EncodedFormat.getSetipnumBe (d : Dom) : EncodedFormat.Statement (.getSetipnumBe d) :=
  fun _ => isRegisterRequest_get _
theorem EncodedFormat.putSetipnumBe (d : Dom) (w : Word) : EncodedFormat.Statement (.putSetipnumBe d w) :=
  fun _ => isRegisterRequest_put _ _
theorem EncodedFormat.getGenmsi (d : Dom) : EncodedFormat.Statement (.getGenmsi d) :=
  fun _ => isRegisterRequest_get _
theorem EncodedFormat.putGenmsi (d : Dom) (w : Word) : EncodedFormat.Statement (.putGenmsi d w) :=
  fun _ => isRegisterRequest_put _ _
theorem EncodedFormat.getSourcecfg (d : Dom) (s : BitVec 10) :
    EncodedFormat.Statement (.getSourcecfg d s) := fun _ => isRegisterRequest_get _
theorem EncodedFormat.putSourcecfg (d : Dom) (s : BitVec 10) (w : Word) :
    EncodedFormat.Statement (.putSourcecfg d s w) := fun _ => isRegisterRequest_put _ _
theorem EncodedFormat.getSetip (d : Dom) (k : Bank) : EncodedFormat.Statement (.getSetip d k) :=
  fun _ => isRegisterRequest_get _
theorem EncodedFormat.putSetip (d : Dom) (k : Bank) (w : Word) :
    EncodedFormat.Statement (.putSetip d k w) := fun _ => isRegisterRequest_put _ _
theorem EncodedFormat.getInClrip (d : Dom) (k : Bank) : EncodedFormat.Statement (.getInClrip d k) :=
  fun _ => isRegisterRequest_get _
theorem EncodedFormat.putInClrip (d : Dom) (k : Bank) (w : Word) :
    EncodedFormat.Statement (.putInClrip d k w) := fun _ => isRegisterRequest_put _ _
theorem EncodedFormat.getSetie (d : Dom) (k : Bank) : EncodedFormat.Statement (.getSetie d k) :=
  fun _ => isRegisterRequest_get _
theorem EncodedFormat.putSetie (d : Dom) (k : Bank) (w : Word) :
    EncodedFormat.Statement (.putSetie d k w) := fun _ => isRegisterRequest_put _ _
theorem EncodedFormat.getClrie (d : Dom) (k : Bank) : EncodedFormat.Statement (.getClrie d k) :=
  fun _ => isRegisterRequest_get _
theorem EncodedFormat.putClrie (d : Dom) (k : Bank) (w : Word) :
    EncodedFormat.Statement (.putClrie d k w) := fun _ => isRegisterRequest_put _ _
theorem EncodedFormat.getTargets (d : Dom) (s : BitVec 10) : EncodedFormat.Statement (.getTargets d s) :=
  fun _ => isRegisterRequest_get _
theorem EncodedFormat.putTargets (d : Dom) (s : BitVec 10) (w : Word) :
    EncodedFormat.Statement (.putTargets d s w) := fun _ => isRegisterRequest_put _ _
theorem EncodedFormat.getRozero (d : Dom) (off : BitVec 14) : EncodedFormat.Statement (.getRozero d off) :=
  fun _ => isRegisterRequest_get _
theorem EncodedFormat.putRozero (d : Dom) (off : BitVec 14) (w : Word) :
    EncodedFormat.Statement (.putRozero d off w) := fun _ => isRegisterRequest_put _ _
theorem EncodedFormat.getReserved (d : Dom) (off : BitVec 14) :
    EncodedFormat.Statement (.getReserved d off) := fun _ => isRegisterRequest_get _
theorem EncodedFormat.putReserved (d : Dom) (off : BitVec 14) (w : Word) :
    EncodedFormat.Statement (.putReserved d off w) := fun _ => isRegisterRequest_put _ _
theorem EncodedFormat.putSeteipnum (h : Nat) (f : FileId) (w : Word) :
    EncodedFormat.Statement (.putSeteipnum h f w) := fun _ => isRegisterRequest_put _ _
theorem EncodedFormat.getPage (h : Nat) (f : FileId) (poff : BitVec 12) :
    EncodedFormat.Statement (.getPage h f poff) := fun _ => isRegisterRequest_get _
theorem EncodedFormat.putPage (h : Nat) (f : FileId) (poff : BitVec 12) (w : Word) :
    EncodedFormat.Statement (.putPage h f poff w) := fun _ => isRegisterRequest_put _ _
theorem EncodedFormat.csrxIllegalOp (h : Nat) (sel : BitVec 12) (c : Ctx) (v : DWord) :
    EncodedFormat.Statement (.csrxIllegalOp h sel c v) := fun _ => ⟨fun _ => ⟨_, _, _, _, rfl⟩, fun _ => rfl⟩
theorem EncodedFormat.csrIllegalContext (h : Nat) (sel : BitVec 12) (c : Ctx) (op : CsrOp) (v : DWord) :
    EncodedFormat.Statement (.csrIllegalContext h sel c op v) := fun _ =>
  otherRow (csrOpCode_ne_zero op) fun _ _ _ _ h => nomatch h
theorem EncodedFormat.csrwEidelivery (h : Nat) (c : Ctx) (v : DWord) :
    EncodedFormat.Statement (.csrwEidelivery h c v) := fun _ =>
  otherRow (op := 1#2) (by decide) fun _ _ _ _ h => nomatch h
theorem EncodedFormat.csrsEidelivery (h : Nat) (c : Ctx) (v : DWord) :
    EncodedFormat.Statement (.csrsEidelivery h c v) := fun _ =>
  otherRow (op := 2#2) (by decide) fun _ _ _ _ h => nomatch h
theorem EncodedFormat.csrcEidelivery (h : Nat) (c : Ctx) (v : DWord) :
    EncodedFormat.Statement (.csrcEidelivery h c v) := fun _ =>
  otherRow (op := 3#2) (by decide) fun _ _ _ _ h => nomatch h
theorem EncodedFormat.csrwEithreshold (h : Nat) (c : Ctx) (v : DWord) :
    EncodedFormat.Statement (.csrwEithreshold h c v) := fun _ =>
  otherRow (op := 1#2) (by decide) fun _ _ _ _ h => nomatch h
theorem EncodedFormat.csrsEithreshold (h : Nat) (c : Ctx) (v : DWord) :
    EncodedFormat.Statement (.csrsEithreshold h c v) := fun _ =>
  otherRow (op := 2#2) (by decide) fun _ _ _ _ h => nomatch h
theorem EncodedFormat.csrcEithreshold (h : Nat) (c : Ctx) (v : DWord) :
    EncodedFormat.Statement (.csrcEithreshold h c v) := fun _ =>
  otherRow (op := 3#2) (by decide) fun _ _ _ _ h => nomatch h
theorem EncodedFormat.csrwEip (h : Nat) (c : Ctx) (k : Bank) (v : DWord) :
    EncodedFormat.Statement (.csrwEip h c k v) := fun _ =>
  otherRow (op := 1#2) (by decide) fun _ _ _ _ h => nomatch h
theorem EncodedFormat.csrsEip (h : Nat) (c : Ctx) (k : Bank) (v : DWord) :
    EncodedFormat.Statement (.csrsEip h c k v) := fun _ =>
  otherRow (op := 2#2) (by decide) fun _ _ _ _ h => nomatch h
theorem EncodedFormat.csrcEip (h : Nat) (c : Ctx) (k : Bank) (v : DWord) :
    EncodedFormat.Statement (.csrcEip h c k v) := fun _ =>
  otherRow (op := 3#2) (by decide) fun _ _ _ _ h => nomatch h
theorem EncodedFormat.csrwEie (h : Nat) (c : Ctx) (k : Bank) (v : DWord) :
    EncodedFormat.Statement (.csrwEie h c k v) := fun _ =>
  otherRow (op := 1#2) (by decide) fun _ _ _ _ h => nomatch h
theorem EncodedFormat.csrsEie (h : Nat) (c : Ctx) (k : Bank) (v : DWord) :
    EncodedFormat.Statement (.csrsEie h c k v) := fun _ =>
  otherRow (op := 2#2) (by decide) fun _ _ _ _ h => nomatch h
theorem EncodedFormat.csrcEie (h : Nat) (c : Ctx) (k : Bank) (v : DWord) :
    EncodedFormat.Statement (.csrcEie h c k v) := fun _ =>
  otherRow (op := 3#2) (by decide) fun _ _ _ _ h => nomatch h
theorem EncodedFormat.csrIllegalSelector (h : Nat) (sel : BitVec 12) (c : Ctx) (op : CsrOp) (v : DWord) :
    EncodedFormat.Statement (.csrIllegalSelector h sel c op v) := fun _ =>
  otherRow (csrOpCode_ne_zero op) fun _ _ _ _ h => nomatch h
theorem EncodedFormat.claim (h : Nat) (c : Ctx) : EncodedFormat.Statement (.claim h c) :=
  fun _ => ⟨_, _, rfl⟩

end Sys2Proof.Laws
end

