-- ==== Sys2Proof/Laws/Registers.lean ====
section
/-! SUPPORT. What a write of `sourcecfg` does, said once, and what one request does to one source. -/

namespace Sys2Proof.Machine

/-! ### sourcecfg in the machine domain -/

/-- Only the sources of the two domains and the delegation bits differ. -/
theorem State.sourcecfgWrite_M_frame (s : State) (n : Nat) (w : Word)
    (h0 : ¬ (n = 0 ∨ s.cfg.nSrc.toNat < n)) :
    ∃ tm ts b, s.sourcecfgWrite .M n w =
      { s with m := { s.m with sources := tm }, s := { s.s with sources := ts }, deleg := b } := by
  simp only [State.sourcecfgWrite, if_neg h0, sourcecfgD]
  by_cases h1 : w.getLsbD 10 = true <;> by_cases h2 : s.deleg.getLsbD n = true
  · simp only [if_pos h1, if_pos h2]; exact ⟨s.m.sources, s.s.sources, s.deleg, rfl⟩
  · simp only [if_pos h1, if_neg h2]
    obtain ⟨tb, h⟩ := s.delegate_frame n
    exact ⟨tb, s.s.sources, setBit s.deleg n true, h⟩
  · simp only [if_neg h1, if_pos h2]
    obtain ⟨tb, h⟩ := s.undelegate_frame n
    obtain ⟨tb', h'⟩ := (s.undelegate n).setMode_frame .M n (warlSm (w.extractLsb' 0 3))
    refine ⟨tb', tb, setBit s.deleg n false, ?_⟩
    rw [h', h]; rfl
  · simp only [if_neg h1, if_neg h2]
    obtain ⟨tb', h'⟩ := s.setMode_frame .M n (warlSm (w.extractLsb' 0 3))
    exact ⟨tb', s.s.sources, s.deleg, h'⟩

theorem State.sourcecfgWrite_M_deleg (s : State) (n : Nat) (w : Word)
    (h0 : ¬ (n = 0 ∨ s.cfg.nSrc.toNat < n)) (hlt : n < 1024) (m : Nat) :
    (s.sourcecfgWrite .M n w).deleg.getLsbD m =
      if m = n then w.getLsbD 10 else s.deleg.getLsbD m := by
  simp only [State.sourcecfgWrite, if_neg h0, sourcecfgD]
  by_cases h1 : w.getLsbD 10 = true <;> by_cases h2 : s.deleg.getLsbD n = true
  · simp only [if_pos h1, if_pos h2]
    by_cases hm : m = n
    · rw [if_pos hm, hm, h1, h2]
    · rw [if_neg hm]
  · simp only [if_pos h1, if_neg h2]
    rw [State.delegate_deleg, getLsbD_setBit _ _ _ _ hlt, h1]
  · simp only [if_neg h1, if_pos h2]
    rw [State.setMode_deleg, State.undelegate_deleg, getLsbD_setBit _ _ _ _ hlt,
      Bool.eq_false_iff.mpr h1]
  · simp only [if_neg h1, if_neg h2]
    rw [State.setMode_deleg]
    by_cases hm : m = n
    · rw [if_pos hm, hm, Bool.eq_false_iff.mpr h1, Bool.eq_false_iff.mpr h2]
    · rw [if_neg hm]

theorem State.sourcecfgWrite_M_source (s : State) (n : Nat) (w : Word)
    (h0 : ¬ (n = 0 ∨ s.cfg.nSrc.toNat < n)) (d : Dom) (m : Nat) :
    (s.sourcecfgWrite .M n w).source d m =
      if m = n then
        (if w.getLsbD 10 = true then
          (if s.deleg.getLsbD n = true then s.source d n
            else if d = .M then Source.zero else s.source d n)
        else if d = .M then
          (s.source .M n).setMode (s.rawInput.getLsbD n) (warlSm (w.extractLsb' 0 3))
        else if s.deleg.getLsbD n = true then Source.zero else s.source d n)
      else s.source d m := by
  simp only [State.sourcecfgWrite, if_neg h0, sourcecfgD]
  by_cases h1 : w.getLsbD 10 = true <;> by_cases h2 : s.deleg.getLsbD n = true <;>
    by_cases hm : m = n <;> cases d <;>
    simp only [h1, h2, hm, if_true, if_false, State.source_setMode, State.source_delegate,
      State.source_undelegate, State.undelegate_rawInput, and_true, and_false, reduceCtorEq]

/-! ### One request, one source -/

/-- `RequestSetPending`, case by case (R269). -/
theorem Source.requestSet_eq (x : Source) : x.requestSet = { x with
    pending := x.pending || x.mode == .detached || x.mode == .edgeRising || x.mode == .edgeFalling } := by
  rcases x with ⟨m, p, e, n, t⟩
  cases m <;> cases p <;> rfl

/-- `RequestClearPending`, case by case (R270). -/
theorem Source.requestClear_eq (x : Source) (raw : Bool) : x.requestClear raw =
    if x.mode = .detached ∨ x.mode = .edgeRising ∨ x.mode = .edgeFalling then
      { x with pending := false, notified := false }
    else if (x.mode = .levelHigh ∧ raw = true) ∨ (x.mode = .levelLow ∧ raw = false) then
      { x with notified := false }
    else x := by
  rcases x with ⟨m, p, e, n, t⟩
  cases m <;> cases raw <;>
    simp [Source.requestClear, Source.rect, Mode.isTriggered, Mode.isEdge, Mode.isLevel, Mode.pol,
      Mode.code, Source.rearm]

/-! ### Target words -/

/-- A stored target word has no bit that its layout reads as zero. -/
theorem warlTarget_masked (c : Config) (d : Dom) (msi : Bool) (w : Word) :
    warlTarget c d msi w &&& targetReadMask d msi = warlTarget c d msi w := by
  have hg : d = .M → warlGuest c d w = 0#6 := by rintro rfl; rfl
  apply BitVec.eq_of_getLsbD_eq; intro i hi
  cases msi <;> cases d <;> simp only [warlTarget, targetReadMask, Bool.false_eq_true, if_false, if_true,
    BitVec.getLsbD_and, BitVec.getLsbD_or, BitVec.getLsbD_shiftLeft, BitVec.getLsbD_setWidth] <;>
    interval_cases i <;> simp [hg]

end Sys2Proof.Machine
end

