-- ==== Sys2Proof/Laws/Tick.lean ====
section
/-! SUPPORT. The tick: what each part of it can do, said once, so that no later proof unfolds it. -/

namespace Sys2Proof.Machine

/-! ### The bus operations -/

/-- All a call can do (R171, R172, R177). -/
theorem callTransactor_cases {r : BusA} {s : State} {o : Result3} (h : callTransactor r s = o) :
    (s.cfg.portOf r.address = none ∧ o = .refused (.badRequest .outsideRegions)) ∨
    (∃ p, s.cfg.portOf r.address = some p ∧ (s.tx (.ext p)).phase = .idle ∧
      o = .next (s.setTx (.ext p) ((s.tx (.ext p)).begin s.cfg.timeout r))) ∨
    ∃ p, s.cfg.portOf r.address = some p ∧ (s.tx (.ext p)).phase ≠ .idle ∧ o = .next s := by
  subst h
  unfold callTransactor
  cases hp : s.cfg.portOf r.address with
  | none => exact .inl ⟨rfl, rfl⟩
  | some p =>
    by_cases hi : (s.tx (.ext p)).phase = .idle
    · exact .inr (.inl ⟨p, rfl, hi, if_pos hi⟩)
    · exact .inr (.inr ⟨p, rfl, hi, if_neg hi⟩)

/-- All a presented response can do (R171, R172, R175). -/
theorem takeResponse_cases {x : TxId} {op : BitVec 3} {f : Transactor → Result} {s : State} {o : Result3}
    (h : takeResponse x op f s = o) :
    ((s.tx x).phase ≠ .response ∧ o = .next s) ∨
    ((s.tx x).phase = .response ∧ (s.tx x).req.opcode = op ∧
      o = .next (s.setTx x (.finished (f (s.tx x))))) ∨
    ((s.tx x).phase = .response ∧ (s.tx x).req.opcode ≠ op ∧ o = .refused .responseMismatch) := by
  subst h
  unfold takeResponse
  by_cases hp : (s.tx x).phase = .response
  · rw [if_neg (not_not.2 hp)]
    by_cases ho : (s.tx x).req.opcode = op
    · exact .inr (.inl ⟨hp, ho, if_pos ho⟩)
    · exact .inr (.inr ⟨hp, ho, if_neg ho⟩)
  · exact .inl ⟨hp, if_pos hp⟩

/-! ### The interrupt files -/

/-- All an indirect access to a defined register can do (R323, R324). -/
theorem csrAccess_cases {h : Nat} {x : Ctx} {r : IReg} {op : CsrOp} {v : DWord} {s : State} {o : Result3}
    (ho : csrAccess h x r op v s = o) :
    (s.cfg.fileOf x = none ∧ o = .next (s.illegalAccess h)) ∨
    ∃ f, s.cfg.fileOf x = some f ∧
      o = .next ((s.setFile h f ((s.file h f).access r op v)).legalAccess h ((s.file h f).read r)) := by
  subst ho
  unfold csrAccess
  cases s.cfg.fileOf x with
  | none => exact .inl ⟨rfl, rfl⟩
  | some f => exact .inr ⟨f, rfl, rfl⟩

/-! ### No instruction faults -/

/-- No instruction raises a fault: the one fault of the block is a transactor's timeout (R370). -/
theorem exec_ne_fault (i : Instr) (s : State) (e : Fault) : exec i s ≠ .fault e := by
  have call : ∀ r, callTransactor r s ≠ .fault e := by
    intro r h
    rcases callTransactor_cases h with ⟨-, h⟩ | ⟨p, -, -, h⟩ | ⟨p, -, -, h⟩ <;> cases h
  have resp : ∀ x op f, takeResponse x op f s ≠ .fault e := by
    intro x op f h
    rcases takeResponse_cases h with ⟨-, h⟩ | ⟨-, -, h⟩ | ⟨-, -, h⟩ <;> cases h
  have csr : ∀ h x r op v, csrAccess h x r op v s ≠ .fault e := by
    intro h x r op v ho
    rcases csrAccess_cases ho with ⟨-, ho⟩ | ⟨f, -, ho⟩ <;> cases ho
  cases i with
  | get32 a => exact call _
  | put32 a w => exact call _
  | accessAck x => exact resp x opPut fun _ => .ack
  | accessAckData x data => exact resp x opGet fun t => .ackData (fromLanes t.req.address data)
  | getGenmsi d => show execGetGenmsi d s ≠ _; unfold execGetGenmsi; split <;> simp
  | putGenmsi d w => show execPutGenmsi d w s ≠ _; unfold execPutGenmsi; split <;> simp
  | claim h c => show execClaim h c s ≠ _; unfold execClaim; split <;> simp
  | csrwEidelivery | csrsEidelivery | csrcEidelivery | csrwEithreshold | csrsEithreshold
  | csrcEithreshold => exact csr _ _ _ _ _
  | csrwEip | csrsEip | csrcEip | csrwEie | csrsEie | csrcEie => exact csr _ _ _ _ _
  | _ => exact fun h => nomatch h

/-- No event of a tick raises a fault. -/
theorem runEvents_ne_fault (es : List Event) (s : State) (e : Fault) : runEvents es s ≠ .fault e := by
  induction es generalizing s with
  | nil => exact fun h => nomatch h
  | cons x rest ih =>
    have hx : runEvent x s ≠ .fault e := by
      cases x with
      | away y => exact fun h => nomatch h
      | run via i =>
        cases via with
        | none => exact exec_ne_fault i s e
        | some y =>
          have := exec_ne_fault i s e
          unfold runEvent
          cases hi : exec i s <;> simp_all
    unfold runEvents
    cases hr : runEvent x s with
    | next u => exact ih u
    | fault r => rw [hr] at hx; exact hx
    | refused r => exact fun h => nomatch h

/-! ### Which transactors move -/

/-- An accepted request waits in the Request phase for a slave that takes it (R174, R178). -/
theorem of_mem_acceptsFrom {s : State} {t : Tick} {used : List Port} {l : List TxId} {x : TxId}
    (h : x ∈ acceptsFrom s t used l) : x ∈ l ∧ (s.tx x).phase = .request ∧ s.takes t x = true := by
  induction l generalizing used with
  | nil => simp [acceptsFrom] at h
  | cons y rest ih =>
    have up : ∀ us, x ∈ acceptsFrom s t us rest →
        x ∈ y :: rest ∧ (s.tx x).phase = .request ∧ s.takes t x = true := fun us hm =>
      ⟨List.mem_cons_of_mem _ (ih hm).1, (ih hm).2⟩
    rw [acceptsFrom] at h
    split at h
    · rename_i hy
      split at h
      · rcases List.mem_cons.1 h with rfl | h
        · exact ⟨List.mem_cons_self, hy⟩
        · exact up _ h
      · split at h
        · exact up _ h
        · rcases List.mem_cons.1 h with rfl | h
          · exact ⟨List.mem_cons_self, hy⟩
          · exact up _ h
    · exact up _ h

theorem of_mem_accepts {s : State} {t : Tick} {x : TxId} (h : x ∈ s.accepts t) :
    x ∈ s.cfg.transactors ∧ (s.tx x).phase = .request ∧ s.takes t x = true := of_mem_acceptsFrom h

/-- A request whose slave takes it is accepted, unless its port has accepted another (R98, R174). -/
theorem mem_acceptsFrom_or {s : State} {t : Tick} {used : List Port} {l : List TxId} {x : TxId}
    (hx : x ∈ l) (hp : (s.tx x).phase = .request) (ht : s.takes t x = true) :
    x ∈ acceptsFrom s t used l ∨ ∃ p, s.cfg.portOf (s.tx x).req.address = some p ∧
      (p ∈ used ∨ ∃ y ∈ acceptsFrom s t used l, s.cfg.portOf (s.tx y).req.address = some p) := by
  induction l generalizing used with
  | nil => simp at hx
  | cons y rest ih =>
    rw [acceptsFrom]
    rcases List.mem_cons.1 hx with rfl | hx
    · rw [if_pos ⟨hp, ht⟩]
      cases hq : s.cfg.portOf (s.tx x).req.address with
      | none => exact .inl List.mem_cons_self
      | some p =>
        by_cases hu : used.contains p = true
        · exact .inr ⟨p, rfl, .inl (by simpa using hu)⟩
        · simp only [hu]; exact .inl List.mem_cons_self
    · split
      · cases hq : s.cfg.portOf (s.tx y).req.address with
        | none =>
          rcases ih (used := used) hx with h | ⟨p, h, h' | ⟨z, hz, h'⟩⟩
          · exact .inl (List.mem_cons_of_mem _ h)
          · exact .inr ⟨p, h, .inl h'⟩
          · exact .inr ⟨p, h, .inr ⟨z, List.mem_cons_of_mem _ hz, h'⟩⟩
        | some q =>
          by_cases hu : used.contains q = true
          · simp only [hu, if_true]; exact ih hx
          · simp only [hu]
            rcases ih (used := q :: used) hx with h | ⟨p, h, h' | ⟨z, hz, h'⟩⟩
            · exact .inl (List.mem_cons_of_mem _ h)
            · rcases List.mem_cons.1 h' with rfl | h'
              · exact .inr ⟨p, h, .inr ⟨y, List.mem_cons_self, hq⟩⟩
              · exact .inr ⟨p, h, .inl h'⟩
            · exact .inr ⟨p, h, .inr ⟨z, List.mem_cons_of_mem _ hz, h'⟩⟩
      · exact ih hx

/-- Nothing is accepted where no transactor of a list is in the Request phase. -/
theorem acceptsFrom_nil {s : State} {t : Tick} {used : List Port} {l : List TxId}
    (h : ∀ x ∈ l, (s.tx x).phase ≠ .request) : acceptsFrom s t used l = [] := by
  rw [List.eq_nil_iff_forall_not_mem]
  exact fun x hx => h x (of_mem_acceptsFrom hx).1 (of_mem_acceptsFrom hx).2.1

/-- Which transactors take a response: the slave presents it, in time (R175, R178). -/
theorem mem_responds {s : State} {t : Tick} {x : TxId} : x ∈ s.responds t ↔
    x ∈ s.cfg.transactors ∧ (s.tx x).phase = .response ∧ t.answers x = true ∧ s.inTime x = true := by
  simp [State.responds, and_assoc]

/-- Which transactors wait (R176). -/
theorem mem_waits {s : State} {t : Tick} {x : TxId} : x ∈ s.waits t ↔
    x ∈ s.cfg.transactors ∧ (s.tx x).phase ≠ .idle ∧ x ∉ s.accepts t ∧ x ∉ s.responds t := by
  simp [State.waits, and_assoc]

/-- The transactor whose deadline runs out waits, with at most one tick left (R176). -/
theorem of_expired {s : State} {t : Tick} {x : TxId} (h : s.expired t = some x) :
    x ∈ s.waits t ∧ (s.tx x).deadline ≤ 1 :=
  ⟨List.mem_of_find?_eq_some h, by
    simpa using List.find?_some (p := fun y => decide ((s.tx y).deadline ≤ 1)) h⟩

/-- Where no deadline runs out every waiting transactor has more than one tick left. -/
theorem of_not_expired {s : State} {t : Tick} (h : s.expired t = none) :
    ∀ x ∈ s.waits t, 1 < (s.tx x).deadline := by
  intro x hx
  simpa using (List.find?_eq_none.1 h) x hx

/-! ### A tick, taken apart -/

/-- The events of two lists, one after the other. -/
theorem runEvents_append (a b : List Event) (s : State) : runEvents (a ++ b) s =
    match runEvents a s with
    | .next u => runEvents b u
    | .fault r => .fault r
    | .refused r => .refused r := by
  induction a generalizing s with
  | nil => rfl
  | cons e rest ih =>
    simp only [List.cons_append, runEvents]
    cases runEvent e s with
    | next u => exact ih u
    | fault r => rfl
    | refused r => rfl

/-- All a tick that goes on can do (R96): it is a reset, or no deadline runs out, the events decode and
run to some state, and the tick ends from there. -/
theorem step_cases {s t : State} (h : step s = .next t) :
    (s.nextTick.reset = true ∧ t = s.enterTick.applyReset) ∨
    (s.nextTick.reset = false ∧ s.enterTick.expired s.nextTick = none ∧ s.nextTick.overrun = false ∧
      ∃ es u, s.enterTick.events s.nextTick = .ok es ∧
        runEvents es (s.enterTick.countDown s.nextTick) = .next u ∧ t = State.endTick s.enterTick u) := by
  unfold step State.tick at h
  split at h
  · rename_i hr; cases h; exact .inl ⟨hr, rfl⟩
  · rename_i hr
    refine .inr ⟨by simpa using hr, ?_⟩
    unfold State.runTick at h
    split at h
    · cases h
    · rename_i hx
      split at h
      · cases h
      · rename_i ho
        split at h
        · cases h
        · rename_i es hes
          split at h
          · rename_i u hu; cases h; exact ⟨hx, by simpa using ho, es, u, hes, hu, rfl⟩
          · cases h
          · cases h

/-- Every change a tick's events make keeps a property that every event keeps. -/
theorem runEvents_keeps {P : State → Prop} (es : List Event)
    (hP : ∀ e ∈ es, ∀ s t, P s → runEvent e s = .next t → P t) {s t : State} (hs : P s)
    (h : runEvents es s = .next t) : P t := by
  induction es generalizing s with
  | nil => cases h; exact hs
  | cons e rest ih =>
    unfold runEvents at h
    split at h
    · rename_i u hu
      exact ih (fun e' he' => hP e' (List.mem_cons_of_mem _ he')) (hP e List.mem_cons_self s u hs hu) h
    · cases h
    · cases h

end Sys2Proof.Machine
end

