-- ==== Sys2Proof/Tests/Slice0.lean ====
section
/-! SUPPORT. The model's own tests: ill-formed terms refused, words written out from the encoding tables,
one step of each instruction, and for every obligation with hypotheses a state and operands that meet
them.  Expected values are taken from the register maps and rules cited, not from the model. -/

namespace Sys2Proof.Machine.Tests

set_option Elab.async false

/-! ### Ill-formed terms are refused (R10, R81, R127, R138, R141, R142, R416) -/

theorem test_config_ok : Config.tc.valid = true := by decide +kernel
theorem test_config_no_source : { Config.tc with nSrc := 0#10 }.valid = false := by decide +kernel
theorem test_config_no_hart : { Config.tc with harts := [] }.valid = false := by decide +kernel
theorem test_config_no_patience : { Config.tc with timeout := 0 }.valid = false := by decide +kernel
theorem test_config_tag : { Config.tc with tag := 0x80000100#32 }.valid = false := by decide +kernel
theorem test_config_unaligned : { Config.tc with baseS := 0x0D002000#64 }.valid = false := by decide +kernel
theorem test_config_overlap : { Config.tc with baseS := 0x0C000000#64 }.valid = false := by decide +kernel
theorem test_config_guest_width : { Config.tc with guestIndexWidth := 7 }.valid = false := by decide +kernel
theorem test_platform_ok : Config.tc.guestAligned := by unfold Config.guestAligned; decide +kernel
theorem test_platform_guest_width : ¬ { Config.tc with guestIndexWidth := 1 }.guestAligned := by
  unfold Config.guestAligned; decide +kernel
theorem test_platform_guest_bits : ¬ { Config.tc with
    harts := [⟨0x24000000#64, 0x28001000#64, 0#64, 0#64⟩] }.guestAligned := by
  unfold Config.guestAligned; decide +kernel
theorem test_config_hart_zero_offset :
    { Config.tc with harts := [⟨0x24000000#64, 0x28000000#64, 0x1000#64, 0#64⟩] }.valid = false := by
  decide +kernel
theorem test_config_offset_page :
    { Config.tc with harts := [⟨0x24000000#64, 0x28000000#64, 0#64, 0#64⟩,
      ⟨0x24001000#64, 0x28004000#64, 0x1800#64, 0x4000#64⟩] }.valid = false := by decide +kernel

theorem test_wf_call : Instr.wellFormed .tc (.get32 0x0C000002#64) = false ∧
    Instr.wellFormed .tc (.put32 0x10000000#64 0#32) = false := by decide +kernel
theorem test_wf_response : Instr.wellFormed .tc (.accessAck (.ext (.page 2 .M))) = false := by decide +kernel
theorem test_wf_source_zero : Instr.wellFormed .tc (.getSourcecfg .M 0#10) = false ∧
    Instr.wellFormed .tc (.putTargets .S 0#10 0#32) = false := by decide +kernel
theorem test_wf_rozero : Instr.wellFormed .tc (.getRozero .M 0x1BC0#14) = false ∧
    Instr.wellFormed .tc (.getRozero .M 0x1002#14) = false := by decide +kernel
theorem test_wf_reserved : Instr.wellFormed .tc (.putReserved .S 0x2004#14 0#32) = false ∧
    Instr.wellFormed .tc (.getReserved .S 0x1BD1#14) = false := by decide +kernel
theorem test_wf_page : Instr.wellFormed .tc (.getPage 0 (.G 4#6) 0#12) = false ∧
    Instr.wellFormed .tc (.getPage 0 (.G 3#6) 2#12) = false ∧
    Instr.wellFormed .tc (.putPage 1 .S 0#12 0#32) = false ∧
    Instr.wellFormed .tc (.putSeteipnum 2 .S 0#32) = false := by decide +kernel
theorem test_wf_csr_hart : Instr.wellFormed .tc (.csrxIllegalOp 2 0x70#12 ⟨3#2, false, 0#6⟩ 0#64) = false ∧
    Instr.wellFormed .tc (.claim 2 ⟨3#2, false, 0#6⟩) = false := by decide +kernel
theorem test_wf_csr_context :
    Instr.wellFormed .tc (.csrIllegalContext 0 0x70#12 ⟨3#2, false, 0#6⟩ .set 0#64) = false ∧
    Instr.wellFormed .tc (.csrwEidelivery 0 ⟨1#2, true, 0#6⟩ 0#64) = false ∧
    Instr.wellFormed .tc (.csrcEie 0 ⟨3#2, true, 1#6⟩ 0#5 0#64) = false := by decide +kernel
theorem test_wf_csr_selector :
    Instr.wellFormed .tc (.csrIllegalSelector 0 0xFE#12 ⟨3#2, false, 0#6⟩ .set 0#64) = false := by decide +kernel

/-! ### Words written out from the encoding tables (R121 to R145), in the configuration `TC` -/

/-- A request of 4 bytes in the low lanes: opcode, address, data. -/
def lo (op : BitVec 3) (a : Addr) (data : DWord) : BusA := ⟨op, 2, a, 0x0F#8, data⟩
/-- A request of 4 bytes in the high lanes. -/
def hi (op : BitVec 3) (a : Addr) (data : DWord) : BusA := ⟨op, 2, a, 0xF0#8, data⟩
/-- The instruction a slave port reads. -/
def dec (r : BusA) : Option Instr := (decode .tc (.slave r)).toOption
/-- The instruction of an indirect request. -/
def decCsr (sel : BitVec 12) (c : Ctx) (op : BitVec 2) : Option Instr :=
  (decode .tc (.agent (.csr ⟨1, sel, c, op, 0xAB#64⟩))).toOption
def cM : Ctx := ⟨3#2, false, 0#6⟩
def cS : Ctx := ⟨1#2, false, 0#6⟩
def cV : Ctx := ⟨1#2, true, 3#6⟩

theorem test_decode_calls :
    (decode .tc (.agent (.call (hi 4#3 0x0C00006C#64 0#64)))).toOption = some (.get32 0x0C00006C#64) ∧
    (decode .tc (.agent (.call (hi 0#3 0x0C00006C#64 0x0000000700000000#64)))).toOption =
      some (.put32 0x0C00006C#64 7#32) := by decide +kernel
theorem test_decode_responses :
    (decode .tc (.response (.msi .M) ⟨0#3, 0#64⟩)).toOption = some (.accessAck (.msi .M)) ∧
    (decode .tc (.response (.ext (.window .S)) ⟨1#3, 5#64⟩)).toOption =
      some (.accessAckData (.ext (.window .S)) 5#64) := by decide +kernel
theorem test_decode_config :
    dec (lo 4#3 0x0C000000#64 0#64) = some (.getDomaincfg .M) ∧
    dec (lo 0#3 0x0D000000#64 0x104#64) = some (.putDomaincfg .S 0x104#32) ∧
    dec (lo 4#3 0x0C001BC0#64 0#64) = some (.getMmsiaddrcfg .M) ∧
    dec (lo 0#3 0x0C001BC0#64 0x24000#64) = some (.putMmsiaddrcfg .M 0x24000#32) ∧
    dec (hi 4#3 0x0C001BC4#64 0#64) = some (.getMmsiaddrcfgh .M) ∧
    dec (hi 0#3 0x0C001BC4#64 0x100000000#64) = some (.putMmsiaddrcfgh .M 1#32) ∧
    dec (lo 4#3 0x0D001BC8#64 0#64) = some (.getSmsiaddrcfg .S) ∧
    dec (lo 0#3 0x0C001BC8#64 0x28000#64) = some (.putSmsiaddrcfg .M 0x28000#32) ∧
    dec (hi 4#3 0x0C001BCC#64 0#64) = some (.getSmsiaddrcfgh .M) ∧
    dec (hi 0#3 0x0C001BCC#64 0x200000000#64) = some (.putSmsiaddrcfgh .M 2#32) := by decide +kernel
theorem test_decode_numbers :
    dec (hi 4#3 0x0C001CDC#64 0#64) = some (.getSetipnum .M) ∧
    dec (hi 0#3 0x0C001CDC#64 0x1B00000000#64) = some (.putSetipnum .M 27#32) ∧
    dec (hi 4#3 0x0C001DDC#64 0#64) = some (.getClripnum .M) ∧
    dec (hi 0#3 0x0D001DDC#64 0x1B00000000#64) = some (.putClripnum .S 27#32) ∧
    dec (hi 4#3 0x0C001EDC#64 0#64) = some (.getSetienum .M) ∧
    dec (hi 0#3 0x0C001EDC#64 0x1B00000000#64) = some (.putSetienum .M 27#32) ∧
    dec (hi 4#3 0x0C001FDC#64 0#64) = some (.getClrienum .M) ∧
    dec (hi 0#3 0x0C001FDC#64 0x1B00000000#64) = some (.putClrienum .M 27#32) ∧
    dec (lo 4#3 0x0C002000#64 0#64) = some (.getSetipnumLe .M) ∧
    dec (lo 0#3 0x0C002000#64 9#64) = some (.putSetipnumLe .M 9#32) ∧
    dec (hi 4#3 0x0C002004#64 0#64) = some (.getSetipnumBe .M) ∧
    dec (hi 0#3 0x0C002004#64 0x900000000#64) = some (.putSetipnumBe .M 9#32) := by decide +kernel
theorem test_decode_sources :
    dec (lo 4#3 0x0C003000#64 0#64) = some (.getGenmsi .M) ∧
    dec (lo 0#3 0x0D003000#64 0x40007#64) = some (.putGenmsi .S 0x40007#32) ∧
    dec (hi 4#3 0x0C000004#64 0#64) = some (.getSourcecfg .M 1#10) ∧
    dec (hi 0#3 0x0C000FFC#64 0x40000000000#64) = some (.putSourcecfg .M 1023#10 0x400#32) ∧
    dec (hi 4#3 0x0C003004#64 0#64) = some (.getTargets .M 1#10) ∧
    dec (hi 0#3 0x0D00306C#64 0x20CA00000000#64) = some (.putTargets .S 27#10 0x20CA#32) := by decide +kernel
theorem test_decode_bitmaps :
    dec (lo 4#3 0x0C001C00#64 0#64) = some (.getSetip .M 0#5) ∧
    dec (hi 0#3 0x0C001C7C#64 0x8000000000000000#64) = some (.putSetip .M 31#5 0x80000000#32) ∧
    dec (hi 4#3 0x0C001D04#64 0#64) = some (.getInClrip .M 1#5) ∧
    dec (hi 0#3 0x0C001D7C#64 0x100000000#64) = some (.putInClrip .M 31#5 1#32) ∧
    dec (lo 4#3 0x0D001E08#64 0#64) = some (.getSetie .S 2#5) ∧
    dec (lo 0#3 0x0C001E08#64 3#64) = some (.putSetie .M 2#5 3#32) ∧
    dec (hi 4#3 0x0C001F0C#64 0#64) = some (.getClrie .M 3#5) ∧
    dec (hi 0#3 0x0C001F0C#64 0x300000000#64) = some (.putClrie .M 3#5 3#32) := by decide +kernel
theorem test_decode_zero :
    dec (lo 4#3 0x0C001000#64 0#64) = some (.getRozero .M 0x1000#14) ∧
    dec (hi 0#3 0x0C001BBC#64 0x100000000#64) = some (.putRozero .M 0x1BBC#14 1#32) ∧
    dec (lo 4#3 0x0C001BD0#64 0#64) = some (.getReserved .M 0x1BD0#14) ∧
    dec (hi 0#3 0x0C002FFC#64 0x100000000#64) = some (.putReserved .M 0x2FFC#14 1#32) := by decide +kernel
theorem test_decode_pages :
    dec (lo 0#3 0x28007000#64 0x2F#64) = some (.putSeteipnum 1 (.G 3#6) 0x2F#32) ∧
    dec (lo 4#3 0x24000000#64 0#64) = some (.getPage 0 .M 0#12) ∧
    dec (hi 0#3 0x28000004#64 0x100000000#64) = some (.putPage 0 .S 4#12 1#32) := by decide +kernel
theorem test_decode_csr_delivery :
    decCsr 0x70#12 cM 1#2 = some (.csrwEidelivery 1 cM 0xAB#64) ∧
    decCsr 0x70#12 cM 2#2 = some (.csrsEidelivery 1 cM 0xAB#64) ∧
    decCsr 0x70#12 cM 3#2 = some (.csrcEidelivery 1 cM 0xAB#64) ∧
    decCsr 0x72#12 cS 1#2 = some (.csrwEithreshold 1 cS 0xAB#64) ∧
    decCsr 0x72#12 cS 2#2 = some (.csrsEithreshold 1 cS 0xAB#64) ∧
    decCsr 0x72#12 cS 3#2 = some (.csrcEithreshold 1 cS 0xAB#64) := by decide +kernel
theorem test_decode_csr_bitmaps :
    decCsr 0x80#12 cV 1#2 = some (.csrwEip 1 cV 0#5 0xAB#64) ∧
    decCsr 0xBE#12 cV 2#2 = some (.csrsEip 1 cV 31#5 0xAB#64) ∧
    decCsr 0x82#12 cV 3#2 = some (.csrcEip 1 cV 1#5 0xAB#64) ∧
    decCsr 0xC0#12 cM 1#2 = some (.csrwEie 1 cM 0#5 0xAB#64) ∧
    decCsr 0xFE#12 cM 2#2 = some (.csrsEie 1 cM 31#5 0xAB#64) ∧
    decCsr 0xC2#12 cM 3#2 = some (.csrcEie 1 cM 1#5 0xAB#64) := by decide +kernel
theorem test_decode_csr_illegal :
    decCsr 0x70#12 cM 0#2 = some (.csrxIllegalOp 1 0x70#12 cM 0xAB#64) ∧
    decCsr 0x70#12 ⟨1#2, true, 4#6⟩ 1#2 = some (.csrIllegalContext 1 0x70#12 ⟨1#2, true, 4#6⟩ .write 0xAB#64) ∧
    decCsr 0x81#12 cM 2#2 = some (.csrIllegalSelector 1 0x81#12 cM .set 0xAB#64) ∧
    decCsr 0x100#12 cM 3#2 = some (.csrIllegalSelector 1 0x100#12 cM .clear 0xAB#64) ∧
    (decode .tc (.agent (.claim ⟨0, cV⟩))).toOption = some (.claim 0 cV) := by decide +kernel

/-- Accesses of another shape are rejected (R88, R146, R182). -/
theorem test_decode_rejects :
    dec ⟨4#3, 3, 0x0C000000#64, 0xFF#8, 0#64⟩ = none ∧ dec (hi 4#3 0x0C000000#64 0#64) = none ∧
    dec (lo 1#3 0x0C000000#64 0#64) = none ∧ dec (lo 4#3 0x0C004000#64 0#64) = none := by decide +kernel

/-! ### Small states -/

/-- The state an outcome goes on with. -/
def nextOf (o : Result3) : Option State :=
  match o with
  | .next t => some t
  | .fault _ => none
  | .refused _ => none

/-- Something read from the state after an instruction. -/
def after {α : Type} (i : Instr) (s : State) (p : State → α) : Option α := (nextOf (exec i s)).map p

/-- The reset state with one source of a domain. -/
def withSource (d : Dom) (n : Nat) (x : Source) (s : State) : State := s.setSource d n x
/-- The state with the tickets of the machine domain. -/
def withTickets (l : List (Cause × Nat)) (s : State) : State := s.setDom .M { s.m with tickets := l }
def edge : Source := { Source.zero with mode := .edgeRising }
def level : Source := { Source.zero with mode := .levelHigh }

/-- Source 5 of the machine domain in an edge mode, source 33 delegated and Detached. -/
def twoSources : State :=
  withSource .S 33 { Source.zero with mode := .detached } <|
    withSource .M 5 edge { State.reset with deleg := setBit 0#1024 33 true }

/-- A level source 7 of the machine domain, pending and notified, with its line high. -/
def levelPending : State :=
  withSource .M 7 { level with pending := true, notified := true }
    { State.reset with rawInput := setBit 0#1024 7 true, line := setBit 0#1024 7 true }

/-- Both domains enabled and in MSI mode, the MSI bases set as the boot requirement asks (R415). -/
def bootedState : State :=
  { State.reset with
    m := { State.reset.m with ie := true, dm := true }
    s := { State.reset.s with ie := true, dm := true }
    mmsiaddrcfg := 0x24000#32, smsiaddrcfg := 0x28000#32 }

/-- The booted state with source 27 of the machine domain due, its target hart 1 and identity 9. -/
def dueState : State :=
  withTickets [(.source 27, 0)] <|
    withSource .M 27 { edge with pending := true, enabled := true, target := 0x00040009#32 } bootedState

/-- File `M` of hart 0 with identities 5 and 70 pending and enabled. -/
def file2 : IFile :=
  { eidelivery := true, eithreshold := 0#11
    eip := setBit (setBit 0#2048 5 true) 70 true, eie := setBit (setBit 0#2048 5 true) 70 true }
def fileState : State := State.reset.setFile 0 .M file2

/-! ### One instruction at a time: the transactor -/

/-- R171: the request is latched, its mask in the high lanes, and the deadline is `TIMEOUT_CYCLES`. -/
theorem test_get32 : after (.get32 0x0D000004#64) .reset (fun t => ((t.tx (.ext (.window .S))).phase,
    (t.tx (.ext (.window .S))).req.mask, (t.tx (.ext (.window .S))).deadline)) =
      some (.request, 0xF0#8, 8) := by decide +kernel
/-- R172: the word is in the lanes of its address. -/
theorem test_put32 : after (.put32 0x28001004#64 0xAB#32) .reset
    (fun t => (t.tx (.ext (.page 0 (.G 1#6)))).req.data) = some 0xAB00000000#64 := by decide +kernel

/-- A transactor in the Response phase of a request, with some ticks left. -/
def responding (left : Nat) (r : BusA) : State :=
  State.reset.setTx (.ext (.window .M))
    { Transactor.idle with phase := .response, req := r, deadline := left }
/-- R172, R181. -/
theorem test_accessAck : after (.accessAck (.ext (.window .M))) (responding 3 (.put 0x0C000000#64 1#32))
    (fun t => t.tx (.ext (.window .M))) = some { Transactor.idle with result := .ack } := by decide +kernel
/-- R171: the word is taken from the lanes of the request's address. -/
theorem test_accessAckData :
    after (.accessAckData (.ext (.window .M)) 0x1122334455667788#64) (responding 3 (.get 0x0C000004#64))
      (fun t => (t.tx (.ext (.window .M))).result) = some (.ackData 0x11223344#32) := by decide +kernel

/-! ### The domain registers -/

/-- R202: tag, `ie`, `dm`. -/
theorem test_getDomaincfg : after (.getDomaincfg .S) bootedState (·.answer) =
    some (.data 0x80000104#32) := by decide +kernel
/-- R203: only bits 8, 2 and 0 are stored, in the addressed domain. -/
theorem test_putDomaincfg : after (.putDomaincfg .S 0xFFFFFFFF#32) .reset
    (fun t => (t.domaincfgRead .S, t.domaincfgRead .M)) = some (0x80000105#32, 0x80000000#32) := by decide +kernel
/-- R208 to R211, R36. -/
theorem test_mmsiaddrcfg : after (.getMmsiaddrcfg .M) bootedState (·.answer) = some (.data 0x24000#32) ∧
    after (.getMmsiaddrcfg .S) bootedState (·.answer) = some (.data 0#32) ∧
    after (.putMmsiaddrcfg .M 7#32) .reset (·.mmsiaddrcfg) = some 7#32 ∧
    after (.putMmsiaddrcfg .S 7#32) .reset (·.mmsiaddrcfg) = some 0#32 := by decide +kernel
theorem test_mmsiaddrcfgh : after (.putMmsiaddrcfgh .M 7#32) .reset (·.mmsiaddrcfgh) = some 7#32 ∧
    after (.getMmsiaddrcfgh .M) { State.reset with mmsiaddrcfgh := 7#32 } (·.answer) =
      some (.data 7#32) := by decide +kernel
/-- R212 to R215. -/
theorem test_smsiaddrcfg : after (.putSmsiaddrcfg .M 7#32) .reset (·.smsiaddrcfg) = some 7#32 ∧
    after (.getSmsiaddrcfg .M) bootedState (·.answer) = some (.data 0x28000#32) := by decide +kernel
theorem test_smsiaddrcfgh : after (.putSmsiaddrcfgh .S 7#32) .reset (·.smsiaddrcfgh) = some 0#32 ∧
    after (.getSmsiaddrcfgh .M) { State.reset with smsiaddrcfgh := 7#32 } (·.answer) =
      some (.data 7#32) := by decide +kernel
/-- R204: a delegated source reads `0x400` in M and its mode in S. -/
theorem test_getSourcecfg : after (.getSourcecfg .M 33#10) twoSources (·.answer) = some (.data 0x400#32) ∧
    after (.getSourcecfg .S 33#10) twoSources (·.answer) = some (.data 1#32) ∧
    after (.getSourcecfg .M 5#10) twoSources (·.answer) = some (.data 4#32) ∧
    after (.getSourcecfg .S 5#10) twoSources (·.answer) = some (.data 0#32) := by decide +kernel
/-- R205, R273: delegation clears the machine's copy; code 3 is stored as Inactive. -/
theorem test_putSourcecfg_delegates : after (.putSourcecfg .M 5#10 0x400#32) twoSources
    (fun t => (t.owned .S 5, t.source .M 5)) = some (true, Source.zero) := by decide +kernel
theorem test_putSourcecfg_mode : after (.putSourcecfg .M 5#10 3#32) twoSources
    (fun t => (t.source .M 5).mode) = some .inactive ∧
    after (.putSourcecfg .S 33#10 0x407#32) twoSources
      (fun t => ((t.source .S 33).mode, (t.source .S 33).pending)) = some (.levelLow, true) := by decide +kernel
/-- R216, R217: source 5 is bit 5 of word 0; the other sources are not requested. -/
theorem test_putSetip : after (.putSetip .M 0#5 0xFFFFFFFF#32) twoSources (fun t => t.setipRead .M 0#5) =
    some 0x20#32 := by decide +kernel
theorem test_getSetip : after (.getSetip .M 0#5) levelPending (·.answer) = some (.data 0x80#32) := by decide +kernel
/-- R219: the whole word is the number. -/
theorem test_putSetipnum : after (.putSetipnum .M 5#32) twoSources (fun t => (t.source .M 5).pending) =
    some true ∧ after (.putSetipnum .M 0x405#32) twoSources (fun t => (t.source .M 5).pending) =
      some false := by decide +kernel
/-- R270: a level source at its active level stays pending and is rearmed. -/
theorem test_putInClrip : after (.putInClrip .M 0#5 0x80#32) levelPending
    (fun t => ((t.source .M 7).pending, (t.source .M 7).notified)) = some (true, false) := by decide +kernel
/-- R220: the rectified input. -/
theorem test_getInClrip : after (.getInClrip .M 0#5) levelPending (·.answer) = some (.data 0x80#32) := by
  decide +kernel
/-- R223. -/
theorem test_putClripnum : after (.putClripnum .S 33#32)
    (withSource .S 33 { Source.zero with mode := .detached, pending := true } twoSources)
    (fun t => (t.source .S 33).pending) = some false := by decide +kernel
/-- R224, R225, R229, R231: enabling needs no mode, only ownership. -/
theorem test_putSetie : after (.putSetie .M 1#5 3#32) twoSources
    (fun t => (t.setieRead .M 1#5, t.setieRead .S 1#5)) = some (1#32, 0#32) := by decide +kernel
theorem test_getSetie : after (.getSetie .M 0#5) dueState (·.answer) = some (.data 0x08000000#32) := by decide +kernel
theorem test_putClrie : after (.putClrie .M 0#5 0x08000000#32) dueState
    (fun t => (t.source .M 27).enabled) = some false := by decide +kernel
theorem test_putSetienum : after (.putSetienum .S 33#32) twoSources
    (fun t => (t.source .S 33).enabled) = some true := by decide +kernel
theorem test_putClrienum : after (.putClrienum .M 27#32) dueState
    (fun t => (t.source .M 27).enabled) = some false := by decide +kernel
/-- R233, R235: with `be` clear the `le` register is the live one. -/
theorem test_putSetipnumLe : after (.putSetipnumLe .M 5#32) twoSources
    (fun t => (t.source .M 5).pending) = some true := by decide +kernel
theorem test_putSetipnumBe : after (.putSetipnumBe .M 5#32) twoSources
    (fun t => (t.source .M 5).pending) = some false := by decide +kernel
/-- R236, R237: busy is bit 12; hart 2 does not exist and is stored as 0. -/
theorem test_putGenmsi : after (.putGenmsi .M 0x0008F807#32) bootedState (fun t => t.genmsiRead .M) =
    some 0x00001007#32 := by decide +kernel
theorem test_getGenmsi_direct : after (.getGenmsi .M) { State.reset with
    m := { State.reset.m with genmsi := 7#32 } } (·.answer) = some (.data 0#32) := by decide +kernel
/-- R238, R239, R133: hart 1 and guest 3 exist, guest 4 does not; bit 11 is not stored. -/
theorem test_putTargets : after (.putTargets .S 33#10 0x00043FFF#32) (State.setDom twoSources .S
      { twoSources.s with dm := true }) (fun t => (t.source .S 33).target) = some 0x000437FF#32 ∧
    after (.putTargets .S 33#10 0x00044FFF#32) (State.setDom twoSources .S
      { twoSources.s with dm := true }) (fun t => (t.source .S 33).target) = some 0x000407FF#32 := by decide +kernel
theorem test_getTargets : after (.getTargets .M 27#10) dueState (·.answer) = some (.data 0x00040009#32) := by
  decide +kernel
/-- R206, R207, R218, R222, R226, R228, R230, R232, R234, R240, R241: zero reads, ignored writes. -/
theorem test_zero_reads : [Instr.getRozero .M 0x1000#14, .getSetipnum .M, .getClripnum .M, .getSetienum .M,
    .getClrie .M 0#5, .getClrienum .M, .getSetipnumLe .M, .getSetipnumBe .M, .getReserved .M 0x1BD0#14,
    .getPage 0 .M 0#12].all (fun i => after i dueState (·.answer) == some (.data 0#32)) = true := by decide +kernel
theorem test_ignored_writes : [Instr.putRozero .M 0x1000#14 9#32, .putReserved .M 0x1BD0#14 9#32,
    .putPage 0 .M 4#12 9#32].all (fun i => nextOf (exec i dueState) == some dueState) = true := by decide +kernel

/-! ### The interrupt files -/

/-- R328 to R330: the old value is answered; only bit 0 exists. -/
theorem test_eidelivery : after (.csrwEidelivery 0 cM 2#64) fileState
    (fun t => ((t.file 0 .M).eidelivery, (t.hart 0).rdata)) = some (false, 1#64) := by decide +kernel
theorem test_eidelivery_set : after (.csrsEidelivery 1 cV 3#64) .reset
    (fun t => (t.file 1 (.G 3#6)).eidelivery) = some true ∧
    after (.csrcEidelivery 0 cM 1#64) fileState (fun t => (t.file 0 .M).eidelivery) = some false := by decide +kernel
/-- R332 to R334: 11 bits are stored. -/
theorem test_eithreshold : after (.csrwEithreshold 0 cS 0xFFFF#64) .reset
    (fun t => (t.file 0 .S).eithreshold) = some 0x7FF#11 ∧
    after (.csrsEithreshold 0 cM 6#64) fileState (fun t => (t.file 0 .M).top) = some 5 ∧
    after (.csrcEithreshold 0 cM 6#64) fileState (fun t => (t.file 0 .M).eithreshold) = some 0#11 := by decide +kernel
/-- R335 to R340, R352: identity 0 is never set; word 31 ends at identity 2047. -/
theorem test_eip : after (.csrwEip 0 cM 0#5 3#64) fileState
    (fun t => ((t.file 0 .M).read (.eip 0#5), (t.hart 0).rdata)) = some (2#64, 0x20#64) ∧
    after (.csrsEip 0 cM 31#5 0x8000000000000000#64) fileState
      (fun t => (t.file 0 .M).eip.getLsbD 2047) = some true ∧
    after (.csrcEip 0 cM 1#5 0x40#64) fileState (fun t => (t.file 0 .M).eip.getLsbD 70) = some false := by
  decide +kernel
theorem test_eie : after (.csrwEie 0 cM 0#5 0#64) fileState (fun t => (t.file 0 .M).top) = some 70 ∧
    after (.csrsEie 0 cM 0#5 1#64) fileState (fun t => (t.file 0 .M).eie.getLsbD 0) = some false ∧
    after (.csrcEie 0 cM 0#5 0x20#64) fileState (fun t => (t.file 0 .M).top) = some 70 := by decide +kernel
/-- R326: the flag is set and the read data is 0. -/
theorem test_illegal : after (.csrxIllegalOp 1 0x70#12 cM 1#64) fileState
    (fun t => ((t.hart 1).illegal, (t.hart 0).illegal)) = some (true, false) ∧
    after (.csrIllegalContext 0 0x70#12 ⟨0#2, false, 0#6⟩ .write 0#64) fileState
      (fun t => ((t.hart 0).illegal, t.file 0 .M)) = some (true, file2) ∧
    after (.csrIllegalSelector 0 0x71#12 cM .write 0#64) fileState
      (fun t => ((t.hart 0).rdata, t.file 0 .M)) = some (0#64, file2) := by decide +kernel
/-- R345: the lowest identity is taken; the next claim would take the next one. -/
theorem test_claim : after (.claim 0 cM) fileState (fun t => ((t.hart 0).claimId, (t.file 0 .M).top)) =
    some (5#11, 70) := by decide +kernel
/-- R347: 2047 is the last identity, 2048 and 0 are ignored. -/
theorem test_putSeteipnum : after (.putSeteipnum 0 .M 2047#32) fileState
    (fun t => (t.file 0 .M).eip.getLsbD 2047) = some true ∧
    after (.putSeteipnum 0 .M 2048#32) fileState (fun t => t.file 0 .M) = some file2 ∧
    after (.putSeteipnum 0 .M 0#32) fileState (fun t => t.file 0 .M) = some file2 := by decide +kernel

/-! ### One tick -/

/-- R292, R297: the due source is issued to page `M` of hart 1, with its identity. -/
theorem test_tick_issues : (nextOf (step dueState)).map (fun t =>
    ((t.tx (.msi .M)).req.address, (t.tx (.msi .M)).req.data, (t.source .M 27).notified)) =
      some (0x24001000#64, 9#64, true) := by decide +kernel
/-- R263: a rising edge is latched and sampled. -/
theorem test_tick_edge : (nextOf (step { twoSources with line := setBit 0#1024 5 true })).map (fun t =>
    ((t.source .M 5).pending, t.rawInput.getLsbD 5)) = some (true, true) := by decide +kernel
/-- R371: a request that is not accepted when its deadline runs out ends the run. -/
def late : State :=
  { State.reset.setTx (.msi .M) { Transactor.idle with
      phase := .request, req := .put 0x24000000#64 1#32, deadline := 1 } with
    inputs := [Tick.only .tc (.msi .S)] }
/-- File `M` of hart 0 claims identity 5 on the tick on which an MSI of identity 5 is accepted. -/
def claimAndMsi (o : SameTickOrder) : State :=
  { fileState.setTx (.msi .M) (Transactor.idle.begin 8 (.put 0x24000000#64 5#32)) with
    cfg := { Config.tc with sameTickOrder := o }
    inputs := [{ Tick.only .tc (.msi .M) with
      requests := [.claim ⟨0, cM⟩, .csr ⟨0, 0x72#12, cM, 2#2, 0#64⟩] }] }
theorem test_tick_timeout : late.expired (Tick.only .tc (.msi .S)) = some (.msi .M) := by decide +kernel
/-- R178, R426: a register answers while more than one tick is left, and no later. -/
theorem test_tick_answer_bound :
    (nextOf (step (responding 2 (.put 0x0C000000#64 1#32)))).map (fun t =>
      (t.tx (.ext (.window .M))).result) = some .ack ∧
    nextOf (step (responding 1 (.put 0x0C000000#64 1#32))) = none := by decide +kernel
/-- R178, D39, R304: an MSI is accepted after TIMEOUT_CYCLES - 1 ticks that were not ready; R426 alone
would not have it (log entry 20). -/
theorem test_tick_msi_on_last_tick :
    (nextOf (step { late with inputs := [] })).map (fun t => (t.tx (.msi .M)).phase) = some .response ∧
    nextOf (step { late with
      inputs := [], cfg := { Config.tc with msiOnLastTick := false } }) = none := by decide +kernel
/-- R97, D27: the order of a tick's three events at a file decides whether a claimed identity stays. -/
theorem test_tick_order :
    (nextOf (step (claimAndMsi .accessClaimMsi))).map (fun t => (t.file 0 .M).eip.getLsbD 5) = some true ∧
    (nextOf (step (claimAndMsi .msiClaimAccess))).map (fun t => (t.file 0 .M).eip.getLsbD 5) =
      some false := by decide +kernel
/-- A word of the opcode table is fetched, decoded and run by the next step. -/
theorem test_fetch_word : decodeTableWord 16 0x1CDC = some (.putSetipnum .M 0#32) ∧
    (nextOf (step (State.reset.withFetchWord 16 0x1CDC))).map (·.answer) = some .ack := by decide +kernel

/-! ### Witnesses: for each obligation with hypotheses, operands that meet them, clause by clause -/

theorem witness_EncodedInstructionsDecodeBack : Config.tc.valid = true ∧
    [Instr.getSourcecfg .M 1#10, .putSourcecfg .S 1023#10 0#32, .getReserved .M 0x2FFC#14,
      .putRozero .S 0x1000#14 0#32, .getPage 1 (.G 3#6) 0xFFC#12, .putPage 0 .S 4#12 0#32,
      .csrIllegalContext 1 0x70#12 ⟨1#2, true, 0#6⟩ .write 0#64, .csrwEie 1 cV 31#5 0#64,
      .get32 0x0D003FFC#64].all (Instr.wellFormed .tc) = true := by decide +kernel

theorem witness_DecodedInstructionsAreWellFormed : Config.tc.valid = true ∧
    dec (hi 4#3 0x0D003FFC#64 0#64) = some (.getTargets .S 1023#10) := by decide +kernel

/-- The four clauses: a bad opcode; a bad size, alignment or mask; an address just outside; one just
inside. -/
theorem witness_OnlyWholeRegisterRequestsDecode :
    (1#3 ≠ 0#3 ∧ 1#3 ≠ 4#3) ∧
    ((lo 4#3 0x0C000004#64 0#64).mask ≠ 0xF0#8 ∧ (0x0C000002#64 : Addr).toNat % 4 ≠ 0) ∧
    (Config.tc.regionOf 0x0C004000#64 = none ∧ (0x0C004000#64 : Addr).toNat % 8 = 0) ∧
    (Config.tc.regionOf 0x0C003FFC#64).isSome = true ∧ (0x0C003FFC#64 : Addr).toNat % 8 ≠ 0 := by decide +kernel

/-- Both sides, at the ends of the ranges. -/
theorem witness_IllegalAccessesAreThoseOfTheRule : 1 < Config.tc.nHart ∧
    (1 ≤ (1#6).toNat ∧ (3#6).toNat ≤ Config.tc.geilen.toNat) ∧ Config.tc.fileOf cV = some (.G 3#6) ∧
    decCsr 0xFE#12 cV 3#2 = some (.csrcEie 1 cV 31#5 0xAB#64) ∧
    decCsr 0xFF#12 cV 3#2 = some (.csrIllegalSelector 1 0xFF#12 cV .clear 0xAB#64) ∧
    decCsr 0x6F#12 ⟨1#2, true, 1#6⟩ 1#2 =
      some (.csrIllegalSelector 1 0x6F#12 ⟨1#2, true, 1#6⟩ .write 0xAB#64) ∧
    decCsr 0x80#12 ⟨1#2, true, 0#6⟩ 1#2 =
      some (.csrIllegalContext 1 0x80#12 ⟨1#2, true, 0#6⟩ .write 0xAB#64) := by decide +kernel

theorem witness_allIdle : State.reset.allIdle ∧ bootedState.allIdle := by
  unfold State.allIdle; decide +kernel

theorem witness_StepRunsARequestOfAnAgent : State.reset.allIdle ∧
    (decode State.reset.cfg (.agent (.claim ⟨0, cM⟩))).toOption = some (.claim 0 cM) :=
  ⟨witness_allIdle.1, by decide +kernel⟩

/-- A write and a read; a block that swaps no data. -/
theorem witness_StepRunsAnAcceptedRequest : State.reset.allIdle ∧
    State.reset.cfg.portOf 0x0D00306C#64 = some (.window .S) ∧
    dec (hi 0#3 0x0D00306C#64 0x20CA00000000#64) = some (.putTargets .S 27#10 0x20CA#32) ∧
    dec (hi 4#3 0x0D00306C#64 0#64) = some (.getTargets .S 27#10) ∧
    after (.getTargets .S 27#10) .reset (·.answer) = some (.data 0#32) ∧
    State.reset.cfg.beSwapsData = false := ⟨witness_allIdle.1, by decide +kernel⟩

theorem witness_StepRunsAResponse : State.reset.cfg.valid = true ∧ State.reset.allIdle ∧
    (decode State.reset.cfg (.response (.msi .S) ⟨0#3, 0#64⟩)).toOption = some (.accessAck (.msi .S)) ∧
    2 ≤ State.reset.cfg.timeout ∧ { Config.tc with timeout := 1 }.valid = true :=
  ⟨by decide +kernel, witness_allIdle.1, by decide +kernel⟩

/-- A state whose next tick times out, and one that is not late. -/
theorem witness_OnlyATimeoutFaults : (late.nextTick.reset = false ∧
    .msi .M ∈ late.cfg.transactors ∧ (late.tx (.msi .M)).phase ≠ .idle ∧
    (late.tx (.msi .M)).deadline ≤ 1 ∧ .msi .M ∉ late.enterTick.accepts late.nextTick ∧
    .msi .M ∉ late.enterTick.responds late.nextTick) ∧ nextOf (step late) = none ∧
    (nextOf (step bootedState)).isSome = true := by decide +kernel

/-- A tick with an indirect access, a claim and two calls, from a state with a source. -/
def busy : State :=
  { dueState with inputs := [{ Tick.idle with
      requests := [.csr ⟨0, 0x70#12, cM, 1#2, 1#64⟩, .claim ⟨0, cM⟩,
        .call (.get 0x0C000000#64), .call (.put 0x0D003FFC#64 0#32)] }] }

theorem witness_LegalInputIsNeverRefused : busy.inv = true ∧ busy.cfg.genmsi = .modelled ∧
    busy.nextTick.legal busy.cfg = true ∧ (nextOf (step busy)).isSome = true := by decide +kernel

theorem witness_QuiescentTickChangesNothing : bootedState.inv = true ∧ bootedState.allIdle ∧
    bootedState.inputs = [] ∧ bootedState.rawInput = bootedState.line &&& sourceMask bootedState.cfg ∧
    (bootedState.dom .M).dm = true ∧ ∀ d, bootedState.want d = [] :=
  ⟨by decide +kernel, witness_allIdle.2, by decide +kernel, by decide +kernel, by decide +kernel,
    fun d => by cases d <;> decide +kernel⟩

theorem witness_InvariantHoldsAtReset : Config.tc.valid = true := by decide +kernel

theorem witness_EveryStepKeepsTheInvariant : busy.inv = true ∧
    ((nextOf (step busy)).map State.inv) = some true := by decide +kernel

/-- The antecedents within: an Inactive copy, a level one, a notified one, a copy not owned. -/
theorem witness_InvariantGivesTheRulesOfTheState : levelPending.inv = true ∧
    (levelPending.source .M 1).mode = .inactive ∧ (levelPending.source .M 7).mode.isLevel = true ∧
    (levelPending.source .M 7).notified = true ∧ levelPending.owned .S 7 = false := by decide +kernel

theorem witness_ResetTickLeavesTheResetState :
    { dueState with inputs := [{ Tick.idle with reset := true }] }.nextTick.reset = true := by
  decide +kernel

theorem witness_CallBeginsARequest : State.reset.cfg.portOf 0x28007FFC#64 = some (.page 1 (.G 3#6)) ∧
    (State.reset.tx (.ext (.page 1 (.G 3#6)))).phase = .idle := by decide +kernel

theorem witness_ResponseEndsTheTransaction :
    ((responding 3 (.put 0x0C000000#64 1#32)).tx (.ext (.window .M))).phase = .response ∧
    ((responding 3 (.put 0x0C000000#64 1#32)).tx (.ext (.window .M))).req.opcode = 0#3 ∧
    ((responding 3 (.get 0x0C000000#64)).tx (.ext (.window .M))).phase = .response ∧
    ((responding 3 (.get 0x0C000000#64)).tx (.ext (.window .M))).req.opcode = 4#3 := by decide +kernel

theorem witness_TransactorTurnsAwayWhatItDoesNotAwait :
    (Config.tc.portOf 0x0C000000#64 = some (.window .M) ∧
      ((responding 3 (.get 0x0C000000#64)).tx (.ext (.window .M))).phase ≠ .idle) ∧
    (State.reset.tx (.msi .M)).phase ≠ .response ∧
    ((responding 3 (.get 0x0C000000#64)).tx (.ext (.window .M))).req.opcode ≠ 0#3 ∧
    ((responding 3 (.put 0x0C000000#64 1#32)).tx (.ext (.window .M))).req.opcode ≠ 4#3 := by decide +kernel

/-- Beyond `N_SRC`, delegated, and neither. -/
theorem witness_GetSourcecfg : (64#10 ≠ 0#10 ∧ twoSources.cfg.nSrc.toNat < (64#10 : BitVec 10).toNat) ∧
    (33#10 ≠ 0#10 ∧ twoSources.deleg.getLsbD (33#10 : BitVec 10).toNat = true) ∧
    63#10 ≠ 0#10 ∧ ¬ twoSources.cfg.nSrc.toNat < (63#10 : BitVec 10).toNat ∧
    twoSources.deleg.getLsbD (63#10 : BitVec 10).toNat = false := by decide +kernel

/-- The last bit of a word, and a source at its active level. -/
theorem witness_GetBitmapWords : 31 < 32 ∧ levelPending.owned .M (32 * 0 + 7) = true ∧
    (levelPending.source .M 7).mode ≠ .inactive ∧ (levelPending.source .M 7).mode ≠ .detached ∧
    levelPending.rawInput.getLsbD 7 ≠ (levelPending.source .M 7).mode.code.getLsbD 0 := by decide +kernel

theorem witness_GetTargets : dueState.owned .M (27#10 : BitVec 10).toNat = true ∧
    dueState.owned .S (27#10 : BitVec 10).toNat = false := by decide +kernel

theorem witness_PutDomaincfgReadsBackMasked : Config.tc.dmKind .M = .rw ∧
    { Config.tc with dmKindS := .fixedMsi }.dmKind .S ≠ .rw := by decide +kernel

/-- The number 0, one beyond `N_SRC`, and one of a source the domain does not own. -/
theorem witness_PutSetipnumRequestsPending : (0#32 : Word) = 0#32 ∧
    twoSources.cfg.nSrc.toNat < (64#32 : Word).toNat ∧
    twoSources.owned .M (33#32 : Word).toNat = false := by decide +kernel

theorem witness_EndianPairRequestsPending : (State.reset.dom .M).be = false ∧
    ((State.reset.setDom .S { State.reset.s with be := true }).dom .S).be = true := by decide +kernel

theorem witness_EnableNumberWrites : (0#32 : Word) = 0#32 ∧ dueState.owned .M 27 = true := by
  decide +kernel

/-- A first and a last source; delegated or not, with and without `D`. -/
theorem witness_PutSourcecfgMachine :
    (1#10 ≠ 0#10 ∧ 63#10 ≠ 0#10 ∧ (63#10 : BitVec 10).toNat ≤ twoSources.cfg.nSrc.toNat) ∧
    (0x400#32 : Word).getLsbD 10 = true ∧ twoSources.deleg.getLsbD (33#10 : BitVec 10).toNat = true ∧
    twoSources.deleg.getLsbD (5#10 : BitVec 10).toNat = false ∧ (7#32 : Word).getLsbD 10 = false := by decide +kernel

theorem witness_PutSourcecfgSupervisor :
    (33#10 ≠ 0#10 ∧ (33#10 : BitVec 10).toNat ≤ twoSources.cfg.nSrc.toNat ∧
      twoSources.deleg.getLsbD (33#10 : BitVec 10).toNat = true) ∧
    (5#10 ≠ 0#10 ∧ twoSources.deleg.getLsbD (5#10 : BitVec 10).toNat = false) ∧
    64#10 ≠ 0#10 ∧ twoSources.cfg.nSrc.toNat < (64#10 : BitVec 10).toNat := by decide +kernel

theorem witness_SourcecfgReadsBackNormalised : 63#10 ≠ 0#10 ∧ (63#10 : BitVec 10).toNat ≤ twoSources.cfg.nSrc.toNat ∧
    33#10 ≠ 0#10 ∧ (33#10 : BitVec 10).toNat ≤ twoSources.cfg.nSrc.toNat ∧
    twoSources.deleg.getLsbD (33#10 : BitVec 10).toNat = true := by decide +kernel

theorem witness_PutTargetsReadsBackNormalised : twoSources.owned .S (33#10 : BitVec 10).toNat = true := by
  decide +kernel

theorem witness_GenmsiReadsAndWrites :
    (bootedState.cfg.genmsi = .modelled ∧ (bootedState.dom .M).dm = true ∧
      (bootedState.dom .M).genmsiBusy = false) ∧
    (State.reset.cfg.genmsi = .modelled ∧ (State.reset.dom .S).dm = false) ∧
    (State.resetOf { Config.tc with genmsi := .refused }).cfg.genmsi = .refused := by decide +kernel

/-- A state of the invariant, and one after a write of Inactive to a notified source, which is not. -/
theorem witness_TickFollowsTheTriggerRules : levelPending.inv = true ∧ levelPending.sourcesCanonical ∧
    (runEvents [.run none (.putSourcecfg .M 7#10 0#32)] levelPending |> nextOf).map State.inv =
      some false ∧ levelPending.owned .M 7 = true ∧ levelPending.owned .S 7 = false := by
  refine ⟨by decide +kernel, ?_, by decide +kernel⟩
  intro d; cases d <;> decide +kernel

/-- Something owed; nothing owed; a busy transactor; direct mode. -/
theorem witness_OneOwedMsiIsIssuedAtTheEndOfATick :
    ((dueState.settle.dom .M).dm = true ∧ (dueState.dom .M).msi.phase = .idle ∧
      dueState.settle.want .M = [.source 27]) ∧
    ((dueState.settle.dom .S).dm = true ∧ dueState.settle.want .S = []) ∧
    (late.dom .M).msi.phase ≠ .idle ∧ (State.reset.settle.dom .M).dm = false := by decide +kernel

/-- A source, and `genmsi`; `be` clear in a block that swaps no data. -/
theorem witness_MsiOfEachCause :
    dueState.cfg.harts[(dueState.source .M 27).target.toNat / 2 ^ 18]? =
      some ⟨0x24001000#64, 0x28004000#64, 0x1000#64, 0x4000#64⟩ ∧
    bootedState.cfg.harts[(bootedState.dom .S).genmsi.toNat / 2 ^ 18]? =
      some ⟨0x24000000#64, 0x28000000#64, 0#64, 0#64⟩ ∧
    dueState.cfg.beSwapsData = false := by decide +kernel

/-- Sources 27 and 28 of the machine domain wait, 28 with the lesser ticket. -/
def twoDue : State :=
  withTickets [(.source 27, 5), (.source 28, 0)] <|
    withSource .M 28 { edge with pending := true, enabled := true } dueState
/-- The state a tick later. -/
def oneDue : State := (nextOf (step twoDue)).getD twoDue

theorem step_twoDue : step twoDue = .next oneDue := by
  have h : (nextOf (step twoDue)).isSome = true := by decide +kernel
  unfold oneDue
  cases hs : step twoDue with
  | next t => rfl
  | fault e => rw [hs] at h; cases h
  | refused e => rw [hs] at h; cases h

/-- A run of one tick, on which source 28 is issued and source 27 stays. -/
theorem witness_MemberThatStaysIsChosen :
    let run := fun i => if i = 0 then twoDue else oneDue
    (run 0).inv = true ∧
      (∀ i, i < 1 → (run i).nextTick.reset = false ∧ step (run i) = .next (run (i + 1))) ∧
      (∀ i, i ≤ 1 → ((run i).dom .M).dm = true ∧ Cause.source 27 ∈ (run i).want .M) ∧
      ((run 1).dom .M).issues = 1 := by
  refine ⟨by decide +kernel, ?_, ?_, by decide +kernel⟩
  · intro i hi
    obtain rfl : i = 0 := by omega
    exact ⟨by decide +kernel, step_twoDue⟩
  · intro i hi
    obtain rfl | rfl : i = 0 ∨ i = 1 := by omega
    all_goals decide +kernel

theorem witness_MsiLandsAtTheTargetFile : bootedState.cfg.valid = true ∧ bootedState.booted ∧
    (1#14).toNat < bootedState.cfg.nHart ∧ (3#6).toNat ≤ bootedState.cfg.geilen.toNat :=
  ⟨by decide +kernel, ⟨test_platform_ok, by decide +kernel⟩, by decide +kernel, by decide +kernel⟩

/-- The three instructions that rearm a notified source. -/
theorem witness_AmongInstructionsOnlyAClearOrSourcecfgRearms : (levelPending.source .M 7).notified = true ∧
    after (.putInClrip .M 0#5 0x80#32) levelPending (fun t => (t.source .M 7).notified) = some false ∧
    after (.putClripnum .M 7#32) levelPending (fun t => (t.source .M 7).notified) = some false ∧
    after (.putSourcecfg .M 7#10 0x400#32) levelPending (fun t => (t.source .M 7).notified) =
      some false := by decide +kernel

/-- No delivery, no candidate, and a least candidate against the threshold 0, above and below it. -/
theorem witness_TopIsTheLeastCandidate :
    { file2 with eidelivery := false }.top = 0 ∧
    { file2 with eie := 0#2048 }.top = 0 ∧
    (file2.eidelivery = true ∧ file2.eip.getLsbD 5 = true ∧ file2.eie.getLsbD 5 = true ∧
      (List.range 2048).all (fun i => decide (i = 0 ∨ 5 ≤ i) || !(file2.eip.getLsbD i && file2.eie.getLsbD i)) = true ∧
      file2.eithreshold = 0#11) ∧
    { file2 with eithreshold := 6#11 }.top = 5 ∧ { file2 with eithreshold := 5#11 }.top = 0 := by
  decide +kernel

theorem witness_EideliveryAndEithresholdAccesses : Config.tc.fileOf cM = some .M ∧
    Config.tc.fileOf cS = some .S ∧ Config.tc.fileOf ⟨1#2, true, 1#6⟩ = some (.G 1#6) ∧
    Config.tc.fileOf cV = some (.G 3#6) ∧ (2#64 : DWord).getLsbD 0 = false := by decide +kernel

theorem witness_EipAndEieAccesses : fileState.cfg.fileOf cM = some .M ∧
    fileState.cfg.fileOf cV = some (.G 3#6) := by decide +kernel

/-- A file with a top identity, one without, and contexts that name no file. -/
theorem witness_ClaimTakesTheTop : fileState.cfg.fileOf cM = some .M ∧ (fileState.file 0 .M).top = 5 ∧
    fileState.cfg.fileOf cS = some .S ∧ (fileState.file 0 .S).top = 0 ∧
    Config.tc.fileOf ⟨1#2, true, 0#6⟩ = none ∧ Config.tc.fileOf ⟨1#2, true, 4#6⟩ = none ∧
    Config.tc.fileOf ⟨2#2, false, 0#6⟩ = none := by decide +kernel

/-- A tick on which the window of M answers with two ticks left, that of S accepts, the page of file M is
not ready, the page of file S is silent, and the MSI transactors are idle. -/
def moving : State :=
  let waiting := Transactor.idle.begin 5 (.put 0x24000000#64 1#32)
  { ((((responding 2 (.put 0x0C000000#64 1#32)).setTx (.ext (.window .S))
      (Transactor.idle.begin 8 (.get 0x0D000000#64))).setTx (.ext (.page 0 .M)) waiting).setTx
      (.ext (.page 0 .S)) { responding 2 (.put 0x28000000#64 1#32) |>.tx (.ext (.window .M)) with
        deadline := 4 }) with
    inputs := [{ Tick.idle with notReady := [.ext (.page 0 .M)], silent := [.ext (.page 0 .S)] }] }

theorem witness_TransactorsMoveOncePerTick : (nextOf (step moving)).isSome = true ∧
    moving.nextTick.reset = false ∧
    moving.enterTick.accepts moving.nextTick = [.ext (.window .S)] ∧
    moving.enterTick.responds moving.nextTick = [.ext (.window .M)] ∧
    moving.enterTick.waits moving.nextTick = [.ext (.page 0 .M), .ext (.page 0 .S)] ∧
    (moving.tx (.msi .M)).phase = .idle ∧
    .msi .M ∈ (claimAndMsi .accessClaimMsi).enterTick.accepts (claimAndMsi .accessClaimMsi).nextTick ∧
    moving.cfg.portOf (moving.tx (.ext (.window .M))).req.address = some (.window .M) ∧
    moving.cfg.msiOnLastTick = true ∧ 1 < (moving.tx (.ext (.window .M))).deadline := by
  decide +kernel

/-- A put of the top identity, begun by the machine domain's delivery engine. -/
theorem witness_MsiAfterAClaimStaysPending : fileState.allIdle ∧
    fileState.cfg.sameTickOrder = .accessClaimMsi ∧ 2 ≤ fileState.cfg.timeout ∧
    .msi .M ∈ fileState.cfg.transactors ∧
    dec (.put 0x24000000#64 5#32) = some (.putSeteipnum 0 .M 5#32) ∧
    fileState.cfg.fileOf cM = some .M ∧ iregOf 0x72#12 = some .eithreshold ∧ csrOpOf 2#2 = some .set ∧
    ((fileState.file 0 .M).access .eithreshold .set 0#64).top = 5 := by
  unfold State.allIdle; decide +kernel

/-- A write of one word: the other words, the delegation bits and every flag are then as they were. -/
theorem witness_OnlyTheNamedInstructionsChange :
    (nextOf (exec (.putMmsiaddrcfg .M 7#32) fileState)).isSome = true ∧
    (∀ n w, Instr.putMmsiaddrcfg .M 7#32 ≠ .putSourcecfg .M n w) ∧
    (∀ w, Instr.putMmsiaddrcfg .M 7#32 ≠ .putMmsiaddrcfgh .M w) ∧
    (∀ w, Instr.putMmsiaddrcfg .M 7#32 ≠ .putSmsiaddrcfg .M w) ∧
    (∀ w, Instr.putMmsiaddrcfg .M 7#32 ≠ .putSmsiaddrcfgh .M w) ∧
    (∀ w, Instr.putSmsiaddrcfg .M 7#32 ≠ .putMmsiaddrcfg .M w) ∧
    csrHartOf (.putMmsiaddrcfg .M 7#32) ≠ some 0 ∧ csrHartOf (.csrwEip 1 cM 0#5 0#64) ≠ some 0 :=
  ⟨by decide +kernel, nofun, nofun, nofun, nofun, nofun, nofun, nofun⟩

/-- Two states with different machine domains and MSI words; a source owned and one that is not. -/
theorem witness_SupervisorWindowSeesOnlyItsOwn : windowOf (.putSetip .S 1#5 2#32) = some .S ∧
    State.sameForSupervisor twoSources
      { twoSources with m := { twoSources.m with ie := true }, mmsiaddrcfg := 9#32 } ∧
    (nextOf (exec (.putSetip .S 1#5 2#32) twoSources)).isSome = true ∧
    twoSources.owned .S 5 = false ∧ twoSources.owned .S 33 = true :=
  ⟨rfl, ⟨rfl, rfl, rfl, fun _ _ => rfl⟩, by decide +kernel⟩

end Sys2Proof.Machine.Tests
end

section
/-! The lanes of the bus as shifts by `32 * A[2]` and `4 * A[2]` (R123): the model names the two halves of
the lane group by a case split on `A[2]`, and each case is the shift at that value of the bit. -/

namespace Sys2Proof

theorem laneMask_eq_shiftLeft (a : Addr) : laneMask a = 0x0F#8 <<< (4 * (a.getLsbD 2).toNat) := by
  unfold laneMask
  cases a.getLsbD 2
  case false => rfl
  case true => rfl

theorem toLanes_eq_shiftLeft (a : Addr) (w : Word) :
    toLanes a w = w.setWidth 64 <<< (32 * (a.getLsbD 2).toNat) := by
  unfold toLanes
  cases a.getLsbD 2
  case false => simp
  case true => simp

theorem fromLanes_eq_extractLsb' (a : Addr) (data : DWord) :
    fromLanes a data = (data >>> (32 * (a.getLsbD 2).toNat)).extractLsb' 0 32 := by
  rw [← BitVec.setWidth_eq_extractLsb' (by decide)]
  unfold fromLanes
  cases a.getLsbD 2
  case false => simp
  case true => simp

/-- Settles O6: a request's mask and data are `laneMask` and `toLanes` of its address, each of which is
its shift, and `fromLanes` undoes `toLanes`. -/
theorem lanesCarryTheWord : Obligations.LanesCarryTheWord := by
  intro a w data
  exact ⟨toLanes_eq_shiftLeft a w, laneMask_eq_shiftLeft a, laneMask_eq_shiftLeft a,
    fromLanes_eq_extractLsb' a data, fromLanes_toLanes a w⟩

end Sys2Proof
end

section
/-! The writes that change sources of a domain: one rule for a write that names a source by its number, one
for a bitmap word, and the arms of `exec` for the pending and enable registers. -/

namespace Sys2Proof.Machine

/-! ### Ownership and the requests it turns away (R245) -/

/-- The reserved number 0 is no domain's source (R30). -/
theorem State.owned_zero (s : State) (d : Dom) : s.owned d 0 = false := rfl

/-- A number above `N_SRC` is no domain's source (R30). -/
theorem State.owned_of_nSrc_lt (s : State) (d : Dom) {n : Nat} (h : s.cfg.nSrc.toNat < n) :
    s.owned d n = false := by
  simp [State.owned, Nat.not_le.mpr h]

theorem State.modifyOwned_of_not_owned (s : State) (d : Dom) {n : Nat} (f : Source → Source)
    (h : s.owned d n = false) : s.modifyOwned d n f = s := by
  simp [State.modifyOwned, h]

/-! ### The two shapes of a write to the sources of a domain -/

/-- A write acknowledged at a state that differs in the source table of `d` keeps the frame. -/
theorem State.sameButSources_acknowledge (d : Dom) (s : State) (tb : Tbl Source) :
    State.sameButSources d s (s.setDom d { s.dom d with sources := tb }).acknowledge := by
  cases d
  case M => rfl
  case S => rfl

/-- A write by number changes the source it names, where the domain owns it, and nothing else. -/
theorem State.changesSources_modifyOwned (d : Dom) (m : Nat) (g : Source → Source) (s : State) :
    State.changesSources d (fun n => decide (n = m)) (fun _ => g) s
      (s.modifyOwned d m g).acknowledge := by
  refine ⟨rfl, ?_, fun n => ?_⟩
  · obtain ⟨tb, htb⟩ := s.modifyOwned_frame d m g
    rw [htb]
    exact State.sameButSources_acknowledge d s tb
  · rw [State.acknowledge_source, State.source_modifyOwned]
    by_cases hn : n = m
    · subst hn; simp
    · simp [hn]

/-- A write of a bitmap word changes the owned sources whose bits are set, each once, and nothing else.
The change may depend on the source's number and on the sampled lines, which the write leaves alone. -/
theorem State.changesSources_forBits (d : Dom) (k : Bank) (w : Word) (g : Nat → Source → Source)
    (s : State) (step : Nat → State → State)
    (hstep : ∀ n t, t.rawInput = s.rawInput → step n t = t.modifyOwned d n (g n)) :
    State.changesSources d (fun n => decide (n / 32 = k.toNat) && w.getLsbD (n % 32)) g s
      (forBits k w step s).acknowledge := by
  obtain ⟨⟨tb, htb⟩, hsource⟩ := forBits_spec d k w g s step hstep
  refine ⟨rfl, ?_, fun n => ?_⟩
  · rw [htb]
    exact State.sameButSources_acknowledge d s tb
  · rw [State.acknowledge_source, hsource n]
    simp only [Bool.and_eq_true, decide_eq_true_eq]

/-! ### The arms of the pending and enable registers -/

theorem exec_putSetip (d : Dom) (k : Bank) (w : Word) (s : State) :
    exec (.putSetip d k w) s = .next (forBits k w (fun n t => t.setPendingReq d n) s).acknowledge := rfl

theorem exec_putSetipnum (d : Dom) (w : Word) (s : State) :
    exec (.putSetipnum d w) s = .next (s.setPendingReq d w.toNat).acknowledge := rfl

theorem exec_putSetie (d : Dom) (k : Bank) (w : Word) (s : State) :
    exec (.putSetie d k w) s = .next (forBits k w (fun n t => t.setEnable d n) s).acknowledge := rfl

theorem exec_putClrie (d : Dom) (k : Bank) (w : Word) (s : State) :
    exec (.putClrie d k w) s = .next (forBits k w (fun n t => t.clearEnable d n) s).acknowledge := rfl

theorem exec_putSetienum (d : Dom) (w : Word) (s : State) :
    exec (.putSetienum d w) s = .next (s.setEnable d w.toNat).acknowledge := rfl

theorem exec_putClrienum (d : Dom) (w : Word) (s : State) :
    exec (.putClrienum d w) s = .next (s.clearEnable d w.toNat).acknowledge := rfl

/-! ### The statements -/

/-- Settles O30: a bitmap write of `RequestSetPending`, which sets `pending` in the Detached and the edge
modes. -/
theorem putSetipRequestsPending : Obligations.PutSetipRequestsPending := by
  intro s d k w
  refine ⟨_, exec_putSetip d k w s, ?_⟩
  simp only [← Source.requestSet_eq]
  exact State.changesSources_forBits d k w (fun _ => Source.requestSet) s _ (fun _ _ _ => rfl)

/-- Settles O31: a write by number of `RequestSetPending`; in each of the three cases of the last clause
the domain does not own the number, so the request is turned away. -/
theorem putSetipnumRequestsPending : Obligations.PutSetipnumRequestsPending := by
  intro s d w
  refine ⟨_, exec_putSetipnum d w s, ?_, fun hw => ?_⟩
  · simp only [← Source.requestSet_eq]
    exact State.changesSources_modifyOwned d w.toNat Source.requestSet s
  · have hown : s.owned d w.toNat = false := by
      rcases hw with rfl | hgt | hno
      · exact s.owned_zero d
      · exact s.owned_of_nSrc_lt d hgt
      · exact hno
    rw [State.setPendingReq, s.modifyOwned_of_not_owned d _ hown]
    rfl

/-- Settles O34: bitmap writes of `SetEnable` and of `ClearEnable`. -/
theorem enableBitmapWrites : Obligations.EnableBitmapWrites := by
  intro s d k w
  refine ⟨⟨_, exec_putSetie d k w s, ?_⟩, ⟨_, exec_putClrie d k w s, ?_⟩⟩
  · exact State.changesSources_forBits d k w (fun _ => Source.enable) s _ (fun _ _ _ => rfl)
  · exact State.changesSources_forBits d k w (fun _ => Source.disable) s _ (fun _ _ _ => rfl)

/-- Settles O35: writes by number of `SetEnable` and of `ClearEnable`; no domain owns the number 0. -/
theorem enableNumberWrites : Obligations.EnableNumberWrites := by
  intro s d w
  refine ⟨⟨_, exec_putSetienum d w s, ?_⟩, ⟨_, exec_putClrienum d w s, ?_⟩, ?_⟩
  · exact State.changesSources_modifyOwned d w.toNat Source.enable s
  · exact State.changesSources_modifyOwned d w.toNat Source.disable s
  · rintro rfl
    have hzero (f : Source → Source) : s.modifyOwned d (0#32 : Word).toNat f = s :=
      s.modifyOwned_of_not_owned d f (s.owned_zero d)
    rw [exec_putSetienum, exec_putClrienum, State.setEnable, State.clearEnable, hzero, hzero]
    exact ⟨rfl, rfl⟩

end Sys2Proof.Machine
end

section
/-! The reads of a domain window: the arms of `exec`, and each register's layout as a case split on its
one-bit fields and on the domain. -/

namespace Sys2Proof.Machine

/-! ### The arms of the reads -/

theorem exec_getRozero (d : Dom) (off : BitVec 14) (s : State) :
    exec (.getRozero d off) s = .next (s.answerData 0#32) := rfl

theorem exec_putRozero (d : Dom) (off : BitVec 14) (w : Word) (s : State) :
    exec (.putRozero d off w) s = .next s.acknowledge := rfl

theorem exec_getSetipnumLe (d : Dom) (s : State) :
    exec (.getSetipnumLe d) s = .next (s.answerData 0#32) := rfl

theorem exec_getSetipnumBe (d : Dom) (s : State) :
    exec (.getSetipnumBe d) s = .next (s.answerData 0#32) := rfl

theorem exec_getDomaincfg (d : Dom) (s : State) :
    exec (.getDomaincfg d) s = .next (s.answerData (s.domaincfgRead d)) := rfl

theorem exec_getMmsiaddrcfg (d : Dom) (s : State) :
    exec (.getMmsiaddrcfg d) s = .next (s.answerData (onlyInM d s.mmsiaddrcfg)) := rfl

theorem exec_getMmsiaddrcfgh (d : Dom) (s : State) :
    exec (.getMmsiaddrcfgh d) s = .next (s.answerData (onlyInM d s.mmsiaddrcfgh)) := rfl

theorem exec_getSmsiaddrcfg (d : Dom) (s : State) :
    exec (.getSmsiaddrcfg d) s = .next (s.answerData (onlyInM d s.smsiaddrcfg)) := rfl

theorem exec_getSmsiaddrcfgh (d : Dom) (s : State) :
    exec (.getSmsiaddrcfgh d) s = .next (s.answerData (onlyInM d s.smsiaddrcfgh)) := rfl

theorem exec_getTargets (d : Dom) (n : BitVec 10) (s : State) :
    exec (.getTargets d n) s = .next (s.answerData (s.targetRead d n.toNat)) := rfl

/-! ### The layouts -/

/-- A one-bit field in the word it is read in. -/
theorem ofBool_setWidth (b : Bool) : (BitVec.ofBool b).setWidth 32 = if b then 1#32 else 0#32 := by
  cases b
  case false => rfl
  case true => rfl

/-- `domaincfg` as it reads, each field by its place in the word (R130). -/
theorem State.domaincfgRead_eq (s : State) (d : Dom) : s.domaincfgRead d =
    s.cfg.tag ||| (if (s.dom d).ie then 0x100#32 else 0#32) |||
      (if (s.dom d).dm then 4#32 else 0#32) ||| (if (s.dom d).be then 1#32 else 0#32) := by
  rw [State.domaincfgRead, ofBool_setWidth, ofBool_setWidth, ofBool_setWidth,
    apply_ite (fun x : Word => x <<< 8), apply_ite (fun x : Word => x <<< 2)]
  rfl

theorem onlyInM_M (w : Word) : onlyInM .M w = w := rfl

theorem onlyInM_S (w : Word) : onlyInM .S w = 0#32 := rfl

/-- The read mask of a target: the guest index is read in MSI mode in domain S alone (R133, R134). -/
theorem targetReadMask_eq (d : Dom) (msiMode : Bool) : targetReadMask d msiMode =
    if msiMode then (if d = .S then 0xFFFFF7FF#32 else 0xFFFC07FF#32) else 0xFFFC00FF#32 := by
  cases msiMode
  case false => rfl
  case true =>
    cases d
    case M => rfl
    case S => rfl

/-! ### The statements -/

/-- Settles O21: each of the four requests is answered at the state as it stands. -/
theorem readOnlyZeroBlock : Obligations.ReadOnlyZeroBlock := by
  intro s d off w
  exact ⟨exec_getRozero d off s, exec_putRozero d off w s, exec_getSetipnumLe d s,
    exec_getSetipnumBe d s⟩

/-- Settles O23: the answer is `domaincfgRead`, with its fields in their places. -/
theorem getDomaincfg : Obligations.GetDomaincfg := by
  intro s d
  rw [exec_getDomaincfg, State.domaincfgRead_eq]
  rfl

/-- Settles O24: each word is read through `onlyInM`, which keeps it in M and hides it in S. -/
theorem getMsiAddressWords : Obligations.GetMsiAddressWords := by
  intro s
  simp only [exec_getMmsiaddrcfg, exec_getMmsiaddrcfgh, exec_getSmsiaddrcfg, exec_getSmsiaddrcfgh,
    onlyInM_M, onlyInM_S, State.answerData, and_self]

/-- Settles O27: the answer is `targetRead`, with the mask of the delivery mode and domain. -/
theorem getTargets : Obligations.GetTargets := by
  intro s d n
  rw [exec_getTargets, State.targetRead, targetReadMask_eq]
  rfl

end Sys2Proof.Machine
end

section
/-! The indirect access to a register of a file: one rule for all registers and operations, the masked
value of each operation, and the arms of `exec` for `eidelivery` and `eithreshold`. -/

namespace Sys2Proof.Machine

/-! ### What is stored (R324, R325) -/

/-- Setting bits: a register holds only bits of its mask, so the mask cuts down the new bits alone. -/
theorem IFile.set_masked (x : IFile) (r : IReg) (v : DWord) :
    CsrOp.set.combine (x.read r) v &&& r.mask = x.read r ||| (v &&& r.mask) := by
  calc (x.read r ||| v) &&& r.mask
      = (x.read r &&& r.mask) ||| (v &&& r.mask) := BitVec.and_or_distrib_right
    _ = x.read r ||| (v &&& r.mask) := by rw [x.read_masked r]

/-- Clearing bits: what is left of a register lies under its mask. -/
theorem IFile.clear_masked (x : IFile) (r : IReg) (v : DWord) :
    CsrOp.clear.combine (x.read r) v &&& r.mask = x.read r &&& ~~~v := by
  calc (x.read r &&& ~~~v) &&& r.mask
      = (x.read r &&& r.mask) &&& ~~~v := by
        rw [BitVec.and_assoc, BitVec.and_comm (~~~v), ← BitVec.and_assoc]
    _ = x.read r &&& ~~~v := by rw [x.read_masked r]

/-! ### The access as a whole -/

/-- A file stored and a legal access answered: only the harts' side of the block differs. -/
theorem State.sameButHarts_legalAccess_setFile (s : State) (h : Nat) (f : FileId) (x : IFile) (v : DWord) :
    State.sameButHarts s ((s.setFile h f x).legalAccess h v) := rfl

/-- In a context that names a file, an access to a defined register stores the combined value under the
mask, answers the old value, clears the flag, and changes nothing else. -/
theorem csrAccess_done {h : Nat} {c : Ctx} {f : FileId} {s : State} (hf : s.cfg.fileOf c = some f)
    (r : IReg) (op : CsrOp) (v : DWord) :
    ∃ t, csrAccess h c r op v s = .next t ∧
      State.csrDone h f r (op.combine ((s.file h f).read r) v &&& r.mask) s t := by
  have hfile (h' : Nat) (f' : FileId) :
      ((s.setFile h f ((s.file h f).access r op v)).legalAccess h ((s.file h f).read r)).file h' f' =
        if h' = h ∧ f' = f then (s.file h f).access r op v else s.file h' f' := by
    rw [State.file_legalAccess, State.file_setFile]
  refine ⟨_, by rw [csrAccess, hf], ?stored, fun r' hr => ?kept, ?answered, ?flag,
    ?claim, fun h' hh => ?ports, ⟨fun h' f' => ?pages, fun h' f' hne => ?files⟩,
    s.sameButHarts_legalAccess_setFile h f _ _⟩
  case stored => simp [hfile, IFile.read_access]
  case kept => simp [hfile, IFile.read_access, hr]
  case answered => simp [State.hart_legalAccess]
  case flag => simp [State.hart_legalAccess]
  case claim => simp [State.hart_legalAccess, State.hart_setFile]
  case ports =>
    rw [State.hart_legalAccess, if_neg hh]
    exact s.hart_setFile h h' f _
  case pages =>
    rw [State.unit_legalAccess, State.port_setFile]
  case files =>
    rw [hfile, if_neg (fun heq => hne (Prod.ext heq.1 heq.2))]

theorem csrAccess_write {h : Nat} {c : Ctx} {f : FileId} {s : State} (hf : s.cfg.fileOf c = some f)
    (r : IReg) (v : DWord) :
    ∃ t, csrAccess h c r .write v s = .next t ∧ State.csrDone h f r (v &&& r.mask) s t :=
  csrAccess_done hf r .write v

theorem csrAccess_set {h : Nat} {c : Ctx} {f : FileId} {s : State} (hf : s.cfg.fileOf c = some f)
    (r : IReg) (v : DWord) :
    ∃ t, csrAccess h c r .set v s = .next t ∧
      State.csrDone h f r ((s.file h f).read r ||| (v &&& r.mask)) s t := by
  rw [← IFile.set_masked]
  exact csrAccess_done hf r .set v

theorem csrAccess_clear {h : Nat} {c : Ctx} {f : FileId} {s : State} (hf : s.cfg.fileOf c = some f)
    (r : IReg) (v : DWord) :
    ∃ t, csrAccess h c r .clear v s = .next t ∧
      State.csrDone h f r ((s.file h f).read r &&& ~~~v) s t := by
  rw [← IFile.clear_masked]
  exact csrAccess_done hf r .clear v

/-! ### Delivery disabled (R341, R344) -/

/-- Delivery is read in bit 0 (R143). -/
theorem IFile.read_eidelivery_getLsbD_zero (x : IFile) :
    (x.read .eidelivery).getLsbD 0 = x.eidelivery := by
  simp [IFile.read]

theorem IFile.top_of_not_eidelivery {x : IFile} (hx : x.eidelivery = false) : x.top = 0 := by
  simp [IFile.top, hx]

theorem IFile.irq_of_top_zero {x : IFile} (hx : x.top = 0) : x.irq = false := by
  simp [IFile.irq, hx]

/-! ### The arms of eidelivery and eithreshold -/

theorem exec_csrwEidelivery (h : Nat) (c : Ctx) (v : DWord) (s : State) :
    exec (.csrwEidelivery h c v) s = csrAccess h c .eidelivery .write v s := rfl

theorem exec_csrsEidelivery (h : Nat) (c : Ctx) (v : DWord) (s : State) :
    exec (.csrsEidelivery h c v) s = csrAccess h c .eidelivery .set v s := rfl

theorem exec_csrcEidelivery (h : Nat) (c : Ctx) (v : DWord) (s : State) :
    exec (.csrcEidelivery h c v) s = csrAccess h c .eidelivery .clear v s := rfl

theorem exec_csrwEithreshold (h : Nat) (c : Ctx) (v : DWord) (s : State) :
    exec (.csrwEithreshold h c v) s = csrAccess h c .eithreshold .write v s := rfl

theorem exec_csrsEithreshold (h : Nat) (c : Ctx) (v : DWord) (s : State) :
    exec (.csrsEithreshold h c v) s = csrAccess h c .eithreshold .set v s := rfl

theorem exec_csrcEithreshold (h : Nat) (c : Ctx) (v : DWord) (s : State) :
    exec (.csrcEithreshold h c v) s = csrAccess h c .eithreshold .clear v s := rfl

/-! ### The statement -/

/-- Settles O51: each arm is the access to its register; a write of 0 to bit 0 is read back as delivery
disabled, and the file then has no top identity. -/
theorem eideliveryAndEithresholdAccesses : Obligations.EideliveryAndEithresholdAccesses := by
  intro s h c v f hf ed et
  rw [exec_csrwEidelivery, exec_csrsEidelivery, exec_csrcEidelivery,
    exec_csrwEithreshold, exec_csrsEithreshold, exec_csrcEithreshold]
  refine ⟨?_, csrAccess_set hf .eidelivery v, csrAccess_clear hf .eidelivery v,
    csrAccess_write hf .eithreshold v, csrAccess_set hf .eithreshold v,
    csrAccess_clear hf .eithreshold v⟩
  obtain ⟨t, ht, hdone⟩ := csrAccess_write (h := h) hf .eidelivery v
  refine ⟨t, ht, hdone, fun hv => ?_⟩
  have hread : (t.file h f).read .eidelivery = v &&& 1#64 := hdone.1
  have hoff : (t.file h f).eidelivery = false := by
    rw [← IFile.read_eidelivery_getLsbD_zero, hread, BitVec.getLsbD_and, hv, Bool.false_and]
  have htop : (t.file h f).top = 0 := IFile.top_of_not_eidelivery hoff
  exact ⟨htop, IFile.irq_of_top_zero htop⟩

end Sys2Proof.Machine
end

section
/-! The decoder against the encoder (R120 to R145): where a request of a port decodes, what each offset of a
window decodes to, and that the two maps are inverse to each other. -/

namespace Sys2Proof

-- one proof at a time: the memory the check may take bounds the number of threads
set_option Elab.async false

/-! ### The map of a window (R127) -/

/-- The row that writes the register a row reads. -/
def Instr.putRow (w : Word) : Instr → Instr
  | .getDomaincfg d => .putDomaincfg d w
  | .getMmsiaddrcfg d => .putMmsiaddrcfg d w
  | .getMmsiaddrcfgh d => .putMmsiaddrcfgh d w
  | .getSmsiaddrcfg d => .putSmsiaddrcfg d w
  | .getSmsiaddrcfgh d => .putSmsiaddrcfgh d w
  | .getSetipnum d => .putSetipnum d w
  | .getClripnum d => .putClripnum d w
  | .getSetienum d => .putSetienum d w
  | .getClrienum d => .putClrienum d w
  | .getSetipnumLe d => .putSetipnumLe d w
  | .getSetipnumBe d => .putSetipnumBe d w
  | .getGenmsi d => .putGenmsi d w
  | .getSourcecfg d s => .putSourcecfg d s w
  | .getSetip d k => .putSetip d k w
  | .getInClrip d k => .putInClrip d k w
  | .getSetie d k => .putSetie d k w
  | .getClrie d k => .putClrie d k w
  | .getTargets d s => .putTargets d s w
  | .getRozero d off => .putRozero d off w
  | .getReserved d off => .putReserved d off w
  | i => i

/-- Reads and writes of a window have one map. -/
theorem decodeDomPut_eq (d : Dom) (off : BitVec 14) (w : Word) :
    decodeDomPut d off w = (decodeDomGet d off).putRow w := by
  simp only [decodeDomPut, decodeDomGet, apply_ite (Instr.putRow w)]
  rfl

/-! ### A whole register at a port -/

theorem aligned_iff (a : Addr) : a.setWidth 2 = 0#2 ↔ a.toNat % 4 = 0 := by
  rw [← BitVec.toNat_inj, BitVec.toNat_setWidth, BitVec.toNat_ofNat]

theorem legalShape_get {a : Addr} (h : a.toNat % 4 = 0) : (BusA.get a).legalShape = true := by
  simp [BusA.legalShape, BusA.get, (aligned_iff a).2 h]

theorem legalShape_put {a : Addr} (w : Word) (h : a.toNat % 4 = 0) : (BusA.put a w).legalShape = true := by
  simp [BusA.legalShape, BusA.put, (aligned_iff a).2 h]

/-- The row of a request to a port, at an offset of its region (R200). -/
def Port.row (p : Port) (isGet : Bool) (off : Addr) (w : Word) : Instr :=
  match p with
  | .window d =>
    if isGet then decodeDomGet d (off.setWidth 14) else (decodeDomGet d (off.setWidth 14)).putRow w
  | .page h f => decodePage isGet h f (off.setWidth 12) w

/-- All the decoder can answer to a request at a slave port (R88, R146, R182, R200). -/
theorem decodeSlave_eq (c : Config) (r : BusA) : decodeSlave c r =
    if r.opcode ≠ opGet ∧ r.opcode ≠ opPut then .error .opcode
    else if ¬ r.legalShape then .error .shape
    else match c.regionOf r.address with
      | none => .error .outsideRegions
      | some q => .ok (q.1.row (r.opcode == opGet) (r.address - q.2) (fromLanes r.address r.data)) := by
  unfold decodeSlave
  rcases c.regionOf r.address with _ | ⟨d | ⟨h, f⟩, b⟩
  · rfl
  · by_cases ho : r.opcode = opGet <;> simp [Port.row, ho, decodeDomPut_eq]
  · rfl

/-- Every region is a whole number of pages. -/
theorem Port.size_mod (p : Port) : p.size % 0x1000 = 0 := by
  cases p
  case window d => simp [Port.size, domainWindow]
  case page h f => simp [Port.size, filePage]

/-- The address of an offset inside a region of a legal configuration: it does not wrap, it keeps the
alignment of the offset, it falls in that region, and the offset is what is left of it there. -/
theorem offset_address {c : Config} (hv : c.valid = true) {p : Port} {b : Addr} (hr : (p, b) ∈ c.regions)
    {off : Nat} (hoff : off < p.size) :
    (b + BitVec.ofNat 64 off).toNat % 4 = off % 4 ∧
      c.regionOf (b + BitVec.ofNat 64 off) = some (p, b) ∧
      b + BitVec.ofNat 64 off - b = BitVec.ofNat 64 off := by
  obtain ⟨hmod, hend⟩ : b.toNat % p.size = 0 ∧ b.toNat + p.size ≤ 2 ^ 64 := region_aligned hv hr
  have hnat : (b + BitVec.ofNat 64 off).toNat = b.toNat + off := by
    rw [BitVec.toNat_add, BitVec.toNat_ofNat]; omega
  have hbase : b.toNat % 4 = 0 := by
    have hsize : 4 ∣ p.size := by have := p.size_mod; omega
    exact Nat.mod_eq_zero_of_dvd (hsize.trans (Nat.dvd_of_mod_eq_zero hmod))
  refine ⟨by omega, regionOf_eq hv hr ?_, by rw [BitVec.add_comm, BitVec.add_sub_cancel]⟩
  simp only [inRegion, hnat, Bool.and_eq_true, decide_eq_true_eq]
  omega

/-- A whole aligned register of a port that exists is read by the row of its offset. -/
theorem decode_encodeGet {c : Config} (hv : c.valid = true) {p : Port} (hp : c.hasPort p = true) {off : Nat}
    (hoff : off < p.size) (h4 : off % 4 = 0) :
    decode c (encodeGet c p off) =
      .ok (p.row true (BitVec.ofNat 64 off) (fromLanes (c.portBase p + BitVec.ofNat 64 off) 0#64)) := by
  obtain ⟨ha, hreg, hsub⟩ := offset_address hv (port_mem_regions hp) hoff
  rw [encodeGet, decode, decodeSlave_eq, if_neg (by simp [BusA.get]),
    if_neg (by simp [legalShape_get (ha.trans h4)])]
  simp only [BusA.get, hreg, hsub]
  rfl

/-- A whole aligned register of a port that exists is written by the row of its offset. -/
theorem decode_encodePut {c : Config} (hv : c.valid = true) {p : Port} (hp : c.hasPort p = true) (w : Word)
    {off : Nat} (hoff : off < p.size) (h4 : off % 4 = 0) :
    decode c (encodePut c p off w) = .ok (p.row false (BitVec.ofNat 64 off) w) := by
  obtain ⟨ha, hreg, hsub⟩ := offset_address hv (port_mem_regions hp) hoff
  rw [encodePut, decode, decodeSlave_eq, if_neg (by simp [BusA.put]),
    if_neg (by simp [legalShape_put w (ha.trans h4)])]
  simp only [BusA.put, hreg, hsub, fromLanes_toLanes]
  rfl

/-- A register of a window is read by the row the map gives its offset, and written by the row that writes
what is read there. -/
theorem decode_encode_window {c : Config} (hv : c.valid = true) (d : Dom) {i : Instr} {off : Nat}
    (hoff : off < 0x4000) (h4 : off % 4 = 0) (hi : decodeDomGet d (BitVec.ofNat 14 off) = i) :
    decode c (encodeGet c (.window d) off) = .ok i ∧
      ∀ w, decode c (encodePut c (.window d) off w) = .ok (i.putRow w) := by
  have hw : (BitVec.ofNat 64 off).setWidth 14 = BitVec.ofNat 14 off := by
    apply BitVec.eq_of_toNat_eq; simp
  refine ⟨?_, fun w => ?_⟩
  · rw [decode_encodeGet hv (hasPort_window c d) hoff h4, Port.row, if_pos rfl, hw, hi]
  · rw [decode_encodePut hv (hasPort_window c d) w hoff h4, Port.row, if_neg (by decide), hw, hi]

/-- A register of a page that exists is read and written as its offset. -/
theorem decode_encode_page {c : Config} (hv : c.valid = true) {h : Nat} {f : FileId}
    (hp : c.hasPort (.page h f) = true) (w : Word) {poff : BitVec 12} (h4 : poff.toNat % 4 = 0) :
    decode c (encodeGet c (.page h f) poff.toNat) = .ok (.getPage h f poff) ∧
      decode c (encodePut c (.page h f) poff.toNat w) = .ok (decodePage false h f poff w) := by
  have hw : (BitVec.ofNat 64 poff.toNat).setWidth 12 = poff := by
    apply BitVec.eq_of_toNat_eq; simp
  rw [decode_encodeGet hv hp poff.isLt h4, decode_encodePut hv hp w poff.isLt h4, Port.row, Port.row, hw]
  exact ⟨rfl, rfl⟩

/-! ### The offsets of the map (R127) -/

section
variable {d : Dom} {off : BitVec 14}

theorem decodeDomGet_sourcecfg {s : BitVec 10} (hs : s ≠ 0#10) (h : off.toNat = 4 * s.toNat) :
    decodeDomGet d off = .getSourcecfg d s := by
  have hpos : s.toNat ≠ 0 := fun h0 => hs (BitVec.eq_of_toNat_eq h0)
  have hidx : BitVec.ofNat 10 (off.toNat / 4) = s := by
    apply BitVec.eq_of_toNat_eq; rw [BitVec.toNat_ofNat]; omega
  simp (disch := omega) only [decodeDomGet, if_neg, if_pos, hidx]

theorem decodeDomGet_targets {s : BitVec 10} (hs : s ≠ 0#10) (h : off.toNat = 0x3000 + 4 * s.toNat) :
    decodeDomGet d off = .getTargets d s := by
  have hpos : s.toNat ≠ 0 := fun h0 => hs (BitVec.eq_of_toNat_eq h0)
  have hidx : BitVec.ofNat 10 ((off.toNat - 0x3000) / 4) = s := by
    apply BitVec.eq_of_toNat_eq; rw [BitVec.toNat_ofNat]; omega
  simp (disch := omega) only [decodeDomGet, if_neg, if_pos, hidx]

/-- The index of a bitmap word, from its offset. -/
theorem bank_of_offset {o : Nat} {k : Bank} (base : Nat) (h : o = base + 4 * k.toNat) :
    BitVec.ofNat 5 ((o - base) / 4) = k := by
  apply BitVec.eq_of_toNat_eq; rw [BitVec.toNat_ofNat]; omega

theorem decodeDomGet_setip {k : Bank} (h : off.toNat = 0x1C00 + 4 * k.toNat) :
    decodeDomGet d off = .getSetip d k := by
  simp (disch := omega) only [decodeDomGet, if_neg, if_pos, bank_of_offset 0x1C00 h]

theorem decodeDomGet_inClrip {k : Bank} (h : off.toNat = 0x1D00 + 4 * k.toNat) :
    decodeDomGet d off = .getInClrip d k := by
  simp (disch := omega) only [decodeDomGet, if_neg, if_pos, bank_of_offset 0x1D00 h]

theorem decodeDomGet_setie {k : Bank} (h : off.toNat = 0x1E00 + 4 * k.toNat) :
    decodeDomGet d off = .getSetie d k := by
  simp (disch := omega) only [decodeDomGet, if_neg, if_pos, bank_of_offset 0x1E00 h]

theorem decodeDomGet_clrie {k : Bank} (h : off.toNat = 0x1F00 + 4 * k.toNat) :
    decodeDomGet d off = .getClrie d k := by
  simp (disch := omega) only [decodeDomGet, if_neg, if_pos, bank_of_offset 0x1F00 h]

theorem isRozero_iff (o : Nat) : isRozero o = true ↔ o % 4 = 0 ∧ 0x1000 ≤ o ∧ o ≤ 0x1BBC := by
  simp [isRozero, aligned4, and_assoc]

theorem isReserved_iff (o : Nat) : isReserved o = true ↔ o % 4 = 0 ∧
    ((0x1BD0 ≤ o ∧ o ≤ 0x1BFC) ∨ (0x1C80 ≤ o ∧ o ≤ 0x1CD8) ∨ (0x1CE0 ≤ o ∧ o ≤ 0x1CFC) ∨
      (0x1D80 ≤ o ∧ o ≤ 0x1DD8) ∨ (0x1DE0 ≤ o ∧ o ≤ 0x1DFC) ∨ (0x1E80 ≤ o ∧ o ≤ 0x1ED8) ∨
      (0x1EE0 ≤ o ∧ o ≤ 0x1EFC) ∨ (0x1F80 ≤ o ∧ o ≤ 0x1FD8) ∨ (0x1FE0 ≤ o ∧ o ≤ 0x1FFC) ∨
      (0x2008 ≤ o ∧ o ≤ 0x2FFC)) := by
  simp [isReserved, aligned4]

theorem decodeDomGet_rozero (h : isRozero off.toNat = true) : decodeDomGet d off = .getRozero d off := by
  rw [isRozero_iff] at h
  simp (disch := omega) only [decodeDomGet, if_neg, if_pos]

theorem decodeDomGet_reserved (h : isReserved off.toNat = true) :
    decodeDomGet d off = .getReserved d off := by
  rw [isReserved_iff] at h
  simp (disch := omega) only [decodeDomGet, if_neg]

end

/-! ### Selectors and operation codes (R140, R141) -/

theorem csrOpOf_code (op : CsrOp) : csrOpOf op.code = some op := by cases op <;> rfl

theorem iregOf_selector (r : IReg) : iregOf r.selector = some r := by
  have hk (k : Bank) (base : Nat) (hb : base ≤ 0xC0) :
      (BitVec.ofNat 12 (base + 2 * k.toNat)).toNat = base + 2 * k.toNat := by
    rw [BitVec.toNat_ofNat]; omega
  have hidx (k : Bank) (base : Nat) : BitVec.ofNat 5 ((base + 2 * k.toNat - base) / 2) = k := by
    apply BitVec.eq_of_toNat_eq; rw [BitVec.toNat_ofNat]; omega
  cases r with
  | eidelivery => rfl
  | eithreshold => rfl
  | eip k =>
    simp (disch := omega) only [iregOf, IReg.selector, hk k 0x80 (by decide), if_neg, if_pos, hidx]
  | eie k =>
    simp (disch := omega) only [iregOf, IReg.selector, hk k 0xC0 (by decide), if_neg, if_pos, hidx]

/-- An access with a defined selector and operation, in a context that names a file, is its row. -/
theorem decode_encodeCsr {c : Config} {h : Nat} {x : Ctx} (hw : csrWellFormed c h x = true) (r : IReg)
    (op : CsrOp) (v : DWord) :
    decode c (encodeCsr h r.selector x op.code v) = .ok (csrInstr h x op r v) := by
  rw [csrWellFormed, Bool.and_eq_true, decide_eq_true_eq] at hw
  have hsome : (c.fileOf x).isNone = false := by
    rw [← Option.not_isSome, hw.2]; rfl
  simp only [encodeCsr, decode, decodeCsr, if_neg (Nat.not_le.2 hw.1), csrOpOf_code, hsome,
    iregOf_selector]
  rfl

/-! ### Calls -/

/-- All the decoder can answer to a call of a master (R81, R88, R146). -/
theorem decodeCall_eq (c : Config) (r : BusA) : decodeCall c r =
    if r.opcode ≠ opGet ∧ r.opcode ≠ opPut then .error .opcode
    else if ¬ r.legalShape then .error .shape
    else match c.regionOf r.address with
      | none => .error .outsideRegions
      | some _ => .ok (if r.opcode = opGet then .get32 r.address
          else .put32 r.address (fromLanes r.address r.data)) := by
  unfold decodeCall Config.portOf
  cases c.regionOf r.address with
  | none => rfl
  | some q => by_cases ho : r.opcode = opGet <;> simp [ho]

theorem decode_call {c : Config} {a : Addr} (h4 : a.toNat % 4 = 0) (hp : (c.portOf a).isSome = true)
    (w : Word) :
    decode c (.agent (.call (.get a))) = .ok (.get32 a) ∧
      decode c (.agent (.call (.put a w))) = .ok (.put32 a w) := by
  obtain ⟨q, hq⟩ : ∃ q, c.regionOf a = some q := by
    rw [Config.portOf, Option.isSome_map] at hp
    exact Option.isSome_iff_exists.1 hp
  constructor
  · rw [decode, decodeCall_eq, if_neg (by simp [BusA.get]), if_neg (by simp [legalShape_get h4])]
    simp only [BusA.get, hq]
    rfl
  · rw [decode, decodeCall_eq, if_neg (by simp [BusA.put]), if_neg (by simp [legalShape_put w h4])]
    simp only [BusA.put, hq, fromLanes_toLanes]
    rfl

/-! ### The statement -/

/-- Settles O1, row by row: a call by the map of regions; a row of a window by its offset in the map, a
write as the write of what is read there; a page by its offset; an indirect access by its selector and
code. -/
theorem encodedInstructionsDecodeBack : Obligations.EncodedInstructionsDecodeBack := by
  intro c i hv hw
  have win (d : Dom) {i : Instr} (off : Nat) (hoff : off < 0x4000 ∧ off % 4 = 0)
      (hi : decodeDomGet d (BitVec.ofNat 14 off) = i) := decode_encode_window hv d hoff.1 hoff.2 hi
  have lt14 {off : Nat} (hoff : off < 0x4000) : (BitVec.ofNat 14 off).toNat = off := by
    rw [BitVec.toNat_ofNat]; omega
  have src (d : Dom) {s : BitVec 10} (hs : (s != 0#10) = true) :=
    win d (4 * s.toNat) ⟨by omega, by omega⟩
      (decodeDomGet_sourcecfg (by simpa using hs) (lt14 (by omega)))
  have tgt (d : Dom) {s : BitVec 10} (hs : (s != 0#10) = true) :=
    win d (0x3000 + 4 * s.toNat) ⟨by omega, by omega⟩
      (decodeDomGet_targets (by simpa using hs) (lt14 (by omega)))
  have ip (d : Dom) (k : Bank) := win d (0x1C00 + 4 * k.toNat) ⟨by omega, by omega⟩
    (decodeDomGet_setip (lt14 (by omega)))
  have cl (d : Dom) (k : Bank) := win d (0x1D00 + 4 * k.toNat) ⟨by omega, by omega⟩
    (decodeDomGet_inClrip (lt14 (by omega)))
  have ie (d : Dom) (k : Bank) := win d (0x1E00 + 4 * k.toNat) ⟨by omega, by omega⟩
    (decodeDomGet_setie (lt14 (by omega)))
  have ce (d : Dom) (k : Bank) := win d (0x1F00 + 4 * k.toNat) ⟨by omega, by omega⟩
    (decodeDomGet_clrie (lt14 (by omega)))
  have zero (d : Dom) {off : BitVec 14} (h : isRozero off.toNat = true) :=
    win d off.toNat ⟨off.isLt, ((isRozero_iff _).1 h).1⟩ (i := .getRozero d off) (by
      rw [BitVec.ofNat_toNat, BitVec.setWidth_eq]; exact decodeDomGet_rozero h)
  have res (d : Dom) {off : BitVec 14} (h : isReserved off.toNat = true) :=
    win d off.toNat ⟨off.isLt, ((isReserved_iff _).1 h).1⟩ (i := .getReserved d off) (by
      rw [BitVec.ofNat_toNat, BitVec.setWidth_eq]; exact decodeDomGet_reserved h)
  have csr {h : Nat} {x : Ctx} (hx : csrWellFormed c h x = true) (r : IReg) (op : CsrOp) (v : DWord) :=
    decode_encodeCsr hx r op v
  cases i with
  | get32 a =>
    rw [Instr.wellFormed, Bool.and_eq_true] at hw
    exact (decode_call (by simpa [aligned4] using hw.1) hw.2 0#32).1
  | put32 a w =>
    rw [Instr.wellFormed, Bool.and_eq_true] at hw
    exact (decode_call (by simpa [aligned4] using hw.1) hw.2 w).2
  | accessAck x => simp [encode, decode, decodeResponse, show c.hasTx x = true from hw]
  | accessAckData x data =>
    simp [encode, decode, decodeResponse, show c.hasTx x = true from hw, opAck, opAckData]
  | getDomaincfg d => exact (win d 0 (by decide) rfl).1
  | putDomaincfg d w => exact (win d 0 (by decide) rfl).2 w
  | getMmsiaddrcfg d => exact (win d 0x1BC0 (by decide) rfl).1
  | putMmsiaddrcfg d w => exact (win d 0x1BC0 (by decide) rfl).2 w
  | getMmsiaddrcfgh d => exact (win d 0x1BC4 (by decide) rfl).1
  | putMmsiaddrcfgh d w => exact (win d 0x1BC4 (by decide) rfl).2 w
  | getSmsiaddrcfg d => exact (win d 0x1BC8 (by decide) rfl).1
  | putSmsiaddrcfg d w => exact (win d 0x1BC8 (by decide) rfl).2 w
  | getSmsiaddrcfgh d => exact (win d 0x1BCC (by decide) rfl).1
  | putSmsiaddrcfgh d w => exact (win d 0x1BCC (by decide) rfl).2 w
  | getSetipnum d => exact (win d 0x1CDC (by decide) rfl).1
  | putSetipnum d w => exact (win d 0x1CDC (by decide) rfl).2 w
  | getClripnum d => exact (win d 0x1DDC (by decide) rfl).1
  | putClripnum d w => exact (win d 0x1DDC (by decide) rfl).2 w
  | getSetienum d => exact (win d 0x1EDC (by decide) rfl).1
  | putSetienum d w => exact (win d 0x1EDC (by decide) rfl).2 w
  | getClrienum d => exact (win d 0x1FDC (by decide) rfl).1
  | putClrienum d w => exact (win d 0x1FDC (by decide) rfl).2 w
  | getSetipnumLe d => exact (win d 0x2000 (by decide) rfl).1
  | putSetipnumLe d w => exact (win d 0x2000 (by decide) rfl).2 w
  | getSetipnumBe d => exact (win d 0x2004 (by decide) rfl).1
  | putSetipnumBe d w => exact (win d 0x2004 (by decide) rfl).2 w
  | getGenmsi d => exact (win d 0x3000 (by decide) rfl).1
  | putGenmsi d w => exact (win d 0x3000 (by decide) rfl).2 w
  | getSourcecfg d s => exact (src d hw).1
  | putSourcecfg d s w => exact (src d hw).2 w
  | getSetip d k => exact (ip d k).1
  | putSetip d k w => exact (ip d k).2 w
  | getInClrip d k => exact (cl d k).1
  | putInClrip d k w => exact (cl d k).2 w
  | getSetie d k => exact (ie d k).1
  | putSetie d k w => exact (ie d k).2 w
  | getClrie d k => exact (ce d k).1
  | putClrie d k w => exact (ce d k).2 w
  | getTargets d s => exact (tgt d hw).1
  | putTargets d s w => exact (tgt d hw).2 w
  | getRozero d off => exact (zero d hw).1
  | putRozero d off w => exact (zero d hw).2 w
  | getReserved d off => exact (res d hw).1
  | putReserved d off w => exact (res d hw).2 w
  | putSeteipnum h f w => exact (decode_encode_page hv hw w (poff := 0#12) rfl).2
  | getPage h f poff =>
    rw [Instr.wellFormed, Bool.and_eq_true] at hw
    exact (decode_encode_page hv hw.1 0#32 (by simpa [aligned4] using hw.2)).1
  | putPage h f poff w =>
    simp only [Instr.wellFormed, Bool.and_eq_true, bne_iff_ne] at hw
    obtain ⟨⟨hp, h4⟩, hne⟩ := hw
    rw [encode, (decode_encode_page hv hp w (by simpa [aligned4] using h4)).2, decodePage,
      if_neg (by decide), if_neg hne]
  | csrxIllegalOp h sel x v =>
    rw [Instr.wellFormed, decide_eq_true_eq] at hw
    simp [encode, encodeCsr, decode, decodeCsr, Nat.not_le.2 hw, csrOpOf]
  | csrIllegalContext h sel x op v =>
    rw [Instr.wellFormed, Bool.and_eq_true, decide_eq_true_eq] at hw
    simp [encode, encodeCsr, decode, decodeCsr, Nat.not_le.2 hw.1, csrOpOf_code, Option.isNone_iff_eq_none.1 hw.2]
  | csrIllegalSelector h sel x op v =>
    simp only [Instr.wellFormed, csrWellFormed, Bool.and_eq_true, decide_eq_true_eq] at hw
    obtain ⟨⟨hh, hf⟩, hsel⟩ := hw
    simp [encode, encodeCsr, decode, decodeCsr, Nat.not_le.2 hh, csrOpOf_code,
      Option.isSome_iff_ne_none.1 hf, Option.isNone_iff_eq_none.1 hsel]
  | csrwEidelivery h x v => exact csr hw .eidelivery .write v
  | csrsEidelivery h x v => exact csr hw .eidelivery .set v
  | csrcEidelivery h x v => exact csr hw .eidelivery .clear v
  | csrwEithreshold h x v => exact csr hw .eithreshold .write v
  | csrsEithreshold h x v => exact csr hw .eithreshold .set v
  | csrcEithreshold h x v => exact csr hw .eithreshold .clear v
  | csrwEip h x k v => exact csr hw (.eip k) .write v
  | csrsEip h x k v => exact csr hw (.eip k) .set v
  | csrcEip h x k v => exact csr hw (.eip k) .clear v
  | csrwEie h x k v => exact csr hw (.eie k) .write v
  | csrsEie h x k v => exact csr hw (.eie k) .set v
  | csrcEie h x k v => exact csr hw (.eie k) .clear v
  | claim h x =>
    rw [Instr.wellFormed, decide_eq_true_eq] at hw
    simp [encode, decode, decodeClaim, Nat.not_le.2 hw]

end Sys2Proof
end

section
/-! What the decoder answers (R88, R127, R138, R140 to R148, R182, R323): the shape of a request it takes, that
its answers are well formed, and which indirect accesses it calls illegal. -/

namespace Sys2Proof

-- one proof at a time: the memory the check may take bounds the number of threads
set_option Elab.async false

/-! ### Answers are well formed -/

/-- A read row and the row that writes its register have the same operand ranges. -/
theorem wellFormed_putRow (c : Config) (w : Word) (i : Instr) :
    (i.putRow w).wellFormed c = i.wellFormed c := by
  cases i <;> rfl

theorem wellFormed_ite {c : Config} {p : Prop} [Decidable p] {i j : Instr}
    (hi : p → i.wellFormed c = true) (hj : ¬ p → j.wellFormed c = true) :
    (if p then i else j).wellFormed c = true := by
  split
  · exact hi ‹_›
  · exact hj ‹_›

/-- Every aligned offset of a window is some register of the map, with operands in range (R127). -/
theorem wellFormed_decodeDomGet (c : Config) (d : Dom) {off : BitVec 14} (h4 : off.toNat % 4 = 0) :
    (decodeDomGet d off).wellFormed c = true := by
  have hlt := off.isLt
  have hsrc {n : Nat} (h : 0 < n ∧ n < 1024) : (BitVec.ofNat 10 n != 0#10) = true := by
    rw [bne_iff_ne, ne_eq, ← BitVec.toNat_inj, BitVec.toNat_ofNat, BitVec.toNat_ofNat]; omega
  unfold decodeDomGet
  refine wellFormed_ite (fun _ => rfl) fun _ => ?_
  refine wellFormed_ite (fun _ => hsrc (by omega)) fun _ => ?_
  refine wellFormed_ite (fun _ => (isRozero_iff _).2 (by omega)) fun _ => ?_
  iterate 15 refine wellFormed_ite (fun _ => rfl) fun _ => ?_
  refine wellFormed_ite (fun _ => hsrc (by omega)) fun _ => (isReserved_iff _).2 (by omega)

theorem hasPort_of_mem {c : Config} {p : Port} {b : Addr} (h : (p, b) ∈ c.regions) :
    c.hasPort p = true := List.any_eq_true.2 ⟨_, h, by simp⟩

/-- The row of an aligned offset of a port that exists is well formed. -/
theorem wellFormed_row {c : Config} {p : Port} (hp : c.hasPort p = true) (isGet : Bool) {off : Addr}
    (h4 : off.toNat % 4 = 0) (w : Word) : (p.row isGet off w).wellFormed c = true := by
  cases p with
  | window d =>
    have hd : (decodeDomGet d (off.setWidth 14)).wellFormed c = true :=
      wellFormed_decodeDomGet c d (by rw [BitVec.toNat_setWidth]; omega)
    rw [Port.row]
    split
    · exact hd
    · rw [wellFormed_putRow]; exact hd
  | page h f =>
    have ha : aligned4 (off.setWidth 12).toNat = true := by
      rw [aligned4, beq_iff_eq, BitVec.toNat_setWidth]; omega
    simp only [Port.row, decodePage]
    split_ifs with hg h0
    · rw [Instr.wellFormed, hp, ha]; rfl
    · exact hp
    · rw [Instr.wellFormed, hp, ha, bne_iff_ne.2 h0]; rfl

/-- The row of a defined register is well formed where its hart exists and its context names a file. -/
theorem wellFormed_csrInstr {c : Config} {h : Nat} {x : Ctx} (hw : csrWellFormed c h x = true) (op : CsrOp)
    (r : IReg) (v : DWord) : (csrInstr h x op r v).wellFormed c = true := by
  cases r <;> cases op <;> exact hw

theorem legalShape_iff (r : BusA) : r.legalShape = true ↔
    r.size = 2 ∧ r.address.toNat % 4 = 0 ∧
      r.mask = (if r.address.toNat % 8 = 0 then 0x0F#8 else 0xF0#8) := by
  simp only [BusA.legalShape, Bool.and_eq_true, beq_iff_eq, aligned_iff, and_assoc]
  refine and_congr_right fun _ => and_congr_right fun h4 => ?_
  have hbit : r.address.getLsbD 2 = true ↔ ¬ r.address.toNat % 8 = 0 := by
    rw [BitVec.getLsbD, Nat.testBit_eq_decide_div_mod_eq, decide_eq_true_eq]; omega
  rw [laneMask, if_congr hbit rfl rfl, ite_not]

/-- The offset of an aligned address in the region it falls in is aligned. -/
theorem offset_aligned {c : Config} (hv : c.valid = true) {a : Addr} {q : Port × Addr}
    (hq : c.regionOf a = some q) (h4 : a.toNat % 4 = 0) : (a - q.2).toNat % 4 = 0 := by
  obtain ⟨hmem, hin⟩ := regionOf_mem hq
  obtain ⟨hmod, -⟩ := region_aligned hv hmem
  have hsize : 4 ∣ q.1.size := by have := q.1.size_mod; omega
  have hbase : q.2.toNat % 4 = 0 := Nat.mod_eq_zero_of_dvd (hsize.trans (Nat.dvd_of_mod_eq_zero hmod))
  simp only [inRegion, Bool.and_eq_true, decide_eq_true_eq] at hin
  rw [BitVec.toNat_sub]
  omega

/-! ### The statements -/

/-- Settles O2, format by format; the offset of an aligned address in its aligned region is aligned, and
every such offset has a row. -/
theorem decodedInstructionsAreWellFormed : Obligations.DecodedInstructionsAreWellFormed := by
  intro c m i hv h
  cases m with
  | agent r =>
    cases r with
    | call r =>
      rw [decode, decodeCall_eq] at h
      split at h
      · cases h
      · split at h
        · cases h
        · rename_i hshape
          rw [not_not, legalShape_iff] at hshape
          have hal : aligned4 r.address.toNat = true := beq_iff_eq.2 hshape.2.1
          split at h
          · cases h
          · rename_i q hq
            have hport : (c.portOf r.address).isSome = true := by rw [Config.portOf, hq]; rfl
            split at h <;> cases h <;> rw [Instr.wellFormed, hal, hport] <;> rfl
    | csr r =>
      rw [decode, decodeCsr] at h
      split at h
      · cases h
      · rename_i hh
        rw [Nat.not_le] at hh
        split at h
        · cases h; exact decide_eq_true hh
        · split at h
          · rename_i hf
            cases h; rw [Instr.wellFormed, decide_eq_true hh, hf]; rfl
          · rename_i hf
            have hw : csrWellFormed c r.hart r.ctx = true := by
              rw [csrWellFormed, decide_eq_true hh, ← Option.not_isNone, Bool.eq_false_iff.2 hf]; rfl
            split at h
            · cases h; exact wellFormed_csrInstr hw _ _ _
            · rename_i hsel
              cases h; rw [Instr.wellFormed, hw, hsel]; rfl
    | claim r =>
      rw [decode, decodeClaim] at h
      split at h
      · cases h
      · rename_i hh
        cases h; exact decide_eq_true (Nat.not_le.1 hh)
  | slave r =>
    rw [decode, decodeSlave_eq] at h
    split at h
    · cases h
    · split at h
      · cases h
      · rename_i hshape
        rw [not_not, legalShape_iff] at hshape
        split at h
        · cases h
        · rename_i q hq
          cases h
          exact wellFormed_row (hasPort_of_mem (regionOf_mem hq).1) _ (offset_aligned hv hq hshape.2.1) _
  | response x r =>
    rw [decode, decodeResponse] at h
    split at h
    · cases h
    · rename_i hx
      rw [not_not] at hx
      split at h
      · cases h; exact hx
      · split at h
        · cases h; exact hx
        · cases h

/-- Settles O3: a call and a request at a slave port are turned away by the same three tests in the same
order. -/
theorem onlyWholeRegisterRequestsDecode : Obligations.OnlyWholeRegisterRequestsDecode := by
  intro c r m hm opcodeOk shapeOk
  have hop : (r.opcode ≠ opGet ∧ r.opcode ≠ opPut) ↔ ¬ opcodeOk := by
    show _ ↔ ¬ (r.opcode = opPut ∨ r.opcode = opGet)
    rw [not_or]; exact and_comm
  have hshape : (¬ r.legalShape = true) ↔ ¬ shapeOk := not_congr (legalShape_iff r)
  rcases hm with rfl | rfl
  · rw [decode, decodeCall_eq, if_congr hop rfl rfl, if_congr hshape rfl rfl]
    refine ⟨fun ho => if_pos ho, fun ho hs => ?_, fun ho hs hr => ?_, fun ho hs p hr => ?_⟩
    · rw [if_neg (not_not.2 ho), if_pos hs]
    · rw [if_neg (not_not.2 ho), if_neg (not_not.2 hs), hr]
    · rw [if_neg (not_not.2 ho), if_neg (not_not.2 hs), hr]; exact ⟨_, rfl⟩
  · rw [decode, decodeSlave_eq, if_congr hop rfl rfl, if_congr hshape rfl rfl]
    refine ⟨fun ho => if_pos ho, fun ho hs => ?_, fun ho hs hr => ?_, fun ho hs p hr => ?_⟩
    · rw [if_neg (not_not.2 ho), if_pos hs]
    · rw [if_neg (not_not.2 ho), if_neg (not_not.2 hs), hr]
    · rw [if_neg (not_not.2 ho), if_neg (not_not.2 hs), hr]; exact ⟨_, rfl⟩

/-! ### Contexts and illegal accesses -/

theorem fileOf_eq_some (c : Config) (x : Ctx) (f : FileId) : c.fileOf x = some f ↔
    (x.priv = 3#2 ∧ x.virt = false ∧ f = .M) ∨ (x.priv = 1#2 ∧ x.virt = false ∧ f = .S) ∨
      (x.priv = 1#2 ∧ x.virt = true ∧ 1 ≤ x.guest.toNat ∧ x.guest.toNat ≤ c.geilen.toNat ∧
        f = .G x.guest) := by
  obtain ⟨p, v, g⟩ := x
  unfold Config.fileOf
  dsimp only
  split_ifs with h1 h2 h3
  · obtain ⟨rfl, rfl⟩ := h1; simp [eq_comm]
  · obtain ⟨rfl, rfl⟩ := h2; simp [eq_comm]
  · obtain ⟨rfl, rfl, h4, h5⟩ := h3; simp [h4, h5, eq_comm]
  · simp only [false_iff]; tauto

theorem fileOf_isNone (c : Config) (x : Ctx) : (c.fileOf x).isNone = true ↔
    ¬ ((x.priv = 3#2 ∧ x.virt = false) ∨ (x.priv = 1#2 ∧ x.virt = false) ∨
      (x.priv = 1#2 ∧ x.virt = true ∧ 1 ≤ x.guest.toNat ∧ x.guest.toNat ≤ c.geilen.toNat)) := by
  rw [Option.isNone_iff_eq_none, Option.eq_none_iff_forall_ne_some]
  simp only [ne_eq, fileOf_eq_some]
  constructor
  · intro h hc
    rcases hc with ⟨h1, h2⟩ | ⟨h1, h2⟩ | ⟨h1, h2, h3, h4⟩
    · exact h .M (.inl ⟨h1, h2, rfl⟩)
    · exact h .S (.inr (.inl ⟨h1, h2, rfl⟩))
    · exact h _ (.inr (.inr ⟨h1, h2, h3, h4, rfl⟩))
  · intro h f hf
    rcases hf with ⟨h1, h2, -⟩ | ⟨h1, h2, -⟩ | ⟨h1, h2, h3, h4, -⟩
    · exact h (.inl ⟨h1, h2⟩)
    · exact h (.inr (.inl ⟨h1, h2⟩))
    · exact h (.inr (.inr ⟨h1, h2, h3, h4⟩))

theorem iregOf_isNone (sel : BitVec 12) : iregOf sel = none ↔
    ¬ (sel = 0x70#12 ∨ sel = 0x72#12 ∨ (∃ k, k ≤ 31 ∧ sel.toNat = 0x80 + 2 * k) ∨
      (∃ k, k ≤ 31 ∧ sel.toNat = 0xC0 + 2 * k)) := by
  have range (base : Nat) (hb : base % 2 = 0) : (∃ k, k ≤ 31 ∧ sel.toNat = base + 2 * k) ↔
      base ≤ sel.toNat ∧ sel.toNat ≤ base + 0x3E ∧ sel.toNat % 2 = 0 :=
    ⟨by rintro ⟨k, h1, h2⟩; omega, fun h => ⟨(sel.toNat - base) / 2, by omega, by omega⟩⟩
  rw [range 0x80 rfl, range 0xC0 rfl, ← BitVec.toNat_inj, ← BitVec.toNat_inj]
  unfold iregOf
  split_ifs with h1 h2 h3 h4
  · simp [h1]
  · simp [h2]
  · simp [h3]
  · simp [h4]
  · simp only [BitVec.toNat_ofNat, true_iff]; tauto

theorem csrOpOf_eq_none (op : BitVec 2) : csrOpOf op = none ↔ op = 0#2 := by
  revert op; decide

/-- The row of a defined register is none of the three illegal rows. -/
theorem csrInstr_ne_illegal (h : Nat) (x : Ctx) (op : CsrOp) (r : IReg) (v : DWord) :
    (∀ sel, csrInstr h x op r v ≠ .csrxIllegalOp h sel x v) ∧
      (∀ sel o, csrInstr h x op r v ≠ .csrIllegalContext h sel x o v) ∧
      ∀ sel o, csrInstr h x op r v ≠ .csrIllegalSelector h sel x o v := by
  cases r <;> cases op <;> exact ⟨fun _ => nofun, fun _ _ => nofun, fun _ _ => nofun⟩

/-- Settles O4: the decoder tests the operation code, then the context, then the selector, and each test
that fails has its own illegal row. -/
theorem illegalAccessesAreThoseOfTheRule : Obligations.IllegalAccessesAreThoseOfTheRule := by
  intro c r
  refine ⟨⟨fun g => ?_, fun x f => (fileOf_eq_some c x f).1⟩, fun hh => ?_⟩
  · refine ⟨rfl, rfl, fun h1 h2 => ?_⟩
    exact (fileOf_eq_some c _ _).2 (.inr (.inr ⟨rfl, rfl, h1, h2, rfl⟩))
  · rw [← csrOpOf_eq_none, ← iregOf_isNone, ← fileOf_isNone, decode, decodeCsr, if_neg (Nat.not_le.2 hh)]
    cases hop : csrOpOf r.op with
    | none => exact ⟨_, rfl, by simp⟩
    | some op =>
      by_cases hf : (c.fileOf r.ctx).isNone = true
      · exact ⟨_, if_pos hf, by simp [hf]⟩
      · simp only [if_neg hf]
        cases hsel : iregOf r.iselect with
        | none => exact ⟨_, rfl, by simp⟩
        | some reg =>
          obtain ⟨h1, h2, h3⟩ := csrInstr_ne_illegal r.hart r.ctx op reg r.wdata
          exact ⟨_, rfl, by simp [h1, h2, h3, hf]⟩

/-- Settles O5: each word evaluates to its instruction. -/
theorem writtenOutWordsDecode : Obligations.WrittenOutWordsDecode := by
  refine ⟨?_, ?_, ?_, ?_, ?_, ?_, ?_⟩ <;> rfl

end Sys2Proof
end

section
/-! The registers of a domain window, read, written and read back (R202 to R241). -/

namespace Sys2Proof.Machine

-- one proof at a time: the memory the check may take bounds the number of threads
set_option Elab.async false

/-! ### The arms -/

theorem exec_getSourcecfg (d : Dom) (n : BitVec 10) (s : State) :
    exec (.getSourcecfg d n) s = .next (s.answerData (s.sourcecfgRead d n.toNat)) := rfl

theorem exec_putSourcecfg (d : Dom) (n : BitVec 10) (w : Word) (s : State) :
    exec (.putSourcecfg d n w) s = .next (s.sourcecfgWrite d n.toNat w).acknowledge := rfl

theorem exec_putInClrip (d : Dom) (k : Bank) (w : Word) (s : State) :
    exec (.putInClrip d k w) s = .next (forBits k w (fun n t => t.clearPendingReq d n) s).acknowledge := rfl

theorem exec_putClripnum (d : Dom) (w : Word) (s : State) :
    exec (.putClripnum d w) s = .next (s.clearPendingReq d w.toNat).acknowledge := rfl

theorem exec_putTargets (d : Dom) (n : BitVec 10) (w : Word) (s : State) :
    exec (.putTargets d n w) s = .next (s.modifyOwned d n.toNat fun x =>
      { x with target := warlTarget s.cfg d (s.dom d).dm w }).acknowledge := rfl

theorem exec_putDomaincfg (d : Dom) (w : Word) (s : State) : exec (.putDomaincfg d w) s =
    .next (s.setDom d ((s.dom d).writeCfg (s.cfg.dmKind d) w)).acknowledge := rfl

theorem exec_putSetipnumLe (d : Dom) (w : Word) (s : State) : exec (.putSetipnumLe d w) s =
    .next (if (s.dom d).be then s else s.setPendingReq d w.toNat).acknowledge := rfl

theorem exec_putSetipnumBe (d : Dom) (w : Word) (s : State) : exec (.putSetipnumBe d w) s =
    .next (if (s.dom d).be then s.setPendingReq d w.toNat else s).acknowledge := rfl

theorem exec_getGenmsi (d : Dom) {s : State} (h : s.cfg.genmsi = .modelled) :
    exec (.getGenmsi d) s = .next (s.answerData (s.genmsiRead d)) := by
  show execGetGenmsi d s = _
  rw [execGetGenmsi, h]

theorem exec_putGenmsi (d : Dom) (w : Word) {s : State} (h : s.cfg.genmsi = .modelled) :
    exec (.putGenmsi d w) s = .next (s.setDom d ((s.dom d).writeGenmsi s.cfg w)).acknowledge := by
  show execPutGenmsi d w s = _
  rw [execPutGenmsi, h]

theorem exec_genmsi_refused (d : Dom) (w : Word) {s : State} (h : s.cfg.genmsi = .refused) :
    exec (.getGenmsi d) s = .refused .genmsiRefused ∧ exec (.putGenmsi d w) s = .refused .genmsiRefused := by
  constructor
  · show execGetGenmsi d s = _
    rw [execGetGenmsi, h]
  · show execPutGenmsi d w s = _
    rw [execPutGenmsi, h]

/-! ### Reads -/

/-- The rectified input, case by case (R262): a triggered mode, the line away from its inactive level. -/
theorem Source.rect_iff (x : Source) (raw : Bool) : x.rect raw = true ↔
    x.mode ≠ .inactive ∧ x.mode ≠ .detached ∧ raw ≠ x.mode.code.getLsbD 0 := by
  obtain ⟨m, p, e, n, t⟩ := x
  cases m <;> simp [Source.rect, Mode.isTriggered, Mode.isEdge, Mode.isLevel, Mode.pol]

theorem number_ne_zero {n : BitVec 10} (h : n ≠ 0#10) : n.toNat ≠ 0 :=
  fun h0 => h (BitVec.eq_of_toNat_eq h0)

/-- `sourcecfg` of a source that is not the reserved number, as it reads (R204). -/
theorem State.sourcecfgRead_eq (s : State) (d : Dom) {n : Nat} (h0 : n ≠ 0) : s.sourcecfgRead d n =
    if s.cfg.nSrc.toNat < n then 0#32
    else if s.deleg.getLsbD n = true then
      (if d = .M then 0x400#32 else (s.source .S n).mode.code.setWidth 32)
    else (if d = .M then (s.source .M n).mode.code.setWidth 32 else 0#32) := by
  unfold State.sourcecfgRead
  by_cases hn : s.cfg.nSrc.toNat < n
  · rw [if_pos (.inr hn), if_pos hn]
  · rw [if_neg (not_or.2 ⟨h0, hn⟩), if_neg hn]
    cases d <;> cases s.deleg.getLsbD n <;> rfl

/-- Settles O22: each of the reads is answered 0, and each of the writes acknowledged, at the state as it
stands. -/
theorem otherZeroReadsAndIgnoredWrites : Obligations.OtherZeroReadsAndIgnoredWrites := by
  intro s d k off h f poff w
  exact ⟨rfl, rfl, rfl, rfl, rfl, rfl, rfl, rfl, rfl⟩

/-- Settles O25: the answer is `sourcecfgRead`. -/
theorem getSourcecfg : Obligations.GetSourcecfg := by
  intro s d n hn
  rw [exec_getSourcecfg, State.sourcecfgRead_eq s d (number_ne_zero hn)]
  rfl

/-- Settles O26: each word is a bitmap word, whose bit `i` is its predicate at `32k + i`. -/
theorem getBitmapWords : Obligations.GetBitmapWords := by
  intro s d k
  refine ⟨s.setipRead d k, s.inClripRead d k, s.setieRead d k, rfl, rfl, rfl, fun i hi => ?_⟩
  refine ⟨?_, ?_, ?_⟩
  · rw [State.setipRead, bitmapWord_getLsbD, decide_eq_true hi, Bool.true_and]
  · rw [State.setieRead, bitmapWord_getLsbD, decide_eq_true hi, Bool.true_and]
  · rw [State.inClripRead, bitmapWord_getLsbD, decide_eq_true hi, Bool.true_and, Bool.and_eq_true,
      Source.rect_iff]

/-! ### domaincfg and the MSI address words -/

/-- The bits 8 and 0 of a word, each in its place. -/
theorem and_0x101 (w : Word) : w &&& 0x101#32 =
    (if w.getLsbD 8 then 0x100#32 else 0#32) ||| (if w.getLsbD 0 then 1#32 else 0#32) := by
  apply BitVec.eq_of_getLsbD_eq
  intro i hi
  cases h8 : w.getLsbD 8 <;> cases h0 : w.getLsbD 0 <;> interval_cases i <;> simp_all

/-- The bits 8, 2 and 0 of a word, each in its place. -/
theorem and_0x105 (w : Word) : w &&& 0x105#32 =
    (w &&& 0x101#32) ||| (if w.getLsbD 2 then 4#32 else 0#32) := by
  apply BitVec.eq_of_getLsbD_eq
  intro i hi
  cases h2 : w.getLsbD 2 <;> interval_cases i <;> simp_all

/-- `domaincfg` after it is written: bits 8 and 0 of the word, and the delivery mode as it then stands. -/
theorem domaincfgRead_writeCfg (s : State) (d : Dom) (k : DmKind) (w : Word) :
    (s.setDom d ((s.dom d).writeCfg k w)).acknowledge.domaincfgRead d = s.cfg.tag ||| (w &&& 0x101#32) |||
      (if (if k = .rw then w.getLsbD 2 else (s.dom d).dm) = true then 4#32 else 0#32) := by
  rw [State.domaincfgRead_eq, State.acknowledge_dom, State.acknowledge_cfg, State.dom_setDom_same,
    State.setDom_cfg, Domain.writeCfg, and_0x101, BitVec.or_assoc, BitVec.or_assoc,
    BitVec.or_comm (if (if k = .rw then w.getLsbD 2 else (s.dom d).dm) = true then 4#32 else 0#32)]
  simp only [BitVec.or_assoc]

/-- Settles O28: `writeCfg` stores the three bits, and `domaincfgRead` puts them back in their places. -/
theorem putDomaincfgReadsBackMasked : Obligations.PutDomaincfgReadsBackMasked := by
  intro s d w
  refine ⟨_, exec_putDomaincfg d w s, rfl, fun hk => ?_, fun hk => ?_⟩
  · rw [exec_getDomaincfg, domaincfgRead_writeCfg, if_pos hk, BitVec.or_assoc, ← and_0x105]; rfl
  · rw [exec_getDomaincfg, domaincfgRead_writeCfg, if_neg hk]; rfl

/-- The base of a level from its pair of words (R135, R296). -/
theorem msiBase_toNat (lo hi : Word) :
    (msiBase lo hi).toNat = (hi.toNat % 2 ^ 12 * 2 ^ 32 + lo.toNat) * 2 ^ 12 := by
  have hlo := lo.isLt
  rw [msiBase, BitVec.toNat_shiftLeft, BitVec.toNat_setWidth, BitVec.toNat_append,
    BitVec.extractLsb'_toNat, Nat.shiftRight_zero, ← Nat.shiftLeft_add_eq_or_of_lt hlo,
    Nat.shiftLeft_eq, Nat.shiftLeft_eq]
  omega

/-- Settles O29: each word is written through `onlyFromM`. -/
theorem putMsiAddressWords : Obligations.PutMsiAddressWords := by
  intro s w
  exact ⟨rfl, rfl, rfl, rfl, rfl, rfl, rfl, rfl, msiBase_toNat _ _, msiBase_toNat _ _⟩

/-! ### Pending bits -/

/-- Settles O32: which of the pair is live is the `be` bit. -/
theorem endianPairRequestsPending : Obligations.EndianPairRequestsPending := by
  intro s d w
  rw [exec_putSetipnum, exec_putSetipnumLe, exec_putSetipnumBe]
  refine ⟨fun hbe => ?_, fun hbe => ?_⟩
  · rw [hbe]; exact ⟨⟨_, rfl, rfl⟩, rfl⟩
  · rw [hbe]; exact ⟨⟨_, rfl, rfl⟩, rfl⟩

/-- Settles O33: a bitmap write and a write by number of `RequestClearPending`. -/
theorem clearPendingWrites : Obligations.ClearPendingWrites := by
  intro s d k w clear
  have hclear : clear = fun n x => x.requestClear (s.rawInput.getLsbD n) := by
    funext n x; rw [Source.requestClear_eq]
  rw [hclear]
  refine ⟨⟨_, exec_putInClrip d k w s, ?_⟩, ⟨_, exec_putClripnum d w s, ?_⟩⟩
  · exact State.changesSources_forBits d k w _ s _ (fun n t ht => by rw [State.clearPendingReq, ht])
  · obtain ⟨hack, hframe, hsrc⟩ := State.changesSources_modifyOwned d w.toNat
      (fun x => x.requestClear (s.rawInput.getLsbD w.toNat)) s
    refine ⟨hack, hframe, fun n => ?_⟩
    rw [State.clearPendingReq, hsrc n]
    by_cases hn : n = w.toNat
    · rw [hn]
    · simp [hn]

/-! ### sourcecfg -/

/-- A write of `sourcecfg` to no source of the block changes nothing (R205). -/
theorem State.sourcecfgWrite_none (s : State) (d : Dom) {n : Nat} (w : Word)
    (h : n = 0 ∨ s.cfg.nSrc.toNat < n) : s.sourcecfgWrite d n w = s := if_pos h

/-- A write of `sourcecfg` from the supervisor window: the mode of a delegated source is entered (R205). -/
theorem State.sourcecfgWrite_S (s : State) {n : Nat} (w : Word) (h : ¬ (n = 0 ∨ s.cfg.nSrc.toNat < n)) :
    s.sourcecfgWrite .S n w = s.modifyOwned .S n fun x =>
      x.setMode (s.rawInput.getLsbD n) (warlSm (w.extractLsb' 0 3)) := by
  have hown : s.owned .S n = s.deleg.getLsbD n := by
    rw [not_or] at h
    simp only [State.owned, State.owner]
    cases s.deleg.getLsbD n <;> simp; omega
  rw [State.sourcecfgWrite, if_neg h, State.modifyOwned, hown]
  rfl

/-- A write of `sourcecfg` from the machine window leaves all but the ownership of sources. -/
theorem State.sameButOwnership_sourcecfgWrite (s : State) (n : Nat) (w : Word)
    (h : ¬ (n = 0 ∨ s.cfg.nSrc.toNat < n)) :
    State.sameButOwnership s (s.sourcecfgWrite .M n w).acknowledge := by
  obtain ⟨tm, ts, b, hfr⟩ := s.sourcecfgWrite_M_frame n w h
  rw [hfr]; rfl

theorem source_exists {s : State} {n : BitVec 10} (hn : n ≠ 0#10) (hle : n.toNat ≤ s.cfg.nSrc.toNat) :
    ¬ (n.toNat = 0 ∨ s.cfg.nSrc.toNat < n.toNat) :=
  not_or.2 ⟨number_ne_zero hn, Nat.not_lt.2 hle⟩

/-- Settles O36: what `sourcecfgWrite` does to the delegation bits and to each copy, read off case by
case. -/
theorem putSourcecfgMachine : Obligations.PutSourcecfgMachine := by
  intro s n w hn hle mode raw
  have h0 := source_exists hn hle
  have hsrc := s.sourcecfgWrite_M_source n.toNat w h0
  have hdel := s.sourcecfgWrite_M_deleg n.toNat w h0 (by omega)
  refine ⟨_, exec_putSourcecfg .M n w s, rfl, s.sameButOwnership_sourcecfgWrite _ w h0, ?_,
    fun m hm => ⟨?_, fun d => ?_⟩, fun hD hdl d => ?_, fun hD hdl => ⟨?_, ?_⟩, fun hD => ⟨?_, ?_⟩⟩
  · rw [State.acknowledge_deleg, hdel, if_pos rfl]
  · rw [State.acknowledge_deleg, hdel, if_neg hm]
  · rw [State.acknowledge_source, hsrc, if_neg hm]
  · rw [State.acknowledge_source, hsrc, if_pos rfl, if_pos hD, if_pos hdl]
  · rw [State.acknowledge_source, hsrc, if_pos rfl, if_pos hD, if_neg (Bool.eq_false_iff.1 hdl), if_pos rfl]
  · rw [State.acknowledge_source, hsrc, if_pos rfl, if_pos hD, if_neg (Bool.eq_false_iff.1 hdl), if_neg (by simp)]
  · rw [State.acknowledge_source, hsrc, if_pos rfl, if_neg (Bool.eq_false_iff.1 hD), if_neg (by simp)]
  · rw [State.acknowledge_source, hsrc, if_pos rfl, if_neg (Bool.eq_false_iff.1 hD), if_pos rfl, Source.setMode_eq]

/-- Settles O37: from the supervisor window the write enters the mode of an owned source. -/
theorem putSourcecfgSupervisor : Obligations.PutSourcecfgSupervisor := by
  intro s n w hn mode raw
  refine ⟨fun hle hdl => ⟨_, exec_putSourcecfg .S n w s, ?_⟩, fun hdl => ?_, fun hgt d => ?_⟩
  · rw [State.sourcecfgWrite_S s w (source_exists hn hle)]
    simp only [Source.setMode_eq]
    exact State.changesSources_modifyOwned .S n.toNat _ s
  · rw [exec_putSourcecfg]
    by_cases h0 : n.toNat = 0 ∨ s.cfg.nSrc.toNat < n.toNat
    · rw [s.sourcecfgWrite_none .S w h0]; rfl
    · have hown : s.owned .S n.toNat = false := by simp [State.owned, State.owner, hdl]
      rw [s.sourcecfgWrite_S w h0, s.modifyOwned_of_not_owned .S _ hown]; rfl
  · rw [exec_putSourcecfg, s.sourcecfgWrite_none d w (.inr hgt)]; rfl

@[simp] theorem Source.setMode_mode (x : Source) (raw : Bool) (m : Mode) : (x.setMode raw m).mode = m := by
  rw [Source.setMode_eq]

/-- Settles O38: the write leaves the normalised mode in the copy of the domain that reads it, and the code
of a normalised mode is the normalised code. -/
theorem sourcecfgReadsBackNormalised : Obligations.SourcecfgReadsBackNormalised := by
  intro s n w hn hle mode
  have h0 := source_exists hn hle
  have hpos := number_ne_zero hn
  refine ⟨⟨_, exec_putSourcecfg .M n w s, ?_⟩, fun hdl => ⟨_, exec_putSourcecfg .S n w s, ?_⟩⟩
  · have hcfg : (s.sourcecfgWrite .M n.toNat w).cfg = s.cfg := by
      obtain ⟨tm, ts, b, hfr⟩ := s.sourcecfgWrite_M_frame n.toNat w h0
      rw [hfr]
    have hread : (s.sourcecfgWrite .M n.toNat w).acknowledge.sourcecfgRead .M n.toNat =
        if w.getLsbD 10 then 0x400#32 else mode := by
      rw [State.sourcecfgRead_eq _ _ hpos, State.acknowledge_cfg, hcfg, if_neg (Nat.not_lt.2 hle),
        State.acknowledge_deleg, s.sourcecfgWrite_M_deleg n.toNat w h0 (by omega), if_pos rfl, if_pos rfl,
        if_pos rfl]
      by_cases hD : w.getLsbD 10 = true
      · rw [if_pos hD, if_pos hD]
      · rw [if_neg hD, if_neg hD, State.acknowledge_source, s.sourcecfgWrite_M_source n.toNat w h0,
          if_pos rfl, if_neg hD, if_pos rfl, Source.setMode_mode, warlSm_code]
    rw [exec_getSourcecfg, hread]
    rfl
  · have hown : s.owned .S n.toNat = true := by
      simp only [State.owned, State.owner, hdl]; simp; omega
    have hdel : (s.modifyOwned .S n.toNat fun x =>
        x.setMode (s.rawInput.getLsbD n.toNat) (warlSm (w.extractLsb' 0 3))).deleg = s.deleg := by
      rw [State.modifyOwned, if_pos hown, State.setSource_deleg]
    have hread : (s.sourcecfgWrite .S n.toNat w).acknowledge.sourcecfgRead .S n.toNat = mode := by
      rw [State.sourcecfgRead_eq _ _ hpos, s.sourcecfgWrite_S w h0, State.acknowledge_cfg,
        State.modifyOwned_cfg, if_neg (Nat.not_lt.2 hle), State.acknowledge_deleg, hdel, if_pos hdl,
        if_neg (by simp), State.acknowledge_source, State.source_modifyOwned, if_pos ⟨rfl, rfl, hown⟩,
        Source.setMode_mode, warlSm_code]
    rw [exec_getSourcecfg, hread]
    rfl

/-! ### Targets and genmsi -/

/-- The hart a write names, 0 where there is no such hart (R133). -/
theorem warlHart_toNat (c : Config) (w : Word) : (warlHart c w).toNat =
    if w.toNat / 2 ^ 18 < c.nHart then w.toNat / 2 ^ 18 else 0 := by
  rw [warlHart, hartField_toNat]
  split
  · exact hartField_toNat w
  · rfl

/-- The guest a write names in domain S, 0 where there is no such guest and in domain M (R133). -/
theorem warlGuest_toNat (c : Config) (d : Dom) (w : Word) : (warlGuest c d w).toNat =
    if d = .S ∧ w.toNat / 2 ^ 12 % 2 ^ 6 ≤ c.geilen.toNat then w.toNat / 2 ^ 12 % 2 ^ 6 else 0 := by
  cases d with
  | M => rfl
  | S =>
    rw [warlGuest, guestField_toNat]
    by_cases h : w.toNat / 2 ^ 12 % 2 ^ 6 ≤ c.geilen.toNat
    · rw [if_pos h, if_pos ⟨rfl, h⟩]; exact guestField_toNat w
    · rw [if_neg h, if_neg (fun hc => h hc.2)]; rfl

/-- A hart index over a lower field, as a number. -/
theorem hart_or_toNat (a : BitVec 14) {b : Word} (hb : b.toNat < 2 ^ 18) :
    a.setWidth 32 <<< 18 ||| b = BitVec.ofNat 32 (a.toNat * 2 ^ 18 + b.toNat) := by
  have ha := a.isLt
  apply BitVec.eq_of_toNat_eq
  have hsh : (a.setWidth 32 <<< 18).toNat = a.toNat <<< 18 := by
    rw [BitVec.toNat_shiftLeft, BitVec.toNat_setWidth, Nat.shiftLeft_eq]; omega
  rw [BitVec.toNat_or, hsh, ← Nat.shiftLeft_add_eq_or_of_lt hb, Nat.shiftLeft_eq, BitVec.toNat_ofNat]
  omega

/-- A guest index over an identity, as a number. -/
theorem guest_or_toNat (g : BitVec 6) (e : Ident) :
    (g.setWidth 32 <<< 12 ||| e.setWidth 32).toNat = g.toNat * 2 ^ 12 + e.toNat := by
  have hg := g.isLt
  have he := e.isLt
  have hsh : (g.setWidth 32 <<< 12).toNat = g.toNat <<< 12 := by
    rw [BitVec.toNat_shiftLeft, BitVec.toNat_setWidth, Nat.shiftLeft_eq]; omega
  have hwe : (e.setWidth 32).toNat = e.toNat := by rw [BitVec.toNat_setWidth]; omega
  rw [BitVec.toNat_or, hsh, hwe, ← Nat.shiftLeft_add_eq_or_of_lt (by omega), Nat.shiftLeft_eq]

/-- The target word a write stores, from the numbers of its fields (R239). -/
theorem warlTarget_eq (c : Config) (d : Dom) (msiMode : Bool) (w : Word) : warlTarget c d msiMode w =
    if msiMode = true then BitVec.ofNat 32 ((warlHart c w).toNat * 2 ^ 18 +
      (warlGuest c d w).toNat * 2 ^ 12 + w.toNat % 2 ^ 11)
    else BitVec.ofNat 32 ((warlHart c w).toNat * 2 ^ 18 + w.toNat % 2 ^ 8) := by
  have hg := (warlGuest c d w).isLt
  unfold warlTarget
  by_cases hm : msiMode = true
  · rw [if_pos hm, if_pos hm, BitVec.or_assoc, hart_or_toNat _ (by
      rw [guest_or_toNat, eiidField_toNat]; omega), guest_or_toNat, eiidField_toNat, Nat.add_assoc]
  · have hp : ((prioField w).setWidth 32).toNat = w.toNat % 2 ^ 8 := by
      rw [BitVec.toNat_setWidth, prioField_toNat]; omega
    rw [if_neg hm, if_neg hm, hart_or_toNat _ (by rw [hp]; omega), hp]

/-- The word a `genmsi` write stores, from the numbers of its fields (R237). -/
theorem warlGenmsi_eq (c : Config) (w : Word) :
    warlGenmsi c w = BitVec.ofNat 32 ((warlHart c w).toNat * 2 ^ 18 + w.toNat % 2 ^ 11) := by
  have he : ((eiidField w).setWidth 32).toNat = w.toNat % 2 ^ 11 := by
    rw [BitVec.toNat_setWidth, eiidField_toNat]; omega
  rw [warlGenmsi, hart_or_toNat _ (by rw [he]; omega), he]

/-- Settles O39: the stored word is `warlTarget`, which has no bit its read mask would hide. -/
theorem putTargetsReadsBackNormalised : Obligations.PutTargetsReadsBackNormalised := by
  intro s d n w hart guest word
  have hword : warlTarget s.cfg d (s.dom d).dm w = word := by
    rw [warlTarget_eq, warlHart_toNat, warlGuest_toNat]
  refine ⟨_, exec_putTargets d n w s, ?_, fun hown => ?_⟩
  · rw [hword]
    exact State.changesSources_modifyOwned d n.toNat _ s
  · have hdm : ((s.modifyOwned d n.toNat fun x =>
        { x with target := warlTarget s.cfg d (s.dom d).dm w }).dom d).dm = (s.dom d).dm := by
      obtain ⟨tb, htb⟩ := s.modifyOwned_frame d n.toNat fun x =>
        { x with target := warlTarget s.cfg d (s.dom d).dm w }
      rw [htb, State.dom_setDom_same]
    have hread : (s.modifyOwned d n.toNat fun x =>
        { x with target := warlTarget s.cfg d (s.dom d).dm w }).acknowledge.targetRead d n.toNat = word := by
      rw [State.targetRead, State.acknowledge_owned, State.owned_modifyOwned, if_pos hown,
        State.acknowledge_source, State.source_modifyOwned, if_pos ⟨rfl, rfl, hown⟩,
        State.acknowledge_dom, hdm, warlTarget_masked, hword]
    rw [exec_getTargets, hread]
    rfl

/-- `genmsi` as it reads (R136, R236). -/
theorem State.genmsiRead_eq (s : State) (d : Dom) : s.genmsiRead d = if (s.dom d).dm then
    (s.dom d).genmsi ||| (if (s.dom d).genmsiBusy then 0x1000#32 else 0#32) else 0#32 := by
  rw [State.genmsiRead, ofBool_setWidth, apply_ite (fun x : Word => x <<< 12)]
  rfl

/-- Settles O40: the four clauses are the cases of the delivery mode, the busy bit and the kind. -/
theorem genmsiReadsAndWrites : Obligations.GenmsiReadsAndWrites := by
  intro s d w hart
  refine ⟨fun hk => ?_, fun hk hdm hbusy => ?_, fun hk hign => ?_, exec_genmsi_refused d w⟩
  · rw [exec_getGenmsi d hk, State.genmsiRead_eq]; rfl
  · rw [exec_putGenmsi d w hk, Domain.writeGenmsi, if_neg (by simp [hdm, hbusy]), warlGenmsi_eq,
      warlHart_toNat]
    rfl
  · rw [exec_putGenmsi d w hk, Domain.writeGenmsi, if_pos hign, State.setDom_dom]; rfl

end Sys2Proof.Machine
end

section
/-! The interrupt files (R320 to R352): what the registers read, the priority multiplexer, the claim and the
reception of an MSI. -/

namespace Sys2Proof.Machine

-- one proof at a time: the memory the check may take bounds the number of threads
set_option Elab.async false

/-! ### The arms -/

theorem exec_csrwEip (h : Nat) (c : Ctx) (k : Bank) (v : DWord) (s : State) :
    exec (.csrwEip h c k v) s = csrAccess h c (.eip k) .write v s := rfl

theorem exec_csrsEip (h : Nat) (c : Ctx) (k : Bank) (v : DWord) (s : State) :
    exec (.csrsEip h c k v) s = csrAccess h c (.eip k) .set v s := rfl

theorem exec_csrcEip (h : Nat) (c : Ctx) (k : Bank) (v : DWord) (s : State) :
    exec (.csrcEip h c k v) s = csrAccess h c (.eip k) .clear v s := rfl

theorem exec_csrwEie (h : Nat) (c : Ctx) (k : Bank) (v : DWord) (s : State) :
    exec (.csrwEie h c k v) s = csrAccess h c (.eie k) .write v s := rfl

theorem exec_csrsEie (h : Nat) (c : Ctx) (k : Bank) (v : DWord) (s : State) :
    exec (.csrsEie h c k v) s = csrAccess h c (.eie k) .set v s := rfl

theorem exec_csrcEie (h : Nat) (c : Ctx) (k : Bank) (v : DWord) (s : State) :
    exec (.csrcEie h c k v) s = csrAccess h c (.eie k) .clear v s := rfl

theorem exec_claim_none {h : Nat} {c : Ctx} {s : State} (hf : s.cfg.fileOf c = none) :
    exec (.claim h c) s = .next (s.claimAnswer h 0) := by
  show execClaim h c s = _
  rw [execClaim, hf]

theorem exec_claim_some {h : Nat} {c : Ctx} {s : State} {f : FileId} (hf : s.cfg.fileOf c = some f) :
    exec (.claim h c) s =
      .next ((s.setFile h f (s.file h f).claimed).claimAnswer h (s.file h f).top) := by
  show execClaim h c s = _
  rw [execClaim, hf]

theorem exec_putSeteipnum (h : Nat) (f : FileId) (w : Word) (s : State) : exec (.putSeteipnum h f w) s =
    .next (s.setFile h f ((s.file h f).receive w)).acknowledge := rfl

/-! ### Registers, bit by bit (R143) -/

/-- The mask of a word of an identity bitmap hides identity 0 and nothing else. -/
theorem bankMask_getLsbD (k : Bank) (j : Nat) :
    (if k = 0#5 then ~~~1#64 else BitVec.allOnes 64).getLsbD j =
      (decide (j < 64) && decide (64 * k.toNat + j ≠ 0)) := by
  by_cases hk : k = 0#5
  · subst hk
    rw [if_pos rfl, BitVec.getLsbD_not, BitVec.getLsbD_one]
    by_cases hj : j = 0 <;> simp [hj]
  · have hpos : k.toNat ≠ 0 := fun h0 => hk (BitVec.eq_of_toNat_eq h0)
    have hne : 64 * k.toNat + j ≠ 0 := by omega
    rw [if_neg hk, BitVec.getLsbD_allOnes, decide_eq_true hne, Bool.and_true]

/-- A word of an identity bitmap as it reads. -/
theorem bank_read_getLsbD (v : IdBits) (k : Bank) (j : Nat) :
    (getBank v k &&& (if k = 0#5 then ~~~1#64 else BitVec.allOnes 64)).getLsbD j =
      (decide (j < 64) && decide (64 * k.toNat + j ≠ 0) && v.getLsbD (64 * k.toNat + j)) := by
  rw [BitVec.getLsbD_and, getLsbD_getBank, bankMask_getLsbD]
  cases decide (j < 64) <;> cases v.getLsbD (64 * k.toNat + j) <;> simp

/-- Settles O53: the bitmaps bit by bit, the two fields by their widths. -/
theorem fileRegistersRead : Obligations.FileRegistersRead := by
  intro x k j
  refine ⟨bank_read_getLsbD x.eip k j, bank_read_getLsbD x.eie k j, ?_, ?_⟩
  · rw [IFile.read, BitVec.toNat_setWidth]; omega
  · rw [IFile.read]; cases x.eidelivery <;> rfl

/-- What a write leaves of a word under the mask of a bitmap word. -/
theorem and_bankMask (k : Bank) (v : DWord) :
    v &&& (if k = 0#5 then ~~~1#64 else BitVec.allOnes 64) = if k = 0#5 then v &&& ~~~1#64 else v := by
  split
  · rfl
  · exact BitVec.and_allOnes

/-- Settles O52: each arm is the access to its register, whose mask hides identity 0 alone. -/
theorem eipAndEieAccesses : Obligations.EipAndEieAccesses := by
  intro s h c k v f hf legal ip ie
  rw [exec_csrwEip, exec_csrsEip, exec_csrcEip, exec_csrwEie, exec_csrsEie, exec_csrcEie]
  have hip : v &&& (IReg.eip k).mask = legal := and_bankMask k v
  have hie : v &&& (IReg.eie k).mask = legal := and_bankMask k v
  refine ⟨fun x j hj hne => ?_, hip ▸ csrAccess_write hf (.eip k) v, hip ▸ csrAccess_set hf (.eip k) v,
    csrAccess_clear hf (.eip k) v, hie ▸ csrAccess_write hf (.eie k) v,
    hie ▸ csrAccess_set hf (.eie k) v, csrAccess_clear hf (.eie k) v⟩
  obtain ⟨h1, h2, -⟩ := fileRegistersRead x k j
  rw [h1, h2, decide_eq_true hj, decide_eq_true hne]
  exact ⟨rfl, rfl⟩

/-- Settles O54: each of the three rows is the shared report of an illegal access. -/
theorem illegalAccessIsContained : Obligations.IllegalAccessIsContained := by
  intro s h sel c op v
  refine ⟨s.illegalAccess h, rfl, rfl, rfl, ?_, ?_, ?_, fun h' f => s.unit_illegalAccess h h' f,
    fun h' hh => ?_, rfl⟩
  · rw [State.hart_illegalAccess, if_pos rfl]
  · rw [State.hart_illegalAccess, if_pos rfl]
  · rw [State.hart_illegalAccess, if_pos rfl]
  · rw [State.hart_illegalAccess, if_neg hh]; exact ⟨rfl, rfl, rfl⟩

/-! ### The priority multiplexer (R341 to R344) -/

/-- The least candidate is the top identity where delivery and threshold let it through, and the top
identity is 0 otherwise. -/
theorem IFile.top_eq (x : IFile) {m : Nat} (hm : x.candidate m = true)
    (hmin : ∀ i, i < m → x.candidate i = false) :
    x.top = if x.eidelivery = true ∧ x.admits m = true then m else 0 := by
  have hl : lowest (nId + 1) x.candidate = some m :=
    (lowest_eq_some _ _ _).2 ⟨x.candidate_lt m hm, hm, hmin⟩
  rw [IFile.top, hl]
  cases x.eidelivery <;> simp

theorem IFile.top_of_no_candidate (x : IFile) (h : ∀ i, x.candidate i = false) : x.top = 0 := by
  have hl : lowest (nId + 1) x.candidate = none := (lowest_eq_none _ _).2 fun i _ => h i
  rw [IFile.top, hl]
  simp

theorem IFile.candidate_iff (x : IFile) (i : Nat) : x.candidate i = true ↔
    1 ≤ i ∧ i ≤ 2047 ∧ x.eip.getLsbD i = true ∧ x.eie.getLsbD i = true := by
  constructor
  · intro h
    have hlt := x.candidate_lt i h
    simp only [IFile.candidate, Bool.and_eq_true, decide_eq_true_eq] at h
    exact ⟨h.1.1, by omega, h.1.2, h.2⟩
  · rintro ⟨h1, -, h2, h3⟩
    simp [IFile.candidate, h1, h2, h3]

theorem IFile.admits_iff (x : IFile) (m : Nat) :
    x.admits m = true ↔ x.eithreshold = 0#11 ∨ m < x.eithreshold.toNat := by
  rw [IFile.admits, Bool.or_eq_true, beq_iff_eq, decide_eq_true_eq, ← BitVec.toNat_inj]
  rfl

theorem IFile.top_le (x : IFile) : x.top ≤ 2047 := by
  rcases x.top_spec with h | ⟨-, -, -, -, h, -⟩ <;> omega

/-- The two halves of `topei` do not overlap. -/
theorem IFile.topei_toNat (x : IFile) : x.topei.toNat = x.top * 2 ^ 16 + x.top := by
  have hle := x.top_le
  have hlow : (BitVec.ofNat 32 x.top).toNat = x.top := by rw [BitVec.toNat_ofNat]; omega
  have hhigh : (BitVec.ofNat 32 x.top <<< 16).toNat = x.top <<< 16 := by
    rw [BitVec.toNat_shiftLeft, hlow, Nat.shiftLeft_eq]; omega
  rw [IFile.topei, BitVec.toNat_or, hlow, hhigh, ← Nat.shiftLeft_add_eq_or_of_lt (by omega),
    Nat.shiftLeft_eq]

/-- Settles O50: the least candidate, if there is one, decides. -/
theorem topIsTheLeastCandidate : Obligations.TopIsTheLeastCandidate := by
  intro x cand
  refine ⟨IFile.top_of_not_eidelivery, fun hno => ?_, fun m hm hmin hd => ?_, x.top_le, x.topei_toNat, ?_⟩
  · exact x.top_of_no_candidate fun i => Bool.eq_false_iff.2 fun hc => hno i ((x.candidate_iff i).1 hc)
  · have htop := x.top_eq ((x.candidate_iff m).2 hm) fun i hi => Bool.eq_false_iff.2 fun hc =>
      absurd (hmin i ((x.candidate_iff i).1 hc)) (Nat.not_le.2 hi)
    refine ⟨fun ha => ?_, fun hne hle => ?_⟩
    · rw [htop, if_pos ⟨hd, (x.admits_iff m).2 ha⟩]
    · rw [htop, if_neg]
      rintro ⟨-, ha⟩
      rcases (x.admits_iff m).1 ha with h | h
      · exact hne h
      · omega
  · rw [IFile.irq, bne_iff_ne]

/-! ### The claim (R345, R346) -/

/-- A bit of the pending bits after a claim. -/
theorem IFile.claimed_eip (x : IFile) (i : Nat) : x.claimed.eip.getLsbD i =
    (x.eip.getLsbD i && (decide (i ≠ x.top) || decide (x.top = 0))) := by
  rw [IFile.claimed]
  by_cases h0 : x.top = 0
  · rw [if_pos h0]; simp [h0]
  · have hlt : x.top < 2048 := by have := x.top_le; omega
    rw [if_neg h0]
    dsimp only
    rw [getLsbD_setBit _ _ _ _ hlt]
    by_cases hi : i = x.top <;> simp [hi, h0]

theorem IFile.claimed_eq (x : IFile) : x.claimed = { x with eip := x.claimed.eip } := by
  rw [IFile.claimed]
  split <;> rfl

/-- After a claim the next top identity, if any, is a larger one. -/
theorem IFile.top_claimed (x : IFile) (h0 : x.top ≠ 0) :
    x.claimed.top = 0 ∨ x.top < x.claimed.top := by
  obtain ⟨-, -, -, -, -, hmin⟩ := x.top_spec.resolve_left h0
  refine x.claimed.top_spec.imp_right fun ⟨_, hc, _, h1, _, _⟩ => ?_
  obtain ⟨-, hle, hip, hie⟩ := (x.claimed.candidate_iff _).1 hc
  rw [x.claimed_eip, Bool.and_eq_true, Bool.or_eq_true, decide_eq_true_eq, decide_eq_true_eq] at hip
  have hne : x.claimed.top ≠ x.top := hip.2.resolve_right h0
  rw [congrArg IFile.eie x.claimed_eq] at hie
  have hcand : x.candidate x.claimed.top = true := (x.candidate_iff _).2 ⟨h1, hle, hip.1, hie⟩
  by_contra hlt
  exact Bool.false_ne_true ((hmin _ (by omega)).symm.trans hcand)

/-- What a file replaced and a claim answered leave. -/
theorem State.claimAnswer_frame (s : State) (h id : Nat) :
    ((s.claimAnswer h id).hart h).illegal = (s.hart h).illegal ∧
      ((s.claimAnswer h id).hart h).rdata = (s.hart h).rdata ∧
      State.sameOtherPorts h s (s.claimAnswer h id) := by
  refine ⟨?_, ?_, fun h' hh => ?_⟩
  · rw [State.hart_claimAnswer, if_pos rfl]
  · rw [State.hart_claimAnswer, if_pos rfl]
  · rw [State.hart_claimAnswer, if_neg hh]; exact ⟨rfl, rfl, rfl⟩

/-- Replacing the registers of one file leaves every other file and every page's transactor. -/
theorem State.sameOtherFiles_setFile (s : State) (h : Nat) (f : FileId) (x : IFile) :
    State.sameOtherFiles h f s (s.setFile h f x) := by
  refine ⟨fun h' f' => s.port_setFile h h' f f' x, fun h' f' hne => ?_⟩
  rw [State.file_setFile, if_neg fun heq => hne (Prod.ext heq.1 heq.2)]

theorem ofNat_top_toNat (x : IFile) : (BitVec.ofNat 11 x.top).toNat = x.top := by
  have := x.top_le
  rw [BitVec.toNat_ofNat]; omega

/-- Settles O55: in a context with a file the claim replaces the file by `claimed` and answers `top`. -/
theorem claimTakesTheTop : Obligations.ClaimTakesTheTop := by
  intro s h c
  cases hf : s.cfg.fileOf c with
  | none =>
    obtain ⟨hill, hrd, hports⟩ := s.claimAnswer_frame h 0
    refine ⟨_, exec_claim_none hf, hill, hrd, hports, rfl, fun _ => ⟨?_, fun h' f => by simp⟩, nofun⟩
    rw [State.hart_claimAnswer, if_pos rfl]
  | some f =>
    set x := s.file h f with hx
    obtain ⟨hill, hrd, hports⟩ := (s.setFile h f x.claimed).claimAnswer_frame h x.top
    have hkeep := s.hart_setFile h
    have hfile : ((s.setFile h f x.claimed).claimAnswer h x.top).file h f = x.claimed := by
      rw [State.file_claimAnswer, State.file_setFile, if_pos ⟨rfl, rfl⟩]
    refine ⟨_, exec_claim_some hf, hill.trans (hkeep h f _).1, hrd.trans (hkeep h f _).2.1, ?_, rfl,
      nofun, ?_⟩
    · intro h' hh
      obtain ⟨h1, h2, h3⟩ := hports h' hh
      obtain ⟨k1, k2, k3⟩ := hkeep h' f x.claimed
      exact ⟨h1.trans k1, h2.trans k2, h3.trans k3⟩
    · rintro f' ⟨⟩
      refine ⟨?_, fun h0 => ?_, fun h0 => ⟨x.claimed.eip, ?_, fun i => ?_, ?_⟩, ?_, ?_⟩
      · rw [State.hart_claimAnswer, if_pos rfl, ofNat_top_toNat]
      · rw [hfile, IFile.claimed, if_pos h0]
      · rw [hfile]; exact x.claimed_eq
      · rw [x.claimed_eip, decide_eq_false h0, Bool.or_false]
      · rw [hfile]; exact x.top_claimed h0
      · intro h' f'
        rw [State.unit_claimAnswer]; exact s.port_setFile h h' f f' _
      · intro h' f' hne
        rw [State.file_claimAnswer]; exact (s.sameOtherFiles_setFile h f _).2 h' f' hne

/-! ### The reception of an MSI (R347, R349) -/

/-- A bit of the pending bits after an MSI. -/
theorem IFile.receive_eip (x : IFile) (w : Word) (i : Nat) : (x.receive w).eip.getLsbD i =
    (x.eip.getLsbD i || (decide (i = w.toNat) && decide (1 ≤ i) && decide (i ≤ 2047))) := by
  rw [IFile.receive, nId]
  by_cases hw : 1 ≤ w.toNat ∧ w.toNat ≤ 2047
  · rw [if_pos hw]
    dsimp only
    rw [getLsbD_setBit _ _ _ _ (by omega)]
    by_cases hi : i = w.toNat
    · subst hi; simp [hw]
    · simp [hi]
  · rw [if_neg hw]
    by_cases hi : i = w.toNat
    · subst hi
      have : (decide (1 ≤ w.toNat) && decide (w.toNat ≤ 2047)) = false := by simpa using hw
      rw [Bool.and_assoc, this, Bool.and_false, Bool.or_false]
    · simp [hi]

theorem IFile.receive_eq (x : IFile) (w : Word) : x.receive w = { x with eip := (x.receive w).eip } := by
  rw [IFile.receive]
  split <;> rfl

/-- Settles O57: the reception replaces the registers of the file and acknowledges the write. -/
theorem msiReceptionSetsItsIdentity : Obligations.MsiReceptionSetsItsIdentity := by
  intro s h f w x
  refine ⟨_, exec_putSeteipnum h f w s, rfl, ⟨(x.receive w).eip, ?_, x.receive_eip w⟩,
    s.sameOtherFiles_setFile h f _, fun h' => s.hart_setFile h h' f _, rfl⟩
  rw [State.acknowledge_file, State.file_setFile, if_pos ⟨rfl, rfl⟩]
  exact x.receive_eq w

end Sys2Proof.Machine
end

section
/-! The state after reset, and the bus operations at a transactor (R170 to R183, R410 to R413). -/

namespace Sys2Proof.Machine

-- one proof at a time: the memory the check may take bounds the number of threads
set_option Elab.async false

/-! ### The invariant, clause by clause -/

/-- A delivery mode that its kind allows (R35). -/
def dmAllowed (k : DmKind) (dm : Bool) : Prop :=
  (k = .fixedMsi → dm = true) ∧ (k = .fixedDirect → dm = false)

theorem State.domainOk_iff (s : State) (d : Dom) : s.domainOk d = true ↔
    (dmAllowed (s.cfg.dmKind d) (s.dom d).dm ∧ namesHart s.cfg (s.dom d).genmsi = true ∧
      ¬ ((s.dom d).genmsiBusy = true ∧ s.cfg.genmsi = .refused) ∧
      (s.dom d).port.ok s.cfg (.ext (.window d)) = true ∧ (s.dom d).msi.ok s.cfg (.msi d) = true) ∧
    (s.dom d).tickets.map Prod.fst = if (s.dom d).dm then s.want d else [] := by
  unfold State.domainOk dmAllowed
  cases s.cfg.dmKind d <;> cases (s.dom d).genmsiBusy <;> simp [and_assoc]

theorem forall_dom {p : Dom → Prop} : (∀ d, p d) ↔ p .M ∧ p .S :=
  ⟨fun h => ⟨h .M, h .S⟩, fun h d => by cases d; exacts [h.1, h.2]⟩

theorem State.inv_iff (s : State) : s.inv = true ↔ s.cfg.valid = true ∧
    s.deleg &&& ~~~sourceMask s.cfg = 0#1024 ∧ s.rawInput &&& ~~~sourceMask s.cfg = 0#1024 ∧
    (∀ d, s.sourcesOk d = true) ∧ (∀ d, s.domainOk d = true) ∧ s.hartsOk = true := by
  simp only [State.inv, Bool.and_eq_true, beq_iff_eq, forall_dom, and_assoc]

/-! ### Reset -/

section
variable (c : Config)

theorem State.resetOf_source (d : Dom) (n : Nat) : (State.resetOf c).source d n = Source.zero := by
  cases d <;> rfl

theorem State.resetOf_unit (h : Nat) (f : FileId) : (State.resetOf c).unit h f = FileUnit.zero := by
  cases f <;> rfl

theorem State.resetOf_tx (x : TxId) : (State.resetOf c).tx x = Transactor.idle := by
  rcases x with (d | ⟨h, f⟩) | d
  · cases d <;> rfl
  · rw [State.tx, State.resetOf_unit]; rfl
  · cases d <;> rfl

/-- Right after reset no domain owes anything. -/
theorem State.resetOf_want (d : Dom) : (State.resetOf c).want d = [] := by
  have hdue : (State.resetOf c).due d = [] := by
    rw [State.due, State.sourcesWhere, List.filter_eq_nil_iff]
    intro n _
    simp [State.deliverable, State.resetOf_source, Source.zero]
  rw [State.want, hdue]
  cases d <;> rfl

theorem State.resetOf_domainOk {c : Config} (hv : 1 ≤ c.nHart) (d : Dom) :
    (State.resetOf c).domainOk d = true := by
  have hdm : ((State.resetOf c).dom d).dm = (c.dmKind d == .fixedMsi) := by cases d <;> rfl
  have hgen : ((State.resetOf c).dom d).genmsi = 0#32 := by cases d <;> rfl
  have hbusy : ((State.resetOf c).dom d).genmsiBusy = false := by cases d <;> rfl
  have hport : ((State.resetOf c).dom d).port = .idle := by cases d <;> rfl
  have hmsi : ((State.resetOf c).dom d).msi = .idle := by cases d <;> rfl
  have htick : ((State.resetOf c).dom d).tickets = [] := by cases d <;> rfl
  refine (State.domainOk_iff _ d).2 ⟨⟨?_, ?_, ?_, ?_, ?_⟩, ?_⟩
  · show dmAllowed (c.dmKind d) _
    rw [hdm]
    exact ⟨fun h => by rw [h]; rfl, fun h => by rw [h]; rfl⟩
  · rw [hgen]; exact decide_eq_true hv
  · rw [hbusy]; exact fun h => nomatch h.1
  · rw [hport]; rfl
  · rw [hmsi]; rfl
  · rw [htick, State.resetOf_want, ite_self]; rfl

end

theorem Config.valid_bounds {c : Config} (hv : c.valid = true) :
    1 ≤ c.nSrc.toNat ∧ 1 ≤ c.nHart ∧ 1 ≤ c.timeout := by
  simp only [Config.valid, Bool.and_eq_true, decide_eq_true_eq] at hv
  exact ⟨hv.1.1.1.1.1.1.1.1, hv.1.1.1.1.1.1.1.2, hv.1.1.1.1.1.1.2⟩

/-- Settles O13: after reset every table is empty, every transactor idle and every word 0. -/
theorem invariantHoldsAtReset : Obligations.InvariantHoldsAtReset := by
  have h (c : Config) (hv : c.valid = true) : (State.resetOf c).inv = true := by
    refine (State.inv_iff _).2 ⟨hv, BitVec.zero_and, BitVec.zero_and, fun d => ?_,
      State.resetOf_domainOk (Config.valid_bounds hv).2.1, rfl⟩
    cases d <;> rfl
  exact ⟨h .tc Tests.test_config_ok, h⟩

/-- Settles O16: each element is read off the reset state. -/
theorem resetLeavesEveryElementZero : Obligations.ResetLeavesEveryElementZero := by
  intro c s
  refine ⟨fun d => ?_, rfl, rfl, rfl, rfl, rfl, rfl, fun d n => ?_, fun h f => ?_, fun h => rfl,
    fun x => ?_⟩
  · cases d <;> exact ⟨rfl, rfl, rfl, rfl, rfl⟩
  · rw [State.resetOf_source]; exact ⟨rfl, rfl, rfl, rfl, rfl⟩
  · rw [State.file, State.resetOf_unit]; exact ⟨rfl, rfl, rfl, rfl⟩
  · rw [State.resetOf_tx]; exact ⟨rfl, rfl⟩

/-- Settles O17: a tick with reset is `applyReset` after the tick's lines are driven. -/
theorem resetTickLeavesTheResetState : Obligations.ResetTickLeavesTheResetState := by
  intro s hr
  rw [step, State.tick, if_pos hr]
  rfl

/-! ### Calls and responses -/

theorem callTransactor_idle {s : State} {r : BusA} {p : Port} (hp : s.cfg.portOf r.address = some p)
    (hi : (s.tx (.ext p)).phase = .idle) : callTransactor r s =
      .next (s.setTx (.ext p) ((s.tx (.ext p)).begin s.cfg.timeout r)) := by
  rw [callTransactor, hp]
  exact if_pos hi

theorem callTransactor_busy {s : State} {r : BusA} {p : Port} (hp : s.cfg.portOf r.address = some p)
    (hi : (s.tx (.ext p)).phase ≠ .idle) : callTransactor r s = .next s := by
  rw [callTransactor, hp]
  exact if_neg hi

theorem exec_get32 (a : Addr) (s : State) : exec (.get32 a) s = callTransactor (.get a) s := rfl

theorem exec_put32 (a : Addr) (w : Word) (s : State) :
    exec (.put32 a w) s = callTransactor (.put a w) s := rfl

theorem exec_accessAck (x : TxId) (s : State) :
    exec (.accessAck x) s = takeResponse x opPut (fun _ => .ack) s := rfl

theorem exec_accessAckData (x : TxId) (data : DWord) (s : State) : exec (.accessAckData x data) s =
    takeResponse x opGet (fun t => .ackData (fromLanes t.req.address data)) s := rfl

theorem takeResponse_taken {x : TxId} {op : BitVec 3} {f : Transactor → Result} {s : State}
    (hp : (s.tx x).phase = .response) (ho : (s.tx x).req.opcode = op) :
    takeResponse x op f s = .next (s.setTx x (.finished (f (s.tx x)))) := by
  rw [takeResponse, if_neg (not_not.2 hp), if_pos ho]

theorem takeResponse_unawaited {x : TxId} {op : BitVec 3} {f : Transactor → Result} {s : State}
    (hp : (s.tx x).phase ≠ .response) : takeResponse x op f s = .next s := if_pos hp

theorem takeResponse_mismatch {x : TxId} {op : BitVec 3} {f : Transactor → Result} {s : State}
    (hp : (s.tx x).phase = .response) (ho : (s.tx x).req.opcode ≠ op) :
    takeResponse x op f s = .refused .responseMismatch := by
  rw [takeResponse, if_neg (not_not.2 hp), if_neg ho]

/-- Settles O18: both are a call of an idle transactor. -/
theorem callBeginsARequest : Obligations.CallBeginsARequest := by
  intro s a p hp hi
  refine ⟨?_, fun w => ?_⟩
  · rw [exec_get32, callTransactor_idle (r := .get a) hp hi]; rfl
  · rw [exec_put32, callTransactor_idle (r := .put a w) hp hi]; rfl

/-- The word in the lanes of an address: the high or the low half of the data. -/
theorem fromLanes_eq_ite (a : Addr) (data : DWord) : fromLanes a data =
    if a.getLsbD 2 then data.extractLsb' 32 32 else data.extractLsb' 0 32 := by
  rw [fromLanes]
  refine if_congr Iff.rfl ?_ (BitVec.setWidth_eq_extractLsb' (by decide))
  apply BitVec.eq_of_getLsbD_eq
  intro i hi
  simp [hi]

/-- Settles O19: both are a response that the latched request requires. -/
theorem responseEndsTheTransaction : Obligations.ResponseEndsTheTransaction := by
  intro s x hx
  refine ⟨fun ho => ?_, fun ho data => ?_⟩
  · exact (exec_accessAck x s).trans (takeResponse_taken hx ho)
  · rw [← fromLanes_eq_ite]
    exact (exec_accessAckData x data s).trans (takeResponse_taken hx ho)

/-- Settles O20: a call of a busy transactor, and the two responses that are not the awaited one. -/
theorem transactorTurnsAwayWhatItDoesNotAwait : Obligations.TransactorTurnsAwayWhatItDoesNotAwait := by
  intro s x data
  rw [exec_accessAck, exec_accessAckData]
  refine ⟨?_, fun hx => ⟨takeResponse_unawaited hx, takeResponse_unawaited hx⟩,
    fun hx => ⟨fun ho => takeResponse_mismatch hx ho, fun ho => takeResponse_mismatch hx ho⟩⟩
  rintro a p rfl hp hx
  exact ⟨callTransactor_busy (r := .get a) hp hx, fun w => callTransactor_busy (r := .put a w) hp hx⟩

end Sys2Proof.Machine
end

section
/-! What an instruction can do, said once: if it answers a next state, one of the cases of `Effect` holds.
Everything that is said of every instruction is read off these cases. -/

namespace Sys2Proof.Machine

-- one proof at a time: the memory the check may take bounds the number of threads
set_option Elab.async false

/-- The four kinds of instruction: at the master side of the bus, a read and a write at a slave port, and at
a hart's own ports. -/
inductive Kind where
  | bus
  | read
  | write
  | hart
deriving DecidableEq

def kindOf : Instr → Kind
  | .get32 _ | .put32 _ _ | .accessAck _ | .accessAckData _ _ => .bus
  | .getDomaincfg _ | .getMmsiaddrcfg _ | .getMmsiaddrcfgh _ | .getSmsiaddrcfg _ | .getSmsiaddrcfgh _
  | .getSetipnum _ | .getClripnum _ | .getSetienum _ | .getClrienum _ | .getSetipnumLe _
  | .getSetipnumBe _ | .getGenmsi _ | .getSourcecfg _ _ | .getSetip _ _ | .getInClrip _ _ | .getSetie _ _
  | .getClrie _ _ | .getTargets _ _ | .getRozero _ _ | .getReserved _ _ | .getPage _ _ _ => .read
  | .putDomaincfg _ _ | .putMmsiaddrcfg _ _ | .putMmsiaddrcfgh _ _ | .putSmsiaddrcfg _ _
  | .putSmsiaddrcfgh _ _ | .putSetipnum _ _ | .putClripnum _ _ | .putSetienum _ _ | .putClrienum _ _
  | .putSetipnumLe _ _ | .putSetipnumBe _ _ | .putGenmsi _ _ | .putSourcecfg _ _ _ | .putSetip _ _ _
  | .putInClrip _ _ _ | .putSetie _ _ _ | .putClrie _ _ _ | .putTargets _ _ _ | .putRozero _ _ _
  | .putReserved _ _ _ | .putSeteipnum _ _ _ | .putPage _ _ _ _ => .write
  | .csrxIllegalOp _ _ _ _ | .csrIllegalContext _ _ _ _ _ | .csrIllegalSelector _ _ _ _ _
  | .csrwEidelivery _ _ _ | .csrsEidelivery _ _ _ | .csrcEidelivery _ _ _
  | .csrwEithreshold _ _ _ | .csrsEithreshold _ _ _ | .csrcEithreshold _ _ _
  | .csrwEip _ _ _ _ | .csrsEip _ _ _ _ | .csrcEip _ _ _ _
  | .csrwEie _ _ _ _ | .csrsEie _ _ _ _ | .csrcEie _ _ _ _ | .claim _ _ => .hart

/-- The request an instruction calls a transactor with, if it is a call. -/
def callOf : Instr → Option BusA
  | .get32 a => some (.get a)
  | .put32 a w => some (.put a w)
  | _ => none

/-- The transactor an instruction is a response at, with the request it answers, if it is one. -/
def responseOf : Instr → Option (TxId × BitVec 3)
  | .accessAck x => some (x, opPut)
  | .accessAckData x _ => some (x, opGet)
  | _ => none

/-- What a write to a source register of domain `d` does to a source it names; only the two clear-pending
writes clear (R269, R270, R272, R239). -/
inductive SourceOp (s : State) (d : Dom) (i : Instr) : (Nat → Source → Source) → Prop
  | request : SourceOp s d i fun _ => Source.requestSet
  | clear (hi : (∃ k w, i = .putInClrip d k w) ∨ ∃ w, i = .putClripnum d w) :
      SourceOp s d i fun n x => x.requestClear (s.rawInput.getLsbD n)
  | enable : SourceOp s d i fun _ => Source.enable
  | disable : SourceOp s d i fun _ => Source.disable
  | target (w : Word) :
      SourceOp s d i fun _ x => { x with target := warlTarget s.cfg d (s.dom d).dm w }

/-- All an instruction can do to a state. -/
inductive Effect (s : State) (i : Instr) : State → Prop
  | busy {r : BusA} (hi : callOf i = some r) : Effect s i s
  | begins {r : BusA} {p : Port} (hi : callOf i = some r) (hp : s.cfg.portOf r.address = some p)
      (hx : (s.tx (.ext p)).phase = .idle) :
      Effect s i (s.setTx (.ext p) ((s.tx (.ext p)).begin s.cfg.timeout r))
  | unawaited {x : TxId} {op : BitVec 3} (hi : responseOf i = some (x, op))
      (hx : (s.tx x).phase ≠ .response) : Effect s i s
  | taken {x : TxId} {op : BitVec 3} (hi : responseOf i = some (x, op)) (hx : (s.tx x).phase = .response)
      (r : Result) : Effect s i (s.setTx x (.finished r))
  | answered (w : Word) (hi : kindOf i = .read) : Effect s i (s.answerData w)
  | ignored (hi : kindOf i = .write) : Effect s i s.acknowledge
  | config (d : Dom) (w : Word) (hi : i = .putDomaincfg d w) :
      Effect s i (s.setDom d ((s.dom d).writeCfg (s.cfg.dmKind d) w)).acknowledge
  | mmsiaddrcfg (w : Word) (hi : i = .putMmsiaddrcfg .M w) :
      Effect s i { s with mmsiaddrcfg := w }.acknowledge
  | mmsiaddrcfgh (w : Word) (hi : i = .putMmsiaddrcfgh .M w) :
      Effect s i { s with mmsiaddrcfgh := w }.acknowledge
  | smsiaddrcfg (w : Word) (hi : i = .putSmsiaddrcfg .M w) :
      Effect s i { s with smsiaddrcfg := w }.acknowledge
  | smsiaddrcfgh (w : Word) (hi : i = .putSmsiaddrcfgh .M w) :
      Effect s i { s with smsiaddrcfgh := w }.acknowledge
  | named (d : Dom) (n : Nat) {g : Nat → Source → Source} (hi : kindOf i = .write)
      (hg : SourceOp s d i g) : Effect s i (s.modifyOwned d n (g n)).acknowledge
  | bits (d : Dom) (k : Bank) (w : Word) {g : Nat → Source → Source} {change : Nat → State → State}
      (hi : kindOf i = .write) (hg : SourceOp s d i g)
      (hchange : ∀ n t, t.rawInput = s.rawInput → change n t = t.modifyOwned d n (g n)) :
      Effect s i (forBits k w change s).acknowledge
  | sourcecfg (d : Dom) (n : BitVec 10) (w : Word) (hi : i = .putSourcecfg d n w) :
      Effect s i (s.sourcecfgWrite d n.toNat w).acknowledge
  | genmsi (d : Dom) (w : Word) (hi : i = .putGenmsi d w) (hk : s.cfg.genmsi = .modelled) :
      Effect s i (s.setDom d ((s.dom d).writeGenmsi s.cfg w)).acknowledge
  | illegal (h : Nat) (hi : csrHartOf i = some h) : Effect s i (s.illegalAccess h)
  | access (h : Nat) {c : Ctx} {f : FileId} (r : IReg) (op : CsrOp) (v : DWord)
      (hi : csrHartOf i = some h) (hf : s.cfg.fileOf c = some f) :
      Effect s i ((s.setFile h f ((s.file h f).access r op v)).legalAccess h ((s.file h f).read r))
  | claimedNone (h : Nat) (c : Ctx) (hi : i = .claim h c) : Effect s i (s.claimAnswer h 0)
  | claimed (h : Nat) (c : Ctx) {f : FileId} (hi : i = .claim h c) (hf : s.cfg.fileOf c = some f) :
      Effect s i ((s.setFile h f (s.file h f).claimed).claimAnswer h (s.file h f).top)
  | received (h : Nat) (f : FileId) (w : Word) (hi : i = .putSeteipnum h f w) :
      Effect s i (s.setFile h f ((s.file h f).receive w)).acknowledge

section
variable {i : Instr} {s t u : State}

theorem Effect.of_eq (h : exec i s = .next t) (hu : exec i s = .next u) (he : Effect s i u) :
    Effect s i t := by
  rw [hu] at h
  cases h
  exact he

theorem Effect.of_call {r : BusA} (hi : callOf i = some r) (h : callTransactor r s = .next t) :
    Effect s i t := by
  rcases callTransactor_cases h with ⟨-, h⟩ | ⟨p, hp, hx, h⟩ | ⟨p, -, -, h⟩ <;> cases h
  · exact .begins hi hp hx
  · exact .busy hi

theorem Effect.of_response {x : TxId} {op : BitVec 3} {f : Transactor → Result}
    (hi : responseOf i = some (x, op)) (h : takeResponse x op f s = .next t) : Effect s i t := by
  rcases takeResponse_cases h with ⟨hx, h⟩ | ⟨hx, -, h⟩ | ⟨-, -, h⟩ <;> cases h
  · exact .unawaited hi hx
  · exact .taken hi hx _

theorem Effect.of_access {h : Nat} {c : Ctx} {r : IReg} {op : CsrOp} {v : DWord}
    (hi : csrHartOf i = some h) (ha : csrAccess h c r op v s = .next t) : Effect s i t := by
  rcases csrAccess_cases ha with ⟨-, ha⟩ | ⟨f, hf, ha⟩ <;> cases ha
  · exact .illegal h hi
  · exact .access h r op v hi hf

/-- If an instruction answers a next state, one of the cases of `Effect` holds. -/
theorem exec_effect (h : exec i s = .next t) : Effect s i t := by
  cases i with
  | get32 a => exact .of_call rfl h
  | put32 a w => exact .of_call rfl h
  | accessAck x => exact .of_response (f := fun _ => .ack) rfl h
  | accessAckData x data =>
    exact .of_response (f := fun t => .ackData (fromLanes t.req.address data)) rfl h
  | getDomaincfg | getMmsiaddrcfg | getMmsiaddrcfgh | getSmsiaddrcfg | getSmsiaddrcfgh | getSetipnum
  | getClripnum | getSetienum | getClrienum | getSetipnumLe | getSetipnumBe | getSourcecfg | getSetip
  | getInClrip | getSetie | getClrie | getTargets | getRozero | getReserved | getPage =>
    exact .of_eq h rfl (.answered _ rfl)
  | putRozero | putReserved | putPage => exact .of_eq h rfl (.ignored rfl)
  | getGenmsi d =>
    cases hk : s.cfg.genmsi with
    | modelled => exact .of_eq h (exec_getGenmsi d hk) (.answered _ rfl)
    | refused => rw [(exec_genmsi_refused d 0#32 hk).1] at h; cases h
  | putGenmsi d w =>
    cases hk : s.cfg.genmsi with
    | modelled => exact .of_eq h (exec_putGenmsi d w hk) (.genmsi d w rfl hk)
    | refused => rw [(exec_genmsi_refused d w hk).2] at h; cases h
  | putDomaincfg d w => exact .of_eq h rfl (.config d w rfl)
  | putMmsiaddrcfg d w =>
    cases d with
    | M => exact .of_eq h rfl (.mmsiaddrcfg w rfl)
    | S => exact .of_eq h rfl (.ignored rfl)
  | putMmsiaddrcfgh d w =>
    cases d with
    | M => exact .of_eq h rfl (.mmsiaddrcfgh w rfl)
    | S => exact .of_eq h rfl (.ignored rfl)
  | putSmsiaddrcfg d w =>
    cases d with
    | M => exact .of_eq h rfl (.smsiaddrcfg w rfl)
    | S => exact .of_eq h rfl (.ignored rfl)
  | putSmsiaddrcfgh d w =>
    cases d with
    | M => exact .of_eq h rfl (.smsiaddrcfgh w rfl)
    | S => exact .of_eq h rfl (.ignored rfl)
  | putSetipnum d w => exact .of_eq h rfl (.named d w.toNat rfl .request)
  | putSetipnumLe d w =>
    rw [exec_putSetipnumLe] at h
    split at h
    · exact (Host.Outcome.next.inj h) ▸ .ignored rfl
    · exact (Host.Outcome.next.inj h) ▸ .named d w.toNat rfl .request
  | putSetipnumBe d w =>
    rw [exec_putSetipnumBe] at h
    split at h
    · exact (Host.Outcome.next.inj h) ▸ .named d w.toNat rfl .request
    · exact (Host.Outcome.next.inj h) ▸ .ignored rfl
  | putClripnum d w => exact .of_eq h rfl (.named d w.toNat rfl (.clear (.inr ⟨w, rfl⟩)))
  | putSetienum d w => exact .of_eq h rfl (.named d w.toNat rfl .enable)
  | putClrienum d w => exact .of_eq h rfl (.named d w.toNat rfl .disable)
  | putTargets d n w => exact .of_eq h rfl (.named d n.toNat rfl (.target w))
  | putSetip d k w => exact .of_eq h rfl (.bits d k w rfl .request fun _ _ _ => rfl)
  | putInClrip d k w =>
    exact .of_eq h rfl (.bits d k w rfl (.clear (.inl ⟨k, w, rfl⟩)) fun n t ht => by
      rw [State.clearPendingReq, ht])
  | putSetie d k w => exact .of_eq h rfl (.bits d k w rfl .enable fun _ _ _ => rfl)
  | putClrie d k w => exact .of_eq h rfl (.bits d k w rfl .disable fun _ _ _ => rfl)
  | putSourcecfg d n w => exact .of_eq h rfl (.sourcecfg d n w rfl)
  | putSeteipnum h' f w => exact .of_eq h rfl (.received h' f w rfl)
  | csrxIllegalOp | csrIllegalContext | csrIllegalSelector => exact .of_eq h rfl (.illegal _ rfl)
  | csrwEidelivery | csrsEidelivery | csrcEidelivery | csrwEithreshold | csrsEithreshold
  | csrcEithreshold | csrwEip | csrsEip | csrcEip | csrwEie | csrsEie | csrcEie =>
    exact .of_access rfl h
  | claim h' c =>
    cases hf : s.cfg.fileOf c with
    | none => exact .of_eq h (exec_claim_none hf) (.claimedNone h' c rfl)
    | some f => exact .of_eq h (exec_claim_some hf) (.claimed h' c rfl hf)

end

end Sys2Proof.Machine
end

section
/-! Rules over every instruction: what each leaves unchanged, and that the tables of sources stay in canonical
form; then the trigger rules at the end of a tick. -/

namespace Sys2Proof.Machine

-- one proof at a time: the memory the check may take bounds the number of threads
set_option Elab.async false

/-! ### What no domain register and no transactor holds -/

/-- What the two states have in common beyond the domains, the files and the slave's answer. -/
structure State.SameCommon (s t : State) : Prop where
  cfg : t.cfg = s.cfg
  rawInput : t.rawInput = s.rawInput
  line : t.line = s.line
  inputs : t.inputs = s.inputs
  freeIndex : t.freeIndex = s.freeIndex
  deleg : t.deleg = s.deleg
  mmsiaddrcfg : t.mmsiaddrcfg = s.mmsiaddrcfg
  mmsiaddrcfgh : t.mmsiaddrcfgh = s.mmsiaddrcfgh
  smsiaddrcfg : t.smsiaddrcfg = s.smsiaddrcfg
  smsiaddrcfgh : t.smsiaddrcfgh = s.smsiaddrcfgh
  illegal : ∀ h, (t.hart h).illegal = (s.hart h).illegal

theorem State.SameCommon.refl (s : State) : s.SameCommon s :=
  ⟨rfl, rfl, rfl, rfl, rfl, rfl, rfl, rfl, rfl, rfl, fun _ => rfl⟩

theorem State.SameCommon.setDom (s : State) (d : Dom) (x : Domain) : s.SameCommon (s.setDom d x) := by
  cases d
  case M => exact ⟨rfl, rfl, rfl, rfl, rfl, rfl, rfl, rfl, rfl, rfl, fun _ => rfl⟩
  case S => exact ⟨rfl, rfl, rfl, rfl, rfl, rfl, rfl, rfl, rfl, rfl, fun _ => rfl⟩

theorem State.SameCommon.setUnit (s : State) (h : Nat) (f : FileId) (u : FileUnit) :
    s.SameCommon (s.setUnit h f u) := by
  refine ⟨rfl, rfl, rfl, rfl, rfl, rfl, rfl, rfl, rfl, rfl, fun h' => ?_⟩
  rw [State.hart_setUnit]
  split
  · rename_i hh; rw [hh]; simp
  · rfl

theorem State.SameCommon.setTx (s : State) (x : TxId) (v : Transactor) : s.SameCommon (s.setTx x v) := by
  rcases x with (d | ⟨h, f⟩) | d
  · exact .setDom s d _
  · exact .setUnit s h f _
  · exact .setDom s d _

theorem State.SameCommon.answer {s t : State} (h : s.SameCommon t) (a : Answer) :
    s.SameCommon { t with answer := a } :=
  ⟨h.cfg, h.rawInput, h.line, h.inputs, h.freeIndex, h.deleg, h.mmsiaddrcfg, h.mmsiaddrcfgh,
    h.smsiaddrcfg, h.smsiaddrcfgh, h.illegal⟩

theorem State.SameCommon.modifyOwned (s : State) (d : Dom) (n : Nat) (f : Source → Source) :
    s.SameCommon (s.modifyOwned d n f) := by
  obtain ⟨tb, htb⟩ := s.modifyOwned_frame d n f
  rw [htb]; exact .setDom s d _

theorem State.SameCommon.claimAnswer {s t : State} (hst : s.SameCommon t) (h id : Nat) :
    s.SameCommon (t.claimAnswer h id) := by
  refine ⟨hst.cfg, hst.rawInput, hst.line, hst.inputs, hst.freeIndex, hst.deleg, hst.mmsiaddrcfg,
    hst.mmsiaddrcfgh, hst.smsiaddrcfg, hst.smsiaddrcfgh, fun h' => ?_⟩
  rw [State.hart_claimAnswer]
  split
  · rename_i hh; rw [hh]; exact hst.illegal h
  · exact hst.illegal h'

/-- A write of `sourcecfg` leaves all that the domains do not hold but the delegation bits, and these too
where it comes from the supervisor window. -/
theorem State.sourcecfgWrite_common (s : State) (d : Dom) (n : Nat) (w : Word) :
    ∃ b, { s with deleg := b }.SameCommon (s.sourcecfgWrite d n w) ∧ (d = .S → b = s.deleg) := by
  by_cases h0 : n = 0 ∨ s.cfg.nSrc.toNat < n
  · exact ⟨s.deleg, by rw [s.sourcecfgWrite_none d w h0]; exact .refl s, fun _ => rfl⟩
  · cases d with
    | M =>
      obtain ⟨tm, ts, b, hfr⟩ := s.sourcecfgWrite_M_frame n w h0
      rw [hfr]
      exact ⟨b, ⟨rfl, rfl, rfl, rfl, rfl, rfl, rfl, rfl, rfl, rfl, fun _ => rfl⟩, nofun⟩
    | S => exact ⟨s.deleg, by rw [s.sourcecfgWrite_S w h0]; exact .modifyOwned s .S n _, fun _ => rfl⟩

/-- Settles O59: in most cases all that is named is left; the others are the delegation bits of a machine
`sourcecfg` write, the four words, and the flag of a hart that makes an indirect access. -/
theorem onlyTheNamedInstructionsChange : Obligations.OnlyTheNamedInstructionsChange := by
  intro i s t h
  have all {u : State} (hu : s.SameCommon u) : (u.cfg = s.cfg ∧ u.rawInput = s.rawInput ∧
      u.line = s.line ∧ u.inputs = s.inputs ∧ u.freeIndex = s.freeIndex) ∧
      ((∀ n w, i ≠ .putSourcecfg .M n w) → u.deleg = s.deleg) ∧
      ((∀ w, i ≠ .putMmsiaddrcfg .M w) → u.mmsiaddrcfg = s.mmsiaddrcfg) ∧
      ((∀ w, i ≠ .putMmsiaddrcfgh .M w) → u.mmsiaddrcfgh = s.mmsiaddrcfgh) ∧
      ((∀ w, i ≠ .putSmsiaddrcfg .M w) → u.smsiaddrcfg = s.smsiaddrcfg) ∧
      ((∀ w, i ≠ .putSmsiaddrcfgh .M w) → u.smsiaddrcfgh = s.smsiaddrcfgh) ∧
      ∀ h, csrHartOf i ≠ some h → (u.hart h).illegal = (s.hart h).illegal :=
    ⟨⟨hu.cfg, hu.rawInput, hu.line, hu.inputs, hu.freeIndex⟩, fun _ => hu.deleg, fun _ => hu.mmsiaddrcfg,
      fun _ => hu.mmsiaddrcfgh, fun _ => hu.smsiaddrcfg, fun _ => hu.smsiaddrcfgh, fun h _ => hu.illegal h⟩
  cases exec_effect h with
  | busy | unawaited => exact all (.refl s)
  | begins | taken => exact all (.setTx s _ _)
  | answered w => exact all ((State.SameCommon.refl s).answer _)
  | ignored => exact all ((State.SameCommon.refl s).answer _)
  | config d w => exact all ((State.SameCommon.setDom s d _).answer _)
  | mmsiaddrcfg w hi =>
    exact ⟨⟨rfl, rfl, rfl, rfl, rfl⟩, fun _ => rfl, fun hne => absurd hi (hne w), fun _ => rfl,
      fun _ => rfl, fun _ => rfl, fun _ _ => rfl⟩
  | mmsiaddrcfgh w hi =>
    exact ⟨⟨rfl, rfl, rfl, rfl, rfl⟩, fun _ => rfl, fun _ => rfl, fun hne => absurd hi (hne w),
      fun _ => rfl, fun _ => rfl, fun _ _ => rfl⟩
  | smsiaddrcfg w hi =>
    exact ⟨⟨rfl, rfl, rfl, rfl, rfl⟩, fun _ => rfl, fun _ => rfl, fun _ => rfl,
      fun hne => absurd hi (hne w), fun _ => rfl, fun _ _ => rfl⟩
  | smsiaddrcfgh w hi =>
    exact ⟨⟨rfl, rfl, rfl, rfl, rfl⟩, fun _ => rfl, fun _ => rfl, fun _ => rfl, fun _ => rfl,
      fun hne => absurd hi (hne w), fun _ _ => rfl⟩
  | named d n => exact all ((State.SameCommon.modifyOwned s d n _).answer _)
  | bits d k w hi hg hchange =>
    obtain ⟨⟨tb, htb⟩, -⟩ := forBits_spec d k w _ s _ hchange
    rw [htb]; exact all ((State.SameCommon.setDom s d _).answer _)
  | sourcecfg d n w hi =>
    obtain ⟨b, hb, hS⟩ := s.sourcecfgWrite_common d n.toNat w
    refine ⟨⟨hb.cfg, hb.rawInput, hb.line, hb.inputs, hb.freeIndex⟩, fun hne => ?_,
      fun _ => hb.mmsiaddrcfg, fun _ => hb.mmsiaddrcfgh, fun _ => hb.smsiaddrcfg,
      fun _ => hb.smsiaddrcfgh, fun h _ => hb.illegal h⟩
    cases d with
    | M => exact absurd hi (hne n w)
    | S => exact hb.deleg.trans (hS rfl)
  | genmsi d w => exact all ((State.SameCommon.setDom s d _).answer _)
  | illegal j hi =>
    refine ⟨⟨rfl, rfl, rfl, rfl, rfl⟩, fun _ => rfl, fun _ => rfl, fun _ => rfl, fun _ => rfl,
      fun _ => rfl, fun h' hne => ?_⟩
    rw [State.hart_illegalAccess, if_neg fun hj : h' = j => hne (hj ▸ hi)]
  | access j r op v hi =>
    refine ⟨⟨rfl, rfl, rfl, rfl, rfl⟩, fun _ => rfl, fun _ => rfl, fun _ => rfl, fun _ => rfl,
      fun _ => rfl, fun h' hne => ?_⟩
    rw [State.hart_legalAccess, if_neg fun hj : h' = j => hne (hj ▸ hi)]
    exact (s.hart_setFile _ _ _ _).1
  | claimedNone j => exact all ((State.SameCommon.refl s).claimAnswer j 0)
  | claimed j => exact all ((State.SameCommon.setUnit s j _ _).claimAnswer j _)
  | received j f => exact all ((State.SameCommon.setUnit s j f _).answer _)

/-! ### What instructions do to the sources -/

/-- A domain replaced by one with the same table of sources. -/
theorem State.source_setDom (s : State) (d e : Dom) {x : Domain} (hx : x.sources = (s.dom d).sources)
    (n : Nat) : (s.setDom d x).source e n = s.source e n := by
  unfold State.source
  by_cases he : e = d
  · rw [he, State.dom_setDom_same, hx]
  · rw [State.dom_setDom_other s d e x he]

/-- A write of a bitmap word leaves a source, or changes it as a source it names. -/
theorem State.source_forBits (s : State) {d : Dom} {k : Bank} {w : Word} {g : Nat → Source → Source}
    {change : Nat → State → State}
    (hchange : ∀ n t, t.rawInput = s.rawInput → change n t = t.modifyOwned d n (g n)) (e : Dom) (n : Nat) :
    (forBits k w change s).source e n = s.source e n ∨
      e = d ∧ (forBits k w change s).source e n = g n (s.source d n) := by
  obtain ⟨⟨tb, htb⟩, hsrc⟩ := forBits_spec d k w g s change hchange
  by_cases he : e = d
  · subst he
    rw [hsrc n]
    split
    · exact .inr ⟨rfl, rfl⟩
    · exact .inl rfl
  · left
    rw [htb, State.source, State.dom_setDom_other s d e _ he]
    rfl

/-- Only a clear unmarks a notified source. -/
theorem SourceOp.notified {s : State} {d : Dom} {i : Instr} {g : Nat → Source → Source}
    (hg : SourceOp s d i g) (n : Nat) (x : Source) : (g n x).notified = x.notified ∨
      (∃ k w, i = .putInClrip d k w) ∨ ∃ w, i = .putClripnum d w := by
  cases hg with
  | request =>
    left
    show x.requestSet.notified = x.notified
    rw [x.requestSet_eq]
  | clear hi => exact .inr hi
  | enable | disable | target => exact .inl rfl

/-- Settles O49: outside `sourcecfg` a source is changed by the source operations alone. -/
theorem amongInstructionsOnlyAClearOrSourcecfgRearms :
    Obligations.AmongInstructionsOnlyAClearOrSourcecfgRearms := by
  intro i s t d n h hs ht
  have kept {u : State} (hu : u.source d n = s.source d n) (hut : (u.source d n).notified = false) :
      False := by rw [hu, hs] at hut; cases hut
  have op {e : Dom} {g : Nat → Source → Source} (hg : SourceOp s e i g) {u : State}
      (hut : (u.source d n).notified = false)
      (hu : u.source d n = s.source d n ∨ d = e ∧ u.source d n = g n (s.source e n)) :
      (∃ k w, i = .putInClrip d k w) ∨ ∃ w, i = .putClripnum d w := by
    rcases hu with hu | ⟨rfl, hu⟩
    · exact (kept hu hut).elim
    · refine (hg.notified n (s.source d n)).resolve_left fun hn => ?_
      rw [hu, hn, hs] at hut; cases hut
  cases exec_effect h with
  | busy | unawaited => exact (kept rfl ht).elim
  | begins | taken => exact (kept (State.source_setTx s _ _ d n) ht).elim
  | answered w => exact (kept (by cases d <;> rfl) ht).elim
  | ignored | mmsiaddrcfg | mmsiaddrcfgh | smsiaddrcfg | smsiaddrcfgh =>
    exact (kept (by cases d <;> rfl) ht).elim
  | config e w =>
    exact (kept ((State.acknowledge_source _ d n).trans
      (s.source_setDom e d (x := (s.dom e).writeCfg _ w) rfl n)) ht).elim
  | genmsi e w =>
    refine (kept ((State.acknowledge_source _ d n).trans (s.source_setDom e d ?_ n)) ht).elim
    rw [Domain.writeGenmsi]; split <;> rfl
  | named e m hi hg =>
    rw [State.acknowledge_source] at ht
    refine (op hg ht ?_).elim .inl fun hc => .inr (.inl hc)
    rw [State.source_modifyOwned]
    split
    · rename_i hc; obtain ⟨rfl, rfl, -⟩ := hc; exact .inr ⟨rfl, rfl⟩
    · exact .inl rfl
  | bits e k w hi hg hchange =>
    rw [State.acknowledge_source] at ht
    exact (op hg ht (s.source_forBits hchange d n)).elim .inl fun hc => .inr (.inl hc)
  | sourcecfg e m w hi =>
    rw [State.acknowledge_source] at ht
    by_cases h0 : m.toNat = 0 ∨ s.cfg.nSrc.toNat < m.toNat
    · rw [s.sourcecfgWrite_none e w h0] at ht; exact (kept rfl ht).elim
    · cases e with
      | M =>
        by_cases hm : n = m.toNat
        · exact .inr (.inr ⟨m, w, hi, hm.symm⟩)
        · exact (kept (by rw [s.sourcecfgWrite_M_source _ w h0, if_neg hm]) ht).elim
      | S =>
        rw [s.sourcecfgWrite_S w h0, State.source_modifyOwned] at ht
        split at ht
        · rename_i hc
          obtain ⟨rfl, rfl, -⟩ := hc
          rw [Source.setMode_eq, hs] at ht; cases ht
        · exact (kept rfl ht).elim
  | illegal j | claimedNone j => exact (kept (State.source_setHart s j _ d n) ht).elim
  | access j | claimed j =>
    exact (kept ((State.source_setHart _ j _ d n).trans (State.source_setHart s j _ d n)) ht).elim
  | received j f =>
    exact (kept ((State.acknowledge_source _ d n).trans (State.source_setHart s j _ d n)) ht).elim

end Sys2Proof.Machine
end

section
/-! The end of a tick up to the delivery (R96, R263 to R271): the tables of sources stay in canonical form, and
on such tables each owned source follows the trigger rule of its mode. -/

namespace Sys2Proof.Machine

-- one proof at a time: the memory the check may take bounds the number of threads
set_option Elab.async false

/-! ### Canonical tables -/

/-- What every change of a bitmap write keeps, the write keeps. -/
theorem forBits_keeps {P : State → Prop} {k : Bank} {w : Word} {f : Nat → State → State}
    (hf : ∀ n t, P t → P (f n t)) {s : State} (hs : P s) : P (forBits k w f s) := by
  unfold forBits
  generalize List.range 32 = l
  induction l generalizing s with
  | nil => exact hs
  | cons a rest ih =>
    refine ih ?_
    dsimp only
    split
    · exact hf _ s hs
    · exact hs

theorem State.sourcesCanonical_of_sources {s t : State} (h : s.sourcesCanonical)
    (ht : ∀ d, (t.dom d).sources = (s.dom d).sources) : t.sourcesCanonical := fun d => by
  rw [ht]; exact h d

theorem State.sourcesCanonical_setDom {s : State} (h : s.sourcesCanonical) (d : Dom) {x : Domain}
    (hx : tblWf Source.zero x.sources = true) : (s.setDom d x).sourcesCanonical := fun e => by
  by_cases he : e = d
  · rw [he, State.dom_setDom_same]; exact hx
  · rw [State.dom_setDom_other s d e x he]; exact h e

theorem State.sourcesCanonical_setSource {s : State} (h : s.sourcesCanonical) (d : Dom) (n : Nat)
    (x : Source) : (s.setSource d n x).sourcesCanonical :=
  s.sourcesCanonical_setDom h d (tblWf_tblSet _ _ n x (h d))

theorem State.sourcesCanonical_modifyOwned {s : State} (h : s.sourcesCanonical) (d : Dom) (n : Nat)
    (f : Source → Source) : (s.modifyOwned d n f).sourcesCanonical := by
  unfold State.modifyOwned
  split
  · exact State.sourcesCanonical_setSource h d n _
  · exact h

theorem State.sourcesCanonical_sourcecfgWrite {s : State} (h : s.sourcesCanonical) (d : Dom) (n : Nat)
    (w : Word) : (s.sourcecfgWrite d n w).sourcesCanonical := by
  have mode {u : State} (hu : u.sourcesCanonical) (e : Dom) (m : Mode) : (u.setMode e n m).sourcesCanonical :=
    State.sourcesCanonical_setSource hu e n _
  have deleg {u : State} (hu : u.sourcesCanonical) (b : SrcBits) :
      { u with deleg := b }.sourcesCanonical :=
    State.sourcesCanonical_of_sources hu fun e => by cases e <;> rfl
  unfold State.sourcecfgWrite
  split
  · exact h
  · cases d with
    | M =>
      dsimp only
      split
      · split
        · exact h
        · exact deleg (State.sourcesCanonical_setSource h .M n _) _
      · refine mode ?_ .M _
        split
        · exact deleg (State.sourcesCanonical_setSource h .S n _) _
        · exact h
    | S =>
      dsimp only
      split
      · exact mode h .S _
      · exact h

theorem State.sources_setTx (s : State) (x : TxId) (v : Transactor) (d : Dom) :
    ((s.setTx x v).dom d).sources = (s.dom d).sources := (s.dom_setTx x v d).2.2.2.2.2

/-- No instruction takes a table of sources out of its canonical form. -/
theorem Effect.sourcesCanonical {s t : State} {i : Instr} (he : Effect s i t) (h : s.sourcesCanonical) :
    t.sourcesCanonical := by
  have ack {u : State} (hu : u.sourcesCanonical) : u.acknowledge.sourcesCanonical :=
    State.sourcesCanonical_of_sources hu fun d => by rw [State.acknowledge_dom]
  have hart {u : State} (hu : u.sourcesCanonical) (j : Nat) (x : Hart) : (u.setHart j x).sourcesCanonical :=
    State.sourcesCanonical_of_sources hu fun d => by rw [State.setHart_dom]
  cases he with
  | busy | unawaited => exact h
  | begins | taken => exact State.sourcesCanonical_of_sources h (s.sources_setTx _ _)
  | answered w => exact State.sourcesCanonical_of_sources h fun d => by rw [State.answerData_dom]
  | ignored => exact ack h
  | config d w => exact ack (State.sourcesCanonical_setDom h d (h d))
  | mmsiaddrcfg | mmsiaddrcfgh | smsiaddrcfg | smsiaddrcfgh =>
    exact State.sourcesCanonical_of_sources h fun d => by cases d <;> rfl
  | named d n => exact ack (State.sourcesCanonical_modifyOwned h d n _)
  | bits d k w hi hg hchange =>
    refine ack (forBits_keeps (P := fun t => t.sourcesCanonical ∧ t.rawInput = s.rawInput) ?_ ⟨h, rfl⟩).1
    rintro n t ⟨ht, hraw⟩
    rw [hchange n t hraw]
    exact ⟨State.sourcesCanonical_modifyOwned ht d n _, (t.modifyOwned_rawInput d n _).trans hraw⟩
  | sourcecfg d n w => exact ack (State.sourcesCanonical_sourcecfgWrite h d _ w)
  | genmsi d w =>
    refine ack (State.sourcesCanonical_setDom h d ?_)
    rw [Domain.writeGenmsi]
    split
    · exact h d
    · exact h d
  | illegal j | claimedNone j => exact hart h j _
  | access j | claimed j => exact hart (hart h j _) j _
  | received j => exact ack (hart h j _)

/-- All an event of a tick can do: an instruction runs or, for a request that leaves the block, the answer is
an acknowledgement; then, for a request at a slave port, its transactor is accepted. -/
theorem runEvent_cases {e : Event} {s t : State} (h : runEvent e s = .next t) :
    (∃ i, e = .run none i ∧ Effect s i t) ∨
      (∃ x i u, e = .run (some x) i ∧ Effect s i u ∧ t = u.acceptedBy x) ∨
      ∃ x, e = .away x ∧ t = s.acknowledge.acceptedBy x := by
  cases e with
  | away x => exact .inr (.inr ⟨x, rfl, (Host.Outcome.next.inj h).symm⟩)
  | run via i =>
    cases via with
    | none => exact .inl ⟨i, rfl, exec_effect h⟩
    | some x =>
      rw [runEvent] at h
      cases hi : exec i s with
      | next u =>
        rw [hi] at h
        exact .inr (.inl ⟨x, i, u, rfl, exec_effect hi, (Host.Outcome.next.inj h).symm⟩)
      | fault r => rw [hi] at h; cases h
      | refused r => rw [hi] at h; cases h

theorem runEvents_sourcesCanonical {es : List Event} {s t : State} (hs : s.sourcesCanonical)
    (h : runEvents es s = .next t) : t.sourcesCanonical := by
  refine runEvents_keeps es (P := State.sourcesCanonical) (fun e _ u v hu hv => ?_) hs h
  have acc {x : TxId} {u : State} (hu : u.sourcesCanonical) : (u.acceptedBy x).sourcesCanonical :=
    State.sourcesCanonical_of_sources hu (u.sources_setTx _ _)
  rcases runEvent_cases hv with ⟨i, -, hi⟩ | ⟨x, i, u', -, hi, rfl⟩ | ⟨x, -, rfl⟩
  · exact hi.sourcesCanonical hu
  · exact acc (hi.sourcesCanonical hu)
  · exact acc (State.sourcesCanonical_of_sources hu fun d => by rw [State.acknowledge_dom])

/-! ### The trigger rules -/

/-- The change of every owned copy of both domains. -/
def State.mapBoth (s : State) (f : Nat → Source → Source) : State := (s.mapOwned .M f).mapOwned .S f

theorem State.owned_mapBoth (s : State) (f : Nat → Source → Source) (d : Dom) (n : Nat) :
    (s.mapBoth f).owned d n = s.owned d n := by
  rw [State.mapBoth, State.owned_mapOwned, State.owned_mapOwned]

theorem State.sourcesCanonical_mapOwned {s : State} (h : s.sourcesCanonical) (d : Dom)
    (f : Nat → Source → Source) : (s.mapOwned d f).sourcesCanonical :=
  State.sourcesCanonical_setDom h d (tblWf_tblMap _ _ _ (h d))

theorem State.sourcesCanonical_mapBoth {s : State} (h : s.sourcesCanonical) (f : Nat → Source → Source) :
    (s.mapBoth f).sourcesCanonical :=
  State.sourcesCanonical_mapOwned (State.sourcesCanonical_mapOwned h .M f) .S f

theorem State.source_mapBoth {s : State} (h : s.sourcesCanonical) {f : Nat → Source → Source}
    (hf : ∀ n, f n Source.zero = Source.zero) (d : Dom) (n : Nat) :
    (s.mapBoth f).source d n = if s.owned d n = true then f n (s.source d n) else s.source d n := by
  have hM := State.sourcesCanonical_mapOwned h .M f
  cases d with
  | M =>
    rw [State.mapBoth, State.source_mapOwned_other _ .S .M f n nofun,
      State.source_mapOwned s .M f n (hf n) (h .M)]
  | S =>
    rw [State.mapBoth, State.source_mapOwned _ .S f n (hf n) (hM .S), State.owned_mapOwned,
      State.source_mapOwned_other s .M .S f n nofun]

/-- The bits of the sources that exist. -/
theorem sourceMask_getLsbD (c : Config) (n : Nat) :
    (sourceMask c).getLsbD n = (decide (1 ≤ n) && decide (n ≤ c.nSrc.toNat)) := by
  have hlt := c.nSrc.isLt
  have hmask : 2 ^ (c.nSrc.toNat + 1) - 2 = 2 * (2 ^ c.nSrc.toNat - 1) := by
    rw [Nat.pow_succ]; omega
  rw [sourceMask, BitVec.getLsbD_ofNat, hmask]
  cases n with
  | zero => simp
  | succ m =>
    rw [Nat.testBit_succ, Nat.mul_div_cancel_left _ (by decide), Nat.testBit_two_pow_sub_one]
    by_cases hm : m < c.nSrc.toNat
    · simp [hm, Nat.succ_le_of_lt hm]; omega
    · simp [hm]

theorem State.owned_iff (s : State) (d : Dom) (n : Nat) : s.owned d n = true ↔
    1 ≤ n ∧ n ≤ s.cfg.nSrc.toNat ∧ s.deleg.getLsbD n = (d == .S) := by
  simp only [State.owned, State.owner, Bool.and_eq_true, decide_eq_true_eq, beq_iff_eq, and_assoc]
  refine and_congr_right fun _ => and_congr_right fun _ => ?_
  cases d <;> cases s.deleg.getLsbD n <;> simp

/-- A source that some domain owns has its sample in `raw_input` after step (3). -/
theorem State.sample_getLsbD {s : State} {d : Dom} {n : Nat} (h : s.owned d n = true) :
    (s.line &&& sourceMask s.cfg).getLsbD n = s.line.getLsbD n := by
  obtain ⟨h1, h2, -⟩ := (s.owned_iff d n).1 h
  rw [BitVec.getLsbD_and, sourceMask_getLsbD, decide_eq_true h1, decide_eq_true h2, Bool.and_true,
    Bool.and_true]

/-- The pending bit of a source after the trigger rule of its mode (R263 to R267). -/
def Source.triggered (x : Source) (old new : Bool) : Bool :=
  match x.mode with
  | .inactive | .detached => x.pending
  | .edgeRising => x.pending || (!old && new)
  | .edgeFalling => x.pending || (old && !new)
  | .levelHigh => new
  | .levelLow => !new

/-- A sample, case by case of the mode (R263 to R267). -/
theorem Source.sample_eq (x : Source) (old new : Bool) :
    x.sample old new = { x with pending := x.triggered old new } := by
  obtain ⟨m, p, e, n, t⟩ := x
  cases m <;> cases old <;> cases new <;>
    simp [Source.sample, Source.triggered, Mode.isEdge, Mode.isLevel, Mode.pol, Mode.code]

/-- A sample leaves a level source at its line, so tracking finds nothing to do. -/
theorem Source.track_sample (x : Source) (old new : Bool) :
    (x.sample old new).track new = x.sample old new := by
  rw [Source.sample_eq]
  obtain ⟨m, p, e, n, t⟩ := x
  cases m <;> simp [Source.track, Source.triggered, Source.rect, Mode.isTriggered, Mode.isLevel,
    Mode.pol, Mode.code]

theorem Source.endRearm_eq (x : Source) : x.endRearm = { x with notified := x.notified && x.pending } := by
  obtain ⟨m, p, e, n, t⟩ := x
  cases p <;> cases n <;> rfl

/-- Steps (3) to (5) on one source: sampled, tracked and rearmed. -/
theorem Source.settled_eq (x : Source) (old new : Bool) : ((x.sample old new).track new).endRearm =
    { x with pending := x.triggered old new, notified := x.notified && x.triggered old new } := by
  rw [Source.track_sample, Source.sample_eq, Source.endRearm_eq]

/-- Steps (3) to (5) as three changes of every owned copy. -/
theorem State.settle_eq (s : State) : s.settle =
    ((({ s.mapBoth fun n x => x.sample (s.rawInput.getLsbD n) (s.line.getLsbD n) with
        rawInput := s.line &&& sourceMask s.cfg }).mapBoth fun n x =>
          x.track ((s.line &&& sourceMask s.cfg).getLsbD n)).mapBoth fun _ x => x.endRearm) := rfl

/-- Settling leaves all but the tables of sources and the samples. -/
theorem State.settle_frame (s : State) : { s.settle with
    rawInput := s.rawInput, m := { s.settle.m with sources := s.m.sources }
    s := { s.settle.s with sources := s.s.sources } } = s := rfl

theorem State.settle_rawInput (s : State) : s.settle.rawInput = s.line &&& sourceMask s.cfg := rfl

theorem State.sourcesCanonical_settle {s : State} (h : s.sourcesCanonical) : s.settle.sourcesCanonical := by
  rw [State.settle_eq]
  refine State.sourcesCanonical_mapBoth (State.sourcesCanonical_mapBoth ?_ _) _
  exact State.sourcesCanonical_of_sources (State.sourcesCanonical_mapBoth h _) fun d => by cases d <;> rfl

/-- Every copy after settling, on canonical tables. -/
theorem State.source_settle {s : State} (h : s.sourcesCanonical) (d : Dom) (n : Nat) :
    s.settle.source d n = if s.owned d n = true then
      { s.source d n with
        pending := (s.source d n).triggered (s.rawInput.getLsbD n) (s.line.getLsbD n)
        notified := (s.source d n).notified &&
          (s.source d n).triggered (s.rawInput.getLsbD n) (s.line.getLsbD n) }
      else s.source d n := by
  set f1 := fun n (x : Source) => x.sample (s.rawInput.getLsbD n) (s.line.getLsbD n)
  set f2 := fun n (x : Source) => x.track ((s.line &&& sourceMask s.cfg).getLsbD n)
  set u : State := { s.mapBoth f1 with rawInput := s.line &&& sourceMask s.cfg } with hu
  have hu1 : u.sourcesCanonical :=
    State.sourcesCanonical_of_sources (State.sourcesCanonical_mapBoth h f1) fun d => by cases d <;> rfl
  have hown : u.owned d n = s.owned d n := s.owned_mapBoth f1 d n
  have hsrc : u.source d n = (s.mapBoth f1).source d n := by cases d <;> rfl
  have hend : s.settle = (u.mapBoth f2).mapBoth fun _ x => x.endRearm := s.settle_eq
  rw [hend, State.source_mapBoth (State.sourcesCanonical_mapBoth hu1 f2) (fun _ => rfl),
    State.owned_mapBoth, State.source_mapBoth hu1 (fun _ => rfl), hown, hsrc,
    State.source_mapBoth h (fun _ => rfl)]
  by_cases ho : s.owned d n = true
  · simp only [if_pos ho, f1, f2, State.sample_getLsbD ho, Source.settled_eq]
  · simp only [if_neg ho]

theorem State.sourcesOk_canonical {s : State} {d : Dom} (h : s.sourcesOk d = true) :
    tblWf Source.zero (s.dom d).sources = true := by
  rw [State.sourcesOk, Bool.and_eq_true] at h
  exact h.1

/-- Settles O41: the invariant asks for canonical tables, the events of a tick keep them, and on them the end
of a tick is the trigger rule of each mode. -/
theorem tickFollowsTheTriggerRules : Obligations.TickFollowsTheTriggerRules := by
  refine ⟨fun s hs d => ?_, fun es s t hs h => runEvents_sourcesCanonical hs h, fun s hs => ?_⟩
  · obtain ⟨-, -, -, hsrc, -, -⟩ := (State.inv_iff s).1 hs
    exact State.sourcesOk_canonical (hsrc d)
  · exact ⟨s.settle_rawInput, s.settle_frame, fun d n => State.source_settle hs d n⟩

end Sys2Proof.Machine
end

section
/-! The delivery engine (R290 to R309): what is owed, the MSI of each cause and where it lands, and what the
issue step of a tick does. -/

namespace Sys2Proof.Machine

-- one proof at a time: the memory the check may take bounds the number of threads
set_option Elab.async false

/-! ### What is owed -/

theorem State.mem_sourcesWhere {s : State} {p : Nat → Bool} {n : Nat} :
    n ∈ s.sourcesWhere p ↔ n ≤ s.cfg.nSrc.toNat ∧ p n = true := by
  rw [State.sourcesWhere, List.mem_filter, List.mem_range, Nat.lt_succ_iff]

theorem State.deliverable_iff (s : State) (d : Dom) (n : Nat) : s.deliverable d n = true ↔
    s.owned d n = true ∧ (s.source d n).pending = true ∧ (s.source d n).enabled = true ∧
      (s.dom d).ie = true := by
  simp only [State.deliverable, Bool.and_eq_true, and_assoc]

/-- A deliverable source exists, so no range bounds it any further. -/
theorem State.mem_deliverable {s : State} {d : Dom} {n : Nat} :
    n ∈ s.sourcesWhere (s.deliverable d) ↔ s.deliverable d n = true := by
  rw [State.mem_sourcesWhere]
  exact and_iff_right_of_imp fun h =>
    ((s.owned_iff d n).1 ((s.deliverable_iff d n).1 h).1).2.1

theorem State.mem_due {s : State} {d : Dom} {n : Nat} :
    n ∈ s.due d ↔ s.deliverable d n = true ∧ (s.source d n).notified = false := by
  rw [State.due, State.mem_sourcesWhere, Bool.and_eq_true, Bool.not_eq_true']
  exact and_iff_right_of_imp fun h =>
    ((s.owned_iff d n).1 ((s.deliverable_iff d n).1 h.1).1).2.1

theorem State.source_mem_want {s : State} {d : Dom} {n : Nat} :
    Cause.source n ∈ s.want d ↔ n ∈ s.due d := by
  rw [State.want, List.mem_append, List.mem_map]
  split <;> simp

theorem State.genmsi_mem_want {s : State} {d : Dom} :
    Cause.genmsi ∈ s.want d ↔ (s.dom d).genmsiBusy = true := by
  rw [State.want, List.mem_append, List.mem_map]
  split <;> simp_all

/-- Settles O42: the members of `want`. -/
theorem wantedIsWhatIsOwed : Obligations.WantedIsWhatIsOwed := by
  intro s d
  refine ⟨fun n => ?_, State.genmsi_mem_want⟩
  rw [State.source_mem_want, State.mem_due, State.deliverable_iff, and_assoc, and_assoc, and_assoc]

/-- Settles O48: the direct output lists the deliverable sources with the fields of their targets. -/
theorem directOutputIsTheDeliverableSources : Obligations.DirectOutputIsTheDeliverableSources := by
  rintro s d ⟨n, p, h⟩
  dsimp only
  rw [State.directOut]
  by_cases hdm : (s.dom d).dm = true
  · simp [hdm]
  · rw [if_neg hdm, List.mem_map, ← hartField_toNat, ← prioField_toNat, BitVec.toNat_inj,
      BitVec.toNat_inj]
    have hoff : (s.dom d).dm = false := Bool.eq_false_iff.2 hdm
    constructor
    · rintro ⟨m, hm, heq⟩
      injection heq with hn hp hh
      subst hn
      obtain ⟨h1, h2, h3, h4⟩ := (s.deliverable_iff d m).1 (State.mem_deliverable.1 hm)
      exact ⟨hoff, h1, h2, h3, h4, hp.symm, hh.symm⟩
    · rintro ⟨-, h1, h2, h3, h4, hp, hh⟩
      exact ⟨n, State.mem_deliverable.2 ((s.deliverable_iff d n).2 ⟨h1, h2, h3, h4⟩), by rw [hp, hh]⟩

/-! ### The MSI of a cause (R297 to R299, R305) -/

theorem State.genmsiBusy_issue (s : State) (d : Dom) (base : Addr) (c : Cause) :
    ((s.issue d base c).dom d).genmsiBusy = ((s.dom d).genmsiBusy && c != .genmsi) := by
  have hkeep : ((s.issue d base c).dom d).genmsiBusy = ((s.markIssued d c).dom d).genmsiBusy := by
    rw [State.issue, State.dom_setDom_same]; rfl
  rw [hkeep]
  cases c with
  | source n => rw [State.markIssued, State.setSource, State.dom_setDom_same]; simp
  | genmsi => rw [State.markIssued, State.dom_setDom_same]; simp [Domain.genmsiIssued]

theorem State.issues_issue (s : State) (d : Dom) (base : Addr) (c : Cause) :
    ((s.issue d base c).dom d).issues = (s.dom d).issues + 1 := by
  have hstep : ((s.issue d base c).dom d).issues = ((s.markIssued d c).dom d).issues + 1 := by
    rw [State.issue, State.dom_setDom_same]; rfl
  rw [hstep]
  cases c <;> cases d <;> rfl

/-- A domain with what the delivery engine moves taken from another. -/
def Domain.withDelivery (x y : Domain) : Domain :=
  { x with sources := y.sources, genmsiBusy := y.genmsiBusy, msi := y.msi, issues := y.issues,
           tickets := y.tickets }

/-- The issue of an MSI moves only the delivery engine of its domain. -/
theorem State.issue_frame (s : State) (d : Dom) (base : Addr) (c : Cause) :
    (s.issue d base c).setDom d (((s.issue d base c).dom d).withDelivery (s.dom d)) = s := by
  cases d <;> cases c <;> rfl

/-- What the issue of a cause does to its domain, but for the tickets (R292). -/
theorem State.issue_spec (s : State) (d : Dom) (base : Addr) (c : Cause) :
    (s.issue d base c).tx (.msi d) = { s.tx (.msi d) with
      phase := .request, deadline := s.cfg.timeout, req := s.msiOf d base c } ∧
    (∀ n, (s.issue d base c).source d n =
      if c = .source n then { s.source d n with notified := true } else s.source d n) ∧
    ((s.issue d base c).dom d).genmsiBusy = ((s.dom d).genmsiBusy && c != .genmsi) ∧
    ((s.issue d base c).dom d).issues = (s.dom d).issues + 1 := by
  refine ⟨?_, fun n => ?_, s.genmsiBusy_issue d base c, s.issues_issue d base c⟩
  · rw [State.tx_issue, if_pos rfl]; rfl
  · rw [State.source_issue, if_congr (and_iff_right rfl) rfl rfl]; rfl

/-- A guest index in its place in an address (R297). -/
theorem guest_shift (g : BitVec 6) : g.setWidth 64 <<< 12 = BitVec.ofNat 64 (g.toNat * 2 ^ 12) := by
  have := g.isLt
  apply BitVec.eq_of_toNat_eq
  rw [BitVec.toNat_shiftLeft, BitVec.toNat_setWidth, BitVec.toNat_ofNat, Nat.shiftLeft_eq]
  omega

theorem hartOffset_some {c : Config} {h : Nat} {hc : HartCfg} (hh : c.harts[h]? = some hc) (d : Dom) :
    hartOffset c d h = if d = .M then hc.offM else hc.offS := by
  cases d
  case M => simp only [hartOffset, hh]; rfl
  case S => simp only [hartOffset, hh]; rfl

/-- The data of an MSI whose domain swaps none is the identity of its word (R298). -/
theorem State.msiWord_data {s : State} {d : Dom} (h : s.cfg.beSwapsData = false ∨ (s.dom d).be = false)
    (w : Word) : (s.msiWord d (eiidField w)).setWidth 64 = BitVec.ofNat 64 (w.toNat % 2 ^ 11) := by
  have hswap : s.swapsData d = false := by
    rcases h with h | h <;> simp [State.swapsData, h]
  rw [State.msiWord, hswap]
  apply BitVec.eq_of_toNat_eq
  have := eiidField_toNat w
  simp only [Bool.false_eq_true, if_false, BitVec.toNat_setWidth, BitVec.toNat_ofNat]
  omega

/-- Settles O44: the request of each cause, and the issue by `State.issue_spec` and its frame. -/
theorem msiOfEachCause : Obligations.MsiOfEachCause := by
  intro s d base c hc word guest r t hh
  obtain ⟨htx, hsrc, hbusy, -⟩ := s.issue_spec d base c
  refine ⟨?_, htx, hsrc, hbusy, s.issue_frame d base c⟩
  have hoff : hartOffset s.cfg d (hartField word).toNat = if d = .M then hc.offM else hc.offS :=
    hartOffset_some (by rw [hartField_toNat]; exact hh) d
  have key (g : BitVec 6) (hg : g.toNat = guest)
      (hr : r = msiRequest (msiAddress s.cfg d base (hartField word) g) (s.msiWord d (eiidField word))) :
      r.opcode = 0#3 ∧ r.size = 2 ∧ r.mask = 0x0F#8 ∧
      r.address = base ||| (if d = .M then hc.offM else hc.offS) ||| BitVec.ofNat 64 (guest * 2 ^ 12) ∧
      (s.cfg.beSwapsData = false ∨ (s.dom d).be = false →
        r.data = BitVec.ofNat 64 (word.toNat % 2 ^ 11)) := by
    rw [hr]
    refine ⟨rfl, rfl, rfl, ?_, fun hswap => State.msiWord_data hswap word⟩
    rw [← hg, ← guest_shift, ← hoff]
    rfl
  cases c with
  | source n =>
    refine key (msiGuest d word) ?_ rfl
    cases d with
    | M => rfl
    | S => exact guestField_toNat word
  | genmsi => exact key 0#6 rfl rfl

/-! ### Where an MSI lands (R300, R347, R415) -/

/-- An MSI to the base of a page is received by the file of that page. -/
theorem decode_msiRequest {c : Config} (hv : c.valid = true) {h : Nat} {f : FileId} {b : Addr}
    (hr : (Port.page h f, b) ∈ c.regions) (w : Word) :
    decode c (.slave (msiRequest b w)) = .ok (.putSeteipnum h f w) := by
  obtain ⟨hmod, hend⟩ : b.toNat % 0x1000 = 0 ∧ b.toNat + 0x1000 ≤ 2 ^ 64 := region_aligned hv hr
  have hreg : c.regionOf b = some (.page h f, b) := regionOf_eq hv hr (by
    simp [inRegion, Port.size, filePage])
  have hshape : (msiRequest b w).legalShape = true := by
    refine (legalShape_iff _).2 ⟨rfl, ?_, ?_⟩
    · show b.toNat % 4 = 0
      omega
    · exact (if_pos (show b.toNat % 8 = 0 by omega)).symm
  have hlane : fromLanes b (w.setWidth 64) = w := by
    have hbit : b.getLsbD 2 = false := by
      rw [BitVec.getLsbD, Nat.testBit_eq_decide_div_mod_eq, decide_eq_false_iff_not]; omega
    rw [fromLanes, hbit]
    apply BitVec.eq_of_toNat_eq
    simp
  rw [decode, decodeSlave_eq, if_neg (by simp [msiRequest]), if_neg (by simp [hshape])]
  simp only [msiRequest, hreg, hlane, BitVec.sub_self]
  rfl

/-- Settles O46: with the boot requirement met the composed address is the base of the target's page. -/
theorem msiLandsAtTheTargetFile : Obligations.MsiLandsAtTheTargetFile := by
  intro s h g eiid hv hboot hh hg
  obtain ⟨hguest, hbase⟩ := hboot
  obtain ⟨hc, hhc⟩ : ∃ hc, s.cfg.harts[h.toNat]? = some hc :=
    ⟨_, List.getElem?_eq_getElem hh⟩
  have hmem : hc ∈ s.cfg.harts := List.mem_of_getElem? hhc
  obtain ⟨hM, hS, -, -⟩ := hbase hc hmem
  have region {r : Port × Addr} (hr : r ∈ hartPages s.cfg h.toNat hc) : r ∈ s.cfg.regions :=
    (mem_regions s.cfg r).2 (.inr (.inr ⟨h.toNat, hc, hhc, hr⟩))
  constructor
  · have haddr : msiAddress s.cfg .S (s.levelBase .S) h g =
        hc.sfileBase + BitVec.ofNat 64 (filePage * g.toNat) := by
      rw [← or_guest hguest hmem hg, ← hS, msiAddress, hartOffset_some hhc, if_neg nofun]
    rw [haddr]
    refine decode_msiRequest hv (region ((mem_hartPages _ _ _ _).2 ?_)) _
    by_cases h0 : g = 0#6
    · subst h0; simp
    · have hpos : g.toNat ≠ 0 := fun hz => h0 (BitVec.eq_of_toNat_eq hz)
      rw [if_neg h0]
      exact .inr (.inr ⟨g, by omega, hg, rfl⟩)
  · have haddr : msiAddress s.cfg .M (s.levelBase .M) h 0#6 = hc.mfileBase := by
      rw [← hM, msiAddress, hartOffset_some hhc, if_pos rfl]
      simp
    rw [haddr]
    exact decode_msiRequest hv (region ((mem_hartPages _ _ _ _).2 (.inl rfl))) _

/-! ### The issue step -/

/-- The issue step moves only the delivery engine of its domain and the count of free choices. -/
theorem State.issueStep_frame (s : State) (d : Dom) (base : Addr) (portIdle : Bool) :
    ∃ x k, s.issueStep d base portIdle = { s.setDom d x with freeIndex := k } ∧
      x.withDelivery (s.dom d) = s.dom d := by
  rcases s.issueStep_cases d base portIdle with ⟨-, h⟩ | ⟨-, -, h⟩ | ⟨-, -, e, -, -, -, h⟩
  · rw [h]
    exact ⟨{ s.dom d with tickets := [] }, s.freeIndex, by cases d <;> rfl, rfl⟩
  · rw [h]
    exact ⟨_, _, rfl, rfl⟩
  · rw [h]
    obtain ⟨c, n⟩ := e
    cases c <;> cases d <;> exact ⟨_, _, rfl, rfl⟩

/-- The issue step of a domain leaves the other domain. -/
theorem State.issueStep_other (s : State) {d e : Dom} (he : e ≠ d) (base : Addr) (portIdle : Bool) :
    (s.issueStep d base portIdle).dom e = s.dom e := by
  obtain ⟨x, k, hx, -⟩ := s.issueStep_frame d base portIdle
  rw [hx]
  refine Eq.trans ?_ (s.dom_setDom_other d e x he)
  cases e <;> rfl

/-- What the issue step of a domain does to it (R292): one member of what is owed is issued in MSI mode from
an idle port, and nothing otherwise. -/
theorem State.issueStep_spec (s : State) (d : Dom) (base : Addr) (portIdle : Bool) :
    let t := s.issueStep d base portIdle
    let issues := (s.dom d).dm = true ∧ portIdle = true ∧ s.want d ≠ []
    (issues → ∃ c ∈ s.want d,
      t.tx (.msi d) = { s.tx (.msi d) with
        phase := .request, deadline := s.cfg.timeout, req := s.msiOf d base c } ∧
      (∀ n, t.source d n =
        if c = .source n then { s.source d n with notified := true } else s.source d n) ∧
      (t.dom d).genmsiBusy = ((s.dom d).genmsiBusy && c != .genmsi) ∧
      (t.dom d).issues = (s.dom d).issues + 1) ∧
    (¬ issues → t.tx (.msi d) = s.tx (.msi d) ∧ (∀ n, t.source d n = s.source d n) ∧
      (t.dom d).genmsiBusy = (s.dom d).genmsiBusy ∧ (t.dom d).issues = (s.dom d).issues) := by
  intro t issues
  rcases s.issueStep_cases d base portIdle with ⟨hdm, h⟩ | ⟨-, hnot, h⟩ | ⟨hdm, hidle, e, -, hmem, -, h⟩
  · refine ⟨fun hi => absurd (hdm.symm.trans hi.1) Bool.false_ne_true, fun _ => ?_⟩
    simp only [t, h]
    exact ⟨s.tx_dropTickets d _, fun n => s.source_dropTickets d d n, by cases d <;> rfl, by cases d <;> rfl⟩
  · refine ⟨fun hi => ?_, fun _ => ?_⟩
    · rcases hnot with hp | hw
      · exact absurd (hp.symm.trans hi.2.1) Bool.false_ne_true
      · exact absurd hw hi.2.2
    · simp only [t, h]
      exact ⟨s.tx_drawTickets d _, fun n => s.source_drawTickets d d n, by cases d <;> rfl,
        s.drawTickets_issues d d⟩
  · refine ⟨fun _ => ⟨e.1, hmem, ?_⟩, fun hi => absurd ⟨hdm, hidle, List.ne_nil_of_mem hmem⟩ hi⟩
    obtain ⟨htx, hsrc, hbusy, hiss⟩ := (s.drawTickets d).issue_spec d base e.1
    simp only [t, h]
    rw [htx, hbusy, hiss, State.tx_drawTickets, State.drawTickets_cfg, State.msiOf_drawTickets,
      State.drawTickets_issues]
    refine ⟨rfl, fun n => ?_, by cases d <;> rfl, rfl⟩
    rw [hsrc, State.source_drawTickets]

/-- The source copies of a domain and what else its issue step reads. -/
theorem State.want_congr {s t : State} (d : Dom) (hcfg : t.cfg = s.cfg) (hdel : t.deleg = s.deleg)
    (hdom : t.dom d = s.dom d) : t.want d = s.want d ∧ ∀ base c, t.msiOf d base c = s.msiOf d base c := by
  have hsrc (n : Nat) : t.source d n = s.source d n := by rw [State.source, State.source, hdom]
  have hown (n : Nat) : t.owned d n = s.owned d n := by
    rw [State.owned, State.owned, State.owner, State.owner, hcfg, hdel]
  constructor
  · simp only [State.want, State.due, State.sourcesWhere, State.deliverable, hcfg, hdom, hsrc, hown]
  · intro base c
    have hword (e : Ident) : t.msiWord d e = s.msiWord d e := by
      rw [State.msiWord, State.msiWord, State.swapsData, State.swapsData, hcfg, hdom]
    cases c with
    | source n => simp only [State.msiOf, hsrc, hcfg, hword]
    | genmsi => simp only [State.msiOf, hdom, hcfg, hword]

/-- The end of a tick as the two issue steps after settling. -/
theorem State.endTick_eq (pre s : State) : State.endTick pre s =
    (s.settle.issueStep .M (s.settle.levelBase .M) (pre.msiIdle .M)).issueStep .S (pre.levelBase .S)
      (pre.msiIdle .S) := rfl

theorem State.msiIdle_iff (s : State) (d : Dom) : s.msiIdle d = true ↔ (s.dom d).msi.phase = .idle := by
  rw [State.msiIdle, beq_iff_eq]

/-- After an issue step of each domain the rest of the state is as it was. -/
theorem State.withDelivery_two_steps {u v t : State} {x y : Domain} {k j : Nat}
    (hv : v = { u.setDom .M x with freeIndex := k }) (hx : x.withDelivery u.m = u.m)
    (ht : t = { v.setDom .S y with freeIndex := j }) (hy : y.withDelivery u.s = u.s) :
    { t with m := t.m.withDelivery u.m, s := t.s.withDelivery u.s, freeIndex := u.freeIndex } = u := by
  subst ht hv
  show { u with m := x.withDelivery u.m, s := y.withDelivery u.s } = u
  rw [hx, hy]

/-- Settles O43: the two issue steps, each on its own domain. -/
theorem oneOwedMsiIsIssuedAtTheEndOfATick : Obligations.OneOwedMsiIsIssuedAtTheEndOfATick := by
  intro pre s u t
  set v := u.issueStep .M (u.levelBase .M) (pre.msiIdle .M) with hv
  have ht : t = v.issueStep .S (pre.levelBase .S) (pre.msiIdle .S) := rfl
  obtain ⟨x, k, hx, hxr⟩ := u.issueStep_frame .M (u.levelBase .M) (pre.msiIdle .M)
  obtain ⟨y, j, hy, hyr⟩ := v.issueStep_frame .S (pre.levelBase .S) (pre.msiIdle .S)
  have hvS : v.dom .S = u.dom .S := u.issueStep_other (d := .M) (e := .S) nofun _ _
  have htM : t.dom .M = v.dom .M := v.issueStep_other (d := .S) (e := .M) nofun _ _
  refine ⟨fun d => ?_, ?_⟩
  · cases d with
    | M =>
      have hspec := u.issueStep_spec .M (u.levelBase .M) (pre.msiIdle .M)
      rw [State.msiIdle_iff] at hspec
      have htx : t.tx (.msi .M) = v.tx (.msi .M) := congrArg Domain.msi htM
      have hsrc (n : Nat) : t.source .M n = v.source .M n := by rw [State.source, State.source, htM]
      simp only [htx, hsrc, htM]
      exact hspec
    | S =>
      have hspec := v.issueStep_spec .S (pre.levelBase .S) (pre.msiIdle .S)
      have hcfg : v.cfg = u.cfg := by rw [hv, hx]; rfl
      have hdel : v.deleg = u.deleg := by rw [hv, hx]; rfl
      obtain ⟨hwant, hmsi⟩ := State.want_congr .S hcfg hdel hvS
      have htx : v.tx (.msi .S) = u.tx (.msi .S) := congrArg Domain.msi hvS
      have hsrc (n : Nat) : v.source .S n = u.source .S n := by rw [State.source, State.source, hvS]
      rw [State.msiIdle_iff, hwant, hvS] at hspec
      simp only [htx, hsrc, hmsi, hcfg] at hspec
      exact hspec
  · exact State.withDelivery_two_steps hx hxr hy (by rw [hvS] at hyr; exact hyr)

/-- Settles O47: an issue step leaves a copy, or marks it notified. -/
theorem deliveryKeepsPending : Obligations.DeliveryKeepsPending := by
  intro pre s d n x y
  have step (u : State) (e : Dom) (base : Addr) (idle : Bool) :
      (u.issueStep e base idle).source d n = u.source d n ∨
        (u.issueStep e base idle).source d n = (u.source d n).markNotified := by
    rcases u.issueStep_cases e base idle with ⟨-, h⟩ | ⟨-, -, h⟩ | ⟨-, -, c, -, -, -, h⟩
    · rw [h]; exact .inl (u.source_dropTickets e d n)
    · rw [h]; exact .inl (u.source_drawTickets e d n)
    · rw [h, State.source_issue]
      split
      · rename_i hc; obtain ⟨rfl, -⟩ := hc; rw [State.source_drawTickets]; exact .inr rfl
      · rw [State.source_drawTickets]; exact .inl rfl
  have keeps {a b : Source} (h : b = a ∨ b = a.markNotified) : b.pending = a.pending ∧ b.mode = a.mode ∧
      b.enabled = a.enabled ∧ b.target = a.target := by
    rcases h with rfl | rfl <;> exact ⟨rfl, rfl, rfl, rfl⟩
  obtain ⟨p1, m1, e1, t1⟩ := keeps (step s.settle .M (s.settle.levelBase .M) (pre.msiIdle .M))
  obtain ⟨p2, m2, e2, t2⟩ := keeps (step _ .S (pre.levelBase .S) (pre.msiIdle .S))
  exact ⟨p2.trans p1, m2.trans m1, e2.trans e1, t2.trans t1⟩

end Sys2Proof.Machine
end

section
/-! The tick, taken apart (R96 to R98): the transactors that an instruction moves, the list of a tick's events,
and the end of the tick. -/

namespace Sys2Proof.Machine

-- one proof at a time: the memory the check may take bounds the number of threads
set_option Elab.async false

/-! ### Transactors that an operation leaves -/

theorem State.tx_setDom (s : State) (d : Dom) {x : Domain} (hp : x.port = (s.dom d).port)
    (hm : x.msi = (s.dom d).msi) (y : TxId) : (s.setDom d x).tx y = s.tx y := by
  have hdom (e : Dom) : ((s.setDom d x).dom e).port = (s.dom e).port ∧
      ((s.setDom d x).dom e).msi = (s.dom e).msi := by
    by_cases he : e = d
    · rw [he, State.dom_setDom_same]; exact ⟨hp, hm⟩
    · rw [State.dom_setDom_other s d e x he]; exact ⟨rfl, rfl⟩
  rcases y with (e | ⟨h, f⟩) | e
  · exact (hdom e).1
  · exact congrArg FileUnit.port (s.unit_setDom d x h f)
  · exact (hdom e).2

theorem State.tx_setHart (s : State) (h : Nat) {x : Hart}
    (hx : ∀ h' f, ((s.setHart h x).unit h' f).port = (s.unit h' f).port) (y : TxId) :
    (s.setHart h x).tx y = s.tx y := by
  rcases y with (e | ⟨h', f⟩) | e
  · exact congrArg Domain.port (s.setHart_dom h x e)
  · exact hx h' f
  · exact congrArg Domain.msi (s.setHart_dom h x e)

theorem State.tx_setFile (s : State) (h : Nat) (f : FileId) (x : IFile) (y : TxId) :
    (s.setFile h f x).tx y = s.tx y :=
  s.tx_setHart h (fun h' f' => s.port_setFile h h' f f' x) y

theorem State.tx_modifyOwned (s : State) (d : Dom) (n : Nat) (f : Source → Source) (y : TxId) :
    (s.modifyOwned d n f).tx y = s.tx y := by
  obtain ⟨tb, htb⟩ := s.modifyOwned_frame d n f
  rw [htb]
  exact s.tx_setDom d (x := { s.dom d with sources := tb }) rfl rfl y

theorem State.tx_sourcecfgWrite (s : State) (d : Dom) (n : Nat) (w : Word) (y : TxId) :
    (s.sourcecfgWrite d n w).tx y = s.tx y := by
  by_cases h0 : n = 0 ∨ s.cfg.nSrc.toNat < n
  · rw [s.sourcecfgWrite_none d w h0]
  · cases d with
    | M =>
      obtain ⟨tm, ts, b, hfr⟩ := s.sourcecfgWrite_M_frame n w h0
      rw [hfr]
      rcases y with (e | ⟨h, f⟩) | e
      · cases e <;> rfl
      · rfl
      · cases e <;> rfl
    | S => rw [s.sourcecfgWrite_S w h0]; exact s.tx_modifyOwned .S n _ y

/-- Which transactors an instruction moves: a call one in the Idle phase, a response the one it is presented
to, in the Response phase, and no other instruction any (R175, R177, R181). -/
theorem Effect.tx {s t : State} {i : Instr} (he : Effect s i t) (x : TxId) :
    t.tx x = s.tx x ∨
      (∃ r p, callOf i = some r ∧ s.cfg.portOf r.address = some p ∧ x = .ext p ∧
        (s.tx x).phase = .idle ∧ t.tx x = (s.tx x).begin s.cfg.timeout r) ∨
      ∃ op r, responseOf i = some (x, op) ∧ (s.tx x).phase = .response ∧ t.tx x = .finished r := by
  cases he with
  | busy | unawaited => exact .inl rfl
  | @begins r p hi hp hx =>
    rw [State.tx_setTx]
    split
    · rename_i heq; subst heq; exact .inr (.inl ⟨r, p, hi, hp, rfl, hx, rfl⟩)
    · exact .inl rfl
  | @taken y op hi hx r =>
    rw [State.tx_setTx]
    split
    · rename_i heq; subst heq; exact .inr (.inr ⟨op, r, hi, hx, rfl⟩)
    · exact .inl rfl
  | answered w => exact .inl (s.answerData_tx w x)
  | ignored => exact .inl (s.acknowledge_tx x)
  | config d w => exact .inl ((State.acknowledge_tx _ x).trans
      (s.tx_setDom d (x := (s.dom d).writeCfg _ w) rfl rfl x))
  | mmsiaddrcfg | mmsiaddrcfgh | smsiaddrcfg | smsiaddrcfgh =>
    left
    rw [State.acknowledge_tx]
    rcases x with (e | ⟨h, f⟩) | e
    · cases e <;> rfl
    · rfl
    · cases e <;> rfl
  | named d n => exact .inl ((State.acknowledge_tx _ x).trans (s.tx_modifyOwned d n _ x))
  | bits d k w hi hg hchange =>
    obtain ⟨⟨tb, htb⟩, -⟩ := forBits_spec d k w _ s _ hchange
    left
    rw [State.acknowledge_tx, htb]
    exact s.tx_setDom d (x := { s.dom d with sources := tb }) rfl rfl x
  | sourcecfg d n w => exact .inl ((State.acknowledge_tx _ x).trans (s.tx_sourcecfgWrite d _ w x))
  | genmsi d w =>
    left
    rw [State.acknowledge_tx, Domain.writeGenmsi]
    split
    · rw [State.setDom_dom]
    · exact s.tx_setDom d (x := (s.dom d).genmsiRequest _) rfl rfl x
  | illegal j => exact .inl (s.tx_setHart j (fun h f => congrArg _ (s.unit_illegalAccess j h f)) x)
  | access j r op v =>
    exact .inl ((State.tx_setHart _ j (fun h f => congrArg _ (State.unit_legalAccess _ j h f _)) x).trans
      (s.tx_setFile j _ _ x))
  | claimedNone j => exact .inl (s.tx_setHart j (fun h f => congrArg _ (s.unit_claimAnswer j h f 0)) x)
  | claimed j =>
    exact .inl ((State.tx_setHart _ j (fun h f => congrArg _ (State.unit_claimAnswer _ j h f _)) x).trans
      (s.tx_setFile j _ _ x))
  | received j f => exact .inl ((State.acknowledge_tx _ x).trans (s.tx_setFile j f _ x))

theorem kindOf_of_callOf {i : Instr} {r : BusA} (h : callOf i = some r) : kindOf i = .bus := by
  cases i with
  | get32 | put32 => rfl
  | _ => cases h

theorem kindOf_of_responseOf {i : Instr} {q : TxId × BitVec 3} (h : responseOf i = some q) :
    kindOf i = .bus := by
  cases i with
  | accessAck | accessAckData => rfl
  | _ => cases h

/-- An instruction of a slave port or of a hart moves no transactor. -/
theorem Effect.tx_of_kind {s t : State} {i : Instr} (he : Effect s i t) (hk : kindOf i ≠ .bus) (x : TxId) :
    t.tx x = s.tx x := by
  rcases he.tx x with h | ⟨r, p, hr, -⟩ | ⟨op, r, hr, -⟩
  · exact h
  · exact absurd (kindOf_of_callOf hr) hk
  · exact absurd (kindOf_of_responseOf hr) hk

/-- No instruction changes the parameters. -/
theorem Effect.cfg {s t : State} {i : Instr} (he : exec i s = .next t) : t.cfg = s.cfg :=
  (onlyTheNamedInstructionsChange i s t he).1.1

/-! ### What the decoder gives each agent -/

theorem kindOf_decodeDomGet (d : Dom) (off : BitVec 14) : kindOf (decodeDomGet d off) = .read := by
  unfold decodeDomGet
  dsimp only
  have read {p : Prop} [Decidable p] {i j : Instr} (hi : kindOf i = .read) (hj : kindOf j = .read) :
      kindOf (if p then i else j) = .read := by split <;> assumption
  iterate 19 refine read rfl ?_
  rfl

theorem kindOf_putRow {i : Instr} (w : Word) (h : kindOf i = .read) (hp : ∀ h f o, i ≠ .getPage h f o) :
    kindOf (i.putRow w) = .write := by
  cases i with
  | getPage h' f o => exact absurd rfl (hp h' f o)
  | getDomaincfg | getMmsiaddrcfg | getMmsiaddrcfgh | getSmsiaddrcfg | getSmsiaddrcfgh | getSetipnum
  | getClripnum | getSetienum | getClrienum | getSetipnumLe | getSetipnumBe | getGenmsi | getSourcecfg
  | getSetip | getInClrip | getSetie | getClrie | getTargets | getRozero | getReserved => rfl
  | _ => cases h

theorem windowOf_decodeDomGet (d : Dom) (off : BitVec 14) : windowOf (decodeDomGet d off) = some d := by
  unfold decodeDomGet
  dsimp only
  have window {p : Prop} [Decidable p] {i j : Instr} (hi : windowOf i = some d) (hj : windowOf j = some d) :
      windowOf (if p then i else j) = some d := by split <;> assumption
  iterate 19 refine window rfl ?_
  rfl

theorem decodeDomGet_ne_page (d : Dom) (off : BitVec 14) (h : Nat) (f : FileId) (o : BitVec 12) :
    decodeDomGet d off ≠ .getPage h f o := by
  intro he
  have hw := windowOf_decodeDomGet d off
  rw [he] at hw
  cases hw

/-- A request at a slave port decodes to a read or a write, by its opcode. -/
theorem kindOf_row (p : Port) (isGet : Bool) (off : Addr) (w : Word) :
    kindOf (p.row isGet off w) = if isGet then .read else .write := by
  cases p with
  | window d =>
    have hread := kindOf_decodeDomGet d (off.setWidth 14)
    cases isGet with
    | true => exact hread
    | false => exact kindOf_putRow w hread (decodeDomGet_ne_page d _)
  | page h f =>
    cases isGet with
    | true => rfl
    | false =>
      rw [Port.row, decodePage]
      simp only [Bool.false_eq_true, if_false]
      split <;> rfl

theorem kindOf_decodeSlave {c : Config} {r : BusA} {i : Instr} (h : decode c (.slave r) = .ok i) :
    kindOf i = if r.opcode = opGet then .read else .write := by
  rw [decode, decodeSlave_eq] at h
  split at h
  · cases h
  · split at h
    · cases h
    · split at h
      · cases h
      · cases h
        rw [kindOf_row]
        simp only [beq_iff_eq]

theorem callOf_decode {c : Config} {r : BusA} {i : Instr} (h : decode c (.agent (.call r)) = .ok i) :
    ∃ q, callOf i = some q := by
  rw [decode, decodeCall_eq] at h
  split at h
  · cases h
  · split at h
    · cases h
    · split at h
      · cases h
      · split at h <;> cases h <;> exact ⟨_, rfl⟩

theorem kindOf_csrInstr (h : Nat) (x : Ctx) (op : CsrOp) (r : IReg) (v : DWord) :
    kindOf (csrInstr h x op r v) = .hart := by
  cases r <;> cases op <;> rfl

theorem kindOf_decode_agent {c : Config} {r : Req} {i : Instr} (hr : Req.isCall r = false)
    (h : decode c (.agent r) = .ok i) : kindOf i = .hart := by
  cases r with
  | call r => cases hr
  | csr r =>
    rw [decode, decodeCsr] at h
    split at h
    · cases h
    · split at h
      · cases h; rfl
      · split at h
        · cases h; rfl
        · split at h
          · cases h; exact kindOf_csrInstr _ _ _ _ _
          · cases h; rfl
  | claim r =>
    rw [decode, decodeClaim] at h
    split at h
    · cases h
    · cases h; rfl

theorem responseOf_decode {c : Config} {x : TxId} {r : BusD} {i : Instr}
    (h : decode c (.response x r) = .ok i) :
    c.hasTx x = true ∧ ∃ op, responseOf i = some (x, op) := by
  rw [decode, decodeResponse] at h
  split at h
  · cases h
  · rename_i hx
    refine ⟨not_not.1 hx, ?_⟩
    split at h
    · cases h; exact ⟨_, rfl⟩
    · split at h
      · cases h; exact ⟨_, rfl⟩
      · cases h

/-! ### The list of events -/

/-- The transactor whose accepted request an event runs. -/
def Event.via : Event → Option TxId
  | .run v _ => v
  | .away x => some x

/-- An event of an agent's request. -/
def Asked (c : Config) (l : List Req) (e : Event) : Prop :=
  ∃ r ∈ l, ∃ i, decode c (.agent r) = .ok i ∧ e = .run none i

/-- An event of a response that transactor `x` takes. -/
def State.Answered (s : State) (x : TxId) (e : Event) : Prop :=
  ∃ i, decode s.cfg (.response x (s.tx x).owed) = .ok i ∧ e = .run none i

/-- An event of the accepted request of transactor `x`. -/
def State.Accepted (s : State) (x : TxId) (e : Event) : Prop :=
  (s.cfg.portOf (s.tx x).req.address = none ∧ e = .away x) ∨
    ∃ p i, s.cfg.portOf (s.tx x).req.address = some p ∧
      decode s.cfg (.slave (s.orderRequest p (s.tx x).req)) = .ok i ∧ e = .run (some x) i

theorem andThen_eq_ok {a b : Except Reject (List Event)} {es : List Event} :
    andThen a b = .ok es ↔ ∃ xs ys, a = .ok xs ∧ b = .ok ys ∧ es = xs ++ ys := by
  cases a <;> cases b <;> simp [andThen, eq_comm]

theorem fetchRequests_spec {c : Config} {l : List Req} {es : List Event} (h : fetchRequests c l = .ok es) :
    ∀ e ∈ es, Asked c l e := by
  induction l generalizing es with
  | nil => cases h; simp
  | cons r rest ih =>
    rw [fetchRequests] at h
    split at h
    · cases h
    · cases h
    · rename_i i es' hi hes
      cases h
      intro e he
      rcases List.mem_cons.1 he with rfl | he
      · exact ⟨r, List.mem_cons_self, i, hi, rfl⟩
      · obtain ⟨r', hr', hres⟩ := ih hes e he
        exact ⟨r', List.mem_cons_of_mem _ hr', hres⟩

theorem fetchResponses_spec {s : State} {l : List TxId} {es : List Event}
    (h : fetchResponses s l = .ok es) :
    (∀ e ∈ es, ∃ x ∈ l, s.Answered x e) ∧ ∀ x ∈ l, ∃ e ∈ es, s.Answered x e := by
  induction l generalizing es with
  | nil => cases h; simp
  | cons y rest ih =>
    rw [fetchResponses] at h
    split at h
    · cases h
    · cases h
    · rename_i i es' hi hes
      cases h
      obtain ⟨h1, h2⟩ := ih hes
      refine ⟨fun e he => ?_, fun x hx => ?_⟩
      · rcases List.mem_cons.1 he with rfl | he
        · exact ⟨y, List.mem_cons_self, i, hi, rfl⟩
        · obtain ⟨x, hx, hres⟩ := h1 e he
          exact ⟨x, List.mem_cons_of_mem _ hx, hres⟩
      · rcases List.mem_cons.1 hx with rfl | hx
        · exact ⟨_, List.mem_cons_self, i, hi, rfl⟩
        · obtain ⟨e, he, hres⟩ := h2 x hx
          exact ⟨e, List.mem_cons_of_mem _ he, hres⟩

theorem fetchAccepts_spec {s : State} {l : List TxId} {es : List Event} (h : fetchAccepts s l = .ok es) :
    es.filterMap Event.via = l ∧ ∀ e ∈ es, ∃ x ∈ l, s.Accepted x e := by
  induction l generalizing es with
  | nil => cases h; simp
  | cons y rest ih =>
    have step {e : Event} {es' : List Event} (hes : fetchAccepts s rest = .ok es')
        (hvia : e.via = some y) (he : s.Accepted y e) :
        (e :: es').filterMap Event.via = y :: rest ∧
          ∀ e' ∈ e :: es', ∃ x ∈ y :: rest, s.Accepted x e' := by
      obtain ⟨h1, h2⟩ := ih hes
      refine ⟨by rw [List.filterMap_cons_some hvia, h1], fun e' he' => ?_⟩
      rcases List.mem_cons.1 he' with rfl | he'
      · exact ⟨y, List.mem_cons_self, he⟩
      · obtain ⟨x, hx, hres⟩ := h2 e' he'
        exact ⟨x, List.mem_cons_of_mem _ hx, hres⟩
    rw [fetchAccepts] at h
    split at h
    · cases h
    · rename_i es' hes
      split at h
      · rename_i hp
        cases h
        exact step hes rfl (.inl ⟨hp, rfl⟩)
      · rename_i p hp
        split at h
        · cases h
        · rename_i i hi
          cases h
          exact step hes rfl (.inr ⟨p, i, hp, hi, rfl⟩)

/-- Whatever the order, the events of a file are those of the three kinds. -/
theorem sequence_perm {o : SameTickOrder} {a b c : Except Reject (List Event)} {es : List Event}
    (h : SameTickOrder.sequence o a b c = .ok es) :
    ∃ xs ys zs, a = .ok xs ∧ b = .ok ys ∧ c = .ok zs ∧ es.Perm (xs ++ (ys ++ zs)) := by
  have two {a b c : Except Reject (List Event)} (h : andThen a (andThen b c) = .ok es) :
      ∃ xs ys zs, a = .ok xs ∧ b = .ok ys ∧ c = .ok zs ∧ es = xs ++ (ys ++ zs) := by
    obtain ⟨xs, r, ha, hr, rfl⟩ := andThen_eq_ok.1 h
    obtain ⟨ys, zs, hb, hc, rfl⟩ := andThen_eq_ok.1 hr
    exact ⟨xs, ys, zs, ha, hb, hc, rfl⟩
  cases o <;> obtain ⟨xs, ys, zs, ha, hb, hc, rfl⟩ := two h
  case accessClaimMsi => exact ⟨xs, ys, zs, ha, hb, hc, .refl _⟩
  case accessMsiClaim => exact ⟨xs, zs, ys, ha, hc, hb, List.perm_append_comm.append_left _⟩
  case claimAccessMsi => exact ⟨ys, xs, zs, hb, ha, hc, List.perm_append_comm_assoc _ _ _⟩
  case claimMsiAccess =>
    refine ⟨zs, xs, ys, hc, ha, hb, ?_⟩
    rw [← List.append_assoc]; exact List.perm_append_comm
  case msiAccessClaim =>
    exact ⟨ys, zs, xs, hb, hc, ha, List.perm_append_comm.trans (by rw [List.append_assoc])⟩
  case msiClaimAccess =>
    refine ⟨zs, ys, xs, hc, hb, ha, ?_⟩
    exact (List.perm_append_comm.append_left xs).trans
      ((List.perm_append_comm (l₁ := xs)).trans (by rw [List.append_assoc]))

/-- The events of a tick: first those of calls, then those of responses, one for each transactor that takes
its response, then those of harts and of accepted requests, one for each transactor that is accepted. -/
structure State.EventList (s : State) (k : Tick) (calls answers rest : List Event) : Prop where
  isCall : ∀ e ∈ calls, Asked s.cfg (k.requests.filter Req.isCall) e
  isAnswer : ∀ e ∈ answers, ∃ x ∈ s.responds k, s.Answered x e
  answered : ∀ x ∈ s.responds k, ∃ e ∈ answers, s.Answered x e
  isRest : ∀ e ∈ rest,
    Asked s.cfg (k.requests.filter fun r => !(Req.isCall r)) e ∨ ∃ x ∈ s.accepts k, s.Accepted x e
  nodup : (rest.filterMap Event.via).Nodup
  accepted : ∀ x ∈ s.accepts k, x ∈ rest.filterMap Event.via

/-- No transactor stands twice among those a list accepts. -/
theorem nodup_acceptsFrom {s : State} {t : Tick} {used : List Port} {l : List TxId} (h : l.Nodup) :
    (acceptsFrom s t used l).Nodup := by
  induction l generalizing used with
  | nil => exact List.nodup_nil
  | cons y rest ih =>
    rw [List.nodup_cons] at h
    have cons (us : List Port) : (y :: acceptsFrom s t us rest).Nodup :=
      List.nodup_cons.2 ⟨fun hy => h.1 (of_mem_acceptsFrom hy).1, ih h.2⟩
    rw [acceptsFrom]
    split
    · split
      · exact cons _
      · split
        · exact ih h.2
        · exact cons _
    · exact ih h.2

theorem nodup_accepts (s : State) (t : Tick) : (s.accepts t).Nodup :=
  nodup_acceptsFrom (nodup_transactors s.cfg)

theorem State.addresses_iff (s : State) (x : TxId) (p : Port) :
    s.addresses x p = true ↔ s.cfg.portOf (s.tx x).req.address = some p := by
  rw [State.addresses, beq_iff_eq]

/-- The accepted requests sorted by the port they address: each once. -/
theorem accepts_perm (s : State) (l : List TxId) :
    (l.filter (fun x => s.addresses x (.window .S)) ++ (l.filter (fun x => s.addresses x (.window .M)) ++
      l.filter fun x => !s.addresses x (.window .S) && !s.addresses x (.window .M))).Perm l := by
  have hexcl (x : TxId) (hS : s.addresses x (.window .S) = true) : s.addresses x (.window .M) = false := by
    rw [Bool.eq_false_iff]
    intro hM
    rw [State.addresses_iff] at hS hM
    rw [hS] at hM; cases hM
  have hM : l.filter (fun x => s.addresses x (.window .M)) =
      (l.filter fun x => !s.addresses x (.window .S)).filter fun x => s.addresses x (.window .M) := by
    rw [List.filter_filter]
    refine List.filter_congr fun x _ => ?_
    cases hS : s.addresses x (.window .S)
    · simp
    · simp [hexcl x hS]
  have hrest : (l.filter fun x => !s.addresses x (.window .S) && !s.addresses x (.window .M)) =
      (l.filter fun x => !s.addresses x (.window .S)).filter fun x => !s.addresses x (.window .M) := by
    rw [List.filter_filter]
    exact List.filter_congr fun x _ => Bool.and_comm _ _
  rw [hM, hrest]
  exact ((List.filter_append_perm _ _).append_left _).trans (List.filter_append_perm _ l)

theorem asked_via {c : Config} {l : List Req} {es : List Event} (h : ∀ e ∈ es, Asked c l e) :
    es.filterMap Event.via = [] := by
  rw [List.filterMap_eq_nil_iff]
  intro e he
  obtain ⟨r, -, i, -, rfl⟩ := h e he
  rfl

theorem Req.isCall_of_isCsr {r : Req} (h : Req.isCsr r = true) : Req.isCall r = false := by
  cases r with
  | csr => rfl
  | call | claim => cases h

theorem Req.isCall_of_isClaim {r : Req} (h : Req.isClaim r = true) : Req.isCall r = false := by
  cases r with
  | claim => rfl
  | call | csr => cases h

theorem State.events_spec {s : State} {k : Tick} {es : List Event} (h : s.events k = .ok es) :
    ∃ calls answers rest, es = calls ++ (answers ++ rest) ∧ s.EventList k calls answers rest := by
  obtain ⟨calls, r1, hcalls, h1, rfl⟩ := andThen_eq_ok.1 h
  obtain ⟨answers, r2, hans, h2, rfl⟩ := andThen_eq_ok.1 h1
  obtain ⟨atS, r3, hS, h3, rfl⟩ := andThen_eq_ok.1 h2
  obtain ⟨atM, r4, hM, h4, rfl⟩ := andThen_eq_ok.1 h3
  obtain ⟨csr, claim, msi, hcsr, hclaim, hmsi, hperm⟩ := sequence_perm h4
  have hc := fetchRequests_spec hcalls
  obtain ⟨ha1, ha2⟩ := fetchResponses_spec hans
  obtain ⟨hS1, hS2⟩ := fetchAccepts_spec hS
  obtain ⟨hM1, hM2⟩ := fetchAccepts_spec hM
  obtain ⟨hr1, hr2⟩ := fetchAccepts_spec hmsi
  have hq := fetchRequests_spec hcsr
  have hl := fetchRequests_spec hclaim
  have hvia : ((atS ++ (atM ++ r4)).filterMap Event.via).Perm (s.accepts k) := by
    have hr4 : (r4.filterMap Event.via).Perm (msi.filterMap Event.via) := by
      refine (hperm.filterMap _).trans ?_
      rw [List.filterMap_append, List.filterMap_append, asked_via hq, asked_via hl]
      exact .refl _
    rw [List.filterMap_append, List.filterMap_append, hS1, hM1]
    refine ((hr4.append_left _).append_left _).trans ?_
    rw [hr1]
    exact accepts_perm s _
  refine ⟨calls, answers, atS ++ (atM ++ r4), rfl, hc, ha1, ha2, fun e he => ?_,
    hvia.symm.nodup (nodup_accepts s k), fun x hx => hvia.symm.mem_iff.1 hx⟩
  have acc {p : TxId → Bool} (he : ∃ x ∈ (s.accepts k).filter p, s.Accepted x e) :
      ∃ x ∈ s.accepts k, s.Accepted x e := by
    obtain ⟨x, hx, hres⟩ := he
    exact ⟨x, (List.mem_filter.1 hx).1, hres⟩
  have ask {p : Req → Bool} (hp : ∀ r, p r = true → Req.isCall r = false)
      (he : Asked s.cfg (k.requests.filter p) e) :
      Asked s.cfg (k.requests.filter fun r => !(Req.isCall r)) e := by
    obtain ⟨r, hr, hres⟩ := he
    obtain ⟨hr, hpr⟩ := List.mem_filter.1 hr
    exact ⟨r, List.mem_filter.2 ⟨hr, by rw [hp r hpr]; rfl⟩, hres⟩
  rcases List.mem_append.1 he with he | he
  · exact .inr (acc (hS2 e he))
  rcases List.mem_append.1 he with he | he
  · exact .inr (acc (hM2 e he))
  rcases List.mem_append.1 (hperm.mem_iff.1 he) with he | he
  · exact .inl (ask (fun r => Req.isCall_of_isCsr) (hq e he))
  rcases List.mem_append.1 he with he | he
  · exact .inl (ask (fun r => Req.isCall_of_isClaim) (hl e he))
  · exact .inr (acc (hr2 e he))

end Sys2Proof.Machine
end

section
/-! How a tick moves each transactor (R174 to R181), and when it faults (R176, R371). -/

namespace Sys2Proof.Machine

-- one proof at a time: the memory the check may take bounds the number of threads
set_option Elab.async false

/-! ### The counting of deadlines -/

theorem waits_nodup (s : State) (t : Tick) : (s.waits t).Nodup := (nodup_transactors s.cfg).filter _

/-- What every replacement of a transactor keeps, the counting of deadlines keeps. -/
theorem State.countDown_keeps {P : State → Prop} (s : State) (t : Tick)
    (hP : ∀ u x, x ∈ s.waits t → P u → P (u.setTx x (u.tx x).counted)) (hs : P s) : P (s.countDown t) := by
  unfold State.countDown
  generalize s.waits t = l at hP
  induction l generalizing s with
  | nil => exact hs
  | cons x rest ih =>
    rw [List.foldl_cons]
    exact ih _ (hP s x List.mem_cons_self hs) fun u y hy => hP u y (List.mem_cons_of_mem _ hy)

theorem State.countDown_cfg (s : State) (t : Tick) : (s.countDown t).cfg = s.cfg :=
  s.countDown_keeps (P := fun u => u.cfg = s.cfg) t (fun u x _ hu => (u.setTx_cfg x _).trans hu) rfl

theorem foldl_counted_tx (l : List TxId) (h : l.Nodup) (s : State) (y : TxId) :
    (l.foldl (fun u x => u.setTx x (u.tx x).counted) s).tx y =
      if y ∈ l then (s.tx y).counted else s.tx y := by
  induction l generalizing s with
  | nil => rfl
  | cons x rest ih =>
    rw [List.nodup_cons] at h
    rw [List.foldl_cons, ih h.2, State.tx_setTx]
    by_cases hy : y = x
    · subst hy; simp [h.1]
    · simp [hy]

/-- A waiting transactor has one tick less, every other is left (R176). -/
theorem State.tx_countDown (s : State) (t : Tick) (y : TxId) :
    (s.countDown t).tx y = if y ∈ s.waits t then (s.tx y).counted else s.tx y :=
  foldl_counted_tx _ (waits_nodup s t) s y

/-! ### One event, one transactor -/

/-- A response in the Response phase that does not end the run ends the transaction. -/
theorem exec_responded {s t : State} {i : Instr} {x : TxId} {op : BitVec 3} (h : exec i s = .next t)
    (hi : responseOf i = some (x, op)) (hx : (s.tx x).phase = .response) : (t.tx x).phase = .idle := by
  have key {f : Transactor → Result} (hr : takeResponse x op f s = .next t) : (t.tx x).phase = .idle := by
    rcases takeResponse_cases hr with ⟨hne, -⟩ | ⟨-, -, ht⟩ | ⟨-, -, ht⟩
    · exact absurd hx hne
    · cases ht; rw [State.tx_setTx, if_pos rfl]; rfl
    · cases ht
  cases i with
  | accessAck y => cases hi; exact key (f := fun _ => .ack) h
  | accessAckData y data => cases hi; exact key (f := fun t => .ackData (fromLanes t.req.address data)) h
  | _ => cases hi

/-- The event of a call. -/
def Event.IsCall (e : Event) : Prop := ∃ i r, e = .run none i ∧ callOf i = some r

/-- The event of a response at transactor `x`. -/
def Event.AnswersAt (e : Event) (x : TxId) : Prop := ∃ i op, e = .run none i ∧ responseOf i = some (x, op)

/-- An accepted request is one of a slave port. -/
def Event.AtSlave (e : Event) : Prop := ∀ y i, e = .run (some y) i → kindOf i ≠ .bus

/-- All an event can do to a transactor. -/
theorem runEvent_tx {e : Event} {s t : State} (h : runEvent e s = .next t) (hs : e.AtSlave) (x : TxId) :
    (e.via ≠ some x ∧ t.tx x = s.tx x) ∨
      (e.via = some x ∧ ∃ owed, t.tx x = (s.tx x).accepted s.cfg.timeout owed) ∨
      (e.IsCall ∧ (s.tx x).phase = .idle ∧ ∃ r, t.tx x = (s.tx x).begin s.cfg.timeout r) ∨
      (e.AnswersAt x ∧ (s.tx x).phase = .response ∧ ∃ r, t.tx x = .finished r) := by
  have acc {y : TxId} {u : State} (hu : u.tx x = s.tx x) (hc : u.cfg = s.cfg) :
      (some y ≠ some x ∧ (u.acceptedBy y).tx x = s.tx x) ∨
        (some y = some x ∧ ∃ owed, (u.acceptedBy y).tx x = (s.tx x).accepted s.cfg.timeout owed) := by
    rw [State.acceptedBy, State.tx_setTx]
    by_cases hx : x = y
    · subst hx; rw [if_pos rfl, hc, hu]; exact .inr ⟨rfl, _, rfl⟩
    · rw [if_neg hx]; exact .inl ⟨fun he => hx (Option.some.inj he).symm, hu⟩
  rcases runEvent_cases h with ⟨i, rfl, hi⟩ | ⟨y, i, u, rfl, hi, rfl⟩ | ⟨y, rfl, rfl⟩
  · rcases hi.tx x with ht | ⟨r, p, hr, -, -, hp, ht⟩ | ⟨op, r, hr, hp, ht⟩
    · exact .inl ⟨nofun, ht⟩
    · exact .inr (.inr (.inl ⟨⟨i, r, rfl, hr⟩, hp, r, ht⟩))
    · exact .inr (.inr (.inr ⟨⟨i, op, rfl, hr⟩, hp, r, ht⟩))
  · have hu : u.cfg = s.cfg := by
      rw [runEvent] at h
      cases hx : exec i s with
      | next v =>
        rw [hx] at h
        have hv : (v.acceptedBy y).cfg = (u.acceptedBy y).cfg := congrArg State.cfg (Host.Outcome.next.inj h)
        rw [State.acceptedBy, State.acceptedBy, State.setTx_cfg, State.setTx_cfg] at hv
        exact hv.symm.trans (Effect.cfg hx)
      | fault r => rw [hx] at h; cases h
      | refused r => rw [hx] at h; cases h
    exact (acc (hi.tx_of_kind (hs y i rfl) x) hu).imp_right .inl
  · exact (acc (s.acknowledge_tx x) rfl).imp_right .inl

theorem runEvent_cfg {e : Event} {s t : State} (h : runEvent e s = .next t) : t.cfg = s.cfg := by
  cases e with
  | away x => cases h; rw [State.acceptedBy, State.setTx_cfg]; rfl
  | run via i =>
    cases via with
    | none => exact Effect.cfg h
    | some x =>
      rw [runEvent] at h
      cases hi : exec i s with
      | next u =>
        rw [hi] at h; cases h
        rw [State.acceptedBy, State.setTx_cfg]; exact Effect.cfg hi
      | fault r => rw [hi] at h; cases h
      | refused r => rw [hi] at h; cases h

theorem runEvents_cfg {es : List Event} {s t : State} (h : runEvents es s = .next t) : t.cfg = s.cfg :=
  runEvents_keeps es (P := fun u => u.cfg = s.cfg) (fun _ _ _ _ hu hv => (runEvent_cfg hv).trans hu) rfl h

/-! ### The events of a tick, one transactor -/

section
variable {es : List Event} {s t : State} {x : TxId}

theorem runEvents_cons {e : Event} (h : runEvents (e :: es) s = .next t) :
    ∃ u, runEvent e s = .next u ∧ runEvents es u = .next t := by
  rw [runEvents] at h
  split at h
  · exact ⟨_, ‹_›, h⟩
  · cases h
  · cases h

/-- An idle transactor whose request is not among those accepted stays idle, or begins a request. -/
theorem runEvents_tx_idle (h : runEvents es s = .next t) (hs : ∀ e ∈ es, e.AtSlave)
    (hx : x ∉ es.filterMap Event.via)
    (hp : (s.tx x).phase = .idle ∨ (s.tx x).phase = .request ∧ (s.tx x).deadline = s.cfg.timeout) :
    (t.tx x).phase = .idle ∨ (t.tx x).phase = .request ∧ (t.tx x).deadline = s.cfg.timeout := by
  refine (runEvents_keeps es (P := fun u => u.cfg = s.cfg ∧ ((u.tx x).phase = .idle ∨
    (u.tx x).phase = .request ∧ (u.tx x).deadline = s.cfg.timeout)) ?_ ⟨rfl, hp⟩ h).2
  rintro e he u v ⟨hc, hu⟩ huv
  refine ⟨(runEvent_cfg huv).trans hc, ?_⟩
  rcases runEvent_tx huv (hs e he) x with ⟨-, hv⟩ | ⟨hvia, -⟩ | ⟨-, -, r, hv⟩ | ⟨-, hresp, -⟩
  · rw [hv]; exact hu
  · exact absurd (List.mem_filterMap.2 ⟨e, he, hvia⟩) hx
  · rw [hv, hc]; exact .inr ⟨rfl, rfl⟩
  · rcases hu with hu | ⟨hu, -⟩ <;> rw [hu] at hresp <;> cases hresp

/-- A busy transactor that takes no response is left, or is accepted once if its request is among those
accepted. -/
theorem runEvents_tx_busy (h : runEvents es s = .next t) (hs : ∀ e ∈ es, e.AtSlave)
    (hnd : (es.filterMap Event.via).Nodup) (hans : ∀ e ∈ es, ¬ e.AnswersAt x)
    (hp : (s.tx x).phase ≠ .idle) :
    (x ∉ es.filterMap Event.via → t.tx x = s.tx x) ∧
      (x ∈ es.filterMap Event.via → ∃ owed, t.tx x = (s.tx x).accepted s.cfg.timeout owed) := by
  induction es generalizing s with
  | nil => cases h; exact ⟨fun _ => rfl, fun hx => by cases hx⟩
  | cons e rest ih =>
    obtain ⟨u, hu, ht⟩ := runEvents_cons h
    have hrest := ih ht (fun e' he' => hs e' (List.mem_cons_of_mem _ he')) (by
      cases hv : e.via with
      | none => rwa [List.filterMap_cons_none hv] at hnd
      | some y => rw [List.filterMap_cons_some hv, List.nodup_cons] at hnd; exact hnd.2)
      (fun e' he' => hans e' (List.mem_cons_of_mem _ he'))
    rcases runEvent_tx hu (hs e List.mem_cons_self) x with
      ⟨hvia, hux⟩ | ⟨hvia, owed, hux⟩ | ⟨-, hidle, -⟩ | ⟨ha, -, -⟩
    · rw [hux, runEvent_cfg hu] at hrest
      have hmem : x ∈ (e :: rest).filterMap Event.via ↔ x ∈ rest.filterMap Event.via := by
        cases hv : e.via with
        | none => rw [List.filterMap_cons_none hv]
        | some y =>
          rw [List.filterMap_cons_some hv, List.mem_cons]
          exact or_iff_right fun hxy => hvia (by rw [hv, hxy])
      rw [hmem]
      exact hrest hp
    · rw [List.filterMap_cons_some hvia, List.nodup_cons] at hnd
      rw [List.filterMap_cons_some hvia]
      refine ⟨fun hx => absurd List.mem_cons_self hx, fun _ => ⟨owed, ?_⟩⟩
      rw [← hux]
      refine (hrest ?_).1 hnd.1
      rw [hux]
      exact nofun
    · exact absurd hidle hp
    · exact absurd ha (hans e List.mem_cons_self)

/-- A transactor that awaits a response is idle after events one of which is a response to it, if no call is
among them. -/
theorem runEvents_tx_answered (h : runEvents es s = .next t) (hs : ∀ e ∈ es, e.AtSlave)
    (hx : x ∉ es.filterMap Event.via) (hcall : ∀ e ∈ es, ¬ e.IsCall)
    (hp : (s.tx x).phase = .response ∧ (∃ e ∈ es, e.AnswersAt x) ∨
      (s.tx x).phase = .idle ∧ (s.tx x).deadline = 0) :
    (t.tx x).phase = .idle ∧ (t.tx x).deadline = 0 := by
  induction es generalizing s with
  | nil =>
    cases h
    rcases hp with ⟨-, e, he, -⟩ | hp
    · cases he
    · exact hp
  | cons e rest ih =>
    obtain ⟨u, hu, ht⟩ := runEvents_cons h
    refine ih ht (fun e' he' => hs e' (List.mem_cons_of_mem _ he')) (fun hx' => hx ?_)
      (fun e' he' => hcall e' (List.mem_cons_of_mem _ he')) ?_
    · obtain ⟨e', he', hv⟩ := List.mem_filterMap.1 hx'
      exact List.mem_filterMap.2 ⟨e', List.mem_cons_of_mem _ he', hv⟩
    · rcases runEvent_tx hu (hs e List.mem_cons_self) x with
        ⟨-, hux⟩ | ⟨hvia, -⟩ | ⟨hc, -, -⟩ | ⟨-, -, r, hux⟩
      · rw [hux]
        refine hp.imp_left fun ⟨hresp, e', he', ha⟩ => ⟨hresp, ?_⟩
        rcases List.mem_cons.1 he' with rfl | he'
        · obtain ⟨i, op, rfl, hi⟩ := ha
          -- a response at `x` in the Response phase is taken, or the run is refused
          have hidle := exec_responded hu hi hresp
          rw [hux, hresp] at hidle
          cases hidle
        · exact ⟨e', he', ha⟩
      · exact absurd (List.mem_filterMap.2 ⟨e, List.mem_cons_self, hvia⟩) hx
      · exact absurd hc (hcall e List.mem_cons_self)
      · rw [hux]; exact .inr ⟨rfl, rfl⟩

end

end Sys2Proof.Machine
end

section
/-! The statements on one tick (R9, R98, R174 to R181, R371): which transactors move and how, when a tick
faults, and that a quiescent tick changes nothing. -/

namespace Sys2Proof.Machine

-- one proof at a time: the memory the check may take bounds the number of threads
set_option Elab.async false

/-! ### Faults -/

/-- A tick without reset faults exactly where a deadline runs out. -/
theorem runTick_fault {s : State} {t : Tick} {e : Fault} :
    s.runTick t = .fault e ↔ ∃ x, s.expired t = some x ∧ e = .protocolTimeout x := by
  rw [State.runTick]
  cases hx : s.expired t with
  | some x => simp [protocolTimeout, eq_comm]
  | none =>
    refine iff_of_false (fun h => ?_) (by simp)
    dsimp only at h
    split at h
    · cases h
    · split at h
      · cases h
      · split at h
        · cases h
        · rename_i r hr; exact runEvents_ne_fault _ _ _ hr
        · cases h

theorem step_fault {s : State} {e : Fault} : step s = .fault e ↔
    s.nextTick.reset = false ∧ ∃ x, s.enterTick.expired s.nextTick = some x ∧ e = .protocolTimeout x := by
  rw [step, State.tick]
  cases hr : s.nextTick.reset with
  | true => simp
  | false => simp only [Bool.false_eq_true, if_false, true_and]; exact runTick_fault

/-- Some deadline runs out exactly where some waiting transactor has at most one tick left. -/
theorem expired_isSome {s : State} {t : Tick} :
    (∃ x, s.expired t = some x) ↔ ∃ x ∈ s.waits t, (s.tx x).deadline ≤ 1 := by
  constructor
  · rintro ⟨x, hx⟩; exact ⟨x, of_expired hx⟩
  · rintro ⟨x, hx, hd⟩
    cases he : s.expired t with
    | some y => exact ⟨y, rfl⟩
    | none => exact absurd (of_not_expired he x hx) (Nat.not_lt.2 hd)

/-- Settles O10: the fault is the timeout of the waiting transactor that `expired` names. -/
theorem onlyATimeoutFaults : Obligations.OnlyATimeoutFaults := by
  intro s w late
  have hlate (x : TxId) : late x ↔ x ∈ w.waits s.nextTick ∧ (w.tx x).deadline ≤ 1 := by
    rw [mem_waits]
    constructor
    · rintro ⟨h1, h2, h3, h4, h5⟩; exact ⟨⟨h1, h2, h4, h5⟩, h3⟩
    · rintro ⟨⟨h1, h2, h4, h5⟩, h3⟩; exact ⟨h1, h2, h3, h4, h5⟩
  refine ⟨?_, fun e he => ?_⟩
  · simp only [step_fault, hlate]
    rw [← expired_isSome]
    constructor
    · rintro ⟨e, hr, x, hx, -⟩; exact ⟨hr, x, hx⟩
    · rintro ⟨hr, x, hx⟩; exact ⟨_, hr, x, hx, rfl⟩
  · obtain ⟨-, x, hx, rfl⟩ := step_fault.1 he
    exact ⟨x, rfl, (hlate x).2 (of_expired hx)⟩

/-! ### Quiescence -/

/-- A change that leaves every owned copy leaves the state. -/
theorem State.mapOwned_eq_self {s : State} {d : Dom} {f : Nat → Source → Source}
    (h : tblWf Source.zero (s.dom d).sources = true)
    (hf : ∀ e ∈ (s.dom d).sources, s.owned d e.1 = true → f e.1 e.2 = e.2) : s.mapOwned d f = s := by
  have hself : tblMap Source.zero (fun n x => if s.owned d n then f n x else x) (s.dom d).sources =
      (s.dom d).sources := by
    refine tblMap_eq_self _ _ _ (fun e he => ?_) h
    split
    · exact hf e he ‹_›
    · rfl
  rw [State.mapOwned, hself]
  exact s.setDom_dom d

theorem State.mapBoth_eq_self {s : State} {f : Nat → Source → Source} (h : s.sourcesCanonical)
    (hf : ∀ d, ∀ e ∈ (s.dom d).sources, s.owned d e.1 = true → f e.1 e.2 = e.2) : s.mapBoth f = s := by
  rw [State.mapBoth, State.mapOwned_eq_self (h .M) (hf .M), State.mapOwned_eq_self (h .S) (hf .S)]

/-- The rules I2 to I4 of one copy (R47). -/
theorem Source.consistent_iff (x : Source) (raw : Bool) : x.consistent raw = true ↔
    (x.mode = .inactive → x.pending = false) ∧ (x.mode.isLevel = true → x.pending = x.rect raw) ∧
      (x.notified = true → x.pending = true) := by
  obtain ⟨m, p, e, n, t⟩ := x
  simp only [Source.consistent, Bool.and_eq_true, Bool.not_eq_true', Bool.and_eq_false_iff,
    beq_eq_false_iff_ne, bne_eq_false_iff_eq, and_assoc]
  refine and_congr ?_ (and_congr ?_ ?_)
  · rw [imp_iff_not_or]
  · rw [imp_iff_not_or, Bool.not_eq_true]
  · cases n <;> cases p <;> simp

/-- A consistent copy whose line has not moved is settled. -/
theorem Source.settled {x : Source} {raw : Bool} (h : x.consistent raw = true) :
    x.sample raw raw = x ∧ x.track raw = x ∧ x.endRearm = x := by
  obtain ⟨-, hlevel, hnot⟩ := (x.consistent_iff raw).1 h
  have htrig : x.triggered raw raw = x.pending := by
    obtain ⟨m, p, e, n, t⟩ := x
    cases m <;> cases raw <;> cases p <;>
      simp_all [Source.triggered, Source.rect, Mode.isTriggered, Mode.isLevel, Mode.pol, Mode.code]
  refine ⟨?_, ?_, ?_⟩
  · rw [Source.sample_eq, htrig]
  · rw [Source.track]
    split
    · rw [← hlevel ‹_›]
    · rfl
  · rw [Source.endRearm_eq]
    have : (x.notified && x.pending) = x.notified := by
      cases hn : x.notified
      · rfl
      · rw [hnot hn]; rfl
    rw [this]

/-- The rules of every entry of a domain's table. -/
theorem State.sourcesOk_iff (s : State) (d : Dom) : s.sourcesOk d = true ↔
    tblWf Source.zero (s.dom d).sources = true ∧ ∀ e ∈ (s.dom d).sources, s.owned d e.1 = true ∧
      e.2.consistent (s.rawInput.getLsbD e.1) = true ∧ namesHart s.cfg e.2.target = true := by
  simp only [State.sourcesOk, Bool.and_eq_true, List.all_eq_true, and_assoc]

/-- Where every line is as it was sampled settling changes nothing (R9). -/
theorem State.settle_eq_self {s : State} (hok : ∀ d, s.sourcesOk d = true)
    (hraw : s.rawInput = s.line &&& sourceMask s.cfg) : s.settle = s := by
  have hc : s.sourcesCanonical := fun d => State.sourcesOk_canonical (hok d)
  have line {d : Dom} {n : Nat} (ho : s.owned d n = true) : s.line.getLsbD n = s.rawInput.getLsbD n := by
    rw [hraw, State.sample_getLsbD ho]
  have ent (d : Dom) (e : Nat × Source) (he : e ∈ (s.dom d).sources) :=
    Source.settled (((s.sourcesOk_iff d).1 (hok d)).2 e he).2.1
  have h1 : (s.mapBoth fun n x => x.sample (s.rawInput.getLsbD n) (s.line.getLsbD n)) = s :=
    State.mapBoth_eq_self hc fun d e he ho => by rw [line ho]; exact (ent d e he).1
  have h2 : ({ s with rawInput := s.line &&& sourceMask s.cfg } : State) = s := by rw [← hraw]
  have h3 : (s.mapBoth fun n x => x.track ((s.line &&& sourceMask s.cfg).getLsbD n)) = s :=
    State.mapBoth_eq_self hc fun d e he _ => by rw [← hraw]; exact (ent d e he).2.1
  have h4 : (s.mapBoth fun _ x => x.endRearm) = s :=
    State.mapBoth_eq_self hc fun d e he _ => (ent d e he).2.2
  rw [State.settle_eq, h1, h2, h3, h4]

/-- A domain that owes nothing and holds no ticket issues nothing. -/
theorem State.issueStep_eq_self {s : State} {d : Dom} (ht : (s.dom d).tickets = [])
    (hw : (s.dom d).dm = true → s.want d = []) (base : Addr) (idle : Bool) :
    s.issueStep d base idle = s := by
  have hdrop : s.setDom d { s.dom d with tickets := [] } = s := by
    rw [← ht]; exact s.setDom_dom d
  rcases s.issueStep_cases d base idle with ⟨-, h⟩ | ⟨hdm, -, h⟩ | ⟨hdm, -, e, -, hmem, -, -⟩
  · rw [h, State.dropTickets, hdrop]
  · rw [h, State.drawTickets, hw hdm]
    show ({ s.setDom d { s.dom d with tickets := [] } with freeIndex := s.freeIndex } : State) = s
    rw [hdrop]
  · rw [hw hdm] at hmem; cases hmem

theorem State.allIdle_waits {s : State} (h : s.allIdle) (t : Tick) : s.waits t = [] := by
  rw [List.eq_nil_iff_forall_not_mem]
  intro x hx
  obtain ⟨hmem, hne, -⟩ := mem_waits.1 hx
  exact hne (h x hmem)

theorem State.allIdle_expired {s : State} (h : s.allIdle) (t : Tick) : s.expired t = none := by
  rw [State.expired, State.allIdle_waits h t]; rfl

theorem State.countDown_of_waits {s : State} {t : Tick} (h : s.waits t = []) : s.countDown t = s := by
  rw [State.countDown, h]; rfl

theorem State.accepts_of_no_request {s : State} (h : ∀ x ∈ s.cfg.transactors, (s.tx x).phase ≠ .request)
    (t : Tick) : s.accepts t = [] := acceptsFrom_nil h

theorem State.responds_of_no_response {s : State}
    (h : ∀ x ∈ s.cfg.transactors, (s.tx x).phase ≠ .response) (t : Tick) : s.responds t = [] := by
  rw [List.eq_nil_iff_forall_not_mem]
  exact fun x hx => h x (mem_responds.1 hx).1 (mem_responds.1 hx).2.1

theorem State.allIdle_accepts {s : State} (h : s.allIdle) (t : Tick) : s.accepts t = [] :=
  s.accepts_of_no_request (fun x hx => by rw [h x hx]; exact nofun) t

theorem State.allIdle_responds {s : State} (h : s.allIdle) (t : Tick) : s.responds t = [] :=
  s.responds_of_no_response (fun x hx => by rw [h x hx]; exact nofun) t

/-- A tick on which no deadline runs out and no port is overrun runs its events and ends. -/
theorem State.runTick_eq {s : State} {t : Tick} {es : List Event} (hx : s.expired t = none)
    (ho : t.overrun = false) (he : s.events t = .ok es) : s.runTick t =
      match runEvents es (s.countDown t) with
      | .next u => .next (State.endTick s u)
      | .fault r => .fault r
      | .refused r => .refused r := by
  rw [State.runTick, hx]
  dsimp only
  rw [ho, he]
  rfl

theorem State.events_nothing {s : State} {t : Tick} (ha : s.accepts t = []) (hr : s.responds t = [])
    (hq : t.requests = []) : s.events t = .ok [] := by
  rw [State.events, ha, hr, hq]
  cases s.cfg.sameTickOrder <;> rfl

/-- Settles O12: nothing waits, nothing happens, every source is settled and nothing is issued. -/
theorem quiescentTickChangesNothing : Obligations.QuiescentTickChangesNothing := by
  intro s hinv hidle hin hraw hwant
  obtain ⟨-, -, -, hsrc, hdom, -⟩ := (State.inv_iff s).1 hinv
  have hnext : s.nextTick = Tick.idle := by rw [State.nextTick, hin]
  have henter : s.enterTick = s := by
    rw [State.enterTick, hnext, hin]
    show ({ s with inputs := [] } : State) = s
    rw [← hin]
  have htick (d : Dom) : (s.dom d).tickets = [] := by
    have h := ((State.domainOk_iff s d).1 (hdom d)).2
    refine List.map_eq_nil_iff.1 (h.trans ?_)
    split
    · exact hwant d ‹_›
    · rfl
  have hend : State.endTick s s = s := by
    rw [State.endTick_eq, s.settle_eq_self hsrc hraw, s.issueStep_eq_self (htick .M) (hwant .M),
      s.issueStep_eq_self (htick .S) (hwant .S)]
  rw [step, State.tick, hnext, henter, if_neg (by decide),
    State.runTick_eq (State.allIdle_expired hidle _) rfl
      (State.events_nothing (State.allIdle_accepts hidle _) (State.allIdle_responds hidle _) rfl),
    State.countDown_of_waits (State.allIdle_waits hidle _)]
  show Host.Outcome.next (State.endTick s s) = _
  rw [hend]

/-! ### Which requests are accepted -/

/-- Two requests accepted on one tick address different ports, and none a port that is taken (R98). -/
theorem acceptsFrom_ports (s : State) (t : Tick) (l : List TxId) (used : List Port) :
    (∀ x ∈ acceptsFrom s t used l, ∀ p, s.cfg.portOf (s.tx x).req.address = some p → p ∉ used) ∧
      ∀ x ∈ acceptsFrom s t used l, ∀ y ∈ acceptsFrom s t used l, ∀ p,
        s.cfg.portOf (s.tx x).req.address = some p → s.cfg.portOf (s.tx y).req.address = some p → x = y := by
  induction l generalizing used with
  | nil => exact ⟨nofun, nofun⟩
  | cons z rest ih =>
    rw [acceptsFrom]
    split
    · cases hz : s.cfg.portOf (s.tx z).req.address with
      | none =>
        obtain ⟨h1, h2⟩ := ih used
        refine ⟨fun x hx p hp => ?_, fun x hx y hy p hpx hpy => ?_⟩
        · rcases List.mem_cons.1 hx with rfl | hx
          · rw [hz] at hp; cases hp
          · exact h1 x hx p hp
        · rcases List.mem_cons.1 hx with rfl | hx
          · rw [hz] at hpx; cases hpx
          · rcases List.mem_cons.1 hy with rfl | hy
            · rw [hz] at hpy; cases hpy
            · exact h2 x hx y hy p hpx hpy
      | some q =>
        dsimp only
        split
        · exact ih used
        · rename_i hu
          obtain ⟨h1, h2⟩ := ih (q :: used)
          have hq : q ∉ used := by simpa using hu
          have tail {x : TxId} (hx : x ∈ acceptsFrom s t (q :: used) rest)
              (hp : s.cfg.portOf (s.tx x).req.address = some q) : False :=
            h1 x hx q hp List.mem_cons_self
          refine ⟨fun x hx p hp => ?_, fun x hx y hy p hpx hpy => ?_⟩
          · rcases List.mem_cons.1 hx with rfl | hx
            · rw [hz] at hp; cases hp; exact hq
            · exact fun hpu => h1 x hx p hp (List.mem_cons_of_mem _ hpu)
          · rcases List.mem_cons.1 hx with rfl | hx'
            · rcases List.mem_cons.1 hy with rfl | hy'
              · rfl
              · rw [hz] at hpx; cases hpx; exact (tail hy' hpy).elim
            · rcases List.mem_cons.1 hy with rfl | hy'
              · rw [hz] at hpy; cases hpy; exact (tail hx' hpx).elim
              · exact h2 x hx' y hy' p hpx hpy
    · exact ih used

theorem Tick.ready_iff (t : Tick) (x : TxId) : Tick.ready t x = true ↔ x ∉ t.notReady := by
  rw [Tick.ready, Bool.not_eq_true', ← Bool.not_eq_true, List.contains_iff_mem]

theorem Tick.answers_iff (t : Tick) (x : TxId) : Tick.answers t x = true ↔ x ∉ t.silent := by
  rw [Tick.answers, Bool.not_eq_true', ← Bool.not_eq_true, List.contains_iff_mem]

theorem State.inTime_iff (s : State) (x : TxId) : s.inTime x = true ↔
    s.cfg.portOf (s.tx x).req.address = none ∨ 1 < (s.tx x).deadline := by
  rw [State.inTime, Bool.or_eq_true, decide_eq_true_eq, Option.isNone_iff_eq_none, or_comm]

theorem State.takes_iff (s : State) (t : Tick) (x : TxId) : s.takes t x = true ↔ x ∉ t.notReady ∧
    ∀ d, x = .msi d → s.cfg.msiOnLastTick = true ∨
      (s.cfg.portOf (s.tx x).req.address = none ∨ 1 < (s.tx x).deadline) := by
  unfold State.takes
  rw [Bool.and_eq_true, Tick.ready_iff]
  refine and_congr_right fun _ => ?_
  cases x with
  | ext p => simp
  | msi d =>
    dsimp only
    rw [Bool.or_eq_true, State.inTime_iff]
    exact ⟨fun h e he => h, fun h => h d rfl⟩

/-! ### The end of a tick -/

theorem State.tx_mapOwned (s : State) (d : Dom) (f : Nat → Source → Source) (x : TxId) :
    (s.mapOwned d f).tx x = s.tx x := by
  exact s.tx_setDom d (x := { s.dom d with
    sources := tblMap Source.zero (fun n x => if s.owned d n then f n x else x) (s.dom d).sources }) rfl rfl x

theorem State.tx_settle (s : State) (x : TxId) : s.settle.tx x = s.tx x := by
  have hraw (u : State) (b : SrcBits) : ({ u with rawInput := b } : State).tx x = u.tx x := by
    rcases x with (e | ⟨h, f⟩) | e
    · cases e <;> rfl
    · rfl
    · cases e <;> rfl
  rw [State.settle_eq, State.mapBoth, State.mapBoth, State.tx_mapOwned, State.tx_mapOwned,
    State.tx_mapOwned, State.tx_mapOwned, hraw, State.mapBoth, State.tx_mapOwned, State.tx_mapOwned]

/-- An issue step moves its domain's own transactor, from an idle port, and no other. -/
theorem State.tx_issueStep (s : State) (d : Dom) (base : Addr) (idle : Bool) (x : TxId) :
    (s.issueStep d base idle).tx x = s.tx x ∨ (x = .msi d ∧ idle = true ∧
      ∃ r, (s.issueStep d base idle).tx x = (s.tx x).begin s.cfg.timeout r) := by
  rcases s.issueStep_cases d base idle with ⟨-, h⟩ | ⟨-, -, h⟩ | ⟨-, hidle, e, -, -, -, h⟩
  · rw [h]; exact .inl (s.tx_dropTickets d x)
  · rw [h]; exact .inl (s.tx_drawTickets d x)
  · rw [h, State.tx_issue, State.tx_drawTickets, State.drawTickets_cfg]
    split
    · exact .inr ⟨‹_›, hidle, _, rfl⟩
    · exact .inl rfl

theorem State.issueStep_cfg (s : State) (d : Dom) (base : Addr) (idle : Bool) :
    (s.issueStep d base idle).cfg = s.cfg := by
  obtain ⟨x, k, h, -⟩ := s.issueStep_frame d base idle
  rw [h]; exact s.setDom_cfg d x

/-- The end of a tick moves only the transactors of delivery engines that were idle before it. -/
theorem State.tx_endTick (pre s : State) (x : TxId) : (State.endTick pre s).tx x = s.tx x ∨
    (∃ d, x = .msi d ∧ (pre.tx x).phase = .idle) ∧
      ∃ r, (State.endTick pre s).tx x = (s.tx x).begin s.cfg.timeout r := by
  have hS := (s.settle.issueStep .M (s.settle.levelBase .M) (pre.msiIdle .M)).tx_issueStep .S
    (pre.levelBase .S) (pre.msiIdle .S) x
  rw [← State.endTick_eq, State.issueStep_cfg] at hS
  have hM := s.settle.tx_issueStep .M (s.settle.levelBase .M) (pre.msiIdle .M) x
  rw [s.tx_settle] at hM
  rcases hS with hS | ⟨hx, hidle, r, hS⟩
  · rw [hS]
    refine hM.imp_right fun ⟨hx, hidle, r, hM⟩ => ⟨⟨.M, hx, ?_⟩, r, hM⟩
    rw [hx]; exact (pre.msiIdle_iff .M).1 hidle
  · rcases hM with hM | ⟨hx', -⟩
    · rw [hM] at hS
      refine .inr ⟨⟨.S, hx, ?_⟩, r, hS⟩
      rw [hx]; exact (pre.msiIdle_iff .S).1 hidle
    · rw [hx] at hx'; cases hx'

/-! ### The events of a tick -/

theorem responseOf_of_callOf {i : Instr} {r : BusA} (h : callOf i = some r) : responseOf i = none := by
  cases i with
  | get32 => rfl
  | put32 => rfl
  | _ => cases h

section
variable {s : State} {k : Tick} {calls answers rest : List Event}

theorem State.EventList.call {e : Event} (h : s.EventList k calls answers rest) (he : e ∈ calls) :
    e.IsCall := by
  obtain ⟨r, hr, i, hi, rfl⟩ := h.isCall e he
  cases r with
  | call r =>
    obtain ⟨q, hq⟩ := callOf_decode hi
    exact ⟨i, q, rfl, hq⟩
  | csr r => exact absurd (List.mem_filter.1 hr).2 nofun
  | claim r => exact absurd (List.mem_filter.1 hr).2 nofun

theorem State.EventList.answer {e : Event} (h : s.EventList k calls answers rest) (he : e ∈ answers) :
    ∃ x ∈ s.responds k, e.AnswersAt x := by
  obtain ⟨x, hx, i, hi, rfl⟩ := h.isAnswer e he
  obtain ⟨-, op, hop⟩ := responseOf_decode hi
  exact ⟨x, hx, i, op, rfl, hop⟩

/-- The other events are those of harts, and of requests at a slave port or outside the block. -/
theorem State.EventList.other {e : Event} (h : s.EventList k calls answers rest) (he : e ∈ rest) :
    (∃ i, e = .run none i ∧ kindOf i = .hart) ∨
      ∃ x ∈ s.accepts k, e.via = some x ∧ ∀ i, e = .run (some x) i → kindOf i ≠ .bus := by
  rcases h.isRest e he with ⟨r, hr, i, hi, rfl⟩ | ⟨x, hx, ⟨-, rfl⟩ | ⟨p, i, -, hi, rfl⟩⟩
  · refine .inl ⟨i, rfl, kindOf_decode_agent ?_ hi⟩
    simpa using (List.mem_filter.1 hr).2
  · exact .inr ⟨x, hx, rfl, nofun⟩
  · refine .inr ⟨x, hx, rfl, ?_⟩
    rintro j ⟨⟩
    rw [kindOf_decodeSlave hi]
    split <;> decide

/-- What the events of a tick are, of one another and of a transactor. -/
structure EventFacts (s : State) (k : Tick) (calls late : List Event) : Prop where
  atSlave : ∀ e ∈ calls ++ late, e.AtSlave
  nodup : ((calls ++ late).filterMap Event.via).Nodup
  via : ∀ x, x ∈ (calls ++ late).filterMap Event.via ↔ x ∈ s.accepts k
  answers : ∀ x, (∃ e ∈ calls ++ late, e.AnswersAt x) → x ∈ s.responds k
  responds : ∀ x ∈ s.responds k, ∃ e ∈ late, e.AnswersAt x
  isCall : ∀ e ∈ calls, e.IsCall
  notCall : ∀ e ∈ late, ¬ e.IsCall

theorem State.EventList.facts (h : s.EventList k calls answers rest) :
    EventFacts s k calls (answers ++ rest) := by
  have hcvia : calls.filterMap Event.via = [] := by
    rw [List.filterMap_eq_nil_iff]
    intro e he
    obtain ⟨i, r, rfl, -⟩ := h.call he
    rfl
  have havia : answers.filterMap Event.via = [] := by
    rw [List.filterMap_eq_nil_iff]
    intro e he
    obtain ⟨x, -, i, op, rfl, -⟩ := h.answer he
    rfl
  have hvia : (calls ++ (answers ++ rest)).filterMap Event.via = rest.filterMap Event.via := by
    rw [List.filterMap_append, List.filterMap_append, hcvia, havia]; rfl
  have nocall {i : Instr} {x : TxId} {op : BitVec 3} {r : BusA} (hr : responseOf i = some (x, op))
      (hc : callOf i = some r) : False := by
    rw [responseOf_of_callOf hc] at hr; cases hr
  refine ⟨fun e he => ?_, hvia ▸ h.nodup, fun x => ?_, fun x hx => ?_, fun x hx => ?_,
    fun e he => h.call he, fun e he hc => ?_⟩
  · rintro y i rfl
    rcases List.mem_append.1 he with he | he
    · obtain ⟨j, r, hj, -⟩ := h.call he; cases hj
    rcases List.mem_append.1 he with he | he
    · obtain ⟨x, -, j, op, hj, -⟩ := h.answer he; cases hj
    · rcases h.other he with ⟨j, hj, -⟩ | ⟨x, -, hx, hk⟩
      · cases hj
      · cases hx; exact hk i rfl
  · rw [hvia]
    refine ⟨fun hx => ?_, h.accepted x⟩
    obtain ⟨e, he, hex⟩ := List.mem_filterMap.1 hx
    rcases h.other he with ⟨j, rfl, -⟩ | ⟨y, hy, hey, -⟩
    · cases hex
    · rw [hey] at hex; cases hex; exact hy
  · obtain ⟨e, he, i, op, rfl, hr⟩ := hx
    rcases List.mem_append.1 he with he | he
    · obtain ⟨j, r, hj, hc⟩ := h.call he
      cases hj; exact (nocall hr hc).elim
    rcases List.mem_append.1 he with he | he
    · obtain ⟨y, hy, j, op', hj, hr'⟩ := h.answer he
      cases hj; rw [hr] at hr'; cases hr'; exact hy
    · rcases h.other he with ⟨j, hj, hk⟩ | ⟨y, -, hey, -⟩
      · cases hj; rw [kindOf_of_responseOf hr] at hk; cases hk
      · cases hey
  · obtain ⟨e, he, i, hi, rfl⟩ := h.answered x hx
    obtain ⟨-, op, hop⟩ := responseOf_decode hi
    exact ⟨_, List.mem_append_left _ he, i, op, rfl, hop⟩
  · obtain ⟨i, r, rfl, hc⟩ := hc
    rcases List.mem_append.1 he with he | he
    · obtain ⟨y, hy, j, op', hj, hr'⟩ := h.answer he
      cases hj; exact nocall hr' hc
    · rcases h.other he with ⟨j, hj, hk⟩ | ⟨y, -, hey, -⟩
      · cases hj; rw [kindOf_of_callOf hc] at hk; cases hk
      · cases hey

end

theorem runEvents_append_next {a b : List Event} {s t : State} (h : runEvents (a ++ b) s = .next t) :
    ∃ u, runEvents a s = .next u ∧ runEvents b u = .next t := by
  rw [runEvents_append] at h
  split at h
  · exact ⟨_, ‹_›, h⟩
  · cases h
  · cases h

/-- Settles O56: the lists of accepted and responding transactors, then each transactor through the counting
of deadlines, the events and the end of the tick. -/
theorem transactorsMoveOncePerTick : Obligations.TransactorsMoveOncePerTick := by
  intro s u k port inTime ready
  have hready (x : TxId) : ready x ↔ x ∈ u.cfg.transactors ∧ (u.tx x).phase = .request ∧
      u.takes k x = true := by
    rw [State.takes_iff]
  refine ⟨fun x hx => (hready x).2 (of_mem_accepts hx), fun x hx => ?_, fun x hx y hy p => ?_,
    fun x => ?_, fun t ht hreset x hx => ?_⟩
  · obtain ⟨h1, h2, h3⟩ := (hready x).1 hx
    refine (mem_acceptsFrom_or (used := []) h1 h2 h3).imp_right ?_
    rintro ⟨p, hp, hp' | ⟨y, hy, hpy⟩⟩
    · cases hp'
    · exact ⟨y, hy, p, hp, hpy⟩
  · exact (acceptsFrom_ports u k u.cfg.transactors []).2 x hx y hy p
  · rw [mem_responds, Tick.answers_iff, State.inTime_iff]
  · rcases step_cases ht with ⟨hr, -⟩ | ⟨-, hexp, -, es, v, hes, hrun, rfl⟩
    · rw [hreset] at hr; cases hr
    obtain ⟨calls, answers, rest, rfl, hlist⟩ := State.events_spec hes
    obtain ⟨hslave, hnd, hvia, hans, hresp, hcalls, hlate⟩ := hlist.facts
    have hcd := u.tx_countDown k x
    have hcfg : (u.countDown k).cfg = u.cfg := u.countDown_cfg k
    have hvcfg : v.cfg = u.cfg := (runEvents_cfg hrun).trans hcfg
    have hend := State.tx_endTick u v x
    have noissue (hne : (u.tx x).phase ≠ .idle) : (State.endTick u v).tx x = v.tx x :=
      hend.resolve_right fun ⟨⟨d, _, hi⟩, _⟩ => hne hi
    have accPhase (ha : x ∈ u.accepts k) : (u.tx x).phase = .request := (of_mem_accepts ha).2.1
    have respPhase (hr : x ∈ u.responds k) : (u.tx x).phase = .response := (mem_responds.1 hr).2.1
    have nowait (h : x ∉ u.waits k) : (u.countDown k).tx x = u.tx x := by rw [hcd, if_neg h]
    refine ⟨fun hidle => ?_, fun hne hna hnr => ?_, fun ha => ?_, fun hr => ?_⟩
    · have hna : x ∉ u.accepts k := fun ha => by rw [accPhase ha] at hidle; cases hidle
      have hc := nowait fun hw => (mem_waits.1 hw).2.1 hidle
      have hv := runEvents_tx_idle hrun hslave (fun h => hna ((hvia x).1 h)) (.inl (by rw [hc]; exact hidle))
      rw [hcfg] at hv
      rcases hend with he | ⟨-, r, he⟩
      · rw [he]; exact hv
      · rw [he, hvcfg]; exact .inr ⟨rfl, rfl⟩
    · have hw : x ∈ u.waits k := mem_waits.2 ⟨hx, hne, hna, hnr⟩
      have hc : (u.countDown k).tx x = (u.tx x).counted := by rw [hcd, if_pos hw]
      have hv := (runEvents_tx_busy hrun hslave hnd (fun e he ha => hnr (hans x ⟨e, he, ha⟩))
        (by rw [hc]; exact hne)).1 (fun h => hna ((hvia x).1 h))
      exact ⟨of_not_expired hexp x hw, by rw [noissue hne, hv, hc]; rfl⟩
    · have hreq := accPhase ha
      have hne : (u.tx x).phase ≠ .idle := by rw [hreq]; exact nofun
      have hc := nowait fun hw => (mem_waits.1 hw).2.2.1 ha
      have hnr : x ∉ u.responds k := fun hr => by rw [respPhase hr] at hreq; cases hreq
      obtain ⟨owed, hv⟩ := (runEvents_tx_busy hrun hslave hnd (fun e he ha => hnr (hans x ⟨e, he, ha⟩))
        (by rw [hc]; exact hne)).2 ((hvia x).2 ha)
      rw [noissue hne, hv, hc, hcfg]
      exact ⟨rfl, rfl, rfl, rfl⟩
    · have hphase := respPhase hr
      have hne : (u.tx x).phase ≠ .idle := by rw [hphase]; exact nofun
      have hna : x ∉ u.accepts k := fun ha => by rw [accPhase ha] at hphase; cases hphase
      have hc := nowait fun hw => (mem_waits.1 hw).2.2.2 hr
      have hnv : x ∉ (calls ++ (answers ++ rest)).filterMap Event.via := fun h => hna ((hvia x).1 h)
      rw [List.filterMap_append, List.mem_append, not_or] at hnv
      obtain ⟨w, hw1, hw2⟩ := runEvents_append_next hrun
      have hnd1 : (calls.filterMap Event.via).Nodup := by
        rw [List.filterMap_append] at hnd; exact (List.nodup_append.1 hnd).1
      have hw := (runEvents_tx_busy hw1 (fun e he => hslave e (List.mem_append_left _ he)) hnd1
        (fun e he ⟨i, op, hei, hi⟩ => by
          obtain ⟨j, r, hej, hj⟩ := hcalls e he
          rw [hei] at hej; cases hej
          rw [responseOf_of_callOf hj] at hi; cases hi)
        (by rw [hc]; exact hne)).1 hnv.1
      rw [noissue hne]
      refine runEvents_tx_answered hw2 (fun e he => hslave e (List.mem_append_right _ he)) hnv.2 hlate ?_
      rw [hw, hc]
      exact .inl ⟨hphase, hresp x hr⟩

end Sys2Proof.Machine
end

section
/-! What a tick runs when all transactors are idle but the one a message was presented to (R96, R97, R174 to
R181): the statements that tie `step` to `exec`, and a file that is accessed, claimed from and written to on
one tick. -/

namespace Sys2Proof.Machine

-- one proof at a time: the memory the check may take bounds the number of threads
set_option Elab.async false

/-! ### One event -/

theorem fetchRequests_one {c : Config} {r : Req} {i : Instr} (h : decode c (.agent r) = .ok i) :
    fetchRequests c [r] = .ok [.run none i] := by
  rw [fetchRequests, h]; rfl

theorem fetchResponses_one {s : State} {x : TxId} {i : Instr}
    (h : decode s.cfg (.response x (s.tx x).owed) = .ok i) : fetchResponses s [x] = .ok [.run none i] := by
  rw [fetchResponses, h]; rfl

theorem fetchAccepts_one {s : State} {x : TxId} {p : Port} {i : Instr}
    (hp : s.cfg.portOf (s.tx x).req.address = some p)
    (h : decode s.cfg (.slave (s.orderRequest p (s.tx x).req)) = .ok i) :
    fetchAccepts s [x] = .ok [.run (some x) i] := by
  rw [fetchAccepts, fetchAccepts, hp]
  dsimp only
  rw [h]

theorem runEvents_one (e : Event) (s : State) : runEvents [e] s = runEvent e s := by
  rw [runEvents]
  cases runEvent e s <;> rfl

/-! ### One transactor -/

theorem eq_singleton_of_nodup {l : List TxId} {y : TxId} (h : l.Nodup) (hm : ∀ x, x ∈ l ↔ x = y) :
    l = [y] := by
  refine List.perm_singleton.1 ((List.perm_ext_iff_of_nodup h (List.nodup_singleton y)).2 fun x => ?_)
  rw [hm, List.mem_singleton]

section
variable {s : State} {k : Tick} {y : TxId}

theorem State.accepts_only (hy : y ∈ s.cfg.transactors) (hp : (s.tx y).phase = .request)
    (ht : s.takes k y = true) (ho : ∀ x ∈ s.cfg.transactors, x ≠ y → (s.tx x).phase = .idle) :
    s.accepts k = [y] := by
  have only {x : TxId} (hx : x ∈ s.accepts k) : x = y := by
    obtain ⟨hmem, hreq, -⟩ := of_mem_accepts hx
    by_contra hne
    rw [ho x hmem hne] at hreq; cases hreq
  refine eq_singleton_of_nodup (nodup_accepts s k) fun x => ⟨only, ?_⟩
  rintro rfl
  rcases mem_acceptsFrom_or (used := []) hy hp ht with h | ⟨p, -, hu | ⟨z, hz, -⟩⟩
  · exact h
  · cases hu
  · exact only hz ▸ hz

theorem State.responds_only (hy : y ∈ s.cfg.transactors) (hp : (s.tx y).phase = .response)
    (ha : Tick.answers k y = true) (ht : s.inTime y = true)
    (ho : ∀ x ∈ s.cfg.transactors, x ≠ y → (s.tx x).phase = .idle) : s.responds k = [y] := by
  refine eq_singleton_of_nodup ((nodup_transactors s.cfg).filter _) fun x => ?_
  rw [mem_responds]
  refine ⟨fun ⟨hmem, hresp, _⟩ => ?_, ?_⟩
  · by_contra hne
    rw [ho x hmem hne] at hresp; cases hresp
  · rintro rfl; exact ⟨hy, hp, ha, ht⟩

theorem State.waits_nil (ho : ∀ x ∈ s.cfg.transactors, x ≠ y → (s.tx x).phase = .idle)
    (hy : y ∈ s.accepts k ∨ y ∈ s.responds k) : s.waits k = [] := by
  rw [List.eq_nil_iff_forall_not_mem]
  intro x hx
  obtain ⟨hmem, hne, hna, hnr⟩ := mem_waits.1 hx
  by_cases hxy : x = y
  · subst hxy; exact hy.elim hna hnr
  · exact hne (ho x hmem hxy)

theorem State.expired_of_waits (h : s.waits k = []) : s.expired k = none := by
  rw [State.expired, h]; rfl

end

/-- A message presented to transactor `y` leaves every other idle. -/
theorem State.others_idle {s : State} (h : s.allIdle) (y : TxId) (v : Transactor) :
    ∀ x ∈ (s.setTx y v).cfg.transactors, x ≠ y → ((s.setTx y v).tx x).phase = .idle := by
  intro x hx hne
  rw [State.tx_setTx, if_neg hne]
  exact h x (by rwa [State.setTx_cfg] at hx)

/-- The tick of a schedule without line changes happens in the state that was scheduled for. -/
theorem State.enterTick_scheduled {u : State} {k : Tick} {ks : List Tick} (hu : u.inputs = ks)
    (hk : k.lines = []) : ({ u with inputs := k :: ks } : State).enterTick = u := by
  subst hu
  show ({ u with line := driveLines u.line k.lines } : State) = u
  rw [hk]; rfl

/-- A scheduled tick without reset. -/
theorem step_scheduled {u : State} {k : Tick} {ks : List Tick} (hu : u.inputs = ks) (hk : k.lines = [])
    (hr : k.reset = false) : step { u with inputs := k :: ks } = u.runTick k := by
  rw [step, State.tick, State.enterTick_scheduled hu hk]
  show (if k.reset = true then _ else u.runTick k) = _
  rw [hr]; rfl

theorem Tick.only_quiet (c : Config) (y : TxId) :
    y ∉ (Tick.only c y).notReady ∧ y ∉ (Tick.only c y).silent := by
  have h : y ∉ othersOf c y := fun hy => by
    obtain ⟨-, hne⟩ := List.mem_filter.1 hy
    simp at hne
  exact ⟨h, h⟩

/-! ### A request of an agent -/

theorem andThen_nil (b : Except Reject (List Event)) : andThen (.ok []) b = b := by
  cases b <;> rfl

/-- The events of a tick on which one agent's request is all that happens. -/
theorem State.events_of_request {s : State} {k : Tick} {r : Req} {i : Instr} (ha : s.accepts k = [])
    (hr : s.responds k = []) (hk : k.requests = [r]) (hi : decode s.cfg (.agent r) = .ok i) :
    s.events k = .ok [.run none i] := by
  have hone := fetchRequests_one hi
  have split : s.events k = andThen (fetchRequests s.cfg ([r].filter Req.isCall))
      (SameTickOrder.sequence s.cfg.sameTickOrder (fetchRequests s.cfg ([r].filter Req.isCsr))
        (fetchRequests s.cfg ([r].filter Req.isClaim)) (.ok [])) := by
    rw [State.events, ha, hr, hk]
    show andThen _ (andThen (.ok []) (andThen (.ok []) (andThen (.ok [])
      (SameTickOrder.sequence _ _ _ (.ok []))))) = _
    rw [andThen_nil, andThen_nil, andThen_nil]
  rw [split]
  cases r with
  | call r =>
    show andThen (fetchRequests s.cfg [.call r]) _ = _
    rw [hone]; cases s.cfg.sameTickOrder <;> rfl
  | csr r =>
    show andThen (.ok []) (SameTickOrder.sequence _ (fetchRequests s.cfg [.csr r]) (.ok []) (.ok [])) = _
    rw [hone]; cases s.cfg.sameTickOrder <;> rfl
  | claim r =>
    show andThen (.ok []) (SameTickOrder.sequence _ (.ok []) (fetchRequests s.cfg [.claim r]) (.ok [])) = _
    rw [hone]; cases s.cfg.sameTickOrder <;> rfl

/-- Settles O7: with every transactor idle the request is the tick's only event. -/
theorem stepRunsARequestOfAnAgent : Obligations.StepRunsARequestOfAnAgent := by
  intro s r i hidle hi
  rw [State.present, step_scheduled rfl rfl rfl,
    State.runTick_eq (s.allIdle_expired hidle _) (by cases r <;> rfl)
      (State.events_of_request (s.allIdle_accepts hidle _) (s.allIdle_responds hidle _) rfl hi),
    State.countDown_of_waits (s.allIdle_waits hidle _), runEvents_one]
  rfl

/-! ### A request at a slave port -/

theorem kindOf_of_csrHartOf {i : Instr} {h : Nat} (hi : csrHartOf i = some h) : kindOf i = .hart := by
  cases i with
  | csrxIllegalOp | csrIllegalContext | csrIllegalSelector | csrwEidelivery | csrsEidelivery
  | csrcEidelivery | csrwEithreshold | csrsEithreshold | csrcEithreshold | csrwEip | csrsEip | csrcEip
  | csrwEie | csrsEie | csrcEie => rfl
  | _ => cases hi

/-- A read answers data and does nothing else; a write is acknowledged. -/
theorem Effect.answer {s t : State} {i : Instr} (h : Effect s i t) :
    (kindOf i = .read → ∃ w, t = s.answerData w) ∧ (kindOf i = .write → t.answer = .ack) := by
  have other {k : Kind} (hk : kindOf i = k) (hr : k ≠ .read) (hw : k ≠ .write) :
      (kindOf i = .read → ∃ w, t = s.answerData w) ∧ (kindOf i = .write → t.answer = .ack) :=
    ⟨fun h => absurd (hk.symm.trans h) hr, fun h => absurd (hk.symm.trans h) hw⟩
  have write (hk : kindOf i = .write) (ht : t.answer = .ack) :
      (kindOf i = .read → ∃ w, t = s.answerData w) ∧ (kindOf i = .write → t.answer = .ack) :=
    ⟨fun h => by rw [hk] at h; (cases h), fun _ => ht⟩
  cases h with
  | busy hi => exact other (kindOf_of_callOf hi) nofun nofun
  | begins hi => exact other (kindOf_of_callOf hi) nofun nofun
  | unawaited hi => exact other (kindOf_of_responseOf hi) nofun nofun
  | taken hi => exact other (kindOf_of_responseOf hi) nofun nofun
  | answered w hi => exact ⟨fun _ => ⟨w, rfl⟩, fun h => by rw [hi] at h; cases h⟩
  | ignored hi => exact write hi rfl
  | config d w hi => exact write (hi ▸ rfl) rfl
  | mmsiaddrcfg w hi => exact write (hi ▸ rfl) rfl
  | mmsiaddrcfgh w hi => exact write (hi ▸ rfl) rfl
  | smsiaddrcfg w hi => exact write (hi ▸ rfl) rfl
  | smsiaddrcfgh w hi => exact write (hi ▸ rfl) rfl
  | named d n hi => exact write hi rfl
  | bits d k w hi => exact write hi rfl
  | sourcecfg d n w hi => exact write (hi ▸ rfl) rfl
  | genmsi d w hi => exact write (hi ▸ rfl) rfl
  | received j f w hi => exact write (hi ▸ rfl) rfl
  | illegal j hi => exact other (kindOf_of_csrHartOf hi) nofun nofun
  | access j r op v hi => exact other (kindOf_of_csrHartOf hi) nofun nofun
  | claimedNone j c hi => exact other (k := .hart) (hi ▸ rfl) nofun nofun
  | claimed j c hi => exact other (k := .hart) (hi ▸ rfl) nofun nofun

theorem State.orderRequest_head (s : State) (p : Port) (r : BusA) :
    (s.orderRequest p r).opcode = r.opcode ∧ (s.orderRequest p r).address = r.address := by
  rw [State.orderRequest]; split <;> exact ⟨rfl, rfl⟩

theorem State.swapsAt_of_not_swaps {s : State} (h : s.cfg.beSwapsData = false) (p : Port) :
    s.swapsAt p = false := by
  cases p with
  | window d => show (s.cfg.beSwapsData && _) = false; rw [h]; rfl
  | page => rfl

theorem State.orderRequest_of_not_swaps {s : State} {p : Port} (h : s.swapsAt p = false) (r : BusA) :
    s.orderRequest p r = r := by
  rw [State.orderRequest, h]; rfl

theorem State.swapsAt_setTx (s : State) (x : TxId) (v : Transactor) (p : Port) :
    (s.setTx x v).swapsAt p = s.swapsAt p := by
  cases p with
  | window d =>
    show ((s.setTx x v).cfg.beSwapsData && ((s.setTx x v).dom d).be) = (s.cfg.beSwapsData && (s.dom d).be)
    rw [State.setTx_cfg, (s.dom_setTx x v d).2.1]
  | page => rfl

theorem State.orderRequest_setTx (s : State) (x : TxId) (v : Transactor) (p : Port) (r : BusA) :
    (s.setTx x v).orderRequest p r = s.orderRequest p r := by
  rw [State.orderRequest, State.swapsAt_setTx]; rfl

/-- The events of a tick on which one accepted request and requests of harts are all that happens. -/
theorem State.events_of_accept {s : State} {k : Tick} {y : TxId} {p : Port} {i : Instr}
    (ha : s.accepts k = [y]) (hr : s.responds k = []) (hk : k.requests = [])
    (hp : s.cfg.portOf (s.tx y).req.address = some p)
    (hi : decode s.cfg (.slave (s.orderRequest p (s.tx y).req)) = .ok i) :
    s.events k = .ok [.run (some y) i] := by
  have hone := fetchAccepts_one hp hi
  have haddr (q : Port) : s.addresses y q = decide (p = q) := by
    rw [State.addresses, hp]; by_cases hq : p = q <;> simp [hq]
  rw [State.events, ha, hr, hk]
  simp only [List.filter_cons, List.filter_nil, haddr]
  cases p with
  | window d =>
    cases d with
    | M =>
      show andThen (.ok []) (andThen (.ok []) (andThen (.ok []) (andThen (fetchAccepts s [y])
        (SameTickOrder.sequence _ (.ok []) (.ok []) (.ok []))))) = _
      rw [hone]; cases s.cfg.sameTickOrder <;> rfl
    | S =>
      show andThen (.ok []) (andThen (.ok []) (andThen (fetchAccepts s [y]) (andThen (.ok [])
        (SameTickOrder.sequence _ (.ok []) (.ok []) (.ok []))))) = _
      rw [hone]; cases s.cfg.sameTickOrder <;> rfl
  | page h f =>
    show andThen (.ok []) (andThen (.ok []) (andThen (.ok []) (andThen (.ok [])
      (SameTickOrder.sequence _ (.ok []) (.ok []) (fetchAccepts s [y]))))) = _
    rw [hone]; cases s.cfg.sameTickOrder <;> rfl

/-- The response that is owed after a request at a slave port was accepted (R179). -/
theorem owed_of_accepted {u v : State} {p : Port} {r : BusA} {i : Instr} (hr : (u.tx (.ext p)).req = r)
    (hport : u.cfg.portOf r.address = some p) (hi : decode u.cfg (.slave (u.orderRequest p r)) = .ok i)
    (hv : exec i u = .next v) :
    ((v.acceptedBy (.ext p)).tx (.ext p)).owed = (v.orderAnswer (some p) v.answer).toBusD r.address := by
  have htx : v.tx (.ext p) = u.tx (.ext p) :=
    (exec_effect hv).tx_of_kind (by rw [kindOf_decodeSlave hi]; split <;> decide) _
  rw [State.acceptedBy, State.tx_setTx, if_pos rfl]
  show Answer.toBusD (v.orderAnswer (v.cfg.portOf (v.tx (.ext p)).req.address) v.answer)
    (v.tx (.ext p)).req.address = _
  rw [htx, hr, Effect.cfg hv, hport]

/-- Settles O8: the accepted request is the tick's only event; the answer is that of a read or a write. -/
theorem stepRunsAnAcceptedRequest : Obligations.StepRunsAnAcceptedRequest := by
  intro s r p i hidle hport hi u
  have hreq : u.tx (.ext p) = (s.tx (.ext p)).begin s.cfg.timeout r := by
    rw [State.tx_setTx, if_pos rfl]
  have hcfg : u.cfg = s.cfg := s.setTx_cfg _ _
  have hp : u.cfg.portOf (u.tx (.ext p)).req.address = some p := by rw [hreq, hcfg]; exact hport
  have hy : TxId.ext p ∈ u.cfg.transactors := by
    rw [hcfg]; exact (mem_transactors s.cfg _).2 (portOf_hasPort hport)
  have ho := s.others_idle hidle (.ext p) ((s.tx (.ext p)).begin s.cfg.timeout r)
  have hphase : (u.tx (.ext p)).phase = .request := by rw [hreq]; rfl
  have hdec : decode u.cfg (.slave (u.orderRequest p r)) = .ok i := by
    rw [hcfg, State.orderRequest_setTx]; exact hi
  have hacc : u.accepts (Tick.only s.cfg (.ext p)) = [.ext p] :=
    State.accepts_only hy hphase ((State.takes_iff _ _ _).2 ⟨(Tick.only_quiet _ _).1, nofun⟩) ho
  have hresp : u.responds (Tick.only s.cfg (.ext p)) = [] :=
    State.responds_of_no_response (fun x hx => by
      by_cases hxy : x = .ext p
      · rw [hxy, hphase]; exact nofun
      · rw [ho x hx hxy]; exact nofun) _
  have hw : u.waits (Tick.only s.cfg (.ext p)) = [] :=
    State.waits_nil ho (.inl (hacc ▸ List.mem_singleton_self _))
  refine ⟨?_, fun hs => State.orderRequest_of_not_swaps (State.swapsAt_of_not_swaps hs p) r, ?_⟩
  · rw [State.present, hport]
    show step { u with inputs := _ :: s.inputs } = _
    rw [step_scheduled (s.setTx_inputs _ _) rfl rfl,
      State.runTick_eq (State.expired_of_waits hw) rfl
        (State.events_of_accept hacc hresp rfl hp (by rw [hreq]; exact hdec)),
      State.countDown_of_waits hw, runEvents_one, runEvent]
    cases exec i u <;> rfl
  · intro v hv o
    have ho' : o = (v.orderAnswer (some p) v.answer).toBusD r.address := by
      have hend : (State.endTick u (v.acceptedBy (.ext p))).tx (.ext p) = (v.acceptedBy (.ext p)).tx (.ext p) :=
        (State.tx_endTick u _ _).resolve_right (by rintro ⟨⟨d, hd, -⟩, -⟩; cases hd)
      rw [← owed_of_accepted (by rw [hreq]; rfl) (by rw [hcfg]; exact hport) hdec hv, ← hend]
    have hkind := kindOf_decodeSlave hdec
    rw [(State.orderRequest_head u p r).1] at hkind
    obtain ⟨hread, hwrite⟩ := (exec_effect hv).answer
    refine ⟨fun hop => ?_, fun hop => ?_⟩
    · rw [ho', hwrite (by rw [hkind, hop]; rfl)]; rfl
    · obtain ⟨w, rfl⟩ := hread (by rw [hkind, hop]; rfl)
      rw [ho']
      refine ⟨rfl, w, rfl, fun hs => ?_⟩
      show toLanes r.address (if (u.answerData w).swapsAt p = true then _ else w) = _
      rw [State.swapsAt_of_not_swaps (show (u.answerData w).cfg.beSwapsData = false from hcfg ▸ hs)]
      exact toLanes_eq_shiftLeft _ _

/-! ### A response -/

/-- The events of a tick on which one response is all that happens. -/
theorem State.events_of_response {s : State} {k : Tick} {x : TxId} {i : Instr} (ha : s.accepts k = [])
    (hr : s.responds k = [x]) (hk : k.requests = [])
    (hi : decode s.cfg (.response x (s.tx x).owed) = .ok i) : s.events k = .ok [.run none i] := by
  rw [State.events, ha, hr, hk, fetchResponses_one hi]
  cases s.cfg.sameTickOrder <;> rfl

theorem portOf_baseM {c : Config} (hv : c.valid = true) : c.portOf c.baseM = some (.window .M) := by
  rw [Config.portOf, regionOf_eq hv (r := (.window .M, c.baseM)) List.mem_cons_self]
  · rfl
  · have : c.baseM.toNat < c.baseM.toNat + domainWindow := Nat.lt_add_of_pos_right (by decide)
    simpa [inRegion, Port.size] using this

/-- Settles O9: the response is the tick's only event, or, with one tick of patience, comes too late. -/
theorem stepRunsAResponse : Obligations.StepRunsAResponse := by
  intro s x r i hv hidle hi asked u
  have hmem : x ∈ s.cfg.transactors := (mem_transactors s.cfg x).2 (responseOf_decode hi).1
  have hux : u.tx x = ((s.tx x).begin s.cfg.timeout asked).accepted s.cfg.timeout r := by
    rw [State.tx_setTx, if_pos rfl]
  have hcfg : u.cfg = s.cfg := s.setTx_cfg _ _
  have hphase : (u.tx x).phase = .response := by rw [hux]; rfl
  have hdead : (u.tx x).deadline = s.cfg.timeout := by rw [hux]; rfl
  have hy : x ∈ u.cfg.transactors := by rw [hcfg]; exact hmem
  have ho := s.others_idle hidle x (((s.tx x).begin s.cfg.timeout asked).accepted s.cfg.timeout r)
  have hacc : u.accepts (Tick.only s.cfg x) = [] :=
    State.accepts_of_no_request (fun y hy => by
      by_cases hxy : y = x
      · rw [hxy, hphase]; exact nofun
      · rw [ho y hy hxy]; exact nofun) _
  have hstep : step (s.present (.response x r)) = u.runTick (Tick.only s.cfg x) :=
    step_scheduled (s.setTx_inputs _ _) rfl rfl
  rw [hstep]
  refine ⟨fun ht => ?_, fun ht => ?_⟩
  · have hresp : u.responds (Tick.only s.cfg x) = [x] :=
      State.responds_only hy hphase ((Tick.answers_iff _ _).2 (Tick.only_quiet _ _).2)
        ((u.inTime_iff x).2 (.inr (by rw [hdead]; exact ht))) ho
    have hw : u.waits (Tick.only s.cfg x) = [] :=
      State.waits_nil ho (.inr (hresp ▸ List.mem_singleton_self _))
    rw [State.runTick_eq (State.expired_of_waits hw) rfl
        (State.events_of_response hacc hresp rfl (by rw [hcfg, hux]; exact hi)),
      State.countDown_of_waits hw, runEvents_one]
    rfl
  · have hport : u.cfg.portOf (u.tx x).req.address = some (.window .M) := by
      have haddr : asked.address = s.cfg.baseM := by simp only [asked]; split <;> rfl
      rw [hux, hcfg]
      show s.cfg.portOf asked.address = _
      rw [haddr, portOf_baseM hv]
    have hlate : x ∉ u.responds (Tick.only s.cfg x) := fun hx => by
      rcases (u.inTime_iff x).1 (mem_responds.1 hx).2.2.2 with h | h
      · rw [hport] at h; cases h
      · omega
    have hwait : x ∈ u.waits (Tick.only s.cfg x) :=
      mem_waits.2 ⟨hy, by rw [hphase]; exact nofun, by rw [hacc]; exact nofun, hlate⟩
    obtain ⟨y, hexp⟩ := expired_isSome.2 ⟨x, hwait, by rw [hdead, ht]⟩
    have hyx : y = x := by
      by_contra hne
      obtain ⟨hmem', hbusy, -⟩ := mem_waits.1 (of_expired hexp).1
      exact hbusy (ho y hmem' hne)
    exact runTick_fault.2 ⟨x, hyx ▸ hexp, rfl⟩

end Sys2Proof.Machine
end

section
/-! An indirect access, a claim and an MSI of one file on one tick (R97, R350). -/

namespace Sys2Proof.Machine

-- one proof at a time: the memory the check may take bounds the number of threads
set_option Elab.async false

/-! ### Which rows a page decodes to -/

theorem windowOf_putRow (w : Word) (i : Instr) (h : ∀ j f o, i ≠ .getPage j f o) :
    windowOf (i.putRow w) = windowOf i := by
  cases i with
  | getPage j f o => exact absurd rfl (h j f o)
  | _ => rfl

/-- Only a page's location takes an MSI. -/
theorem page_of_row {p : Port} {isGet : Bool} {off : Addr} {v w : Word} {h : Nat} {f : FileId}
    (hr : p.row isGet off v = .putSeteipnum h f w) : p = .page h f := by
  cases p with
  | window d =>
    have hw : windowOf (Port.row (.window d) isGet off v) = some d := by
      rw [Port.row]
      split
      · exact windowOf_decodeDomGet d _
      · rw [windowOf_putRow _ _ (decodeDomGet_ne_page d _)]; exact windowOf_decodeDomGet d _
    rw [hr] at hw; cases hw
  | page h' f' =>
    rw [Port.row, decodePage] at hr
    split at hr
    · cases hr
    · split at hr
      · cases hr; rfl
      · cases hr

theorem portOf_of_decode_putSeteipnum {c : Config} {m : BusA} {h : Nat} {f : FileId} {w : Word}
    (hm : decode c (.slave m) = .ok (.putSeteipnum h f w)) : c.portOf m.address = some (.page h f) := by
  rw [decode, decodeSlave_eq] at hm
  rw [Config.portOf]
  split at hm
  · cases hm
  · split at hm
    · cases hm
    · cases hreg : c.regionOf m.address with
      | none => rw [hreg] at hm; cases hm
      | some q => rw [hreg] at hm; exact congrArg some (page_of_row (Except.ok.inj hm))

/-! ### The row of an access -/

theorem exec_csrInstr (h : Nat) (x : Ctx) (op : CsrOp) (r : IReg) (v : DWord) (s : State) :
    exec (csrInstr h x op r v) s = csrAccess h x r op v s := by
  cases r <;> cases op <;> rfl

theorem csrAccess_some {h : Nat} {x : Ctx} {f : FileId} {s : State} (hf : s.cfg.fileOf x = some f) (r : IReg)
    (op : CsrOp) (v : DWord) : csrAccess h x r op v s =
      .next ((s.setFile h f ((s.file h f).access r op v)).legalAccess h ((s.file h f).read r)) := by
  rw [csrAccess, hf]

theorem decode_csr {c : Config} {q : CsrReq} {f : FileId} {r : IReg} {op : CsrOp} (hh : q.hart < c.nHart)
    (hf : c.fileOf q.ctx = some f) (hr : iregOf q.iselect = some r) (hop : csrOpOf q.op = some op) :
    decode c (.agent (.csr q)) = .ok (csrInstr q.hart q.ctx op r q.wdata) := by
  rw [decode, decodeCsr, if_neg (Nat.not_le.2 hh), hop]
  dsimp only
  rw [hf, hr]
  rfl

theorem decode_claim {c : Config} {h : Nat} {x : Ctx} (hh : h < c.nHart) :
    decode c (.agent (.claim ⟨h, x⟩)) = .ok (.claim h x) := by
  rw [decode, decodeClaim, if_neg (Nat.not_le.2 hh)]

/-! ### The end of a tick leaves the harts -/

theorem State.endTick_harts (pre s : State) : (State.endTick pre s).harts = s.harts := by
  have hissue (u : State) (d : Dom) (b : Addr) (i : Bool) : (u.issueStep d b i).harts = u.harts := by
    obtain ⟨x, k, h, -⟩ := u.issueStep_frame d b i
    rw [h]; exact u.setDom_harts d x
  rw [State.endTick_eq, hissue, hissue]
  rfl

theorem State.hart_of_harts {s t : State} (h : t.harts = s.harts) (n : Nat) : t.hart n = s.hart n := by
  rw [State.hart, h]; rfl

theorem State.file_of_harts {s t : State} (h : t.harts = s.harts) (n : Nat) (f : FileId) :
    t.file n f = s.file n f := by
  rw [State.file, State.unit, State.hart_of_harts h]; rfl

/-! ### The three events -/

/-- The state after an access, a claim and an MSI of one file, in this order. -/
def State.accessClaimReceive (s : State) (q : CsrReq) (f : FileId) (r : IReg) (op : CsrOp) (w : Word) : State :=
  let x := (s.file q.hart f).access r op q.wdata
  let a := (s.setFile q.hart f x).legalAccess q.hart ((s.file q.hart f).read r)
  let b := (a.setFile q.hart f x.claimed).claimAnswer q.hart x.top
  (b.setFile q.hart f (x.claimed.receive w)).acknowledge

section
variable {s : State} {q : CsrReq} {f : FileId} {r : IReg} {op : CsrOp} {w : Word}

theorem runEvents_accessClaimReceive (hf : s.cfg.fileOf q.ctx = some f) (y : TxId) :
    runEvents [.run none (csrInstr q.hart q.ctx op r q.wdata), .run none (.claim q.hart q.ctx),
      .run (some y) (.putSeteipnum q.hart f w)] s = .next ((s.accessClaimReceive q f r op w).acceptedBy y) := by
  rw [runEvents, runEvent, exec_csrInstr, csrAccess_some hf]
  dsimp only
  rw [runEvents, runEvent, exec_claim_some (f := f) (by exact hf)]
  dsimp only
  rw [runEvents_one, runEvent, exec_putSeteipnum]
  simp [State.file_setFile, State.accessClaimReceive]

theorem State.accessClaimReceive_file : (s.accessClaimReceive q f r op w).file q.hart f =
    ((s.file q.hart f).access r op q.wdata).claimed.receive w := by
  simp [State.accessClaimReceive, State.file_setFile]

theorem State.accessClaimReceive_hart :
    ((s.accessClaimReceive q f r op w).hart q.hart).rdata = (s.file q.hart f).read r ∧
      ((s.accessClaimReceive q f r op w).hart q.hart).illegal = false ∧
      ((s.accessClaimReceive q f r op w).hart q.hart).claimId =
        BitVec.ofNat 11 ((s.file q.hart f).access r op q.wdata).top := by
  simp [State.accessClaimReceive, State.hart_setFile, State.hart_claimAnswer, State.hart_legalAccess]

end

/-- The file after the claim and the MSI, bit by bit. -/
theorem IFile.receive_claimed (x : IFile) (w : Word) : ∃ bits, x.claimed.receive w = { x with eip := bits } ∧
    ∀ i, bits.getLsbD i = ((x.eip.getLsbD i && (decide (i ≠ x.top) || decide (x.top = 0))) ||
      (decide (i = w.toNat) && decide (1 ≤ i) && decide (i ≤ 2047))) := by
  refine ⟨(x.claimed.receive w).eip, ?_, fun i => ?_⟩
  · exact (x.claimed.receive_eq w).trans
      (congrArg (fun z : IFile => { z with eip := (x.claimed.receive w).eip }) x.claimed_eq)
  · rw [IFile.receive_eip, IFile.claimed_eip]

/-- Settles O58: the tick's three events are the access, the claim and the MSI, in this order, and its end
leaves the harts. -/
theorem msiAfterAClaimStaysPending : Obligations.MsiAfterAClaimStaysPending := by
  intro s y m q f r op w hidle horder htime hy hm hf hr hop u x
  have hport := portOf_of_decode_putSeteipnum hm
  have hhart : q.hart < s.cfg.nHart := ((hasPort_page _ _ _).1 (portOf_hasPort hport)).1
  let v := s.setTx y ((s.tx y).begin s.cfg.timeout m)
  let k : Tick := { Tick.only s.cfg y with requests := [.claim ⟨q.hart, q.ctx⟩, .csr q] }
  have hvy : v.tx y = (s.tx y).begin s.cfg.timeout m := by rw [State.tx_setTx, if_pos rfl]
  have hcfg : v.cfg = s.cfg := s.setTx_cfg _ _
  have hphase : (v.tx y).phase = .request := by rw [hvy]; rfl
  have ho := s.others_idle hidle y ((s.tx y).begin s.cfg.timeout m)
  have hp : v.cfg.portOf (v.tx y).req.address = some (.page q.hart f) := by rw [hvy, hcfg]; exact hport
  have hacc : v.accepts k = [y] := by
    refine State.accepts_only (by rw [hcfg]; exact hy) hphase ?_ ho
    refine (State.takes_iff _ _ _).2 ⟨(Tick.only_quiet _ _).1, fun _ _ => .inr (.inr ?_)⟩
    rw [hvy]; exact htime
  have hresp : v.responds k = [] := State.responds_of_no_response (fun z hz => by
    by_cases hzy : z = y
    · rw [hzy, hphase]; exact nofun
    · rw [ho z hz hzy]; exact nofun) _
  have hw : v.waits k = [] := State.waits_nil ho (.inl (hacc ▸ List.mem_singleton_self _))
  have hevents : v.events k = .ok [.run none (csrInstr q.hart q.ctx op r q.wdata),
      .run none (.claim q.hart q.ctx), .run (some y) (.putSeteipnum q.hart f w)] := by
    have haddr (d : Dom) : v.addresses y (.window d) = false := by
      rw [State.addresses, hp]; rfl
    have hmsi : fetchAccepts v [y] = .ok [.run (some y) (.putSeteipnum q.hart f w)] :=
      fetchAccepts_one hp (by rw [hvy, hcfg]; exact hm)
    rw [State.events, hacc, hresp, show v.cfg.sameTickOrder = .accessClaimMsi from hcfg ▸ horder, hcfg]
    simp only [List.filter_cons, List.filter_nil, haddr]
    show andThen (.ok []) (andThen (.ok []) (andThen (.ok []) (andThen (.ok []) (andThen
      (fetchRequests s.cfg [.csr q]) (andThen (fetchRequests s.cfg [.claim ⟨q.hart, q.ctx⟩])
        (fetchAccepts v [y])))))) = _
    rw [hmsi, fetchRequests_one (decode_csr hhart hf hr hop), fetchRequests_one (decode_claim hhart)]
    rfl
  have hstep : step u = .next (State.endTick v ((v.accessClaimReceive q f r op w).acceptedBy y)) := by
    rw [show step u = v.runTick k from step_scheduled (s.setTx_inputs _ _) rfl rfl,
      State.runTick_eq (State.expired_of_waits hw)
        (by simp [Tick.overrun, k, csrHarts, claimHarts, hasRepeat]) hevents,
      State.countDown_of_waits hw, runEvents_accessClaimReceive (by rw [hcfg]; exact hf)]
  have hfile : v.file q.hart f = s.file q.hart f := s.file_setTx _ _ _ _
  have hend := State.endTick_harts v ((v.accessClaimReceive q f r op w).acceptedBy y)
  obtain ⟨bits, hbits, hspec⟩ := x.receive_claimed w
  obtain ⟨hrd', hill', hid'⟩ :=
    State.accessClaimReceive_hart (s := v) (q := q) (f := f) (r := r) (op := op) (w := w)
  refine ⟨_, bits, hstep, ?_, hspec, ?_, ?_, ?_, ?_⟩
  · rw [State.file_of_harts hend, State.acceptedBy, State.file_setTx, State.accessClaimReceive_file, hfile, hbits]
  · rw [State.hart_of_harts hend, State.acceptedBy, (State.hart_setTx _ _ _ _).2.1, hrd', hfile]
  · rw [State.hart_of_harts hend, State.acceptedBy, (State.hart_setTx _ _ _ _).1, hill']
  · rw [State.hart_of_harts hend, State.acceptedBy, (State.hart_setTx _ _ _ _).2.2, hid', hfile]
    exact ofNat_top_toNat x
  · have hkeep := (State.tx_endTick v ((v.accessClaimReceive q f r op w).acceptedBy y) y).resolve_right
      (by rintro ⟨⟨d, -, hd⟩, -⟩; rw [hphase] at hd; cases hd)
    rw [hkeep, State.acceptedBy, State.tx_setTx, if_pos rfl]
    rfl

end Sys2Proof.Machine
end

section
/-! The invariant as rules on what the accessors read (R47, R276, R352): every source copy, every domain's
words, every transactor, every file. -/

namespace Sys2Proof

-- one proof at a time: the memory the check may take bounds the number of threads
set_option Elab.async false

/-! ### Tables -/

/-- In a canonical table an entry is what its number reads, and not the default. -/
theorem tblGet_of_mem {α : Type} [DecidableEq α] (dflt : α) (t : Tbl α) {lo : Nat}
    (h : Machine.tblWfFrom dflt lo t = true) {e : Nat × α} (he : e ∈ t) :
    Machine.tblGet dflt t e.1 = e.2 ∧ e.2 ≠ dflt ∧ lo ≤ e.1 := by
  induction t generalizing lo with
  | nil => cases he
  | cons a rest ih =>
    obtain ⟨m, v⟩ := a
    simp only [Machine.tblWfFrom, Bool.and_eq_true, decide_eq_true_eq] at h
    obtain ⟨⟨hlo, hv⟩, hrest⟩ := h
    rcases List.mem_cons.1 he with rfl | he
    · exact ⟨if_pos rfl, hv, hlo⟩
    · obtain ⟨h1, h2, h3⟩ := ih hrest he
      have hne : m ≠ e.1 := by omega
      exact ⟨(if_neg hne).trans h1, h2, by omega⟩

namespace Machine

/-! ### The rules of the state -/

/-- Copy `x` of source `n` in domain `d`, at any point of a tick: not pending where it is Inactive, its
target names a hart, and it is all zero where the domain does not own the source (I2, I5, I6). -/
def State.CopyOk (s : State) (d : Dom) (n : Nat) (x : Source) : Prop :=
  (x.mode = .inactive → x.pending = false) ∧ namesHart s.cfg x.target = true ∧
    (s.owned d n = false → x = Source.zero)

/-- The words of a domain's own (R35, R37, R136). -/
def Domain.WordsOk (c : Config) (d : Dom) (x : Domain) : Prop :=
  dmAllowed (c.dmKind d) x.dm ∧ namesHart c x.genmsi = true ∧ ¬ (x.genmsiBusy = true ∧ c.genmsi = .refused)

/-- The guest files of a hart are those of the configuration. -/
def Hart.Shape (c : Config) (x : Hart) : Prop :=
  tblWf FileUnit.zero x.guests = true ∧ ∀ g ∈ x.guests, 1 ≤ g.1 ∧ g.1 ≤ c.geilen.toNat

/-- The harts are those of the configuration, with their files. -/
def State.HartsShape (s : State) : Prop :=
  tblWf Hart.zero s.harts = true ∧ ∀ e ∈ s.harts, e.1 < s.cfg.nHart ∧ e.2.Shape s.cfg

/-- What holds at every point of a tick; its end brings the rest of the invariant. -/
structure State.Core (s : State) : Prop where
  valid : s.cfg.valid = true
  deleg : s.deleg &&& ~~~sourceMask s.cfg = 0#1024
  raw : s.rawInput &&& ~~~sourceMask s.cfg = 0#1024
  canonical : s.sourcesCanonical
  copies : ∀ d n, s.CopyOk d n (s.source d n)
  words : ∀ d, (s.dom d).WordsOk s.cfg d
  txs : ∀ x, (s.tx x).ok s.cfg x = true
  files : ∀ h f, (s.file h f).eip.getLsbD 0 = false ∧ (s.file h f).eie.getLsbD 0 = false
  shape : s.HartsShape

/-- In MSI mode the causes that wait hold a ticket each, in direct mode none does (log entry 5). -/
def State.Ticketed (s : State) (d : Dom) : Prop :=
  (s.dom d).tickets.map Prod.fst = if (s.dom d).dm then s.want d else []

/-- Every copy is consistent with its sampled line (I2 to I4). -/
def State.Consistent (s : State) : Prop := ∀ d n, (s.source d n).consistent (s.rawInput.getLsbD n) = true

theorem State.copyOk_zero {s : State} (hv : s.cfg.valid = true) (d : Dom) (n : Nat) :
    s.CopyOk d n Source.zero :=
  ⟨fun _ => rfl, decide_eq_true (Config.valid_bounds hv).2.1, fun _ => rfl⟩

theorem State.sourcesOk_iff_copyOk {s : State} (hv : s.cfg.valid = true) (d : Dom) : s.sourcesOk d = true ↔
    tblWf Source.zero (s.dom d).sources = true ∧
      ∀ n, s.CopyOk d n (s.source d n) ∧ (s.source d n).consistent (s.rawInput.getLsbD n) = true := by
  rw [State.sourcesOk_iff]
  refine and_congr_right fun hwf => ⟨fun h n => ?_, fun h e he => ?_⟩
  · rcases tblGet_mem Source.zero (s.dom d).sources n with hz | hm
    · rw [show s.source d n = Source.zero from hz]; exact ⟨State.copyOk_zero hv d n, rfl⟩
    · obtain ⟨ho, hc, ht⟩ := h _ hm
      exact ⟨⟨((Source.consistent_iff _ _).1 hc).1, ht, fun hno => absurd ho (by rw [hno]; decide)⟩, hc⟩
  · obtain ⟨hget, hne, -⟩ := tblGet_of_mem _ _ hwf he
    obtain ⟨⟨-, ht, hz⟩, hc⟩ := h e.1
    rw [show s.source d e.1 = e.2 from hget] at hc ht hz
    refine ⟨?_, hc, ht⟩
    by_contra hno
    exact hne (hz (Bool.eq_false_iff.2 hno))

/-! ### The harts -/

theorem FileUnit.ok_iff {c : Config} {h : Nat} {f : FileId} {u : FileUnit} : u.ok c h f = true ↔
    (u.file.eip.getLsbD 0 = false ∧ u.file.eie.getLsbD 0 = false) ∧ u.port.ok c (.ext (.page h f)) = true := by
  simp only [FileUnit.ok, Bool.and_eq_true, Bool.not_eq_true']

theorem FileUnit.zero_ok (c : Config) (h : Nat) (f : FileId) : FileUnit.zero.ok c h f = true :=
  FileUnit.ok_iff.2 ⟨⟨BitVec.getLsbD_zero, BitVec.getLsbD_zero⟩, rfl⟩

theorem Hart.ok_iff {c : Config} {h : Nat} {x : Hart} : x.ok c h = true ↔
    x.Shape c ∧ ∀ f, (x.unit f).ok c h f = true := by
  have guest (g : BitVec 6) : BitVec.ofNat 6 g.toNat = g := by simp
  simp only [Hart.ok, Bool.and_eq_true, List.all_eq_true, decide_eq_true_eq, Hart.Shape]
  constructor
  · rintro ⟨⟨⟨hM, hS⟩, hwf⟩, hg⟩
    refine ⟨⟨hwf, fun e he => (hg e he).1⟩, fun f => ?_⟩
    cases f with
    | M => exact hM
    | S => exact hS
    | G g =>
      rcases tblGet_mem FileUnit.zero x.guests g.toNat with hz | hm
      · rw [Hart.unit, hz]; exact FileUnit.zero_ok c h _
      · have := (hg _ hm).2
        rwa [guest] at this
  · rintro ⟨⟨hwf, hrange⟩, hf⟩
    refine ⟨⟨⟨hf .M, hf .S⟩, hwf⟩, fun e he => ⟨hrange e he, ?_⟩⟩
    have hlt : e.1 < 2 ^ 6 := (hrange e he).2.trans_lt c.geilen.isLt
    have hu := hf (.G (BitVec.ofNat 6 e.1))
    rw [Hart.unit, BitVec.toNat_ofNat, Nat.mod_eq_of_lt hlt, (tblGet_of_mem _ _ hwf he).1] at hu
    exact hu

theorem Hart.shape_zero (c : Config) : Hart.zero.Shape c := ⟨rfl, fun _ h => nomatch h⟩

theorem State.hartsOk_iff (s : State) : s.hartsOk = true ↔
    s.HartsShape ∧ ∀ h f, (s.unit h f).ok s.cfg h f = true := by
  simp only [State.hartsOk, Bool.and_eq_true, List.all_eq_true, decide_eq_true_eq, State.HartsShape, Hart.ok_iff]
  constructor
  · rintro ⟨hwf, h⟩
    refine ⟨⟨hwf, fun e he => ⟨(h e he).1, (h e he).2.1⟩⟩, fun n f => ?_⟩
    show ((tblGet Hart.zero s.harts n).unit f).ok s.cfg n f = true
    rcases tblGet_mem Hart.zero s.harts n with hz | hm
    · rw [hz, Hart.unit_zero]; exact FileUnit.zero_ok _ _ _
    · exact (h _ hm).2.2 f
  · rintro ⟨⟨hwf, h⟩, hu⟩
    refine ⟨hwf, fun e he => ⟨(h e he).1, (h e he).2, fun f => ?_⟩⟩
    have := hu e.1 f
    rwa [State.unit, State.hart, (tblGet_of_mem _ _ hwf he).1] at this

theorem State.shape_hart {s : State} (h : s.HartsShape) (n : Nat) : (s.hart n).Shape s.cfg := by
  rcases tblGet_mem Hart.zero s.harts n with hz | hm
  · rw [State.hart, hz]; exact Hart.shape_zero _
  · exact (h.2 _ hm).2

/-- The invariant is `Core`, the consistency of every copy, and that exactly the causes that wait hold a
ticket. -/
theorem State.inv_iff_core (s : State) : s.inv = true ↔ s.Core ∧ s.Consistent ∧ ∀ d, s.Ticketed d := by
  rw [State.inv_iff]
  constructor
  · rintro ⟨hv, hdeleg, hraw, hsrc, hdom, hharts⟩
    have hsrc (d : Dom) := (State.sourcesOk_iff_copyOk hv d).1 (hsrc d)
    have hdom (d : Dom) := (State.domainOk_iff s d).1 (hdom d)
    obtain ⟨hshape, hunit⟩ := s.hartsOk_iff.1 hharts
    refine ⟨⟨hv, hdeleg, hraw, fun d => (hsrc d).1, fun d n => ((hsrc d).2 n).1, fun d => ?_, fun x => ?_,
      fun h f => (FileUnit.ok_iff.1 (hunit h f)).1, hshape⟩, fun d n => ((hsrc d).2 n).2, fun d => (hdom d).2⟩
    · obtain ⟨⟨h1, h2, h3, -, -⟩, -⟩ := hdom d
      exact ⟨h1, h2, h3⟩
    · rcases x with (d | ⟨h, f⟩) | d
      · obtain ⟨⟨-, -, -, h, -⟩, -⟩ := hdom d; exact h
      · exact (FileUnit.ok_iff.1 (hunit h f)).2
      · obtain ⟨⟨-, -, -, -, h⟩, -⟩ := hdom d; exact h
  · rintro ⟨hc, hs, ht⟩
    refine ⟨hc.valid, hc.deleg, hc.raw,
      fun d => (State.sourcesOk_iff_copyOk hc.valid d).2
        ⟨hc.canonical d, fun n => ⟨hc.copies d n, hs d n⟩⟩, fun d => ?_,
      s.hartsOk_iff.2 ⟨hc.shape, fun h f => FileUnit.ok_iff.2 ⟨hc.files h f, hc.txs (.ext (.page h f))⟩⟩⟩
    obtain ⟨h1, h2, h3⟩ := hc.words d
    exact (State.domainOk_iff s d).2
      ⟨⟨h1, h2, h3, hc.txs (.ext (.window d)), hc.txs (.msi d)⟩, ht d⟩

/-- Settles O15: the rules of each copy and each file are clauses of `Core`. -/
theorem invariantGivesTheRulesOfTheState : Obligations.InvariantGivesTheRulesOfTheState := by
  intro s hinv
  obtain ⟨hc, hs, -⟩ := s.inv_iff_core.1 hinv
  refine ⟨fun d n => ?_, hc.files⟩
  obtain ⟨-, -, hzero⟩ := hc.copies d n
  obtain ⟨h2, h3, h4⟩ := (Source.consistent_iff _ _).1 (hs d n)
  exact ⟨by cases (s.source d n).mode <;> decide, h2, h3, h4, hzero⟩

end Machine
end Sys2Proof
end

section
/-! Every instruction that the decoder can answer keeps the rules that hold at every point of a tick. -/

namespace Sys2Proof.Machine

-- one proof at a time: the memory the check may take bounds the number of threads
set_option Elab.async false

/-! ### Transactors -/

/-- A busy transactor: its deadline has not run out, its request is one it may hold. -/
def Transactor.Live (c : Config) (x : TxId) (t : Transactor) : Prop :=
  1 ≤ t.deadline ∧ t.deadline ≤ c.timeout ∧ t.req.legalShape = true ∧ mayHold c x t.req = true

theorem Transactor.ok_iff {c : Config} {x : TxId} {t : Transactor} : t.ok c x = true ↔
    (t.phase = .idle → t.deadline = 0) ∧ (t.phase ≠ .idle → t.Live c x) ∧
      (t.phase = .response → t.owed.opcode = if t.req.opcode = opGet then opAckData else opAck) := by
  unfold Transactor.ok Transactor.Live
  cases t.phase <;> simp [and_assoc]

theorem Transactor.ok_begin {c : Config} {x : TxId} {t : Transactor} {r : BusA} (hv : c.valid = true)
    (hs : r.legalShape = true) (hr : mayHold c x r = true) : (t.begin c.timeout r).ok c x = true :=
  Transactor.ok_iff.2 ⟨nofun, fun _ => ⟨(Config.valid_bounds hv).2.2, Nat.le_refl _, hs, hr⟩, nofun⟩

theorem Transactor.ok_finished (c : Config) (x : TxId) (r : Result) : (Transactor.finished r).ok c x = true :=
  rfl

theorem Transactor.ok_accepted {c : Config} {x : TxId} {t : Transactor} {owed : BusD} (hv : c.valid = true)
    (ht : t.ok c x = true) (hp : t.phase ≠ .idle)
    (ho : owed.opcode = if t.req.opcode = opGet then opAckData else opAck) :
    (t.accepted c.timeout owed).ok c x = true := by
  obtain ⟨-, -, hs, hr⟩ := (Transactor.ok_iff.1 ht).2.1 hp
  exact Transactor.ok_iff.2 ⟨nofun, fun _ => ⟨(Config.valid_bounds hv).2.2, Nat.le_refl _, hs, hr⟩, fun _ => ho⟩

theorem Transactor.ok_counted {c : Config} {x : TxId} {t : Transactor} (ht : t.ok c x = true)
    (hd : 1 < t.deadline) : t.counted.ok c x = true := by
  obtain ⟨hidle, hlive, ho⟩ := Transactor.ok_iff.1 ht
  refine Transactor.ok_iff.2 ⟨fun hp => ?_, fun hp => ?_, ho⟩
  · have := hidle hp; omega
  · obtain ⟨-, h2, h3, h4⟩ := hlive hp
    exact ⟨Nat.le_sub_one_of_lt hd, (Nat.sub_le _ _).trans h2, h3, h4⟩

/-! ### Pieces of the state -/

section
variable {s t : State}

/-- A state with the same parameters, harts and transactors, whose domains differ in their sources only. -/
theorem State.Core.of_sources (h : s.Core) (hcfg : t.cfg = s.cfg)
    (hdeleg : t.deleg &&& ~~~sourceMask s.cfg = 0#1024) (hraw : t.rawInput &&& ~~~sourceMask s.cfg = 0#1024)
    (hcanon : t.sourcesCanonical) (hcopies : ∀ d n, t.CopyOk d n (t.source d n))
    (hwords : ∀ d, (t.dom d).dm = (s.dom d).dm ∧ (t.dom d).genmsi = (s.dom d).genmsi ∧
      (t.dom d).genmsiBusy = (s.dom d).genmsiBusy)
    (htx : ∀ x, t.tx x = s.tx x) (hharts : t.harts = s.harts) : t.Core := by
  refine ⟨hcfg ▸ h.valid, hcfg ▸ hdeleg, hcfg ▸ hraw, hcanon, hcopies, fun d => ?_, fun x => ?_,
    fun n f => ?_, ?_⟩
  · obtain ⟨h1, h2, h3⟩ := hwords d
    rw [Domain.WordsOk, hcfg, h1, h2, h3]; exact h.words d
  · rw [htx, hcfg]; exact h.txs x
  · rw [State.file_of_harts hharts]; exact h.files n f
  · rw [State.HartsShape, hharts, hcfg]; exact h.shape

/-- What the accessors of a domain and of a hart do not read may change. -/
theorem State.Core.congr (h : s.Core) (hcfg : t.cfg = s.cfg) (hdeleg : t.deleg = s.deleg)
    (hraw : t.rawInput = s.rawInput) (hdom : ∀ d, t.dom d = s.dom d) (hharts : t.harts = s.harts) : t.Core := by
  have hown (d : Dom) (n : Nat) : t.owned d n = s.owned d n := by
    rw [State.owned, State.owner, hcfg, hdeleg]; rfl
  refine h.of_sources hcfg (hdeleg ▸ h.deleg) (hraw ▸ h.raw) (fun d => hdom d ▸ h.canonical d)
    (fun d n => ?_) (fun d => by rw [hdom]; exact ⟨rfl, rfl, rfl⟩) (fun x => ?_) hharts
  · rw [State.CopyOk, hown, hcfg, State.source, hdom]; exact h.copies d n
  · rcases x with (d | ⟨n, f⟩) | d
    · rw [State.tx, hdom]; rfl
    · rw [State.tx, State.unit, State.hart_of_harts hharts]; rfl
    · rw [State.tx, hdom]; rfl

theorem State.Core.answered (h : s.Core) (a : Answer) : { s with answer := a }.Core :=
  h.congr rfl rfl rfl (fun d => by cases d <;> rfl) rfl

/-- A domain replaced by one with the same sources. -/
theorem State.Core.setDom (h : s.Core) (d : Dom) {x : Domain} (hsrc : x.sources = (s.dom d).sources)
    (hwords : x.WordsOk s.cfg d) (hport : x.port.ok s.cfg (.ext (.window d)) = true)
    (hmsi : x.msi.ok s.cfg (.msi d) = true) : (s.setDom d x).Core := by
  have dom (e : Dom) {P : Domain → Prop} (hx : e = d → P x) (hs : P (s.dom e)) : P ((s.setDom d x).dom e) := by
    by_cases he : e = d
    · subst he; rw [State.dom_setDom_same]; exact hx rfl
    · rw [State.dom_setDom_other s d e x he]; exact hs
  refine ⟨by rw [State.setDom_cfg]; exact h.valid, by simpa using h.deleg, by simpa using h.raw,
    State.sourcesCanonical_setDom h.canonical d (hsrc ▸ h.canonical d), fun e n => ?_, fun e => ?_,
    fun y => ?_, fun n f => by rw [State.file_setDom]; exact h.files n f, ?_⟩
  · rw [State.CopyOk, State.source_setDom s d e hsrc, State.setDom_cfg, State.owned_setDom]
    exact h.copies e n
  · rw [State.setDom_cfg]
    exact dom e (P := fun z => z.WordsOk s.cfg e) (fun he => he ▸ hwords) (h.words e)
  · rw [State.setDom_cfg]
    rcases y with (e | ⟨n, f⟩) | e
    · exact dom e (P := fun z => z.port.ok s.cfg (.ext (.window e)) = true) (fun he => he ▸ hport)
        (h.txs (.ext (.window e)))
    · rw [State.tx, State.unit_setDom]; exact h.txs (.ext (.page n f))
    · exact dom e (P := fun z => z.msi.ok s.cfg (.msi e) = true) (fun he => he ▸ hmsi) (h.txs (.msi e))
  · rw [State.HartsShape, State.setDom_harts, State.setDom_cfg]; exact h.shape

theorem State.Core.units (h : s.Core) (n : Nat) (f : FileId) : (s.unit n f).ok s.cfg n f = true :=
  FileUnit.ok_iff.2 ⟨h.files n f, h.txs (.ext (.page n f))⟩

/-- A hart that exists replaced by one that is as it must be. -/
theorem State.Core.setHart (h : s.Core) {n : Nat} (hn : n < s.cfg.nHart) {x : Hart}
    (hx : x.ok s.cfg n = true) : (s.setHart n x).Core := by
  have hunit (m : Nat) (f : FileId) : ((s.setHart n x).unit m f).ok s.cfg m f = true := by
    rw [State.unit, State.hart_setHart]
    split
    · rename_i he; rw [he]; exact (Hart.ok_iff.1 hx).2 f
    · exact h.units m f
  refine ⟨h.valid, h.deleg, h.raw, State.sourcesCanonical_of_sources h.canonical fun d => ?_, fun d m => ?_,
    fun d => ?_, fun y => ?_, fun m f => (FileUnit.ok_iff.1 (hunit m f)).1,
    tblWf_tblSet _ _ n x h.shape.1, ?_⟩
  · rw [State.setHart_dom]
  · rw [State.source_setHart]; exact h.copies d m
  · rw [State.setHart_dom]; exact h.words d
  · rcases y with (d | ⟨m, f⟩) | d
    · rw [State.tx, State.setHart_dom]; exact h.txs (.ext (.window d))
    · exact (FileUnit.ok_iff.1 (hunit m f)).2
    · rw [State.tx, State.setHart_dom]; exact h.txs (.msi d)
  · -- an entry is the new hart, or an old one
    have hall : (s.setHart n x).harts.all
        (fun e => decide (e.1 < s.cfg.nHart) && e.2.ok s.cfg e.1) = true := by
      refine tblAll_tblSet _ _ n x (fun _ => by simp [hn, hx]) (List.all_eq_true.2 fun e he => ?_)
      have hlt := (h.shape.2 e he).1
      have hget : s.hart e.1 = e.2 := (tblGet_of_mem _ _ h.shape.1 he).1
      have hok : e.2.ok s.cfg e.1 = true :=
        Hart.ok_iff.2 ⟨(h.shape.2 e he).2, fun f => hget ▸ h.units e.1 f⟩
      simp [hlt, hok]
    intro e he
    have := List.all_eq_true.1 hall e he
    simp only [Bool.and_eq_true, decide_eq_true_eq] at this
    exact ⟨this.1, (Hart.ok_iff.1 this.2).1⟩

theorem State.Core.hart_ok (h : s.Core) (n : Nat) : (s.hart n).ok s.cfg n = true :=
  Hart.ok_iff.2 ⟨State.shape_hart h.shape n, h.units n⟩

/-- A hart's outputs may change. -/
theorem State.Core.setHart_outputs (h : s.Core) {n : Nat} (hn : n < s.cfg.nHart) {x : Hart}
    (hM : x.fileM = (s.hart n).fileM) (hS : x.fileS = (s.hart n).fileS) (hg : x.guests = (s.hart n).guests) :
    (s.setHart n x).Core := by
  refine h.setHart hn ?_
  rw [Hart.ok, hM, hS, hg]
  exact h.hart_ok n

/-- A file that exists, or its transactor, replaced by one that is as it must be. -/
theorem State.Core.setUnit (h : s.Core) {n : Nat} {f : FileId} (hp : s.cfg.hasPort (.page n f) = true)
    {u : FileUnit} (hu : u.ok s.cfg n f = true) : (s.setUnit n f u).Core := by
  obtain ⟨hn, hf⟩ := (hasPort_page _ _ _).1 hp
  refine h.setHart hn (Hart.ok_iff.2 ⟨?_, fun f' => ?_⟩)
  · have hs := State.shape_hart h.shape n
    cases f with
    | M => exact hs
    | S => exact hs
    | G g =>
      have hall : (tblSet FileUnit.zero (s.hart n).guests g.toNat u).all
          (fun e => decide (1 ≤ e.1) && decide (e.1 ≤ s.cfg.geilen.toNat)) = true :=
        tblAll_tblSet _ _ _ _ (fun _ => by simp [hf.1, hf.2])
          (List.all_eq_true.2 fun e he => by simp [(hs.2 e he).1, (hs.2 e he).2])
      refine ⟨tblWf_tblSet _ _ _ _ hs.1, fun e he => ?_⟩
      simpa using List.all_eq_true.1 hall e he
  · rw [Hart.unit_setUnit]
    split
    · rename_i he; rw [he]; exact hu
    · exact h.units n f'

theorem State.Core.setFile (h : s.Core) {n : Nat} {f : FileId} (hp : s.cfg.hasPort (.page n f) = true)
    {x : IFile} (hip : x.eip.getLsbD 0 = false) (hie : x.eie.getLsbD 0 = false) : (s.setFile n f x).Core :=
  h.setUnit hp (FileUnit.ok_iff.2 ⟨⟨hip, hie⟩, h.txs (.ext (.page n f))⟩)

theorem State.Core.setTx (h : s.Core) {x : TxId} (hx : s.cfg.hasTx x = true) {v : Transactor}
    (hv : v.ok s.cfg x = true) : (s.setTx x v).Core := by
  rcases x with (d | ⟨n, f⟩) | d
  · exact h.setDom d rfl (h.words d) hv (h.txs (.msi d))
  · exact h.setUnit hx (FileUnit.ok_iff.2 ⟨h.files n f, hv⟩)
  · exact h.setDom d rfl (h.words d) (h.txs (.ext (.window d))) hv

/-! ### Sources -/

/-- An owned copy changed into one that is as it must be. -/
theorem State.Core.modifyOwned (h : s.Core) (d : Dom) (n : Nat) {f : Source → Source}
    (hf : s.CopyOk d n (s.source d n) → s.owned d n = true → s.CopyOk d n (f (s.source d n))) :
    (s.modifyOwned d n f).Core := by
  obtain ⟨tb, htb⟩ := s.modifyOwned_frame d n f
  have hc := State.SameCommon.modifyOwned s d n f
  refine h.of_sources hc.cfg (hc.deleg ▸ h.deleg) (hc.rawInput ▸ h.raw)
    (State.sourcesCanonical_modifyOwned h.canonical d n f) (fun e m => ?_) (fun e => ?_)
    (s.tx_modifyOwned d n f) (by rw [htb, State.setDom_harts])
  · rw [State.CopyOk, State.owned_modifyOwned, hc.cfg, State.source_modifyOwned]
    split
    · rename_i he
      obtain ⟨rfl, rfl, ho⟩ := he
      exact hf (h.copies e m) ho
    · exact h.copies e m
  · rw [htb]
    by_cases he : e = d
    · subst he; rw [State.dom_setDom_same]; exact ⟨rfl, rfl, rfl⟩
    · rw [State.dom_setDom_other s d e _ he]; exact ⟨rfl, rfl, rfl⟩

end

theorem namesHart_iff (c : Config) (w : Word) : namesHart c w = true ↔ w.toNat / 2 ^ 18 < c.nHart := by
  rw [namesHart, decide_eq_true_eq, hartField_toNat]

theorem warlHart_lt {c : Config} (hv : c.valid = true) (w : Word) : (warlHart c w).toNat < c.nHart := by
  have := (Config.valid_bounds hv).2.1
  rw [warlHart_toNat]; split
  · assumption
  · omega

theorem namesHart_warlGenmsi {c : Config} (hv : c.valid = true) (w : Word) :
    namesHart c (warlGenmsi c w) = true := by
  have hlt := (warlHart c w).isLt
  have := warlHart_lt hv w
  rw [namesHart_iff, warlGenmsi_eq, BitVec.toNat_ofNat]
  omega

theorem namesHart_warlTarget {c : Config} (hv : c.valid = true) (d : Dom) (m : Bool) (w : Word) :
    namesHart c (warlTarget c d m w) = true := by
  have hlt := (warlHart c w).isLt
  have hglt := (warlGuest c d w).isLt
  have := warlHart_lt hv w
  rw [namesHart_iff, warlTarget_eq]
  split <;> rw [BitVec.toNat_ofNat] <;> omega

/-- What a register write does to a source leaves it as it must be. -/
theorem SourceOp.copyOk {s : State} {d : Dom} {i : Instr} {g : Nat → Source → Source} (hg : SourceOp s d i g)
    (hv : s.cfg.valid = true) {n : Nat} {x : Source} (hx : s.CopyOk d n x) (ho : s.owned d n = true) :
    s.CopyOk d n (g n x) := by
  obtain ⟨hinact, hhart, -⟩ := hx
  have hno {P : Prop} (h : s.owned d n = false) : P := by rw [ho] at h; cases h
  cases hg with
  | request =>
    show s.CopyOk d n x.requestSet
    rw [Source.requestSet_eq]
    refine ⟨fun hm => ?_, hhart, hno⟩
    dsimp only at hm ⊢
    rw [hinact hm, hm]; rfl
  | clear =>
    show s.CopyOk d n (x.requestClear _)
    rw [Source.requestClear_eq]
    split
    · exact ⟨fun _ => rfl, hhart, hno⟩
    · split
      · exact ⟨hinact, hhart, hno⟩
      · exact ⟨hinact, hhart, hno⟩
  | enable => exact ⟨hinact, hhart, hno⟩
  | disable => exact ⟨hinact, hhart, hno⟩
  | target w => exact ⟨hinact, namesHart_warlTarget hv _ _ _, hno⟩

theorem State.copyOk_setMode {s t : State} {d : Dom} {n : Nat} {x : Source} (hcfg : t.cfg = s.cfg)
    (hx : s.CopyOk d n x) (ho : t.owned d n = true) (raw : Bool) (m : Mode) : t.CopyOk d n (x.setMode raw m) := by
  refine ⟨fun hm => ?_, ?_, fun h => absurd ho (by rw [h]; decide)⟩
  · rw [Source.setMode_mode] at hm; subst hm; rfl
  · have ht : (x.setMode raw m).target = x.target := by cases m <;> rfl
    rw [ht, hcfg]; exact hx.2.1

/-- A write of `sourcecfg` leaves every copy as it must be (R205, R273). -/
theorem State.Core.sourcecfgWrite {s : State} (h : s.Core) (d : Dom) (n : BitVec 10) (w : Word) :
    (s.sourcecfgWrite d n.toNat w).Core := by
  by_cases hn : n.toNat = 0 ∨ s.cfg.nSrc.toNat < n.toNat
  · rw [State.sourcecfgWrite_none s d w hn]; exact h
  cases d with
  | S =>
    rw [State.sourcecfgWrite_S s w hn]
    exact h.modifyOwned .S n.toNat fun hx ho => State.copyOk_setMode rfl hx ho _ _
  | M =>
    obtain ⟨tm, ts, b, hu⟩ := s.sourcecfgWrite_M_frame n.toNat w hn
    have hcfg : (s.sourcecfgWrite .M n.toNat w).cfg = s.cfg := by rw [hu]
    have hdeleg := s.sourcecfgWrite_M_deleg n.toNat w hn n.isLt
    have howned (e : Dom) (m : Nat) : (s.sourcecfgWrite .M n.toNat w).owned e m =
        if m = n.toNat then w.getLsbD 10 == (e == .S) else s.owned e m := by
      rw [Bool.eq_iff_iff, State.owned_iff, hcfg, hdeleg]
      split
      · rw [beq_iff_eq]
        exact ⟨fun hm => hm.2.2, fun hm => ⟨by omega, by omega, hm⟩⟩
      · rw [State.owned_iff]
    refine h.of_sources hcfg ?_ (by rw [hu]; exact h.raw) (State.sourcesCanonical_sourcecfgWrite h.canonical _ _ _)
      (fun e m => ?_) (fun e => by rw [hu]; cases e <;> exact ⟨rfl, rfl, rfl⟩)
      (s.tx_sourcecfgWrite _ _ _) (by rw [hu])
    · refine BitVec.eq_of_getLsbD_eq fun m hm => ?_
      have hs := congrArg (fun v => v.getLsbD m) h.deleg
      simp only [BitVec.getLsbD_and, BitVec.getLsbD_not, hm, decide_true, Bool.true_and, sourceMask_getLsbD,
        BitVec.getLsbD_zero, hdeleg] at hs ⊢
      split
      · have h1 : 1 ≤ m := by omega
        have h2 : m ≤ s.cfg.nSrc.toNat := by omega
        simp [h1, h2]
      · exact hs
    · rw [s.sourcecfgWrite_M_source n.toNat w hn]
      by_cases hm : m = n.toNat
      · subst hm
        obtain ⟨hinact, hhart, hzero⟩ := h.copies e n.toNat
        have hz := State.copyOk_zero (s := s.sourcecfgWrite .M n.toNat w) (hcfg ▸ h.valid) e n.toNat
        have hown := howned e n.toNat
        rw [if_pos rfl] at hown
        have hold (hd : e = .M → s.deleg.getLsbD n.toNat = true) (hS : e = .S → w.getLsbD 10 = true) :
            (s.sourcecfgWrite .M n.toNat w).CopyOk e n.toNat (s.source e n.toNat) := by
          refine ⟨hinact, hcfg ▸ hhart, fun ho => hzero ?_⟩
          cases e with
          | M => rw [Bool.eq_false_iff, ne_eq, State.owned_iff, hd rfl]; simp
          | S => rw [hown, hS rfl] at ho; cases ho
        rw [if_pos rfl]
        by_cases hw : w.getLsbD 10 = true
        · rw [if_pos hw]
          split
          · exact hold (fun _ => ‹_›) fun _ => hw
          · split
            · exact hz
            · rename_i hM; exact hold (fun he => absurd he hM) fun _ => hw
        · rw [if_neg hw]
          split
          · rename_i he
            subst he
            exact State.copyOk_setMode hcfg (h.copies .M n.toNat) (by rw [hown, Bool.eq_false_iff.2 hw]; rfl) _ _
          · rename_i hM
            split
            · exact hz
            · rename_i hd
              rw [hzero]
              · exact hz
              · rw [Bool.eq_false_iff, ne_eq, State.owned_iff]
                cases e with
                | M => exact absurd rfl hM
                | S => simp [hd]
      · rw [if_neg hm, State.CopyOk, howned, if_neg hm, hcfg]
        exact h.copies e m

end Sys2Proof.Machine
end

section
/-! Instructions, events and the counting of deadlines keep the rules that hold at every point of a tick. -/

namespace Sys2Proof.Machine

-- one proof at a time: the memory the check may take bounds the number of threads
set_option Elab.async false

/-! ### Operands of well-formed instructions -/

theorem wellFormed_callOf {c : Config} {i : Instr} {r : BusA} (hw : i.wellFormed c = true)
    (hi : callOf i = some r) : r.legalShape = true ∧ (r.opcode = opGet ∨ r.opcode = opPut) := by
  cases i with
  | get32 a =>
    cases hi
    simp only [Instr.wellFormed, Bool.and_eq_true, aligned4, beq_iff_eq] at hw
    exact ⟨legalShape_get hw.1, .inl rfl⟩
  | put32 a w =>
    cases hi
    simp only [Instr.wellFormed, Bool.and_eq_true, aligned4, beq_iff_eq] at hw
    exact ⟨legalShape_put w hw.1, .inr rfl⟩
  | _ => cases hi

theorem wellFormed_responseOf {c : Config} {i : Instr} {x : TxId} {op : BitVec 3} (hw : i.wellFormed c = true)
    (hi : responseOf i = some (x, op)) : c.hasTx x = true := by
  cases i with
  | accessAck y => cases hi; exact hw
  | accessAckData y data => cases hi; exact hw
  | _ => cases hi

theorem wellFormed_csrHartOf {c : Config} {i : Instr} {h : Nat} (hw : i.wellFormed c = true)
    (hi : csrHartOf i = some h) : h < c.nHart := by
  cases i with
  | csrxIllegalOp => cases hi; exact of_decide_eq_true hw
  | csrIllegalContext =>
    cases hi; simp only [Instr.wellFormed, Bool.and_eq_true, decide_eq_true_eq] at hw; exact hw.1
  | csrIllegalSelector =>
    cases hi
    simp only [Instr.wellFormed, csrWellFormed, Bool.and_eq_true, decide_eq_true_eq] at hw; exact hw.1.1
  | csrwEidelivery | csrsEidelivery | csrcEidelivery | csrwEithreshold | csrsEithreshold | csrcEithreshold
  | csrwEip | csrsEip | csrcEip | csrwEie | csrsEie | csrcEie =>
    cases hi
    simp only [Instr.wellFormed, csrWellFormed, Bool.and_eq_true, decide_eq_true_eq] at hw; exact hw.1
  | _ => cases hi

/-- The file a context names exists. -/
theorem hasPort_of_fileOf {c : Config} {x : Ctx} {f : FileId} {h : Nat} (hh : h < c.nHart)
    (hf : c.fileOf x = some f) : c.hasPort (.page h f) = true := by
  rw [hasPort_page]
  refine ⟨hh, ?_⟩
  rcases (fileOf_eq_some c x f).1 hf with ⟨-, -, rfl⟩ | ⟨-, -, rfl⟩ | ⟨-, -, h1, h2, rfl⟩
  · trivial
  · trivial
  · exact ⟨h1, h2⟩

/-! ### Identity 0 (R352) -/

theorem IFile.access_bit_zero {x : IFile} (r : IReg) (op : CsrOp) (v : DWord)
    (hx : x.eip.getLsbD 0 = false ∧ x.eie.getLsbD 0 = false) :
    (x.access r op v).eip.getLsbD 0 = false ∧ (x.access r op v).eie.getLsbD 0 = false := by
  have bank (b : IdBits) (k : Bank) (u : DWord) (hb : b.getLsbD 0 = false) :
      (setBank b k (u &&& (if k = 0#5 then ~~~1#64 else BitVec.allOnes 64))).getLsbD 0 = false := by
    rw [getLsbD_setBank]
    split
    · rename_i hk
      rw [BitVec.getLsbD_and, bankMask_getLsbD, show k.toNat = 0 from hk.symm]; simp
    · exact hb
  cases r with
  | eidelivery => exact hx
  | eithreshold => exact hx
  | eip k => exact ⟨bank x.eip k _ hx.1, hx.2⟩
  | eie k => exact ⟨hx.1, bank x.eie k _ hx.2⟩

theorem IFile.claimed_bit_zero {x : IFile} (hx : x.eip.getLsbD 0 = false ∧ x.eie.getLsbD 0 = false) :
    x.claimed.eip.getLsbD 0 = false ∧ x.claimed.eie.getLsbD 0 = false := by
  rw [x.claimed_eip, hx.1]
  refine ⟨rfl, ?_⟩
  rw [x.claimed_eq]; exact hx.2

theorem IFile.receive_bit_zero {x : IFile} (w : Word) (hx : x.eip.getLsbD 0 = false ∧ x.eie.getLsbD 0 = false) :
    (x.receive w).eip.getLsbD 0 = false ∧ (x.receive w).eie.getLsbD 0 = false := by
  rw [x.receive_eip, hx.1]
  refine ⟨by simp, ?_⟩
  rw [x.receive_eq]; exact hx.2

/-! ### Instructions -/

theorem Domain.wordsOk_writeCfg {c : Config} {d : Dom} {x : Domain} (hx : x.WordsOk c d) (w : Word) :
    (x.writeCfg (c.dmKind d) w).WordsOk c d := by
  obtain ⟨⟨hmsi, hdir⟩, hgen, hbusy⟩ := hx
  refine ⟨⟨fun hk => ?_, fun hk => ?_⟩, hgen, hbusy⟩
  · show (if c.dmKind d = .rw then _ else x.dm) = true
    rw [if_neg (by rw [hk]; decide)]; exact hmsi hk
  · show (if c.dmKind d = .rw then _ else x.dm) = false
    rw [if_neg (by rw [hk]; decide)]; exact hdir hk

theorem Domain.wordsOk_writeGenmsi {c : Config} {d : Dom} {x : Domain} (hv : c.valid = true)
    (hx : x.WordsOk c d) (hk : c.genmsi = .modelled) (w : Word) : (x.writeGenmsi c w).WordsOk c d := by
  rw [Domain.writeGenmsi]
  split
  · exact hx
  · exact ⟨hx.1, namesHart_warlGenmsi hv w, fun h => by rw [hk] at h; exact nomatch h.2⟩

theorem Domain.writeGenmsi_frame (x : Domain) (c : Config) (w : Word) :
    (x.writeGenmsi c w).sources = x.sources ∧ (x.writeGenmsi c w).port = x.port ∧
      (x.writeGenmsi c w).msi = x.msi := by
  rw [Domain.writeGenmsi]
  split <;> exact ⟨rfl, rfl, rfl⟩

/-- A well-formed instruction keeps `Core`. -/
theorem Effect.core {s t : State} {i : Instr} (he : Effect s i t) (hw : i.wellFormed s.cfg = true)
    (h : s.Core) : t.Core := by
  cases he with
  | busy => exact h
  | begins hi hp hx =>
    obtain ⟨hs, hop⟩ := wellFormed_callOf hw hi
    exact h.setTx (x := .ext _) (portOf_hasPort hp) (Transactor.ok_begin h.valid hs (by simp [mayHold, hp, hop]))
  | unawaited => exact h
  | taken hi hx r => exact h.setTx (wellFormed_responseOf hw hi) (Transactor.ok_finished _ _ r)
  | answered w hi => exact h.answered _
  | ignored hi => exact h.answered _
  | config d w hi =>
    exact (h.setDom d (x := (s.dom d).writeCfg (s.cfg.dmKind d) w) rfl
      (Domain.wordsOk_writeCfg (h.words d) w) (h.txs (.ext (.window d)))
      (h.txs (.msi d))).answered _
  | mmsiaddrcfg | mmsiaddrcfgh | smsiaddrcfg | smsiaddrcfgh =>
    exact h.congr rfl rfl rfl (fun d => by cases d <;> rfl) rfl
  | named d n hi hg => exact (h.modifyOwned d n fun hx ho => hg.copyOk h.valid hx ho).answered _
  | bits d k w hi hg hchange =>
    refine State.Core.answered (forBits_keeps (P := fun u => u.Core ∧ u.cfg = s.cfg ∧ u.rawInput = s.rawInput)
      (fun n u hu => ?_) ⟨h, rfl, rfl⟩).1 _
    obtain ⟨huc, hcfg, hraw⟩ := hu
    rw [hchange n u hraw]
    refine ⟨huc.modifyOwned d n fun hx ho => ?_, by rw [State.modifyOwned_cfg, hcfg],
      by rw [State.modifyOwned_rawInput, hraw]⟩
    -- what the write does does not depend on the copies written before
    obtain ⟨h1, h2, h3⟩ := hx
    have hz {P : Prop} (hno : u.owned d n = false) : P := by rw [ho] at hno; cases hno
    cases hg with
    | request => exact SourceOp.copyOk (s := u) (i := i) .request huc.valid ⟨h1, h2, h3⟩ ho
    | clear hi =>
      have := SourceOp.copyOk (s := u) (.clear hi) huc.valid ⟨h1, h2, h3⟩ ho
      rwa [hraw] at this
    | enable => exact ⟨h1, h2, hz⟩
    | disable => exact ⟨h1, h2, hz⟩
    | target w =>
      refine ⟨h1, ?_, hz⟩
      rw [hcfg]; exact namesHart_warlTarget h.valid _ _ _
  | sourcecfg d n w hi => exact (h.sourcecfgWrite d n w).answered _
  | genmsi d w hi hk =>
    obtain ⟨hsrc, hport, hmsi⟩ := (s.dom d).writeGenmsi_frame s.cfg w
    exact (h.setDom d hsrc (Domain.wordsOk_writeGenmsi h.valid (h.words d) hk w)
      (hport ▸ h.txs (.ext (.window d))) (hmsi ▸ h.txs (.msi d))).answered _
  | illegal j hi => exact h.setHart_outputs (wellFormed_csrHartOf hw hi) rfl rfl rfl
  | access j r op v hi hf =>
    have hj := wellFormed_csrHartOf hw hi
    obtain ⟨hip, hie⟩ := IFile.access_bit_zero r op v (h.files j _)
    exact (h.setFile (hasPort_of_fileOf hj hf) hip hie).setHart_outputs hj rfl rfl rfl
  | claimedNone j c hi =>
    subst hi; exact h.setHart_outputs (of_decide_eq_true hw) rfl rfl rfl
  | claimed j c hi hf =>
    subst hi
    obtain ⟨hip, hie⟩ := IFile.claimed_bit_zero (h.files j _)
    exact (h.setFile (hasPort_of_fileOf (of_decide_eq_true hw) hf) hip hie).setHart_outputs
      (of_decide_eq_true hw) rfl rfl rfl
  | received j f w hi =>
    subst hi
    obtain ⟨hip, hie⟩ := IFile.receive_bit_zero w (h.files j f)
    exact (h.setFile hw hip hie).answered _

/-! ### The deadlines -/

theorem State.Core.countDown {s : State} {k : Tick} (h : s.Core) (hk : s.expired k = none) :
    (s.countDown k).Core := by
  -- the deadlines not yet counted down have not run out, so neither have those that are
  suffices key : ∀ (l : List TxId), l.Nodup → (∀ x ∈ l, s.cfg.hasTx x = true) → ∀ u : State, u.Core →
      u.cfg = s.cfg → (∀ x ∈ l, 1 < (u.tx x).deadline) →
      (l.foldl (fun u x => u.setTx x (u.tx x).counted) u).Core from
    key _ (waits_nodup s k) (fun x hx => (mem_transactors s.cfg x).1 (mem_waits.1 hx).1) s h rfl
      (of_not_expired hk)
  intro l
  induction l with
  | nil => exact fun _ _ u hu _ _ => hu
  | cons x rest ih =>
    intro hnd htx u hu hcfg hd
    rw [List.nodup_cons] at hnd
    refine ih hnd.2 (fun y hy => htx y (List.mem_cons_of_mem _ hy)) _
      (hu.setTx (hcfg ▸ htx x List.mem_cons_self)
        (Transactor.ok_counted (hu.txs x) (hd x List.mem_cons_self)))
      (by rw [State.setTx_cfg, hcfg]) fun y hy => ?_
    have hne : y ≠ x := fun he => hnd.1 (he ▸ hy)
    rw [State.tx_setTx, if_neg hne]
    exact hd y (List.mem_cons_of_mem _ hy)

end Sys2Proof.Machine
end

section
/-! The events of a tick keep the rules that hold at every point of it. -/

namespace Sys2Proof.Machine

-- one proof at a time: the memory the check may take bounds the number of threads
set_option Elab.async false

/-- An event of a tick that starts in `s`: its instruction is well formed, and if it is that of an accepted
request, then of the request of that transactor. -/
structure Event.Of (s : State) (k : Tick) (e : Event) : Prop where
  wellFormed : ∀ v i, e = .run v i → i.wellFormed s.cfg = true
  accepted : ∀ x, e.via = some x → x ∈ s.accepts k ∧ s.Accepted x e
  atSlave : e.AtSlave

theorem Asked.wellFormed {c : Config} {l : List Req} {e : Event} (hv : c.valid = true) (h : Asked c l e)
    {v : Option TxId} {i : Instr} (he : e = .run v i) : i.wellFormed c = true := by
  obtain ⟨r, -, j, hj, rfl⟩ := h
  cases he
  exact decodedInstructionsAreWellFormed c _ _ hv hj

theorem State.Accepted.via {s : State} {x : TxId} {e : Event} (h : s.Accepted x e) : e.via = some x := by
  rcases h with ⟨-, rfl⟩ | ⟨p, i, -, -, rfl⟩ <;> rfl

theorem State.EventList.of {s : State} {k : Tick} {calls answers rest : List Event} (hv : s.cfg.valid = true)
    (h : s.EventList k calls answers rest) : ∀ e ∈ calls ++ (answers ++ rest), e.Of s k := by
  intro e he
  have hslave := h.facts.atSlave e he
  have asked {l : List Req} (ha : Asked s.cfg l e) : e.Of s k :=
    ⟨fun v i hi => ha.wellFormed hv hi, fun x hx => by obtain ⟨r, -, j, -, rfl⟩ := ha; (cases hx), hslave⟩
  rcases List.mem_append.1 he with he | he
  · exact asked (h.isCall e he)
  rcases List.mem_append.1 he with he | he
  · obtain ⟨x, -, i, hi, rfl⟩ := h.isAnswer e he
    refine ⟨fun v j hj => ?_, nofun, hslave⟩
    cases hj
    exact decodedInstructionsAreWellFormed _ _ _ hv hi
  · rcases h.isRest e he with ha | ⟨x, hx, ha⟩
    · exact asked ha
    · refine ⟨fun v i hi => ?_, fun y hy => ?_, hslave⟩
      · rcases ha with ⟨-, rfl⟩ | ⟨p, j, -, hj, rfl⟩
        · cases hi
        · cases hi; exact decodedInstructionsAreWellFormed _ _ _ hv hj
      · rw [ha.via] at hy; cases hy; exact ⟨hx, ha⟩

/-! ### One event -/

theorem State.orderAnswer_ack (s : State) (p : Option Port) : s.orderAnswer p .ack = .ack := by
  cases p <;> rfl

theorem State.orderAnswer_data (s : State) (p : Option Port) (w : Word) :
    ∃ w', s.orderAnswer p (.data w) = .data w' := by
  cases p <;> exact ⟨_, rfl⟩

/-- An accepted request is answered as it requires. -/
theorem State.Core.acceptedBy {u : State} (h : u.Core) {x : TxId} (hx : u.cfg.hasTx x = true)
    (hp : (u.tx x).phase ≠ .idle)
    (ha : ((u.tx x).req.opcode = opGet → ∃ w, u.answer = .data w) ∧
      ((u.tx x).req.opcode ≠ opGet → u.answer = .ack)) :
    (u.acceptedBy x).Core := by
  refine h.setTx hx (Transactor.ok_accepted h.valid (h.txs x) hp ?_)
  by_cases hop : (u.tx x).req.opcode = opGet
  · obtain ⟨w, hw⟩ := ha.1 hop
    obtain ⟨w', hw'⟩ := u.orderAnswer_data (u.cfg.portOf (u.tx x).req.address) w
    rw [if_pos hop, hw, hw']; rfl
  · rw [if_neg hop, ha.2 hop, State.orderAnswer_ack]; rfl

section
variable {s u v : State} {k : Tick} {e : Event}

/-- An event of a tick keeps `Core`; at the event of an accepted request the transactor still holds it. -/
theorem Event.Of.core (he : e.Of s k) (hu : u.Core) (hcfg : u.cfg = s.cfg)
    (htx : ∀ x, e.via = some x → u.tx x = s.tx x) (h : runEvent e u = .next v) : v.Core := by
  have busy {x : TxId} (hx : e.via = some x) : (u.tx x).phase ≠ .idle := by
    rw [htx x hx, (of_mem_accepts (he.accepted x hx).1).2.1]; exact nofun
  have has {x : TxId} (hx : e.via = some x) : u.cfg.hasTx x = true := by
    rw [hcfg]; exact (mem_transactors s.cfg x).1 (of_mem_accepts (he.accepted x hx).1).1
  rcases runEvent_cases h with ⟨i, rfl, hi⟩ | ⟨x, i, t, rfl, hi, rfl⟩ | ⟨x, rfl, rfl⟩
  · exact hi.core (hcfg ▸ he.wellFormed none i rfl) hu
  · obtain ⟨-, ⟨-, hr⟩ | ⟨p, j, hp, hj, hr⟩⟩ := he.accepted x rfl
    · cases hr
    cases hr
    have htc : t.Core := hi.core (hcfg ▸ he.wellFormed (some x) i rfl) hu
    have htx' : t.tx x = u.tx x := hi.tx_of_kind (he.atSlave x i rfl) x
    have htcfg : t.cfg = u.cfg := by
      have := runEvent_cfg h
      rwa [State.acceptedBy, State.setTx_cfg] at this
    have hkind := kindOf_decodeSlave hj
    rw [(State.orderRequest_head s p _).1, ← htx x rfl] at hkind
    refine htc.acceptedBy (htcfg ▸ has rfl) (htx' ▸ busy rfl) ?_
    rw [htx']
    refine ⟨fun hop => ?_, fun hop => hi.answer.2 (by rw [hkind, if_neg hop])⟩
    obtain ⟨w, rfl⟩ := hi.answer.1 (by rw [hkind, if_pos hop])
    exact ⟨w, rfl⟩
  · obtain ⟨-, ⟨hp, -⟩ | ⟨p, j, -, -, hr⟩⟩ := he.accepted x rfl
    swap
    · cases hr
    refine (hu.answered .ack).acceptedBy (has rfl) ?_ ⟨fun hop => ?_, fun _ => rfl⟩
    · rw [show ({ u with answer := Answer.ack } : State).tx x = u.tx x from u.acknowledge_tx x]; exact busy rfl
    · -- only an MSI leaves the block, and it is a write
      rw [show ({ u with answer := Answer.ack } : State).tx x = u.tx x from u.acknowledge_tx x] at hop
      have hhold := ((Transactor.ok_iff.1 (hu.txs x)).2.1 (busy rfl)).2.2.2
      cases x with
      | ext q =>
        simp only [mayHold, Bool.and_eq_true, beq_iff_eq] at hhold
        rw [htx _ rfl, hcfg, hp] at hhold
        cases hhold.1
      | msi d =>
        rw [mayHold, beq_iff_eq, hop] at hhold
        cases hhold

/-- A transactor whose request is accepted later on the tick is left by an event. -/
theorem Event.Of.tx_pending (he : e.Of s k) {x : TxId} (hx : x ∈ s.accepts k) (hux : u.tx x = s.tx x)
    (hvia : e.via ≠ some x) (h : runEvent e u = .next v) : v.tx x = s.tx x := by
  have hreq : (u.tx x).phase = .request := hux ▸ (of_mem_accepts hx).2.1
  rcases runEvent_tx h he.atSlave x with ⟨-, hv⟩ | ⟨hv, -⟩ | ⟨-, hv, -⟩ | ⟨-, hv, -⟩
  · rw [hv, hux]
  · exact absurd hv hvia
  · rw [hreq] at hv; cases hv
  · rw [hreq] at hv; cases hv

end

theorem nodup_via_cons {e : Event} {es : List Event} (h : ((e :: es).filterMap Event.via).Nodup) :
    (es.filterMap Event.via).Nodup ∧ ∀ x ∈ es.filterMap Event.via, e.via ≠ some x := by
  cases hv : e.via with
  | none => rw [List.filterMap_cons_none hv] at h; exact ⟨h, fun _ _ => nofun⟩
  | some y =>
    rw [List.filterMap_cons_some hv, List.nodup_cons] at h
    exact ⟨h.2, fun x hx he => h.1 (Option.some.inj he ▸ hx)⟩

/-- The events of a tick keep `Core`. -/
theorem runEvents_core {s : State} {k : Tick} {es : List Event} {u v : State} (hes : ∀ e ∈ es, e.Of s k)
    (hnd : (es.filterMap Event.via).Nodup) (hu : u.Core) (hcfg : u.cfg = s.cfg)
    (htx : ∀ x ∈ es.filterMap Event.via, u.tx x = s.tx x) (h : runEvents es u = .next v) : v.Core := by
  induction es generalizing u with
  | nil => cases h; exact hu
  | cons e rest ih =>
    obtain ⟨w, hw, hv⟩ := runEvents_cons h
    have he := hes e List.mem_cons_self
    obtain ⟨hnd', hne⟩ := nodup_via_cons hnd
    have sub {x : TxId} (hx : x ∈ rest.filterMap Event.via) : x ∈ (e :: rest).filterMap Event.via := by
      obtain ⟨e', he', hv'⟩ := List.mem_filterMap.1 hx
      exact List.mem_filterMap.2 ⟨e', List.mem_cons_of_mem _ he', hv'⟩
    refine ih (fun e' he' => hes e' (List.mem_cons_of_mem _ he')) hnd'
      (he.core hu hcfg (fun x hx => htx x (List.mem_filterMap.2 ⟨e, List.mem_cons_self, hx⟩)) hw)
      ((runEvent_cfg hw).trans hcfg) (fun x hx => ?_) hv
    obtain ⟨e', he', hv'⟩ := List.mem_filterMap.1 hx
    exact he.tx_pending ((hes e' (List.mem_cons_of_mem _ he')).accepted x hv').1 (htx x (sub hx)) (hne x hx) hw

end Sys2Proof.Machine
end

section
/-! The end of a tick brings the invariant back (R96, R276), so that every step keeps it. -/

namespace Sys2Proof.Machine

-- one proof at a time: the memory the check may take bounds the number of threads
set_option Elab.async false

/-! ### Settling -/

theorem State.settle_words (s : State) (d : Dom) : (s.settle.dom d).dm = (s.dom d).dm ∧
    (s.settle.dom d).genmsi = (s.dom d).genmsi ∧ (s.settle.dom d).genmsiBusy = (s.dom d).genmsiBusy := by
  cases d <;> exact ⟨rfl, rfl, rfl⟩

theorem State.owned_settle (s : State) (d : Dom) (n : Nat) : s.settle.owned d n = s.owned d n := rfl

theorem State.Core.settle {s : State} (h : s.Core) : s.settle.Core := by
  refine h.of_sources rfl h.deleg ?_ (State.sourcesCanonical_settle h.canonical) (fun d n => ?_) s.settle_words
    s.tx_settle rfl
  · rw [State.settle_rawInput, BitVec.and_assoc, BitVec.and_not_self]; exact BitVec.and_zero
  · rw [State.source_settle h.canonical]
    obtain ⟨hinact, hhart, hzero⟩ := h.copies d n
    split
    · rename_i ho
      refine ⟨fun hm => ?_, hhart, fun hno => absurd ho (by rw [← s.owned_settle, hno]; decide)⟩
      have hm : (s.source d n).mode = .inactive := hm
      show (s.source d n).triggered _ _ = false
      rw [Source.triggered, hm]; exact hinact hm
    · exact ⟨hinact, hhart, hzero⟩

/-- A copy after settling is consistent with the line it was sampled from. -/
theorem Source.consistent_triggered {x : Source} (h : x.mode = .inactive → x.pending = false) (old new : Bool) :
    ({ x with pending := x.triggered old new, notified := x.notified && x.triggered old new } : Source).consistent
      new = true := by
  refine (Source.consistent_iff _ _).2 ⟨fun hm => ?_, fun hm => ?_, fun hm => ?_⟩
  · have hm : x.mode = .inactive := hm
    show x.triggered old new = false
    rw [Source.triggered, hm]; exact h hm
  · obtain ⟨m, p, e, n, t⟩ := x
    cases m with
    | levelHigh | levelLow =>
      simp [Source.triggered, Source.rect, Mode.isTriggered, Mode.isLevel, Mode.pol, Mode.code]
    | inactive => cases hm
    | detached => cases hm
    | edgeRising => cases hm
    | edgeFalling => cases hm
  · exact (Bool.and_eq_true_iff.1 hm).2

theorem State.Core.settle_consistent {s : State} (h : s.Core) : s.settle.Consistent := by
  intro d n
  rw [State.source_settle h.canonical, State.settle_rawInput]
  split
  · rename_i ho
    rw [State.sample_getLsbD ho]
    exact Source.consistent_triggered (h.copies d n).1 _ _
  · rename_i ho
    rw [(h.copies d n).2.2 (Bool.eq_false_iff.2 ho)]; rfl

/-! ### The MSI -/

theorem Config.valid_offsets {c : Config} (hv : c.valid = true) {hc : HartCfg} (hh : hc ∈ c.harts) :
    hc.offM.setWidth 12 = 0#12 ∧ hc.offS.setWidth 12 = 0#12 := by
  simp only [Config.valid, Bool.and_eq_true, decide_eq_true_eq, List.all_eq_true, beq_iff_eq] at hv
  exact hv.1.1.1.2 hc hh

theorem shiftLeft_setWidth (x : Addr) : (x <<< 12).setWidth 12 = 0#12 := by
  refine BitVec.eq_of_getLsbD_eq fun i hi => ?_
  simp [hi]

/-- The address of an MSI to a hart that exists is that of a page (R86). -/
theorem msiAddress_setWidth {c : Config} (hv : c.valid = true) (d : Dom) {base : Addr}
    (hb : base.setWidth 12 = 0#12) {h : BitVec 14} (hh : h.toNat < c.nHart) (g : BitVec 6) :
    (msiAddress c d base h g).setWidth 12 = 0#12 := by
  have hget : c.harts[h.toNat]? = some c.harts[h.toNat] := List.getElem?_eq_getElem hh
  obtain ⟨hM, hS⟩ := Config.valid_offsets hv (List.getElem_mem hh)
  rw [msiAddress, hartOffset_some hget, BitVec.setWidth_or, BitVec.setWidth_or, hb, shiftLeft_setWidth]
  split
  · rw [hM]; rfl
  · rw [hS]; rfl

theorem msiRequest_legalShape {a : Addr} (ha : a.setWidth 12 = 0#12) (w : Word) :
    (msiRequest a w).legalShape = true := by
  have hmod : a.toNat % 2 ^ 12 = 0 := by
    have := congrArg BitVec.toNat ha
    rwa [BitVec.toNat_setWidth] at this
  refine (legalShape_iff _).2 ⟨rfl, ?_, ?_⟩
  · show a.toNat % 4 = 0
    omega
  · exact (if_pos (show a.toNat % 8 = 0 by omega)).symm

theorem State.levelBase_setWidth (s : State) (d : Dom) : (s.levelBase d).setWidth 12 = 0#12 := by
  cases d <;> exact shiftLeft_setWidth _

/-- The MSI of any cause is a request that a delivery engine may hold. -/
theorem State.Core.msiOf_ok {s : State} (h : s.Core) (d : Dom) {base : Addr} (hb : base.setWidth 12 = 0#12)
    (c : Cause) : (s.msiOf d base c).legalShape = true ∧ mayHold s.cfg (.msi d) (s.msiOf d base c) = true := by
  have hart {w : Word} (hw : namesHart s.cfg w = true) : (hartField w).toNat < s.cfg.nHart := of_decide_eq_true hw
  cases c with
  | source n =>
    exact ⟨msiRequest_legalShape (msiAddress_setWidth h.valid d hb (hart (h.copies d n).2.1) _) _, rfl⟩
  | genmsi =>
    exact ⟨msiRequest_legalShape (msiAddress_setWidth h.valid d hb (hart (h.words d).2.1) _) _, rfl⟩

/-! ### The issue -/

/-- The issue of a cause takes it, and no other, from what is owed (R292). -/
theorem State.want_issue (s : State) (d : Dom) (base : Addr) (c : Cause) :
    (s.issue d base c).want d = (s.want d).filter fun x => x != c := by
  obtain ⟨-, hsrc, hbusy, -⟩ := s.issue_spec d base c
  have hframe := s.issue_frame d base c
  have hcfg : (s.issue d base c).cfg = s.cfg := by
    have := congrArg State.cfg hframe; rwa [State.setDom_cfg] at this
  have hdeleg : (s.issue d base c).deleg = s.deleg := by
    have := congrArg State.deleg hframe; rwa [State.setDom_deleg] at this
  have hie : ((s.issue d base c).dom d).ie = (s.dom d).ie := by
    have := congrArg (fun u => (u.dom d).ie) hframe
    rwa [State.dom_setDom_same] at this
  have hown (n : Nat) : (s.issue d base c).owned d n = s.owned d n := by
    rw [State.owned, State.owner, hcfg, hdeleg]; rfl
  have hdue : (s.issue d base c).due d = (s.due d).filter fun n => Cause.source n != c := by
    rw [State.due, State.due, State.sourcesWhere, State.sourcesWhere, List.filter_filter, hcfg]
    refine List.filter_congr fun n _ => ?_
    simp only [State.deliverable, hown, hie, hsrc]
    by_cases hn : c = .source n
    · simp [hn]
    · have : (Cause.source n != c) = true := bne_iff_ne.2 (Ne.symm hn)
      rw [if_neg hn, this, Bool.true_and]
  rw [State.want, State.want, List.filter_append, List.filter_map, hdue, hbusy]
  congr 1
  cases (s.dom d).genmsiBusy
  · rfl
  · cases c with
    | source n => rfl
    | genmsi => rfl

theorem State.Core.setTickets {s : State} (h : s.Core) (d : Dom) (tk : List (Cause × Nat)) :
    (s.setDom d { s.dom d with tickets := tk }).Core :=
  h.setDom d rfl (h.words d) (h.txs (.ext (.window d))) (h.txs (.msi d))

theorem State.Core.drawTickets {s : State} (h : s.Core) (d : Dom) : (s.drawTickets d).Core :=
  (h.setTickets d _).congr rfl rfl rfl (fun e => by cases e <;> rfl) rfl

theorem State.drawTickets_rawInput (s : State) (d : Dom) : (s.drawTickets d).rawInput = s.rawInput := by
  cases d <;> rfl

theorem State.Core.markIssued {s : State} (h : s.Core) (d : Dom) {c : Cause} (hc : c ∈ s.want d) :
    (s.markIssued d c).Core := by
  cases c with
  | source n =>
    have ho := ((s.deliverable_iff d n).1 (State.mem_due.1 (State.source_mem_want.1 hc)).1).1
    have hm : s.markIssued d (.source n) = s.modifyOwned d n Source.markNotified := by
      rw [State.modifyOwned, if_pos ho]; rfl
    rw [hm]
    exact h.modifyOwned d n fun ⟨h1, h2, _⟩ ho => ⟨h1, h2, fun hno => absurd ho (by rw [hno]; decide)⟩
  | genmsi =>
    obtain ⟨h1, h2, -⟩ := h.words d
    exact h.setDom d rfl ⟨h1, h2, nofun⟩ (h.txs (.ext (.window d))) (h.txs (.msi d))

theorem State.Core.issue {s : State} (h : s.Core) (d : Dom) {base : Addr} (hb : base.setWidth 12 = 0#12)
    {c : Cause} (hc : c ∈ s.want d) : (s.issue d base c).Core := by
  have hu := h.markIssued d hc
  have hcfg : (s.markIssued d c).cfg = s.cfg := by
    cases c with
    | source n => exact s.setSource_cfg d n _
    | genmsi => exact s.setDom_cfg d _
  obtain ⟨hs, hr⟩ := h.msiOf_ok d hb c
  rw [State.issue, ← hcfg]
  exact hu.setDom d (x := ((s.markIssued d c).dom d).issued (s.markIssued d c).cfg.timeout (s.msiOf d base c) c)
    rfl (hu.words d) (hu.txs (.ext (.window d))) (Transactor.ok_begin hu.valid hs (hcfg ▸ hr))

/-- A notified copy of what is owed is pending, so it is consistent. -/
theorem State.Consistent.issue {s : State} (h : s.Consistent) (d : Dom) (base : Addr) {c : Cause}
    (hc : c ∈ s.want d) : (s.issue d base c).Consistent := by
  intro e n
  have hraw : (s.issue d base c).rawInput = s.rawInput := by
    have := congrArg State.rawInput (s.issue_frame d base c); rwa [State.setDom_rawInput] at this
  rw [hraw, State.source_issue]
  split
  · rename_i hn
    obtain ⟨rfl, rfl⟩ := hn
    have hp := ((s.deliverable_iff e n).1 (State.mem_due.1 (State.source_mem_want.1 hc)).1).2.1
    obtain ⟨h2, h3, -⟩ := (Source.consistent_iff _ _).1 (h e n)
    exact (Source.consistent_iff _ _).2 ⟨h2, h3, fun _ => hp⟩
  · exact h e n

theorem State.tickets_issue (s : State) (d : Dom) (base : Addr) (c : Cause) :
    ((s.issue d base c).dom d).tickets = (s.dom d).tickets.filter fun e => e.1 != c := by
  rw [State.issue, State.dom_setDom_same]
  cases c <;> cases d <;> rfl

theorem State.dm_issueStep (s : State) (d e : Dom) (base : Addr) (idle : Bool) :
    ((s.issueStep d base idle).dom e).dm = (s.dom e).dm := by
  obtain ⟨x, k, h, hx⟩ := s.issueStep_frame d base idle
  rw [h]
  show ((s.setDom d x).dom e).dm = _
  by_cases he : e = d
  · subst he
    rw [State.dom_setDom_same]
    have hdm : (x.withDelivery (s.dom e)).dm = (s.dom e).dm := by rw [hx]
    exact hdm
  · rw [State.dom_setDom_other s d e x he]

section
variable {s : State} {d : Dom} {base : Addr} {idle : Bool}

/-- What is owed keeps its tickets, what is issued loses its own. -/
theorem State.ticketed_issueStep : (s.issueStep d base idle).Ticketed d := by
  rw [State.Ticketed, State.dm_issueStep]
  rcases s.issueStep_cases d base idle with ⟨hdm, h⟩ | ⟨hdm, -, h⟩ | ⟨hdm, -, e, -, -, -, h⟩
  · rw [h, hdm, State.dropTickets, State.dom_setDom_same]; rfl
  · rw [h, hdm, State.drawTickets_tickets, assignTickets_fst, State.want_drawTickets]; rfl
  · rw [h, hdm, State.tickets_issue, State.want_issue, State.want_drawTickets,
      State.drawTickets_tickets, if_pos rfl]
    have hf := List.filter_map (f := Prod.fst) (p := fun x => x != e.1)
      (l := assignTickets (s.dom d).issues s.freeIndex (s.dom d).tickets (s.want d))
    rw [assignTickets_fst] at hf
    exact hf.symm

theorem State.ticketed_issueStep_other {e : Dom} (he : e ≠ d) (h : s.Ticketed e) :
    (s.issueStep d base idle).Ticketed e := by
  obtain ⟨x, k, hf, -⟩ := s.issueStep_frame d base idle
  have hother := s.issueStep_other he base idle
  have hwant := (State.want_congr (t := s.issueStep d base idle) e (by rw [hf]; exact s.setDom_cfg d x)
    (by rw [hf]; exact s.setDom_deleg d x) hother).1
  rw [State.Ticketed, hwant, hother]; exact h

theorem State.Core.issueStep (h : s.Core) (hb : base.setWidth 12 = 0#12) : (s.issueStep d base idle).Core := by
  rcases s.issueStep_cases d base idle with ⟨-, hs⟩ | ⟨-, -, hs⟩ | ⟨-, -, e, -, he, -, hs⟩
  · rw [hs]; exact h.setTickets d []
  · rw [hs]; exact h.drawTickets d
  · rw [hs]; exact (h.drawTickets d).issue d hb (by rw [State.want_drawTickets]; exact he)

theorem State.Consistent.issueStep (h : s.Consistent) : (s.issueStep d base idle).Consistent := by
  have draw : (s.drawTickets d).Consistent := fun e n => by
    rw [State.source_drawTickets, State.drawTickets_rawInput]; exact h e n
  rcases s.issueStep_cases d base idle with ⟨-, hs⟩ | ⟨-, -, hs⟩ | ⟨-, -, e, -, he, -, hs⟩
  · rw [hs]
    intro e n
    rw [State.source_dropTickets, State.dropTickets, State.setDom_rawInput]; exact h e n
  · rw [hs]; exact draw
  · rw [hs]; exact draw.issue d base (by rw [State.want_drawTickets]; exact he)

end

/-- The end of a tick brings the invariant back. -/
theorem State.Core.endTick {s : State} (h : s.Core) (pre : State) : (State.endTick pre s).inv = true := by
  rw [State.endTick_eq]
  have hM := h.settle.issueStep (d := .M) (idle := pre.msiIdle .M) (s.settle.levelBase_setWidth .M)
  refine (State.inv_iff_core _).2 ⟨hM.issueStep (pre.levelBase_setWidth .S),
    h.settle_consistent.issueStep.issueStep, forall_dom.2 ⟨?_, State.ticketed_issueStep⟩⟩
  exact State.ticketed_issueStep_other (by decide) State.ticketed_issueStep

/-! ### The step -/

theorem State.inv_environment (s : State) (l : SrcBits) (ts : List Tick) (k : Nat) :
    ({ s with line := l, inputs := ts, freeIndex := k } : State).inv = s.inv := rfl

theorem State.inv_enterTick (s : State) : s.enterTick.inv = s.inv :=
  s.inv_environment _ _ s.freeIndex

/-- The events of a tick from a state of the invariant keep `Core`. -/
theorem State.Core.events {s v : State} {k : Tick} {es : List Event} (h : s.Core) (hk : s.expired k = none)
    (hes : s.events k = .ok es) (hrun : runEvents es (s.countDown k) = .next v) : v.Core := by
  obtain ⟨calls, answers, rest, rfl, hlist⟩ := State.events_spec hes
  have hf := hlist.facts
  refine runEvents_core (s := s) (k := k) (hlist.of h.valid) hf.nodup (h.countDown hk) (s.countDown_cfg k)
    (fun x hx => ?_) hrun
  have hacc := (hf.via x).1 hx
  rw [s.tx_countDown k x, if_neg fun hw => (mem_waits.1 hw).2.2.1 hacc]

/-- Settles O14: deadlines and events keep what holds at every point of a tick, its end brings the rest; a
tick with reset leaves the reset state. -/
theorem everyStepKeepsTheInvariant : Obligations.EveryStepKeepsTheInvariant := by
  intro s t hinv hstep
  have hcore : s.enterTick.Core := ((State.inv_iff_core _).1 (s.inv_enterTick.trans hinv)).1
  rcases step_cases hstep with ⟨-, rfl⟩ | ⟨-, hexp, -, es, v, hes, hrun, rfl⟩
  · exact (State.inv_environment _ _ _ _).trans (invariantHoldsAtReset.2 _ hcore.valid)
  · exact (hcore.events hexp hes hrun).endTick _

end Sys2Proof.Machine
end

section
/-! From a state of the invariant a tick with legal input is not refused (R146, R171, R172, R179, R370). -/

namespace Sys2Proof.Machine

-- one proof at a time: the memory the check may take bounds the number of threads
set_option Elab.async false

/-! ### The events decode -/

theorem fetchRequests_ok {c : Config} {l : List Req} (h : ∀ r ∈ l, ∃ i, decode c (.agent r) = .ok i) :
    ∃ es, fetchRequests c l = .ok es := by
  induction l with
  | nil => exact ⟨[], rfl⟩
  | cons r rest ih =>
    obtain ⟨i, hi⟩ := h r List.mem_cons_self
    obtain ⟨es, hes⟩ := ih fun q hq => h q (List.mem_cons_of_mem _ hq)
    exact ⟨.run none i :: es, by rw [fetchRequests, hi, hes]⟩

theorem fetchResponses_ok {s : State} {l : List TxId}
    (h : ∀ x ∈ l, ∃ i, decode s.cfg (.response x (s.tx x).owed) = .ok i) :
    ∃ es, fetchResponses s l = .ok es := by
  induction l with
  | nil => exact ⟨[], rfl⟩
  | cons x rest ih =>
    obtain ⟨i, hi⟩ := h x List.mem_cons_self
    obtain ⟨es, hes⟩ := ih fun y hy => h y (List.mem_cons_of_mem _ hy)
    exact ⟨.run none i :: es, by rw [fetchResponses, hi, hes]⟩

theorem fetchAccepts_ok {s : State} {l : List TxId} (h : ∀ x ∈ l, ∀ p,
    s.cfg.portOf (s.tx x).req.address = some p →
      ∃ i, decode s.cfg (.slave (s.orderRequest p (s.tx x).req)) = .ok i) :
    ∃ es, fetchAccepts s l = .ok es := by
  induction l with
  | nil => exact ⟨[], rfl⟩
  | cons x rest ih =>
    obtain ⟨es, hes⟩ := ih fun y hy => h y (List.mem_cons_of_mem _ hy)
    rw [fetchAccepts, hes]
    cases hp : s.cfg.portOf (s.tx x).req.address with
    | none => exact ⟨_, rfl⟩
    | some p =>
      obtain ⟨i, hi⟩ := h x List.mem_cons_self p hp
      exact ⟨.run (some x) i :: es, by dsimp only; rw [hi]⟩

theorem sequence_ok (o : SameTickOrder) (a b c : List Event) :
    ∃ es, SameTickOrder.sequence o (.ok a) (.ok b) (.ok c) = .ok es := by
  cases o <;> exact ⟨_, rfl⟩

/-- A request of a legal shape in a region of the block decodes at its port. -/
theorem decodeSlave_ok {c : Config} {r : BusA} {p : Port} (hs : r.legalShape = true)
    (hop : r.opcode = opGet ∨ r.opcode = opPut) (hp : c.portOf r.address = some p) :
    ∃ i, decode c (.slave r) = .ok i := by
  have hreg : ∃ q, c.regionOf r.address = some q := by
    rw [Config.portOf] at hp
    cases h : c.regionOf r.address with
    | none => rw [h] at hp; cases hp
    | some q => exact ⟨q, rfl⟩
  obtain ⟨q, hq⟩ := hreg
  rw [decode, decodeSlave_eq, if_neg (by tauto), if_neg (not_not.2 hs), hq]
  exact ⟨_, rfl⟩

theorem State.legalShape_orderRequest (s : State) (p : Port) (r : BusA) :
    (s.orderRequest p r).legalShape = r.legalShape := by
  rw [State.orderRequest]; split <;> rfl

/-- What a transactor in the Response phase is owed is what its request requires (R171, R172, R179). -/
theorem State.Core.owed {s : State} (h : s.Core) {x : TxId} (hp : (s.tx x).phase = .response) :
    ((s.tx x).req.opcode = opGet ∧ (s.tx x).owed.opcode = opAckData) ∨
      ((s.tx x).req.opcode = opPut ∧ (s.tx x).owed.opcode = opAck) := by
  obtain ⟨-, hlive, howed⟩ := Transactor.ok_iff.1 (h.txs x)
  obtain ⟨-, -, -, hhold⟩ := hlive (by rw [hp]; exact nofun)
  have hop : (s.tx x).req.opcode = opGet ∨ (s.tx x).req.opcode = opPut := by
    cases x with
    | ext p => simp only [mayHold, Bool.and_eq_true, Bool.or_eq_true, beq_iff_eq] at hhold; exact hhold.2
    | msi d => exact .inr (beq_iff_eq.1 hhold)
  have howed := howed hp
  rcases hop with hop | hop
  · exact .inl ⟨hop, by rw [howed, if_pos hop]⟩
  · exact .inr ⟨hop, by rw [howed, hop]; rfl⟩

theorem State.Core.accepted_decodes {s : State} (h : s.Core) {x : TxId} (hp : (s.tx x).phase = .request) {p : Port}
    (hport : s.cfg.portOf (s.tx x).req.address = some p) :
    ∃ i, decode s.cfg (.slave (s.orderRequest p (s.tx x).req)) = .ok i := by
  obtain ⟨-, -, hs, hhold⟩ := (Transactor.ok_iff.1 (h.txs x)).2.1 (by rw [hp]; exact nofun)
  obtain ⟨hop, haddr⟩ := s.orderRequest_head p (s.tx x).req
  refine decodeSlave_ok (p := p) (by rw [State.legalShape_orderRequest]; exact hs) ?_ (by rw [haddr]; exact hport)
  rw [hop]
  cases x with
  | ext q => simp only [mayHold, Bool.and_eq_true, Bool.or_eq_true, beq_iff_eq] at hhold; exact hhold.2
  | msi d => exact .inr (beq_iff_eq.1 hhold)

theorem decodeResponse_ok {c : Config} {x : TxId} {r : BusD} (hx : c.hasTx x = true)
    (hr : r.opcode = opAckData ∨ r.opcode = opAck) : ∃ i, decode c (.response x r) = .ok i := by
  rw [decode, decodeResponse, if_neg (not_not.2 hx)]
  split
  · exact ⟨_, rfl⟩
  · rw [if_pos (by tauto)]; exact ⟨_, rfl⟩

/-- Legal input gives a tick its events. -/
theorem State.Core.events_ok {s : State} {k : Tick} (h : s.Core)
    (hk : ∀ r ∈ k.requests, ∃ i, decode s.cfg (.agent r) = .ok i) : ∃ es, s.events k = .ok es := by
  have ask (p : Req → Bool) := fetchRequests_ok (l := k.requests.filter p)
    fun r hr => hk r (List.mem_filter.1 hr).1
  have acc (p : TxId → Bool) := fetchAccepts_ok (s := s) (l := (s.accepts k).filter p)
    fun x hx q hq => h.accepted_decodes (of_mem_accepts (List.mem_filter.1 hx).1).2.1 hq
  obtain ⟨calls, hcalls⟩ := ask Req.isCall
  obtain ⟨csrs, hcsrs⟩ := ask Req.isCsr
  obtain ⟨claims, hclaims⟩ := ask Req.isClaim
  obtain ⟨answers, hanswers⟩ := fetchResponses_ok (s := s) (l := s.responds k) fun x hx => by
    obtain ⟨hmem, hp, -, -⟩ := mem_responds.1 hx
    exact decodeResponse_ok ((mem_transactors _ x).1 hmem) ((h.owed hp).imp And.right And.right)
  obtain ⟨atS, hS⟩ := acc fun x => s.addresses x (.window .S)
  obtain ⟨atM, hM⟩ := acc fun x => s.addresses x (.window .M)
  obtain ⟨pages, hpages⟩ := acc fun x => !s.addresses x (.window .S) && !s.addresses x (.window .M)
  obtain ⟨files, hfiles⟩ := sequence_ok s.cfg.sameTickOrder csrs claims pages
  exact ⟨calls ++ (answers ++ (atS ++ (atM ++ files))), by
    rw [State.events, hcalls, hanswers, hS, hM, hcsrs, hclaims, hpages, hfiles]; rfl⟩

/-! ### No event is refused -/

/-- Why an instruction is refused. -/
theorem exec_refused {i : Instr} {s : State} {r : Refusal} (h : exec i s = .refused r) :
    (∃ q, callOf i = some q ∧ s.cfg.portOf q.address = none) ∨
      (∃ x op, responseOf i = some (x, op) ∧ (s.tx x).phase = .response ∧ (s.tx x).req.opcode ≠ op) ∨
      s.cfg.genmsi = .refused := by
  have called {q : BusA} (hi : callOf i = some q) (hq : callTransactor q s = .refused r) :
      ∃ q, callOf i = some q ∧ s.cfg.portOf q.address = none := by
    rcases callTransactor_cases hq with ⟨hp, -⟩ | ⟨p, -, -, ho⟩ | ⟨p, -, -, ho⟩
    · exact ⟨q, hi, hp⟩
    · cases ho
    · cases ho
  have responded {x : TxId} {op : BitVec 3} {f : Transactor → Result} (hi : responseOf i = some (x, op))
      (hx : takeResponse x op f s = .refused r) :
      ∃ x op, responseOf i = some (x, op) ∧ (s.tx x).phase = .response ∧ (s.tx x).req.opcode ≠ op := by
    rcases takeResponse_cases hx with ⟨-, ho⟩ | ⟨-, -, ho⟩ | ⟨hp, hop, -⟩
    · cases ho
    · cases ho
    · exact ⟨x, op, hi, hp, hop⟩
  have next {t : State} {P : Prop} (ht : exec i s = .next t) : P := by rw [ht] at h; cases h
  have access {j : Nat} {c : Ctx} {q : IReg} {op : CsrOp} {v : DWord} {P : Prop}
      (ha : csrAccess j c q op v s = .refused r) : P := by
    rcases csrAccess_cases ha with ⟨-, ho⟩ | ⟨f, -, ho⟩ <;> cases ho
  cases i with
  | get32 a => exact .inl (called rfl h)
  | put32 a w => exact .inl (called rfl h)
  | accessAck x => exact .inr (.inl (responded (f := fun _ => .ack) rfl h))
  | accessAckData x data =>
    exact .inr (.inl (responded (f := fun t => .ackData (fromLanes t.req.address data)) rfl h))
  | getGenmsi d =>
    cases hk : s.cfg.genmsi with
    | refused => exact .inr (.inr rfl)
    | modelled => exact next (exec_getGenmsi d hk)
  | putGenmsi d w =>
    cases hk : s.cfg.genmsi with
    | refused => exact .inr (.inr rfl)
    | modelled => exact next (exec_putGenmsi d w hk)
  | csrwEidelivery | csrsEidelivery | csrcEidelivery | csrwEithreshold | csrsEithreshold
  | csrcEithreshold | csrwEip | csrsEip | csrcEip | csrwEie | csrsEie | csrcEie => exact access h
  | claim j c =>
    cases hf : s.cfg.fileOf c with
    | none => exact next (exec_claim_none hf)
    | some f => exact next (exec_claim_some hf)
  | _ => exact next rfl

theorem wellFormed_callOf_port {c : Config} {i : Instr} {q : BusA} (hw : i.wellFormed c = true)
    (hi : callOf i = some q) : c.portOf q.address ≠ none := by
  cases i with
  | get32 a =>
    cases hi
    simp only [Instr.wellFormed, Bool.and_eq_true] at hw
    exact Option.isSome_iff_ne_none.1 hw.2
  | put32 a w =>
    cases hi
    simp only [Instr.wellFormed, Bool.and_eq_true] at hw
    exact Option.isSome_iff_ne_none.1 hw.2
  | _ => cases hi

/-- A response of a tick is that of a transactor that takes one. -/
theorem State.EventList.answered_at {s : State} {k : Tick} {calls answers rest : List Event}
    (h : s.EventList k calls answers rest) {e : Event} (he : e ∈ calls ++ (answers ++ rest)) {x : TxId}
    (ha : e.AnswersAt x) : x ∈ s.responds k ∧ s.Answered x e := by
  have hx := h.facts.answers x ⟨e, he, ha⟩
  refine ⟨hx, ?_⟩
  obtain ⟨i, op, rfl, hi⟩ := ha
  have hbus := kindOf_of_responseOf hi
  rcases List.mem_append.1 he with he | he
  · obtain ⟨j, q, hj, hc⟩ := h.call he
    cases hj; rw [responseOf_of_callOf hc] at hi; cases hi
  rcases List.mem_append.1 he with he | he
  · obtain ⟨y, -, j, hj, heq⟩ := h.isAnswer _ he
    cases heq
    obtain ⟨-, op', hop⟩ := responseOf_decode hj
    rw [hi] at hop; cases hop
    exact ⟨i, hj, rfl⟩
  · rcases h.other he with ⟨j, hj, hk⟩ | ⟨y, -, hv, -⟩
    · cases hj; rw [hbus] at hk; cases hk
    · cases hv

/-- The response a transactor is owed decodes to the one its request requires. -/
theorem State.Core.responseOf_owed {s : State} (h : s.Core) {x : TxId} (hp : (s.tx x).phase = .response)
    {i : Instr} (hi : decode s.cfg (.response x (s.tx x).owed) = .ok i) :
    responseOf i = some (x, (s.tx x).req.opcode) := by
  rw [decode, decodeResponse] at hi
  split at hi
  · cases hi
  · rcases h.owed hp with ⟨hop, ho⟩ | ⟨hop, ho⟩
    · rw [ho, if_neg (by decide), if_pos rfl] at hi; cases hi; rw [hop]; rfl
    · rw [ho, if_pos rfl] at hi; cases hi; rw [hop]; rfl

/-- The events of a tick are not refused: calls are to ports, responses are those the requests require. -/
theorem runEvents_not_refused {s : State} {k : Tick} (hs : s.Core) (hgen : s.cfg.genmsi = .modelled)
    {es : List Event} {u : State} (hes : ∀ e ∈ es, e.Of s k)
    (hans : ∀ e ∈ es, ∀ x, e.AnswersAt x → x ∈ s.responds k ∧ s.Answered x e) (hcfg : u.cfg = s.cfg)
    (htx : ∀ x ∈ s.responds k, (u.tx x).phase = .response → u.tx x = s.tx x) (r : Refusal) :
    runEvents es u ≠ .refused r := by
  induction es generalizing u with
  | nil => exact nofun
  | cons e rest ih =>
    have he := hes e List.mem_cons_self
    have one {v : Option TxId} {i : Instr} (hv : e = .run v i) : exec i u ≠ .refused r := by
      intro hx
      rcases exec_refused hx with ⟨q, hq, hport⟩ | ⟨x, op, hop, hp, hne⟩ | hg
      · exact wellFormed_callOf_port (he.wellFormed v i hv) hq (hcfg ▸ hport)
      · cases v with
        | some y => exact he.atSlave y i hv (kindOf_of_responseOf hop)
        | none =>
          obtain ⟨hmem, j, hj, hej⟩ := hans e List.mem_cons_self x ⟨i, op, hv, hop⟩
          rw [hv] at hej; cases hej
          have hsx := hs.responseOf_owed (mem_responds.1 hmem).2.1 hj
          rw [hop] at hsx
          rw [htx x hmem hp] at hne
          exact hne (Prod.mk.inj (Option.some.inj hsx)).2.symm
      · rw [hcfg, hgen] at hg; cases hg
    have hfirst : runEvent e u ≠ .refused r := by
      cases e with
      | away x => exact nofun
      | run v i =>
        have := one rfl
        cases v with
        | none => exact this
        | some x =>
          rw [runEvent]
          cases hi : exec i u with
          | next t => exact nofun
          | fault f => exact nofun
          | refused r' => intro hr; cases hr; exact this hi
    rw [runEvents]
    cases hw : runEvent e u with
    | fault f => exact nofun
    | refused r' => intro hr; cases hr; exact hfirst hw
    | next w =>
      refine ih (fun e' he' => hes e' (List.mem_cons_of_mem _ he'))
        (fun e' he' => hans e' (List.mem_cons_of_mem _ he')) ((runEvent_cfg hw).trans hcfg) fun x hx hp => ?_
      rcases runEvent_tx hw he.atSlave x with ⟨-, hv⟩ | ⟨hv, -⟩ | ⟨-, -, q, hv⟩ | ⟨-, -, q, hv⟩
      · rw [hv] at hp ⊢; exact htx x hx hp
      · have hreq := (of_mem_accepts (he.accepted x hv).1).2.1
        rw [(mem_responds.1 hx).2.1] at hreq; cases hreq
      · rw [hv] at hp; cases hp
      · rw [hv] at hp; cases hp

/-- Settles O11: the input decodes, no port is overrun, and no event is refused. -/
theorem legalInputIsNeverRefused : Obligations.LegalInputIsNeverRefused := by
  intro s e hinv hgen hlegal hstep
  obtain ⟨hreq, hover⟩ := Bool.and_eq_true_iff.1 hlegal
  have hcore : s.enterTick.Core := ((State.inv_iff_core _).1 (s.inv_enterTick.trans hinv)).1
  have hdec (r : Req) (hr : r ∈ s.nextTick.requests) : ∃ i, decode s.cfg (.agent r) = .ok i := by
    have hsome := List.all_eq_true.1 hreq r hr
    cases h : decode s.cfg (.agent r) with
    | ok i => exact ⟨i, rfl⟩
    | error => rw [h] at hsome; cases hsome
  rw [step, State.tick] at hstep
  split at hstep
  · cases hstep
  · cases hx : s.enterTick.expired s.nextTick with
    | some x => rw [State.runTick, hx] at hstep; cases hstep
    | none =>
      obtain ⟨es, hes⟩ := hcore.events_ok hdec
      rw [State.runTick_eq hx (by simpa using hover) hes] at hstep
      obtain ⟨calls, answers, rest, rfl, hlist⟩ := State.events_spec hes
      have hrun := runEvents_not_refused hcore hgen (hlist.of hcore.valid) (fun e he x => hlist.answered_at he)
        (s.enterTick.countDown_cfg s.nextTick) (fun x hx _ => by
          rw [State.tx_countDown, if_neg fun hw => (mem_waits.1 hw).2.2.2 hx]) e
      split at hstep
      · cases hstep
      · cases hstep
      · rename_i r hr; cases hstep; exact hrun hr

end Sys2Proof.Machine
end

section
/-! An access to the supervisor domain's window, run in two states that agree on what it may depend on (R32,
R40, R94, R245). -/

namespace Sys2Proof.Machine

-- one proof at a time: the memory the check may take bounds the number of threads
set_option Elab.async false

/-! ### What the window sees -/

section
variable {s u : State}

theorem State.sameForSupervisor.dom (h : State.sameForSupervisor s u) : u.dom .S = s.dom .S := h.2.1.symm

theorem State.sameForSupervisor.owned (h : State.sameForSupervisor s u) (n : Nat) :
    u.owned .S n = s.owned .S n := by
  obtain ⟨hcfg, -, hdeleg, -⟩ := h
  rw [State.owned, State.owner, ← hcfg, ← hdeleg]; rfl

theorem State.sameForSupervisor.source (h : State.sameForSupervisor s u) (n : Nat) :
    u.source .S n = s.source .S n := by
  rw [State.source, h.dom]; rfl

theorem State.sameForSupervisor.raw (h : State.sameForSupervisor s u) {n : Nat} (ho : s.owned .S n = true) :
    u.rawInput.getLsbD n = s.rawInput.getLsbD n :=
  (h.2.2.2 n ((s.owned_iff .S n).1 ho).2.2).symm

/-! ### What a write does in both states -/

/-- `s'` and `u'` are `s` and `u` with the same new supervisor domain, whose copies of sources that the domain
does not own are the old ones. -/
def State.Twin (s u s' u' : State) : Prop :=
  ∃ x : Domain, s' = { s with s := x } ∧ u' = { u with s := x } ∧
    ∀ n, s.owned .S n = false → tblGet Source.zero x.sources n = tblGet Source.zero s.s.sources n

theorem State.Twin.refl (h : State.sameForSupervisor s u) : s.Twin u s u :=
  ⟨s.s, rfl, by rw [h.2.1], fun _ _ => rfl⟩

theorem State.Twin.same {s' u' : State} (ht : s.Twin u s' u') (h : State.sameForSupervisor s u) :
    State.sameForSupervisor s' u' := by
  obtain ⟨x, rfl, rfl, -⟩ := ht
  exact ⟨h.1, rfl, h.2.2.1, h.2.2.2⟩

theorem State.Twin.trans {s' u' s'' u'' : State} (h : s.Twin u s' u') (h' : s'.Twin u' s'' u'') :
    s.Twin u s'' u'' := by
  obtain ⟨x, rfl, rfl, hx⟩ := h
  obtain ⟨y, rfl, rfl, hy⟩ := h'
  exact ⟨y, rfl, rfl, fun n hn => (hy n hn).trans (hx n hn)⟩

theorem State.Twin.setDom (s u : State) {x y : Domain} (hxy : y = x) (hsrc : x.sources = s.s.sources) :
    s.Twin u (s.setDom .S x) (u.setDom .S y) :=
  ⟨x, rfl, hxy ▸ rfl, fun _ _ => by rw [hsrc]⟩

theorem State.Twin.modifyOwned (h : State.sameForSupervisor s u) (n : Nat) {f g : Source → Source}
    (hfg : s.owned .S n = true → g (s.source .S n) = f (s.source .S n)) :
    s.Twin u (s.modifyOwned .S n f) (u.modifyOwned .S n g) := by
  rw [State.modifyOwned, State.modifyOwned, h.owned]
  split
  · rename_i ho
    rw [h.source, hfg ho, State.setSource, State.setSource, h.dom]
    refine ⟨_, rfl, rfl, fun m hm => ?_⟩
    show tblGet Source.zero (tblSet Source.zero s.s.sources n _) m = _
    rw [tblGet_tblSet, if_neg]
    rintro rfl
    rw [ho] at hm; cases hm
  · exact .refl h

theorem State.Twin.forBits (h : State.sameForSupervisor s u) (k : Bank) (w : Word) {f : Nat → State → State}
    (hf : ∀ n a b, State.sameForSupervisor a b → a.Twin b (f n a) (f n b)) :
    s.Twin u (forBits k w f s) (forBits k w f u) := by
  unfold Machine.forBits
  generalize List.range 32 = l
  induction l generalizing s u with
  | nil => exact .refl h
  | cons i rest ih =>
    rw [List.foldl_cons, List.foldl_cons]
    split
    · have one := hf (bitNumber k i) s u h
      exact one.trans (ih (one.same h))
    · exact ih h

theorem State.Twin.setPendingReq (h : State.sameForSupervisor s u) (n : Nat) :
    s.Twin u (s.setPendingReq .S n) (u.setPendingReq .S n) := .modifyOwned h n fun _ => rfl

theorem State.Twin.clearPendingReq (h : State.sameForSupervisor s u) (n : Nat) :
    s.Twin u (s.clearPendingReq .S n) (u.clearPendingReq .S n) :=
  .modifyOwned h n fun ho => by rw [h.raw ho]

theorem State.Twin.setEnable (h : State.sameForSupervisor s u) (n : Nat) :
    s.Twin u (s.setEnable .S n) (u.setEnable .S n) := .modifyOwned h n fun _ => rfl

theorem State.Twin.clearEnable (h : State.sameForSupervisor s u) (n : Nat) :
    s.Twin u (s.clearEnable .S n) (u.clearEnable .S n) := .modifyOwned h n fun _ => rfl

theorem State.Twin.sourcecfgWrite (h : State.sameForSupervisor s u) (n : Nat) (w : Word) :
    s.Twin u (s.sourcecfgWrite .S n w) (u.sourcecfgWrite .S n w) := by
  by_cases hn : n = 0 ∨ s.cfg.nSrc.toNat < n
  · rw [State.sourcecfgWrite_none s .S w hn, State.sourcecfgWrite_none u .S w (h.1 ▸ hn)]; exact .refl h
  · rw [State.sourcecfgWrite_S s w hn, State.sourcecfgWrite_S u w (h.1 ▸ hn)]
    exact .modifyOwned h n fun ho => by rw [h.raw ho]

/-! ### What a read answers in both states -/

theorem bitmapWord_congr {k : Bank} {p q : Nat → Bool} (h : ∀ n, p n = q n) : bitmapWord k p = bitmapWord k q :=
  congrArg (bitmapWord k) (funext h)

theorem State.sameForSupervisor.setipRead (h : State.sameForSupervisor s u) (k : Bank) :
    u.setipRead .S k = s.setipRead .S k :=
  bitmapWord_congr fun n => by rw [h.owned, h.source]

theorem State.sameForSupervisor.setieRead (h : State.sameForSupervisor s u) (k : Bank) :
    u.setieRead .S k = s.setieRead .S k :=
  bitmapWord_congr fun n => by rw [h.owned, h.source]

theorem State.sameForSupervisor.inClripRead (h : State.sameForSupervisor s u) (k : Bank) :
    u.inClripRead .S k = s.inClripRead .S k :=
  bitmapWord_congr fun n => by
    rw [h.owned, h.source]
    cases ho : s.owned .S n with
    | false => rfl
    | true => rw [h.raw ho]

theorem State.sameForSupervisor.domaincfgRead (h : State.sameForSupervisor s u) :
    u.domaincfgRead .S = s.domaincfgRead .S := by
  rw [State.domaincfgRead, State.domaincfgRead, h.dom, h.1]

theorem State.sameForSupervisor.sourcecfgRead (h : State.sameForSupervisor s u) (n : Nat) :
    u.sourcecfgRead .S n = s.sourcecfgRead .S n := by
  rw [State.sourcecfgRead, State.sourcecfgRead, h.source, ← h.1, ← h.2.2.1]

theorem State.sameForSupervisor.targetRead (h : State.sameForSupervisor s u) (n : Nat) :
    u.targetRead .S n = s.targetRead .S n := by
  rw [State.targetRead, State.targetRead, h.owned, h.source, h.dom]

theorem State.sameForSupervisor.genmsiRead (h : State.sameForSupervisor s u) :
    u.genmsiRead .S = s.genmsiRead .S := by
  rw [State.genmsiRead, State.genmsiRead, h.dom]

end

/-! ### Every access to the window -/

/-- Instruction `i` answers `t` in `s`, and in `u` the same answer with the same change of the domain. -/
def SameAccess (i : Instr) (s u t : State) : Prop :=
  ∃ s' u' a, t = { s' with answer := a } ∧ exec i u = .next { u' with answer := a } ∧ s.Twin u s' u'

section
variable {i : Instr} {s u t : State}

theorem SameAccess.read {w w' : Word} (h : State.sameForSupervisor s u) (ht : exec i s = .next t)
    (hs : exec i s = .next (s.answerData w)) (hu : exec i u = .next (u.answerData w')) (hw : w' = w) :
    SameAccess i s u t := by
  rw [hs] at ht; cases ht; subst hw
  exact ⟨s, u, .data w', rfl, hu, .refl h⟩

theorem SameAccess.write {s' u' : State} (ht : exec i s = .next t) (hs : exec i s = .next s'.acknowledge)
    (hu : exec i u = .next u'.acknowledge) (hsu : s.Twin u s' u') : SameAccess i s u t := by
  rw [hs] at ht; cases ht
  exact ⟨s', u', .ack, rfl, hu, hsu⟩

theorem exec_sameAccess (hi : windowOf i = some .S) (h : State.sameForSupervisor s u)
    (ht : exec i s = .next t) : SameAccess i s u t := by
  cases i with
  | getDomaincfg => cases hi; exact .read h ht rfl rfl h.domaincfgRead
  | getSourcecfg d n => cases hi; exact .read h ht rfl rfl (h.sourcecfgRead _)
  | getTargets d n => cases hi; exact .read h ht rfl rfl (h.targetRead _)
  | getSetip d k => cases hi; exact .read h ht rfl rfl (h.setipRead k)
  | getSetie d k => cases hi; exact .read h ht rfl rfl (h.setieRead k)
  | getInClrip d k => cases hi; exact .read h ht rfl rfl (h.inClripRead k)
  | getMmsiaddrcfg | getMmsiaddrcfgh | getSmsiaddrcfg | getSmsiaddrcfgh | getSetipnum | getClripnum
  | getSetienum | getClrienum | getSetipnumLe | getSetipnumBe | getClrie | getRozero | getReserved =>
    cases hi; exact .read h ht rfl rfl rfl
  | getGenmsi d =>
    cases hi
    cases hk : s.cfg.genmsi with
    | modelled => exact .read h ht (exec_getGenmsi .S hk) (exec_getGenmsi .S (h.1 ▸ hk)) h.genmsiRead
    | refused => rw [(exec_genmsi_refused .S 0#32 hk).1] at ht; cases ht
  | putGenmsi d w =>
    cases hi
    cases hk : s.cfg.genmsi with
    | modelled =>
      refine .write ht (exec_putGenmsi .S w hk) (exec_putGenmsi .S w (h.1 ▸ hk))
        (.setDom s u (by rw [h.dom, h.1]) ((s.dom .S).writeGenmsi_frame s.cfg w).1)
    | refused => rw [(exec_genmsi_refused .S w hk).2] at ht; cases ht
  | putDomaincfg d w => cases hi; exact .write ht rfl rfl (.setDom s u (by rw [h.dom, h.1]) rfl)
  | putSourcecfg d n w => cases hi; exact .write ht rfl rfl (.sourcecfgWrite h _ w)
  | putTargets d n w =>
    cases hi; exact .write ht rfl rfl (.modifyOwned h _ fun _ => by rw [h.dom, h.1])
  | putSetipnum d w => cases hi; exact .write ht rfl rfl (.setPendingReq h _)
  | putClripnum d w => cases hi; exact .write ht rfl rfl (.clearPendingReq h _)
  | putSetienum d w => cases hi; exact .write ht rfl rfl (.setEnable h _)
  | putClrienum d w => cases hi; exact .write ht rfl rfl (.clearEnable h _)
  | putSetip d k w => cases hi; exact .write ht rfl rfl (.forBits h k w fun n _ _ hab => .setPendingReq hab n)
  | putInClrip d k w =>
    cases hi; exact .write ht rfl rfl (.forBits h k w fun n _ _ hab => .clearPendingReq hab n)
  | putSetie d k w => cases hi; exact .write ht rfl rfl (.forBits h k w fun n _ _ hab => .setEnable hab n)
  | putClrie d k w => cases hi; exact .write ht rfl rfl (.forBits h k w fun n _ _ hab => .clearEnable hab n)
  | putSetipnumLe d w =>
    cases hi
    refine .write ht (exec_putSetipnumLe .S w s) (exec_putSetipnumLe .S w u) ?_
    rw [h.dom]
    split
    · exact .refl h
    · exact .setPendingReq h _
  | putSetipnumBe d w =>
    cases hi
    refine .write ht (exec_putSetipnumBe .S w s) (exec_putSetipnumBe .S w u) ?_
    rw [h.dom]
    split
    · exact .setPendingReq h _
    · exact .refl h
  | putMmsiaddrcfg | putMmsiaddrcfgh | putSmsiaddrcfg | putSmsiaddrcfgh | putRozero | putReserved =>
    cases hi; exact .write ht rfl rfl (.refl h)
  | _ => cases hi

end

/-- Settles O60: both states take the same new domain and the same answer. -/
theorem supervisorWindowSeesOnlyItsOwn : Obligations.SupervisorWindowSeesOnlyItsOwn := by
  intro i s u t hi h ht
  obtain ⟨s', u', a, rfl, hu, x, rfl, rfl, hx⟩ := exec_sameAccess hi h ht
  refine ⟨_, hu, rfl, ⟨h.1, rfl, h.2.2.1, h.2.2.2⟩, rfl, fun n hn => ?_⟩
  rw [h.owned] at hn
  show tblGet Source.zero x.sources n = tblGet Source.zero u.s.sources n
  rw [hx n hn, h.2.1]

end Sys2Proof.Machine
end

section
/-! The order of issue (R294, log entry 5): a cause that stays owed keeps its ticket, and is passed over only
by causes whose ticket is not larger, of which there are ever fewer once the count of issues has passed it. -/

namespace Sys2Proof.Machine

-- one proof at a time: the memory the check may take bounds the number of threads
set_option Elab.async false

/-! ### Tickets -/

theorem mem_of_lookup {l : List (Cause × Nat)} {c : Cause} {n : Nat} (h : l.lookup c = some n) : (c, n) ∈ l := by
  obtain ⟨a, b, rfl, -⟩ := List.lookup_eq_some_iff.1 h
  simp

theorem lookup_of_mem {l : List (Cause × Nat)} (hl : (l.map Prod.fst).Nodup) {c : Cause} {n : Nat}
    (h : (c, n) ∈ l) : l.lookup c = some n := by
  obtain ⟨a, b, rfl⟩ := List.append_of_mem h
  refine List.lookup_eq_some_iff.2 ⟨a, b, rfl, fun p hp => bne_iff_ne.2 fun hcp => ?_⟩
  rw [List.map_append, List.map_cons, List.nodup_append] at hl
  exact hl.2.2 p.1 (List.mem_map_of_mem hp) c List.mem_cons_self hcp.symm

/-- How many tickets are not above a number. -/
def ticketsUpTo (n : Nat) (l : List (Cause × Nat)) : Nat := (l.filter fun e => decide (e.2 ≤ n)).length

theorem ticketsUpTo_le (n : Nat) (l : List (Cause × Nat)) : ticketsUpTo n l ≤ l.length :=
  List.length_filter_le _ l

theorem ticketsUpTo_pos {n : Nat} {l : List (Cause × Nat)} {c : Cause} (h : (c, n) ∈ l) : 1 ≤ ticketsUpTo n l :=
  List.length_pos_of_mem (List.mem_filter.2 ⟨h, decide_eq_true (Nat.le_refl n)⟩)

section
variable {issues k n : Nat} {old : List (Cause × Nat)} {l : List Cause}

/-- A cause that stays keeps its ticket. -/
theorem mem_assignTickets_of_mem (hold : (old.map Prod.fst).Nodup) {c : Cause} (hc : c ∈ l)
    (h : (c, n) ∈ old) : (c, n) ∈ assignTickets issues k old l := by
  rw [← assignTickets_fst issues k old l] at hc
  obtain ⟨⟨c', m⟩, hm, rfl⟩ := List.mem_map.1 hc
  have hlook := lookup_of_mem hold h
  rcases (of_mem_assignTickets hm).2 with hs | ⟨hs, -⟩
  · have hs : old.lookup c' = some m := hs
    rw [hlook] at hs; cases hs; exact hm
  · rw [hlook] at hs; cases hs

/-- Once the count of issues has passed a number no ticket up to it is drawn any more. -/
theorem ticketsUpTo_assignTickets (hl : l.Nodup) (hn : n < issues) :
    ticketsUpTo n (assignTickets issues k old l) ≤ ticketsUpTo n old := by
  have hnd : (assignTickets issues k old l).Nodup := by
    refine List.Nodup.of_map Prod.fst ?_
    rwa [assignTickets_fst]
  refine ((hnd.filter _).subperm fun e he => ?_).length_le
  obtain ⟨hmem, hle⟩ := List.mem_filter.1 he
  refine List.mem_filter.2 ⟨?_, hle⟩
  rcases (of_mem_assignTickets hmem).2 with hs | ⟨-, hs⟩
  · exact mem_of_lookup hs
  · have := of_decide_eq_true hle; omega

end

/-- The ticket of an issued cause is used. -/
theorem ticketsUpTo_used {n : Nat} {l : List (Cause × Nat)} {e : Cause × Nat} (he : e ∈ l) (hn : e.2 ≤ n) :
    ticketsUpTo n (l.filter fun f => f.1 != e.1) < ticketsUpTo n l := by
  rw [ticketsUpTo, ticketsUpTo, List.filter_filter]
  have hcomm : (l.filter fun f => decide (f.2 ≤ n) && f.1 != e.1) =
      (l.filter fun f => decide (f.2 ≤ n)).filter fun f => f.1 != e.1 := by
    rw [List.filter_filter]
    exact List.filter_congr fun f _ => Bool.and_comm _ _
  rw [hcomm, List.length_filter_lt_length_iff_exists]
  exact ⟨e, List.mem_filter.2 ⟨he, decide_eq_true hn⟩, by simp⟩

/-! ### What is owed -/

theorem State.nodup_want (s : State) (d : Dom) : (s.want d).Nodup := by
  have hdue : (s.due d).Nodup := List.nodup_range.filter _
  refine List.nodup_append.2 ⟨hdue.map fun a b h => Cause.source.inj h, ?_, ?_⟩
  · split
    · exact List.nodup_singleton _
    · exact List.nodup_nil
  · rintro c hc c' hc' rfl
    obtain ⟨n, -, rfl⟩ := List.mem_map.1 hc
    split at hc'
    · cases List.mem_singleton.1 hc'
    · cases hc'

/-- At most 1024 source numbers and `genmsi`. -/
theorem State.length_want (s : State) (d : Dom) : (s.want d).length ≤ 1025 := by
  have hdue : (s.due d).length ≤ s.cfg.nSrc.toNat + 1 := by
    refine (List.length_filter_le _ _).trans ?_
    rw [List.length_range]
  have hn := s.cfg.nSrc.isLt
  rw [State.want, List.length_append, List.length_map]
  split
  · rw [List.length_singleton]; omega
  · rw [List.length_nil]; omega

/-! ### A tick and its tickets -/

/-- The model's own fields of a domain. -/
def State.log (s : State) (d : Dom) : Nat × List (Cause × Nat) := ((s.dom d).issues, (s.dom d).tickets)

theorem State.log_setDom (s : State) (d : Dom) {x : Domain} (hi : x.issues = (s.dom d).issues)
    (ht : x.tickets = (s.dom d).tickets) (e : Dom) : (s.setDom d x).log e = s.log e := by
  by_cases he : e = d
  · subst he; rw [State.log, State.dom_setDom_same, hi, ht]; rfl
  · rw [State.log, State.dom_setDom_other s d e x he]; rfl

theorem State.log_setTx (s : State) (x : TxId) (v : Transactor) (e : Dom) : (s.setTx x v).log e = s.log e := by
  rcases x with (d | ⟨h, f⟩) | d
  · exact s.log_setDom d (x := { s.dom d with port := v }) rfl rfl e
  · exact congrArg (fun y : Domain => (y.issues, y.tickets)) (s.setHart_dom h _ e)
  · exact s.log_setDom d (x := { s.dom d with msi := v }) rfl rfl e

theorem State.log_modifyOwned (s : State) (d : Dom) (n : Nat) (f : Source → Source) (e : Dom) :
    (s.modifyOwned d n f).log e = s.log e := by
  obtain ⟨tb, htb⟩ := s.modifyOwned_frame d n f
  rw [htb]
  exact s.log_setDom d (x := { s.dom d with sources := tb }) rfl rfl e

theorem State.log_sourcecfgWrite (s : State) (d : Dom) (n : Nat) (w : Word) (e : Dom) :
    (s.sourcecfgWrite d n w).log e = s.log e := by
  by_cases h0 : n = 0 ∨ s.cfg.nSrc.toNat < n
  · rw [s.sourcecfgWrite_none d w h0]
  · cases d with
    | M =>
      obtain ⟨tm, ts, b, hfr⟩ := s.sourcecfgWrite_M_frame n w h0
      rw [hfr]
      cases e <;> rfl
    | S => rw [s.sourcecfgWrite_S w h0]; exact s.log_modifyOwned .S n _ e

theorem State.log_acknowledge (s : State) (e : Dom) : s.acknowledge.log e = s.log e := by
  rw [State.log, s.acknowledge_dom]; rfl

/-- No instruction counts an issue or touches a ticket. -/
theorem Effect.log {s t : State} {i : Instr} (he : Effect s i t) (e : Dom) : t.log e = s.log e := by
  have hart (j : Nat) (x : Hart) (u : State) : (u.setHart j x).log e = u.log e :=
    congrArg (fun y : Domain => (y.issues, y.tickets)) (u.setHart_dom j x e)
  have word (w : Word) (u : State) (h : ∀ d, u.dom d = s.dom d) : u.acknowledge.log e = s.log e := by
    rw [State.log_acknowledge, State.log, h]; rfl
  cases he with
  | busy => rfl
  | begins => exact s.log_setTx _ _ e
  | unawaited => rfl
  | taken => exact s.log_setTx _ _ e
  | answered w hi => rw [State.log, s.answerData_dom]; rfl
  | ignored hi => exact s.log_acknowledge e
  | config d w hi =>
    rw [State.log_acknowledge]
    exact s.log_setDom d (x := (s.dom d).writeCfg (s.cfg.dmKind d) w) rfl rfl e
  | mmsiaddrcfg w hi => exact word w _ fun d => by cases d <;> rfl
  | mmsiaddrcfgh w hi => exact word w _ fun d => by cases d <;> rfl
  | smsiaddrcfg w hi => exact word w _ fun d => by cases d <;> rfl
  | smsiaddrcfgh w hi => exact word w _ fun d => by cases d <;> rfl
  | named d n => rw [State.log_acknowledge]; exact s.log_modifyOwned d n _ e
  | bits d k w hi hg hchange =>
    rw [State.log_acknowledge]
    refine (forBits_keeps (P := fun u => u.rawInput = s.rawInput ∧ u.log e = s.log e) (fun n u hu => ?_)
      ⟨rfl, rfl⟩).2
    rw [hchange n u hu.1, State.log_modifyOwned, State.modifyOwned_rawInput]
    exact hu
  | sourcecfg d n w => rw [State.log_acknowledge]; exact s.log_sourcecfgWrite d _ w e
  | genmsi d w hi hk =>
    rw [State.log_acknowledge]
    refine s.log_setDom d ?_ ?_ e
    · rw [Domain.writeGenmsi]; split <;> rfl
    · rw [Domain.writeGenmsi]; split <;> rfl
  | illegal j => exact hart j _ s
  | access j r op v hi hf => exact (hart j _ _).trans (hart j _ s)
  | claimedNone j => exact hart j _ s
  | claimed j c hi hf => exact (hart j _ _).trans (hart j _ s)
  | received j f w hi => rw [State.log_acknowledge]; exact hart j _ s

theorem runEvent_log {ev : Event} {s t : State} (h : runEvent ev s = .next t) (e : Dom) : t.log e = s.log e := by
  rcases runEvent_cases h with ⟨i, -, hi⟩ | ⟨x, i, u, -, hi, rfl⟩ | ⟨x, -, rfl⟩
  · exact hi.log e
  · exact (u.log_setTx x _ e).trans (hi.log e)
  · exact (s.acknowledge.log_setTx x _ e).trans (s.log_acknowledge e)

theorem State.log_settle (s : State) (e : Dom) : s.settle.log e = s.log e := by
  cases e <;> rfl

/-- What a tick without reset does to a domain's tickets is the issue step of a state with the tickets of
before. -/
theorem step_issueStep {s t : State} (h : step s = .next t) (hr : s.nextTick.reset = false) (d : Dom) :
    ∃ (w : State) (base : Addr) (idle : Bool), w.log d = s.log d ∧ t.dom d = (w.issueStep d base idle).dom d ∧
      t.want d = (w.issueStep d base idle).want d := by
  rcases step_cases h with ⟨hr', -⟩ | ⟨-, -, -, es, v, -, hrun, rfl⟩
  · rw [hr] at hr'; cases hr'
  have hv (e : Dom) : v.settle.log e = s.log e := by
    rw [State.log_settle]
    refine (runEvents_keeps es (P := fun u => u.log e = s.log e)
      (fun ev _ a b ha hab => (runEvent_log hab e).trans ha) ?_ hrun)
    refine State.countDown_keeps (P := fun u => u.log e = s.log e) _ _
      (fun u x _ hu => (u.log_setTx x _ e).trans hu) ?_
    cases e <;> rfl
  rw [State.endTick_eq]
  set u := v.settle.issueStep .M (v.settle.levelBase .M) (s.enterTick.msiIdle .M)
  cases d with
  | M =>
    have hother := u.issueStep_other (d := .S) (e := .M) (by decide)
      (s.enterTick.levelBase .S) (s.enterTick.msiIdle .S)
    obtain ⟨x, k, hf, -⟩ := u.issueStep_frame .S (s.enterTick.levelBase .S) (s.enterTick.msiIdle .S)
    exact ⟨v.settle, _, _, hv .M, hother,
      (State.want_congr .M (by rw [hf]; exact u.setDom_cfg _ x) (by rw [hf]; exact u.setDom_deleg _ x) hother).1⟩
  | S =>
    refine ⟨u, _, _, ?_, rfl, rfl⟩
    rw [State.log, v.settle.issueStep_other (d := .M) (e := .S) (by decide)]
    exact hv .S

/-! ### Fairness -/

/-- While a cause with ticket `n` waits: the domain has not yet issued more than `n` MSIs, or the issues it can
still make before that cause, one for each ticket up to `n`, stay within a bound. -/
def State.Bounded (s : State) (d : Dom) (n bound : Nat) : Prop :=
  (s.dom d).issues ≤ n ∨ n < (s.dom d).issues ∧ (s.dom d).issues + ticketsUpTo n (s.dom d).tickets ≤ bound

section
variable {s : State} {d : Dom} {n bound : Nat}

theorem State.length_tickets (h : s.Ticketed d) : (s.dom d).tickets.length ≤ 1025 := by
  have hl := congrArg List.length h
  rw [List.length_map] at hl
  rw [hl]
  split
  · exact s.length_want d
  · exact Nat.zero_le _

theorem State.nodup_tickets (h : s.Ticketed d) : ((s.dom d).tickets.map Prod.fst).Nodup := by
  rw [h]
  split
  · exact s.nodup_want d
  · exact List.nodup_nil

/-- An issue step that leaves cause `c` owed leaves its ticket and the bound. -/
theorem State.bounded_issueStep {base : Addr} {idle : Bool} (hdm : ((s.issueStep d base idle).dom d).dm = true)
    {c : Cause} (hc : c ∈ (s.issueStep d base idle).want d) (hold : ((s.dom d).tickets.map Prod.fst).Nodup)
    (hcn : (c, n) ∈ (s.dom d).tickets) (hb : s.Bounded d n bound) (hn : n + 1026 ≤ bound) :
    (c, n) ∈ ((s.issueStep d base idle).dom d).tickets ∧ (s.issueStep d base idle).Bounded d n bound := by
  have htick : (s.issueStep d base idle).Ticketed d := State.ticketed_issueStep
  have hlen := State.length_tickets htick
  have hcount := ticketsUpTo_le n ((s.issueStep d base idle).dom d).tickets
  rw [State.dm_issueStep] at hdm
  rcases s.issueStep_cases d base idle with ⟨hno, -⟩ | ⟨-, -, h⟩ | ⟨-, -, e, he, -, hmin, h⟩
  · rw [hdm] at hno; cases hno
  · rw [h] at hc hcount hlen ⊢
    rw [State.want_drawTickets] at hc
    rw [State.Bounded, State.drawTickets_issues, State.drawTickets_tickets]
    refine ⟨mem_assignTickets_of_mem hold hc hcn, hb.imp_right fun ⟨hlt, hle⟩ => ⟨hlt, ?_⟩⟩
    have := ticketsUpTo_assignTickets (k := s.freeIndex) (old := (s.dom d).tickets) (s.nodup_want d) hlt
    omega
  · rw [h] at hc hcount hlen ⊢
    rw [State.want_issue, State.want_drawTickets, List.mem_filter, bne_iff_ne] at hc
    rw [State.tickets_issue, State.drawTickets_tickets] at hcount hlen
    rw [State.drawTickets_tickets] at he hmin
    have hkeep := mem_assignTickets_of_mem (issues := (s.dom d).issues) (k := s.freeIndex) hold hc.1 hcn
    have hused := ticketsUpTo_used (n := n) he (hmin _ hkeep)
    rw [State.Bounded, State.issues_issue, State.drawTickets_issues, State.tickets_issue, State.drawTickets_tickets]
    refine ⟨List.mem_filter.2 ⟨hkeep, bne_iff_ne.2 hc.2⟩, ?_⟩
    rcases hb with hle | ⟨hlt, hle⟩
    · by_cases hnext : (s.dom d).issues + 1 ≤ n
      · exact .inl hnext
      · exact .inr ⟨by omega, by omega⟩
    · have := ticketsUpTo_assignTickets (k := s.freeIndex) (old := (s.dom d).tickets) (s.nodup_want d) hlt
      exact .inr ⟨by omega, by omega⟩

end

/-- Settles O45: along the run the cause keeps the ticket it holds at its start, and the bound is kept. -/
theorem memberThatStaysIsChosen : Obligations.MemberThatStaysIsChosen := by
  intro run k d c hinv hsteps howed
  have inv (i : Nat) (hi : i ≤ k) : (run i).inv = true := by
    induction i with
    | zero => exact hinv
    | succ i ih => exact everyStepKeepsTheInvariant _ _ (ih (by omega)) (hsteps i hi).2
  have ticketed (i : Nat) (hi : i ≤ k) : (run i).Ticketed d := ((State.inv_iff_core _).1 (inv i hi)).2.2 d
  obtain ⟨n, hcn⟩ : ∃ n, (c, n) ∈ ((run 0).dom d).tickets := by
    have hc := (howed 0 (Nat.zero_le k)).2
    have ht := ticketed 0 (Nat.zero_le k)
    rw [State.Ticketed, if_pos (howed 0 (Nat.zero_le k)).1] at ht
    rw [← ht] at hc
    obtain ⟨⟨c', n⟩, hm, rfl⟩ := List.mem_map.1 hc
    exact ⟨n, hm⟩
  refine ⟨n, hcn, ?_⟩
  have key (i : Nat) (hi : i ≤ k) : (c, n) ∈ ((run i).dom d).tickets ∧
      (run i).Bounded d n (max ((run 0).dom d).issues n + 1026) := by
    induction i with
    | zero =>
      refine ⟨hcn, ?_⟩
      have hlen := State.length_tickets (ticketed 0 hi)
      have hcount := ticketsUpTo_le n ((run 0).dom d).tickets
      by_cases hle : ((run 0).dom d).issues ≤ n
      · exact .inl hle
      · exact .inr ⟨by omega, by omega⟩
    | succ i ih =>
      obtain ⟨hmem, hb⟩ := ih (by omega)
      obtain ⟨hr, hstep⟩ := hsteps i hi
      obtain ⟨hdm, hc⟩ := howed (i + 1) hi
      obtain ⟨w, base, idle, hlog, hdom, hwant⟩ := step_issueStep hstep hr d
      obtain ⟨hiss, htk⟩ := Prod.mk.inj hlog
      rw [hdom] at hdm ⊢
      rw [hwant] at hc
      have hnd := State.nodup_tickets (ticketed i (by omega))
      rw [← htk] at hnd hmem
      rw [State.Bounded, ← hiss, ← htk] at hb
      obtain ⟨h1, h2⟩ := State.bounded_issueStep hdm hc hnd hmem hb (by omega)
      rw [State.Bounded, hdom]
      exact ⟨h1, h2⟩
  obtain ⟨hmem, hb⟩ := key k (Nat.le_refl k)
  have hpos := ticketsUpTo_pos hmem
  rcases hb with hle | ⟨-, hle⟩ <;> omega

end Sys2Proof.Machine
end
